-- ==== Sys2Proof/Word.lean ====
section
/-! DEFINITION. The word types of the controller and its plainest arithmetic (spec/00_scope.md R10, R11, R13).
An instant or a duration is an `Int`, a count of ticks of `1 / TICKS_PER_SECOND` s, and `Never` is the `none` of an
`Option Int` (R11). -/

namespace Sys2Proof

/-- Command, result, status, FIFO and CHRN bytes are 8 bits (R13). -/
abbrev Byte := BitVec 8

/-- Sixteen cells, the first cell in bit 15: the shift register, and the cells of one byte (R13, R85, R160). -/
abbrev Cells := BitVec 16

/-- Integer division truncated toward zero (R11). -/
def tdiv (a b : Int) : Int := Int.tdiv a b

/-- `clamp(v, lo, hi)` of R11. -/
def clamp (v lo hi : Int) : Int := if v < lo then lo else if hi < v then hi else v

end Sys2Proof
end

