-- ==== Sys2Proof/Syntax.lean ====
section
/-! DEFINITION. The commands of the controller, one constructor per row of spec/opcode_table.json
(spec/30_encoding.md R101 to R107). An operand a command does not read is not a field of its constructor (R101, R102). -/

namespace Sys2Proof

/-- The four drive slots, the values of the 2-bit field `US` (R8 `N_DRIVES`, R102). -/
inductive Drive where
  | d0
  | d1
  | d2
  | d3
deriving DecidableEq, Repr

/-- Bytes 2 to 8 of the 9-byte commands: `[C, H, R, N, EOT, GPL, DTL]` (R104, R105). -/
structure SectorParams where
  c : Byte
  h : Byte
  r : Byte
  n : Byte
  eot : Byte
  gpl : Byte
  dtl : Byte
deriving DecidableEq, Repr

/-- The command set (R103). `mt`, `mf`, `sk` are the opcode byte's flag bits 7, 6, 5; `hd` and `us` the head and unit of
the drive/head byte. -/
inductive Instr where
  /-- READ_TRACK (OPC 0x02), R105, R262 -/
  | readTrack (mf hd : Bool) (us : Drive) (p : SectorParams)
  /-- SPECIFY (OPC 0x03), R107, R375 -/
  | specify (srt hut : BitVec 4) (hlt : BitVec 7) (nd : Bool)
  /-- SENSE_DRIVE_STATUS (OPC 0x04), R107, R373 -/
  | senseDriveStatus (hd : Bool) (us : Drive)
  /-- WRITE_DATA (OPC 0x05), R104, R255 -/
  | writeData (mt mf hd : Bool) (us : Drive) (p : SectorParams)
  /-- READ_DATA (OPC 0x06), R104, R240 -/
  | readData (mt mf sk hd : Bool) (us : Drive) (p : SectorParams)
  /-- RECALIBRATE (OPC 0x07), R107, R308 -/
  | recalibrate (us : Drive)
  /-- SENSE_INTERRUPT_STATUS (OPC 0x08), R107, R372 -/
  | senseInterruptStatus
  /-- WRITE_DELETED_DATA (OPC 0x09), R104, R256 -/
  | writeDeletedData (mt mf hd : Bool) (us : Drive) (p : SectorParams)
  /-- READ_ID (OPC 0x0A), R107, R268 -/
  | readId (mf hd : Bool) (us : Drive)
  /-- READ_DELETED_DATA (OPC 0x0C), R104, R241 -/
  | readDeletedData (mt mf sk hd : Bool) (us : Drive) (p : SectorParams)
  /-- FORMAT_TRACK (OPC 0x0D), R106, R272 -/
  | formatTrack (mf hd : Bool) (us : Drive) (n sc gpl fill : Byte)
  /-- SEEK (OPC 0x0F, bit 7 = 0), R107, R307 -/
  | seek (hd : Bool) (us : Drive) (ncn : Byte)
  /-- CONFIGURE (OPC 0x13), R107, R376 -/
  | configure (cfg pretrk : Byte)
  /-- LOCK (OPC 0x14), R107, R377 -/
  | lock (lk : Bool)
deriving DecidableEq, Repr

/-- `N_cmd`: how many bytes the command has, the opcode byte included (R103). -/
def Instr.commandBytes : Instr → Nat
  | .readTrack .. => 9
  | .specify .. => 3
  | .senseDriveStatus .. => 2
  | .writeData .. => 9
  | .readData .. => 9
  | .recalibrate .. => 2
  | .senseInterruptStatus => 1
  | .writeDeletedData .. => 9
  | .readId .. => 2
  | .readDeletedData .. => 9
  | .formatTrack .. => 6
  | .seek .. => 3
  | .configure .. => 4
  | .lock .. => 1

end Sys2Proof
end

