-- ==== Sys2Proof/Decode.lean ====
section
/-! DEFINITION. Decoding of command bytes, total on any bytes, and the encoder (spec/30_encoding.md R100 to R111). -/

namespace Sys2Proof

/-- Commands of other members of the controller family, which the spec refuses by name (R108). -/
inductive FamilyCommand where
  | dumpreg
  | version
  | scanEqual
  | perpendicularMode
  | verify
  | powerdownMode
  | partId
  | scanLowOrEqual
  | scanHighOrEqual
  | relativeSeek
deriving DecidableEq, Repr

/-- The outcome of `Decode(b)` on an opcode byte (R110). -/
inductive OpcodeClass where
  /-- an opcode of the table, with its `N_cmd` -/
  | known (bytes : Nat)
  /-- an opcode of another family member (R108) -/
  | refused (r : FamilyCommand)
  /-- any other opcode (R109) -/
  | invalid
deriving DecidableEq, Repr

/-- Bit `i` of a byte as a Boolean. -/
def bitAt (b : Byte) (i : Nat) : Bool := b.getLsbD i

/-- `OPC`, bits 4..0 of the opcode byte (R101). -/
def opc (b : Byte) : BitVec 5 := b.extractLsb' 0 5

/-- `US`, bits 1..0 of the drive/head byte (R102). -/
def driveOf (b : Byte) : Drive :=
  match bitAt b 1, bitAt b 0 with
  | false, false => .d0
  | false, true => .d1
  | true, false => .d2
  | true, true => .d3

/-- The two bits of a drive number. -/
def driveBits : Drive → BitVec 2
  | .d0 => 0
  | .d1 => 1
  | .d2 => 2
  | .d3 => 3

/-- `Decode(b)` of R110: every byte value gives exactly one outcome. -/
def decodeOpcode (b : Byte) : OpcodeClass :=
  match (opc b).toNat with
  | 0x02 => .known 9
  | 0x03 => .known 3
  | 0x04 => .known 2
  | 0x05 => .known 9
  | 0x06 => .known 9
  | 0x07 => .known 2
  | 0x08 => .known 1
  | 0x09 => .known 9
  | 0x0A => .known 2
  | 0x0C => .known 9
  | 0x0D => .known 6
  | 0x0E => .refused .dumpreg
  | 0x0F => if bitAt b 7 then .refused .relativeSeek else .known 3
  | 0x10 => .refused .version
  | 0x11 => .refused .scanEqual
  | 0x12 => .refused .perpendicularMode
  | 0x13 => .known 4
  | 0x14 => .known 1
  | 0x16 => .refused .verify
  | 0x17 => .refused .powerdownMode
  | 0x18 => .refused .partId
  | 0x19 => .refused .scanLowOrEqual
  | 0x1D => .refused .scanHighOrEqual
  | _ => .invalid

/-- The outcome of decoding the bytes of a command written so far. -/
inductive Decoded where
  /-- a complete command, and the bytes after it -/
  | known (i : Instr) (rest : List Byte)
  /-- a known opcode with bytes still to come ("Incomplete commands simply continue to accept bytes", R362) -/
  | incomplete
  /-- an opcode of another family member (R108) -/
  | refused (r : FamilyCommand)
  /-- an opcode not in the table (R109) -/
  | invalid
deriving DecidableEq, Repr

/-- The parameters `[C, H, R, N, EOT, GPL, DTL]` in bytes 2 to 8 (R104, R105). -/
def decodeNine (k : SectorParams → Instr) : List Byte → Decoded
  | c :: h :: r :: n :: eot :: gpl :: dtl :: rest =>
    .known (k { c := c, h := h, r := r, n := n, eot := eot, gpl := gpl, dtl := dtl }) rest
  | _ => .incomplete

/-- The layouts of R104 to R107, keyed on `OPC`: `b` is the opcode byte and `ps` what follows it. -/
def decodeParams (b : Byte) (ps : List Byte) : Decoded :=
  match (opc b).toNat, ps with
  | 0x02, p :: ps => decodeNine (.readTrack (bitAt b 6) (bitAt p 2) (driveOf p)) ps
  | 0x03, p :: q :: rest =>
    .known (.specify (p.extractLsb' 4 4) (p.extractLsb' 0 4) (q.extractLsb' 1 7) (bitAt q 0)) rest
  | 0x04, p :: rest => .known (.senseDriveStatus (bitAt p 2) (driveOf p)) rest
  | 0x05, p :: ps => decodeNine (.writeData (bitAt b 7) (bitAt b 6) (bitAt p 2) (driveOf p)) ps
  | 0x06, p :: ps => decodeNine (.readData (bitAt b 7) (bitAt b 6) (bitAt b 5) (bitAt p 2) (driveOf p)) ps
  | 0x07, p :: rest => .known (.recalibrate (driveOf p)) rest
  | 0x08, rest => .known .senseInterruptStatus rest
  | 0x09, p :: ps => decodeNine (.writeDeletedData (bitAt b 7) (bitAt b 6) (bitAt p 2) (driveOf p)) ps
  | 0x0A, p :: rest => .known (.readId (bitAt b 6) (bitAt p 2) (driveOf p)) rest
  | 0x0C, p :: ps =>
    decodeNine (.readDeletedData (bitAt b 7) (bitAt b 6) (bitAt b 5) (bitAt p 2) (driveOf p)) ps
  | 0x0D, p :: n :: sc :: gpl :: fill :: rest =>
    .known (.formatTrack (bitAt b 6) (bitAt p 2) (driveOf p) n sc gpl fill) rest
  | 0x0F, p :: ncn :: rest => .known (.seek (bitAt p 2) (driveOf p) ncn) rest
  | 0x13, _ :: cfg :: pretrk :: rest => .known (.configure cfg pretrk) rest
  | 0x14, rest => .known (.lock (bitAt b 7)) rest
  | _, _ => .incomplete

/-- The decoder: the command at the front of the bytes, total on any bytes (R100, R110, R111). -/
def decode : List Byte → Decoded
  | [] => .incomplete
  | b :: ps =>
    match decodeOpcode b with
    | .refused r => .refused r
    | .invalid => .invalid
    | .known _ => decodeParams b ps

/-! The encoder (R101 to R107). Bits a command does not read are written as 0. -/

/-- The opcode byte `MT<<7 | MF<<6 | SK<<5 | OPC` (R101). -/
def opcodeByte (mt mf sk : Bool) (o : BitVec 5) : Byte :=
  BitVec.ofBool mt ++ BitVec.ofBool mf ++ BitVec.ofBool sk ++ o

/-- The drive/head byte `HD<<2 | US` (R102). -/
def driveByte (hd : Bool) (us : Drive) : Byte :=
  (0 : BitVec 5) ++ BitVec.ofBool hd ++ driveBits us

/-- Bytes 2 to 8 of the 9-byte commands (R104). -/
def encodeNine (p : SectorParams) : List Byte := [p.c, p.h, p.r, p.n, p.eot, p.gpl, p.dtl]

/-- The bytes of a command, opcode first (R84, R104 to R107). -/
def encode : Instr → List Byte
  | .readTrack mf hd us p => opcodeByte false mf false 0x02 :: driveByte hd us :: encodeNine p
  | .specify srt hut hlt nd => [opcodeByte false false false 0x03, srt ++ hut, hlt ++ BitVec.ofBool nd]
  | .senseDriveStatus hd us => [opcodeByte false false false 0x04, driveByte hd us]
  | .writeData mt mf hd us p => opcodeByte mt mf false 0x05 :: driveByte hd us :: encodeNine p
  | .readData mt mf sk hd us p => opcodeByte mt mf sk 0x06 :: driveByte hd us :: encodeNine p
  | .recalibrate us => [opcodeByte false false false 0x07, driveByte false us]
  | .senseInterruptStatus => [opcodeByte false false false 0x08]
  | .writeDeletedData mt mf hd us p => opcodeByte mt mf false 0x09 :: driveByte hd us :: encodeNine p
  | .readId mf hd us => [opcodeByte false mf false 0x0A, driveByte hd us]
  | .readDeletedData mt mf sk hd us p => opcodeByte mt mf sk 0x0C :: driveByte hd us :: encodeNine p
  | .formatTrack mf hd us n sc gpl fill => [opcodeByte false mf false 0x0D, driveByte hd us, n, sc, gpl, fill]
  | .seek hd us ncn => [opcodeByte false false false 0x0F, driveByte hd us, ncn]
  | .configure cfg pretrk => [opcodeByte false false false 0x13, 0, cfg, pretrk]
  | .lock lk => [opcodeByte lk false false 0x14]

/-! The host's table words: bit 0 of `w` is bit 0 of byte 0, byte `k` is bits `8k+7 .. 8k`. -/

/-- The nine bytes, the longest command, of a word of `nbits` bits; the bits above are 0. -/
def tableBytes (nbits w : Nat) : List Byte :=
  (List.range 9).map fun k => BitVec.ofNat 8 (w % 2 ^ nbits / 2 ^ (8 * k))

/-- The bytes of the one command in a table word: as many as its opcode byte asks for, and the opcode byte alone where
it is refused or invalid. -/
def tableCommand (nbits w : Nat) : List Byte :=
  match tableBytes nbits w with
  | [] => []
  | b :: ps =>
    match decodeOpcode b with
    | .known n => b :: ps.take (n - 1)
    | _ => [b]

/-- The instruction the decoder reads from a table word, none where it refuses. -/
def decodeTableWord (nbits w : Nat) : Option Instr :=
  match decode (tableCommand nbits w) with
  | .known i _ => some i
  | _ => none

end Sys2Proof
end

