-- ==== Sys2Proof/Machine/Codec.lean ====
section
/-! DEFINITION. The MFM/FM codec, the address marks and CRC-16 (spec/41_bitstream.md R160 to R169). -/

namespace Sys2Proof.Machine

/-- Bit 0 of a byte from a Boolean. -/
def bitByte (b : Bool) : Byte := (BitVec.ofBool b).setWidth 8

/-- One data bit of R161: the clock cell is 1 iff the bit and the previous data bit are both 0. -/
def mfmBit (acc : Cells × Bool) (b : Bool) : Cells × Bool :=
  ((acc.1 <<< 2) ||| ((BitVec.ofBool (!b && !acc.2)).setWidth 16 <<< 1) ||| (BitVec.ofBool b).setWidth 16, b)

/-- The bits of a byte, most significant first (R160). -/
def byteBits (v : Byte) : List Bool :=
  [bitAt v 7, bitAt v 6, bitAt v 5, bitAt v 4, bitAt v 3, bitAt v 2, bitAt v 1, bitAt v 0]

/-- `MfmEncode(v, ctx)` (R161): the cells, and the last data bit. -/
def mfmEncode (v : Byte) (ctx : Bool) : Cells × Bool := (byteBits v).foldl mfmBit (0, ctx)

/-- `FmEncode(v)` (R162): every clock cell is 1. -/
def fmEncode (v : Byte) : Cells :=
  (byteBits v).foldl (fun w b => (w <<< 2) ||| 2#16 ||| (BitVec.ofBool b).setWidth 16) 0

/-! The address marks (R164) and marker bytes (R165). -/

/-- The MFM sync before every header and data field. -/
def mfmSync : Cells := 0x4489
/-- The MFM sync before the index mark. -/
def mfmIndexSync : Cells := 0x5224
/-- The FM header mark. -/
def fmHeaderMark : Cells := 0xF57E
/-- The FM data mark. -/
def fmDataMark : Cells := 0xF56F
/-- The FM deleted data mark. -/
def fmDeletedMark : Cells := 0xF56A
/-- The FM index mark. -/
def fmIndexMark : Cells := 0xF77A
/-- The header marker byte. -/
def markHeader : Byte := 0xFE
/-- The marker byte of a normal data field. -/
def markData : Byte := 0xFB
/-- The marker byte of a deleted data field. -/
def markDeletedData : Byte := 0xF8
/-- The index marker byte. -/
def markIndex : Byte := 0xFC

/-- `CrcBit(crc, b)` (R166). -/
def crcBit (crc : BitVec 16) (b : Bool) : BitVec 16 :=
  if crc.getLsbD 15 != b then (crc <<< 1) ^^^ 0x1021#16 else crc <<< 1

/-- `CrcByte(crc, v)` (R166). -/
def crcByte (crc : BitVec 16) (v : Byte) : BitVec 16 := (byteBits v).foldl crcBit crc

/-- The CRC of bytes from an accumulator (R166, R167). -/
def crcBytes (crc : BitVec 16) (vs : List Byte) : BitVec 16 := vs.foldl crcByte crc

/-- The accumulator's start (R166). -/
def crcInit : BitVec 16 := 0xFFFF

/-- The accumulator after one MFM sync: CRC(0xA1) (R169). -/
def crcAfterSync : BitVec 16 := 0x443B
/-- The accumulator after the FM header mark: CRC(0xFE) (R169). -/
def crcAfterFmHeader : BitVec 16 := 0xEF21
/-- The accumulator after the FM data mark: CRC(0xFB) (R169). -/
def crcAfterFmData : BitVec 16 := 0xBF84
/-- The accumulator after the FM deleted data mark: CRC(0xF8) (R169). -/
def crcAfterFmDeleted : BitVec 16 := 0x8FE7

/-- `crc >> 8` as the byte to emit (R168). -/
def crcHigh (crc : BitVec 16) : Byte := crc.extractLsb' 8 8

end Sys2Proof.Machine
end

