-- ==== Sys2Proof/Config.lean ====
section
/-! DEFINITION. What an implementation fixes: the parameters of spec/00_scope.md R8 that the spec says a model takes as
arguments (spec/93_implementation_defined.md U3, U4, U5, U35 to U38). They stand in `State.par`, which no step writes, so a
statement about every state is a statement about every value of them. -/

namespace Sys2Proof

/-- `POLL_IRQ_POLICY` (R8, R372, D38): what becomes of the other drives' poll reasons when one reason is reported. -/
inductive PollIrqPolicy where
  /-- each drive's reason stays until its own Sense Interrupt Status -/
  | perDrive
  /-- one Sense Interrupt Status removes every Polled reason -/
  | globalFlag
deriving DecidableEq, Repr

/-- `OUTPUT_GATE` (R8, R420, D35): whether DOR bit 3 gates the IRQ and DRQ outputs. -/
inductive OutputGate where
  | dorGated
  | ungated
deriving DecidableEq, Repr

/-- The parameters of R8 that the model takes as arguments. -/
structure Params where
  /-- `STEP_UNIT`, the step-rate unit, in ticks (OPEN, D22) -/
  stepUnit : Int
  /-- `POLL_IRQ_POLICY` (OPEN, D38) -/
  pollIrqPolicy : PollIrqPolicy
  /-- `CRC_ERROR_CONTINUES` (D16) -/
  crcErrorContinues : Bool
  /-- `OR_SETS_ABNORMAL` (D28) -/
  orSetsAbnormal : Bool
  /-- `OUTPUT_GATE` (D35) -/
  outputGate : OutputGate
  /-- `READY_POLLED` (D40) -/
  readyPolled : Bool
deriving DecidableEq, Repr

namespace Config

/-- `EXT_RATE`, the extended-density rate (R8, R39, D2): OPEN, with no value and no selector in the spec. No selector
reaches it, so nothing below reads it; the constant has no body, so nothing can be proved of its value. -/
opaque extRate : Nat

/-- `STEP_UNIT` (R8, D22): OPEN, "suggested 1 ms". A free value: the constant has no body (log entry 2). -/
opaque stepUnit : Int

/-- The parameters at reset: the spec's decided values, its default for `POLL_IRQ_POLICY`, and the free `STEP_UNIT`. -/
def params : Params where
  stepUnit := stepUnit
  pollIrqPolicy := .perDrive
  crcErrorContinues := true
  orSetsAbnormal := true
  outputGate := .dorGated
  readyPolled := true

end Config

end Sys2Proof
end

