-- ==== Sys2Proof/Machine/Parameters.lean ====
section
/-! DEFINITION. The numbers the spec fixes: the rows of spec/00_scope.md R8 that are "source" values or decisions with one
value, in ticks where they are times (R11, D1). -/

namespace Sys2Proof.Machine

/-- `TICKS_PER_SECOND` (R8, D1). -/
def ticksPerSecond : Nat := 1000000000000000000

/-- `FIFO_CAP` (R8). -/
def fifoCap : Nat := 16

/-- `CMD_MAX` (R8). -/
def cmdMax : Nat := 9

/-- `RES_MAX` (R8). -/
def resMax : Nat := 7

/-- `PLL_PHASE_NUM`, over 100 (R8). -/
def pllPhaseNum : Int := 65

/-- `PLL_FREQ_NUM`, over 100 (R8). -/
def pllFreqNum : Int := 5

/-- `PLL_MIN_NUM`, over 100 (R8). -/
def pllMinNum : Int := 75

/-- `PLL_MAX_NUM`, over 100 (R8). -/
def pllMaxNum : Int := 125

/-- `PLL_FREQ_PERSIST` (R8). -/
def pllFreqPersist : Nat := 2

/-- `WRITE_BUF_CAP` (R8, D7). -/
def writeBufCap : Nat := 32

/-- `RECAL_STEP_LIMIT` (R8). -/
def recalStepLimit : Nat := 77

/-- `HEADER_INDEX_LIMIT` (R8, D13). -/
def headerIndexLimit : Nat := 2

/-- `DMW_MFM_MIN` or `DMW_FM_MIN`, in cells (R8, D11). -/
def dataMarkMin (mfm : Bool) : Nat := if mfm then 352 else 176

/-- `DMW_MFM_MAX` or `DMW_FM_MAX`, in cells (R8, D11). -/
def dataMarkMax (mfm : Bool) : Nat := if mfm then 992 else 368

/-- `GAP2_SKIP_MFM` or `GAP2_SKIP_FM`, in byte-times (R8, D46). -/
def gap2Skip (mfm : Bool) : Nat := if mfm then 22 else 11

/-- `RATE_TABLE`, in bit/s (R8, R39, D2). -/
def rateTable (sel : BitVec 2) : Nat :=
  match sel.toNat with
  | 0 => 500000
  | 1 => 300000
  | 2 => 250000
  | _ => 1000000

/-- `STEP_PULSE_WIDTH`, 2.5 µs (R8, D22). -/
def stepPulseWidth : Int := 2500000000000

/-- `POLL_FIRST`, 100 µs (R8, D39). -/
def pollFirst : Int := 100000000000000

/-- `POLL_INTERVAL`, 1024 µs (R8, D39). -/
def pollInterval : Int := 1024000000000000

/-- `FIFOCFG_RESET` (R8, D41). -/
def fifocfgReset : Byte := 0x20

/-- `DOR_RESET` (R8, D41). -/
def dorReset : Byte := 0x0C

/-- `RATE_SEL_RESET` (R8, D41). -/
def rateSelReset : BitVec 2 := 2

/-- `128 << min(N, 7)`, the data field size, at most `MAX_SECTOR_BYTES` = 16384 (R8, R104, R233). -/
def sectorBytes (n : Byte) : Nat := 128 * 2 ^ min n.toNat 7

end Sys2Proof.Machine
end

