-- ==== Sys2Proof/Machine/State.lean ====
section
/-! DEFINITION. The state of the controller as plain data: every piece of state of spec/10_state.md, the inputs of R71 as the
data the step reads, and the calls a step makes on its collaborators. INVENTORY.md lists the fields one by one. -/

namespace Sys2Proof.Machine

/-- One value for each of the four drive slots (R45). -/
structure Slots (α : Type) where
  s0 : α
  s1 : α
  s2 : α
  s3 : α
deriving DecidableEq, Repr

def Slots.get {α : Type} (v : Slots α) : Drive → α
  | .d0 => v.s0
  | .d1 => v.s1
  | .d2 => v.s2
  | .d3 => v.s3

def Slots.set {α : Type} (v : Slots α) (d : Drive) (x : α) : Slots α :=
  match d with
  | .d0 => { v with s0 := x }
  | .d1 => { v with s1 := x }
  | .d2 => { v with s2 := x }
  | .d3 => { v with s3 := x }

def Slots.map {α β : Type} (f : α → β) (v : Slots α) : Slots β :=
  { s0 := f v.s0, s1 := f v.s1, s2 := f v.s2, s3 := f v.s3 }

/-- The controller phase (R33). -/
inductive Phase where
  | command
  | execution
  | result
deriving DecidableEq, Repr

/-- `cur.op`, the kind of the command that runs (R36); `noCommand` is its 0, before the first command. -/
inductive Op where
  | noCommand
  | readTrack
  | specify
  | senseDriveStatus
  | writeData
  | readData
  | recalibrate
  | senseInterruptStatus
  | writeDeletedData
  | readId
  | readDeletedData
  | formatTrack
  | seek
  | configure
  | lock
deriving DecidableEq, Repr

/-- The four bytes of a header: cylinder, head, sector, size (R14 CHRN). -/
structure Chrn where
  c : Byte
  h : Byte
  r : Byte
  n : Byte
deriving DecidableEq, Repr

/-- `cur`, the current-command record (R36). A field the command does not carry is 0. -/
structure Cur where
  op : Op := .noCommand
  mt : Bool := false
  mf : Bool := false
  sk : Bool := false
  lock : Bool := false
  d : Drive := .d0
  hd : Bool := false
  c : Byte := 0
  h : Byte := 0
  r : Byte := 0
  n : Byte := 0
  eot : Byte := 0
  gpl : Byte := 0
  dtl : Byte := 0
  sc : Byte := 0
  /-- `D`, the format filler byte -/
  fill : Byte := 0
  ncn : Byte := 0
  sectorSize : Nat := 0
  sectorsLeft : Nat := 0
  count : Nat := 0
  seenHeader : Bool := false
  lastId : Chrn := { c := 0, h := 0, r := 0, n := 0 }
deriving DecidableEq, Repr

/-- A drive's main state (R46). -/
inductive MainState where
  | idle
  | recalibrate
  | seek
  | readData
  | writeData
  | readTrack
  | formatTrack
  | readId
deriving DecidableEq, Repr

/-- A drive's sub-state (R46, R230, R300). -/
inductive SubState where
  | idle
  | headLoadSettle
  | seekDone
  | scanId
  | sectorRead
  | sectorWrite
  | waitIndex
  | trackWrite
  | drain
  | commandDone
  | move
  | waitStepPulse
  | waitStepSettle
deriving DecidableEq, Repr

/-- The step direction: `out` is toward cylinder 0 (R48). -/
inductive Dir where
  | out
  | inward
deriving DecidableEq, Repr

/-- A drive's pending IRQ reason (R50). -/
inductive IrqReason where
  | none
  | seekDone
  | polled
deriving DecidableEq, Repr

/-- A drive slot (R45). -/
structure DriveSlot where
  mainState : MainState
  subState : SubState
  /-- the present cylinder number (R47) -/
  pcn : Byte
  dir : Dir
  /-- the ready flag as last seen by the poll (R49) -/
  ready : Bool
  irq : IrqReason
  /-- this drive owns the live transfer (R52) -/
  live : Bool
  /-- ST0 is held per drive (R51) -/
  st0 : Byte
  counter : Nat
  seekTarget : Byte
deriving DecidableEq, Repr

/-- The engine's live states (R55). -/
inductive LiveState where
  | idle
  | searchAddressMarkHeader
  | readHeaderBlockHeader
  | readIdBlock
  | searchAddressMarkData
  | readDataBlockHeader
  | readSectorData
  | writeSectorSkipGap2
  | writeSectorData
  | writeTrackPreSectors
  | writeTrackSector
  | writeTrackPostSectors
deriving DecidableEq, Repr

/-- The live transfer, the engine's working registers (R54). -/
structure LiveTransfer where
  tm : Int
  state : LiveState
  /-- always none in this formulation (R193, D67) -/
  nextState : Option LiveState
  drive : Drive
  shiftReg : Cells
  crc : BitVec 16
  bitCounter : Nat
  byteCounter : Nat
  dataReg : Byte
  /-- false: the next cell read is a clock cell; true: a data cell -/
  dataSeparatorPhase : Bool
  dataBitContext : Bool
  markDeleted : Bool
  suppress : Bool
  idbuf : Chrn
deriving DecidableEq, Repr

/-- The PLL record (R63). -/
structure Pll where
  nominal : Int
  period : Int
  periodAdjustBase : Int
  minPeriod : Int
  maxPeriod : Int
  ctime : Int
  phaseAdjust : Int
  freqHist : Int
  /-- none is Never: no uncommitted write span -/
  writeStartTime : Option Int
  writeBuffer : List Int
deriving DecidableEq, Repr

/-- What a drive slot's Drive collaborator presents to the block (R71, R351): the four levels sampled when they are read,
the head that `side_selected` chose, and on each head the instants of its flux transitions, strictly rising. -/
structure DriveUnit where
  /-- a slot with no drive attached answers every query false and ignores every call (R351, D75) -/
  attached : Bool
  ready : Bool
  trackZero : Bool
  writeProtected : Bool
  twoSided : Bool
  /-- the selected head: false 0, true 1 -/
  side : Bool
  flux0 : List Int
  flux1 : List Int
deriving DecidableEq, Repr

/-- The host register surface (R81). -/
inductive HostReg where
  | msr
  | dsr
  | data
  | dor
  | ccr
  /-- the registers of "extended variants", which this block does not have (R81, D65, U8) -/
  | extended
deriving DecidableEq, Repr

/-- What the outside world does to the block, each at one instant (R30, R71, R350). -/
inductive Input where
  | hostWrite (reg : HostReg) (v : Byte)
  | hostRead (reg : HostReg)
  | dmaRead
  | dmaWrite (v : Byte)
  /-- the TC input takes this level (R361) -/
  | tc (level : Bool)
  /-- the rising edge of an index pulse of a drive (R195) -/
  | index (d : Drive)
  /-- the device's reset input (R453) -/
  | hardwareReset
  /-- a drive is attached, or detached, and presents these levels (R71) -/
  | lines (d : Drive) (attached ready trackZero writeProtected twoSided : Bool)
  /-- the flux transitions a drive presents on one head from now on (R71, R86) -/
  | flux (d : Drive) (head : Bool) (transitions : List Int)
deriving DecidableEq, Repr

/-- An input and its instant. -/
structure Event where
  time : Int
  input : Input
deriving DecidableEq, Repr

/-- What the block hands to its collaborators in a step (R350, R351). -/
inductive Output where
  /-- the byte a host register read or a DMA read returns -/
  | readValue (v : Byte)
  /-- an edge of the IRQ line to this level (R420) -/
  | irqEdge (level : Bool)
  /-- an edge of the DRQ line to this level (R420) -/
  | drqEdge (level : Bool)
  | sideSelected (d : Drive) (head : Bool)
  | step (d : Drive) (dir : Dir)
  | motor (d : Drive) (on : Bool)
  | writeFlux (d : Drive) (start stop : Int) (transitions : List Int)
deriving DecidableEq, Repr

structure State where
  /-- R33 -/
  phase : Phase
  /-- the command bytes written so far (R34) -/
  cmd : List Byte
  /-- the result bytes still to be read (R35) -/
  res : List Byte
  cur : Cur
  /-- R37 -/
  st1 : Byte
  st2 : Byte
  /-- R38 -/
  dor : Byte
  /-- R39 -/
  rateSel : BitVec 2
  /-- the Specify timing (R40) -/
  srt : BitVec 4
  hut : BitVec 4
  hlt : BitVec 7
  nd : Bool
  /-- R41 -/
  fifocfg : Byte
  /-- R42 -/
  precomp : Byte
  /-- R43 -/
  locked : Bool
  /-- the controller flags (R44) -/
  dataIrq : Bool
  internalDrq : Bool
  tcLevel : Bool
  tcDone : Bool
  tcCut : Bool
  irqOut : Bool
  drqOut : Bool
  /-- the FIFO, oldest byte first (R69) -/
  fifo : List Byte
  fifoExpected : Nat
  fifoWrite : Bool
  /-- R53 -/
  live : Option LiveTransfer
  pll : Pll
  drives : Slots DriveSlot
  /-- none is Never (R70) -/
  driveTimer : Slots (Option Int)
  pollTimer : Option Int
  /-- the four Drive collaborators (R351) -/
  units : Slots DriveUnit
  /-- the parameters (R8); no step writes them -/
  par : Params
  /-- the instant the model has reached (R90) -/
  now : Int
  /-- the inputs still to come, each at its instant -/
  inputs : List Event
  /-- what the last step handed to the collaborators, in order -/
  outs : List Output
deriving DecidableEq, Repr

/-- The reasons the machine stops with a fault: none. "There is no user-visible crash path" (R406, and the head of
spec/93_implementation_defined.md part 1: no behaviour of this block is treated as a fault). -/
inductive Fault where
deriving DecidableEq, Repr

/-- The named refusals of the model. -/
inductive Refusal where
  /-- an instruction with no meaning yet; raised only by a refused arm of `exec`; safe -/
  | notModelled (mnemonic : String)
  /-- `Refuse(UnmodelledCommand(r))`: raised by the dispatcher on an opcode byte of another family member (R108, R362);
  safe, the model stops where a part would go on -/
  | unmodelledCommand (r : FamilyCommand)
  /-- `Refuse(LiveBusy)`: raised by a live start while a transfer runs (R190, U10); safe -/
  | liveBusy
  /-- raised by an access to a register of the "extended variants" (U8); safe -/
  | extendedRegister
deriving DecidableEq, Repr

/-- What a step, a command or an event handler answers. -/
abbrev Result := Host.Outcome State Fault Refusal

/-! The state after power-on reset (R32, R45, R63, R69, R70, R450, R452). -/

/-- R45, power-on. `ready` is `not READY_POLLED`. -/
def DriveSlot.reset (readyPolled : Bool) : DriveSlot where
  mainState := .idle
  subState := .idle
  pcn := 0
  dir := .out
  ready := !readyPolled
  irq := .none
  live := false
  st0 := 0
  counter := 0
  seekTarget := 0

/-- R63, power-on. -/
def Pll.reset : Pll where
  nominal := 0
  period := 0
  periodAdjustBase := 0
  minPeriod := 0
  maxPeriod := 0
  ctime := 0
  phaseAdjust := 0
  freqHist := 0
  writeStartTime := none
  writeBuffer := []

/-- An empty drive slot (R351, D75). -/
def DriveUnit.empty : DriveUnit where
  attached := false
  ready := false
  trackZero := false
  writeProtected := false
  twoSided := false
  side := false
  flux0 := []
  flux1 := []

def Slots.replicate {α : Type} (x : α) : Slots α := { s0 := x, s1 := x, s2 := x, s3 := x }

/-- Power-on at instant 0, no drive attached and no input waiting (log entries 3 and 4), the ready poll armed (R452). -/
def State.reset : State where
  phase := .command
  cmd := []
  res := []
  cur := {}
  st1 := 0
  st2 := 0
  dor := dorReset
  rateSel := rateSelReset
  srt := 0
  hut := 0
  hlt := 0
  nd := false
  fifocfg := fifocfgReset
  precomp := 0
  locked := false
  dataIrq := false
  internalDrq := false
  tcLevel := false
  tcDone := false
  tcCut := false
  irqOut := false
  drqOut := false
  fifo := []
  fifoExpected := 0
  fifoWrite := false
  live := none
  pll := Pll.reset
  drives := Slots.replicate (DriveSlot.reset Config.params.readyPolled)
  driveTimer := Slots.replicate none
  pollTimer := some pollFirst
  units := Slots.replicate DriveUnit.empty
  par := Config.params
  now := 0
  inputs := []
  outs := []

end Sys2Proof.Machine
end

