-- ==== Sys2Proof/Machine/Flags.lean ====
section
/-! DEFINITION. The status bytes ST0 to ST3, the main status register and the FIFO configuration bits
(spec/60_exceptions.md R400 to R403, spec/45_host_interface.md R354, spec/10_state.md R41). -/

namespace Sys2Proof.Machine

/-- `drives[d]`. -/
abbrev State.slot (s : State) (d : Drive) : DriveSlot := s.drives.get d

/-- An update of one drive slot. -/
def State.updSlot (s : State) (d : Drive) (f : DriveSlot → DriveSlot) : State :=
  { s with drives := s.drives.set d (f (s.drives.get d)) }

/-- The single bits of ST0 (R400). -/
inductive St0Bit where
  /-- seek end -/
  | se
  /-- equipment check -/
  | ec
  /-- not ready -/
  | nr
deriving DecidableEq, Repr

def St0Bit.mask : St0Bit → Byte
  | .se => 0x20
  | .ec => 0x10
  | .nr => 0x08

/-- The bits of ST1 (R401). -/
inductive St1Bit where
  /-- end of cylinder -/
  | en
  /-- CRC error -/
  | de
  /-- overrun or underrun -/
  | or
  /-- no data -/
  | nd
  /-- write protected -/
  | nw
  /-- missing address mark -/
  | ma
deriving DecidableEq, Repr

def St1Bit.mask : St1Bit → Byte
  | .en => 0x80
  | .de => 0x20
  | .or => 0x10
  | .nd => 0x04
  | .nw => 0x02
  | .ma => 0x01

/-- The bits of ST2 that are ever set (R402). -/
inductive St2Bit where
  /-- deleted-data mark of the other kind -/
  | cm
  /-- CRC error in the data field -/
  | dd
  /-- wrong cylinder -/
  | wc
  /-- bad cylinder -/
  | bc
  /-- missing data address mark -/
  | md
deriving DecidableEq, Repr

def St2Bit.mask : St2Bit → Byte
  | .cm => 0x40
  | .dd => 0x20
  | .wc => 0x10
  | .bc => 0x02
  | .md => 0x01

/-- `SetIC` on a byte: IC becomes `c` when it is 00 (R400). -/
def withIC (st0 : Byte) (c : BitVec 2) : Byte :=
  if st0.extractLsb' 6 2 = 0 then c ++ st0.extractLsb' 0 6 else st0

/-- `SetIC(d, c)` (R400). -/
def State.setIC (s : State) (d : Drive) (c : BitVec 2) : State :=
  s.updSlot d fun x => { x with st0 := withIC x.st0 c }

/-- `SetBit(drives[d].st0, NAME)` (R400). -/
def State.setSt0 (s : State) (d : Drive) (b : St0Bit) : State :=
  s.updSlot d fun x => { x with st0 := x.st0 ||| b.mask }

/-- `SetBit(st1, NAME)` (R401). -/
def State.setSt1 (s : State) (b : St1Bit) : State := { s with st1 := s.st1 ||| b.mask }

/-- `SetBit(st2, NAME)` (R402). -/
def State.setSt2 (s : State) (b : St2Bit) : State := { s with st2 := s.st2 ||| b.mask }

/-- `st1.OR = 1`. -/
def State.overrun (s : State) : Bool := bitAt s.st1 4

/-- Abnormal termination, IC = 01 (R400). -/
def icAbnormal : BitVec 2 := 1

/-- `EIS`, implied seek enabled (R41). -/
def State.eis (s : State) : Bool := bitAt s.fifocfg 6

/-- `EFIFO`, FIFO disabled (R41). -/
def State.efifo (s : State) : Bool := bitAt s.fifocfg 5

/-- `POLL`, drive ready polling disabled (R41). -/
def State.pollDisabled (s : State) : Bool := bitAt s.fifocfg 4

/-- `FIFOTHR` (R41). -/
def State.fifoThr (s : State) : Nat := (s.fifocfg.extractLsb' 0 4).toNat

/-- `dor[2]`: the controller is not held in reset (R359, R366). -/
def State.notReset (s : State) : Bool := bitAt s.dor 2

/-- The drive-busy bit of the MSR (R313, R354). -/
def DriveSlot.busy (x : DriveSlot) : Bool := x.mainState == .seek || x.mainState == .recalibrate

/-- RQM of R354. -/
def State.rqm (s : State) : Bool :=
  if s.notReset then
    match s.phase with
    | .command => true
    | .execution => s.internalDrq
    | .result => true
  else false

/-- DIO of R354. -/
def State.dio (s : State) : Bool :=
  s.phase == .result || (s.phase == .execution && !s.fifoWrite && s.internalDrq)

/-- The main status register, computed when read (R354). -/
def State.mainStatus (s : State) : Byte :=
  BitVec.ofBool s.rqm ++ BitVec.ofBool s.dio
    ++ BitVec.ofBool (s.phase == .execution && s.nd)
    ++ BitVec.ofBool (s.phase != .command || !s.cmd.isEmpty)
    ++ BitVec.ofBool s.drives.s3.busy ++ BitVec.ofBool s.drives.s2.busy
    ++ BitVec.ofBool s.drives.s1.busy ++ BitVec.ofBool s.drives.s0.busy

/-- `drive_ready(d)` (R351). -/
def State.driveReady (s : State) (d : Drive) : Bool := (s.units.get d).attached && (s.units.get d).ready

/-- `at_track_zero(d)` (R351). -/
def State.atTrackZero (s : State) (d : Drive) : Bool := (s.units.get d).attached && (s.units.get d).trackZero

/-- `write_protected(d)` (R351). -/
def State.writeProtected (s : State) (d : Drive) : Bool :=
  (s.units.get d).attached && (s.units.get d).writeProtected

/-- `two_sided(d)` (R351). -/
def State.twoSided (s : State) (d : Drive) : Bool := (s.units.get d).attached && (s.units.get d).twoSided

/-- ST3, computed by Sense Drive Status: FT = 0, WP, RY, T0, TS, HD, US (R403). -/
def State.st3 (s : State) (d : Drive) (hd : Bool) : Byte :=
  (0 : BitVec 1) ++ BitVec.ofBool (s.writeProtected d) ++ BitVec.ofBool (s.driveReady d)
    ++ BitVec.ofBool (s.atTrackZero d) ++ BitVec.ofBool (s.twoSided d) ++ BitVec.ofBool hd ++ driveBits d

/-- `irq_src` of R420. -/
def State.irqSource (s : State) : Bool :=
  s.dataIrq
    || (s.drives.s0.irq != .none || s.drives.s1.irq != .none || s.drives.s2.irq != .none || s.drives.s3.irq != .none)
    || (s.nd && s.phase == .execution && s.internalDrq)

/-- `drq_src` of R420. -/
def State.drqSource (s : State) : Bool := !s.nd && s.internalDrq

/-- `gate` of R420. -/
def State.gate (s : State) : Bool :=
  match s.par.outputGate with
  | .dorGated => bitAt s.dor 3
  | .ungated => true

end Sys2Proof.Machine
end

