-- ==== Sys2Proof/Machine/Operands.lean ====
section
/-! DEFINITION. The operand forms of the commands: how `Accept` loads the current-command record from a decoded command
(spec/45_host_interface.md R362, spec/30_encoding.md R104 to R107, spec/10_state.md R36). A field a command does not carry
is 0, and the flag bits a command does not read are not loaded (R36, R101; log entry 7). -/

namespace Sys2Proof.Machine

/-- The operands of a 9-byte command (R104, R105). -/
def nineByteCur (op : Op) (mt mf sk hd : Bool) (us : Drive) (p : SectorParams) : Cur :=
  { op := op, mt := mt, mf := mf, sk := sk, d := us, hd := hd, c := p.c, h := p.h, r := p.r, n := p.n,
    eot := p.eot, gpl := p.gpl, dtl := p.dtl }

/-- `cur` as `Accept` loads it (R362). For READ_ID the address is 0, and for FORMAT_TRACK `C`, `H`, `R` are 0 and
`sectors_left` is `SC` (R268, R272). -/
def loadCur : Instr → Cur
  | .readTrack mf hd us p => nineByteCur .readTrack false mf false hd us p
  | .specify .. => { op := .specify }
  | .senseDriveStatus hd us => { op := .senseDriveStatus, d := us, hd := hd }
  | .writeData mt mf hd us p => nineByteCur .writeData mt mf false hd us p
  | .readData mt mf sk hd us p => nineByteCur .readData mt mf sk hd us p
  | .recalibrate us => { op := .recalibrate, d := us }
  | .senseInterruptStatus => { op := .senseInterruptStatus }
  | .writeDeletedData mt mf hd us p => nineByteCur .writeDeletedData mt mf false hd us p
  | .readId mf hd us => { op := .readId, mf := mf, d := us, hd := hd }
  | .readDeletedData mt mf sk hd us p => nineByteCur .readDeletedData mt mf sk hd us p
  | .formatTrack mf hd us n sc gpl fill =>
    { op := .formatTrack, mf := mf, d := us, hd := hd, n := n, sc := sc, gpl := gpl, fill := fill,
      sectorsLeft := sc.toNat }
  | .seek hd us ncn => { op := .seek, d := us, hd := hd, ncn := ncn }
  | .configure .. => { op := .configure }
  | .lock lk => { op := .lock, lock := lk }

/-- `cmd[1] and 0x07`, or `and 0x03` where HD is taken as 0: the HD and US bits of ST0 (R231, R301, R400). -/
def headUnit (hd : Bool) (us : Drive) : Byte := driveByte hd us

/-- `cur.op` reads data from the medium to the host (R357, R360, R410). -/
def Op.isHostRead : Op → Bool
  | .readData => true
  | .readDeletedData => true
  | .readTrack => true
  | _ => false

/-- `cur.op` takes data from the host to the medium (R231, R358, R360). -/
def Op.isHostWrite : Op → Bool
  | .writeData => true
  | .writeDeletedData => true
  | .formatTrack => true
  | _ => false

/-- The commands that may seek implicitly (R235, R310). -/
def Op.impliesSeek : Op → Bool
  | .readData => true
  | .readDeletedData => true
  | .writeData => true
  | .writeDeletedData => true
  | .readTrack => true
  | _ => false

/-- The main state a read, write, read-ID or format command runs in (R231). -/
def Op.mainState : Op → MainState
  | .readData => .readData
  | .readDeletedData => .readData
  | .writeData => .writeData
  | .writeDeletedData => .writeData
  | .readTrack => .readTrack
  | .readId => .readId
  | .formatTrack => .formatTrack
  | .seek => .seek
  | .recalibrate => .recalibrate
  | _ => .idle

/-- A byte of a header by its position (R174, R186). -/
def Chrn.byte (x : Chrn) : Nat → Byte
  | 0 => x.c
  | 1 => x.h
  | 2 => x.r
  | _ => x.n

/-- A header with the byte at one position replaced; other positions change nothing. -/
def Chrn.setByte (x : Chrn) (i : Nat) (v : Byte) : Chrn :=
  match i with
  | 0 => { x with c := v }
  | 1 => { x with h := v }
  | 2 => { x with r := v }
  | 3 => { x with n := v }
  | _ => x

end Sys2Proof.Machine
end

