-- ==== Sys2Proof/Machine/Pll.lean ====
section
/-! DEFINITION. The digital PLL (spec/40_pll.md). -/

namespace Sys2Proof.Machine

/-- `NominalPeriod(rate, mfm)` (R131). -/
def nominalPeriod (rate : Nat) (mfm : Bool) : Int :=
  if mfm then tdiv ticksPerSecond (2 * rate) else tdiv ticksPerSecond rate

/-- `SetClock(nom)` (R132). -/
def pllSetClock (p : Pll) (nom : Int) : Pll :=
  { p with
    nominal := nom
    period := nom
    periodAdjustBase := tdiv (nom * pllFreqNum) 100
    minPeriod := tdiv (nom * pllMinNum) 100
    maxPeriod := tdiv (nom * pllMaxNum) 100 }

/-- `Reset(t)` (R133). -/
def pllReset (p : Pll) (t : Int) : Pll :=
  { p with ctime := t, phaseAdjust := 0, freqHist := 0, writeBuffer := [], writeStartTime := none }

/-- The end of the next read window (R135, R136). -/
def pllWindowEnd (p : Pll) : Int := p.ctime + p.period + p.phaseAdjust

/-- The signed offset of an edge from the centre of the window that ends at `next` (R135). -/
def pllDelta (p : Pll) (edge : Int) : Int := edge - (pllWindowEnd p - tdiv p.period 2)

/-- The count of consecutive corrections of the same sign (R135, R138). -/
def pllFreqHist (hist delta : Int) : Int :=
  if delta < 0 then (if hist < 0 then hist - 1 else -1)
  else if 0 < delta then (if 0 < hist then hist + 1 else 1)
  else 0

/-- The frequency correction (R135, R138). -/
def pllPeriod (p : Pll) (hist delta : Int) : Int :=
  if pllFreqPersist ≤ hist.natAbs then
    clamp (p.period + tdiv (p.periodAdjustBase * delta) p.period) p.minPeriod p.maxPeriod
  else p.period

/-- The record after an edge found in the window (R135). -/
def pllCorrect (p : Pll) (edge : Int) : Pll :=
  { p with
    ctime := pllWindowEnd p
    phaseAdjust := tdiv (pllDelta p edge * pllPhaseNum) 100
    freqHist := pllFreqHist p.freqHist (pllDelta p edge)
    period := pllPeriod p (pllFreqHist p.freqHist (pllDelta p edge)) (pllDelta p edge) }

/-- `NextBit(limit)` (R135): the cell and the record after it, none for `NeedMoreTime`. `edge` is
`next_flux_transition(pll.ctime)`. -/
def nextBit (p : Pll) (edge : Option Int) (limit : Int) : Option (Bool × Pll) :=
  if limit < pllWindowEnd p then none
  else
    match edge with
    | none => some (false, { p with ctime := pllWindowEnd p, phaseAdjust := 0 })
    | some e =>
      if pllWindowEnd p ≤ e then some (false, { p with ctime := pllWindowEnd p, phaseAdjust := 0 })
      else some (true, pllCorrect p e)

/-- `StartWriting(t)` (R142). -/
def pllStartWriting (p : Pll) (t : Int) : Pll := { p with writeStartTime := some t, writeBuffer := [] }

/-- The end of the next written cell (R143). -/
def pllWriteEnd (p : Pll) : Int := p.ctime + p.nominal

/-- `WriteBit(bit, limit)` (R143), none for `NeedMoreTime`. -/
def writeBit (p : Pll) (bit : Bool) (limit : Int) : Option Pll :=
  if limit < pllWriteEnd p then none
  else
    some { p with
      ctime := pllWriteEnd p
      writeBuffer :=
        if bit && decide (p.writeBuffer.length < writeBufCap) then p.writeBuffer ++ [p.ctime + tdiv p.nominal 2]
        else p.writeBuffer }

end Sys2Proof.Machine
end

