-- ==== Sys2Proof/Machine/Ops.lean ====
section
/-! DEFINITION. The shared operations: the output lines, the calls on the Drive collaborators, the FIFO, and the termination of a
command with the return to Command phase (spec/60_exceptions.md, spec/44_fifo.md, spec/45_host_interface.md R351, R356).

The FIFO and termination rules each end in `UpdateOutputs()`. The model calls it once, at the end of a command's acceptance
and at the end of every step, as R420 allows: only the level at the end of a step is observable. -/

namespace Sys2Proof.Machine

/-! ## The output lines (R420) -/

/-- Hands one call or value to a collaborator. -/
def State.emit (s : State) (o : Output) : State := { s with outs := s.outs ++ [o] }

/-- The level of the IRQ line that the sources give (R420). -/
def State.irqLevel (s : State) : Bool := s.irqSource && s.gate

/-- The level of the DRQ line that the sources give (R420). -/
def State.drqLevel (s : State) : Bool := s.drqSource && s.gate

/-- The edge report of a line, nothing when its level stays (R420 "only transitions are reported upward"). -/
def edgeReport (old new : Bool) (o : Output) : List Output := if old = new then [] else [o]

/-- `UpdateOutputs()` (R420). -/
def updateOutputs (s : State) : State :=
  { s with
    irqOut := s.irqLevel
    drqOut := s.drqLevel
    outs := s.outs ++ edgeReport s.irqOut s.irqLevel (.irqEdge s.irqLevel)
      ++ edgeReport s.drqOut s.drqLevel (.drqEdge s.drqLevel) }

/-- The `UpdateOutputs()` that ends a command's acceptance or a step. -/
def finishOutputs : Result → Result
  | .next s => .next (updateOutputs s)
  | .fault r => .fault r
  | .refused r => .refused r

/-! ## The Drive interface (R351) and the flux path (R86, R87) -/

/-- Flux lists are strictly rising. -/
abbrev FluxWf (f : List Int) : Prop := f.Pairwise (· < ·)

/-- A transition added to a strictly rising list; one that is there already changes nothing. -/
def fluxInsert (t : Int) : List Int → List Int
  | [] => [t]
  | x :: f => if t < x then t :: x :: f else if t = x then x :: f else x :: fluxInsert t f

/-- Transitions in any order as a strictly rising list. -/
def fluxOfList (ts : List Int) : List Int := ts.foldr fluxInsert []

/-- The earliest transition strictly after an instant, none for Never (R86). -/
def fluxAfter (f : List Int) (after : Int) : Option Int := f.find? fun x => after < x

/-- The transitions of `[start, stop)` replaced; those outside stay (R87). -/
def fluxReplace (f : List Int) (start stop : Int) (ts : List Int) : List Int :=
  f.filter (fun x => x < start)
    ++ fluxOfList (ts.filter fun x => start ≤ x && x < stop)
    ++ f.filter fun x => start ≤ x && stop ≤ x

/-- The flux under a unit's selected head (R351). -/
def DriveUnit.flux (u : DriveUnit) : List Int := if u.side then u.flux1 else u.flux0

/-- The flux of a unit on one head replaced. -/
def DriveUnit.setFlux (u : DriveUnit) (head : Bool) (f : List Int) : DriveUnit :=
  if head then { u with flux1 := f } else { u with flux0 := f }

/-- An update of one Drive collaborator. -/
def State.updUnit (s : State) (d : Drive) (f : DriveUnit → DriveUnit) : State :=
  { s with units := s.units.set d (f (s.units.get d)) }

/-- `next_flux_transition(after)` of drive `d` (R86); an empty slot has no flux (R351). -/
def State.nextFlux (s : State) (d : Drive) (after : Int) : Option Int :=
  if (s.units.get d).attached then fluxAfter (s.units.get d).flux after else none

/-- `write_flux(start, stop, ts)` on drive `d` (R87); an empty slot ignores it (R351). -/
def State.writeFlux (s : State) (d : Drive) (start stop : Int) (ts : List Int) : State :=
  (s.updUnit d fun u =>
    if u.attached then u.setFlux u.side (fluxReplace u.flux start stop ts) else u).emit
    (.writeFlux d start stop ts)

/-- `side_selected(n)` on drive `d`; an empty slot ignores it (R351). -/
def State.selectSide (s : State) (d : Drive) (head : Bool) : State :=
  (s.updUnit d fun u => if u.attached then { u with side := head } else u).emit (.sideSelected d head)

/-! ## The FIFO (spec/44_fifo.md) -/

/-- `FifoReset()` (R322). -/
def fifoReset (s : State) : State :=
  { s with fifo := [], fifoExpected := 0, fifoWrite := false, internalDrq := false }

/-- `thr`, the read side's threshold (R323). -/
def State.threshold (s : State) : Nat := if s.efifo then 1 else s.fifoThr + 1

/-- `EnginePush(v)` (R324). -/
def enginePush (v : Byte) (s : State) : State :=
  if s.fifo.length = fifoCap then s.setSt1 .or
  else
    { s with
      fifo := s.fifo ++ [v]
      internalDrq := s.internalDrq || decide (s.threshold ≤ s.fifo.length + 1) }

/-- The write side's refill test (R325). -/
def State.wantsRefill (s : State) : Bool :=
  decide (0 < s.fifoExpected) && (if s.efifo then s.fifo.isEmpty else decide (s.fifo.length ≤ s.fifoThr))

/-- The refill request of `EnginePop` (R325). -/
def refillRequest (s : State) : State := { s with internalDrq := s.internalDrq || s.wantsRefill }

/-- `EnginePop()` (R325): the byte, 0x00 on underrun, and the state after. -/
def enginePop (s : State) : Byte × State :=
  match s.fifo with
  | [] => (0, refillRequest (s.setSt1 .or))
  | v :: rest => (v, refillRequest { s with fifo := rest })

/-- `FlushRequest()` (R326). -/
def flushRequest (s : State) : State := { s with internalDrq := s.internalDrq || !s.fifo.isEmpty }

/-- `FifoExpect(n, write)` (R327). -/
def fifoExpect (n : Nat) (s : State) : State :=
  if s.tcDone then { s with fifoWrite := true, fifoExpected := 0, internalDrq := false }
  else { s with fifoWrite := true, fifoExpected := n, internalDrq := decide (s.fifo.length < fifoCap) }

/-- `FifoStopExpect()` (R328). -/
def fifoStopExpect (s : State) : State := { s with fifoExpected := 0, fifo := [], internalDrq := false }

/-- The request that stays after a host push (R329). -/
def State.stillRequested (s : State) : Bool :=
  s.internalDrq && !(s.fifo.length == fifoCap || s.fifoExpected == 0 || (s.efifo && decide (1 ≤ s.fifo.length)))

/-- `HostPush(v)` (R329). -/
def hostPush (v : Byte) (s : State) : State :=
  if !s.fifoWrite || s.fifoExpected == 0 then s
  else if s.fifo.length = fifoCap then s.setSt1 .or
  else
    let s' := { s with fifo := s.fifo ++ [v], fifoExpected := s.fifoExpected - 1 }
    { s' with internalDrq := s'.stillRequested }

/-! ## Termination of a command, and the return to Command phase (R410 to R412, R356, R363) -/

/-- `EnterResult(r)` (R411). -/
def enterResult (r : List Byte) (s : State) : State :=
  { s with res := r, phase := .result, internalDrq := false }

/-- The 7-byte result `[ST0, ST1, ST2, C, H, R, N]` (R112). -/
def State.sevenBytes (s : State) (d : Drive) : List Byte :=
  [(s.slot d).st0, s.st1, s.st2, s.cur.c, s.cur.h, s.cur.r, s.cur.n]

/-- An overrun reported as abnormal termination (R410). -/
def abnormalOnOverrun (d : Drive) (s : State) : State :=
  if s.overrun && s.par.orSetsAbnormal then s.setIC d icAbnormal else s

/-- `FinishResult(d)` (R410). -/
def finishResult (d : Drive) (s : State) : State :=
  let s' := abnormalOnOverrun d s
  enterResult (s'.sevenBytes d)
    { s'.updSlot d (fun x => { x with mainState := .idle, subState := .idle }) with dataIrq := true }

/-- `CommandDone(d)` (R410): a read whose bytes the host has not taken waits in Drain. -/
def commandDone (d : Drive) (s : State) : State :=
  if s.cur.op.isHostRead && !s.fifo.isEmpty && !s.tcDone then
    { s.updSlot d (fun x => { x with subState := .drain }) with internalDrq := true }
  else finishResult d s

/-- `InvalidCommand()` (R363). -/
def invalidCommand (s : State) : State := enterResult [0x80] { s with cmd := [] }

/-- `ResultRead()` (R356): the return to Command phase when the last result byte is read. In an empty result buffer, which
no run reaches (R74), it returns 0xFF, the byte of a read with nothing to read. -/
def resultRead (s : State) : Byte × State :=
  match s.res with
  | [] => (0xFF, { s with phase := .command })
  | [v] => (v, { s with res := [], phase := .command })
  | v :: rest => (v, { s with res := rest })

/-- The byte a host pop takes, 0x00 on an empty FIFO, and the state after (R331). -/
def hostTake (s : State) : Byte × State :=
  match s.fifo with
  | [] => (0, s.setSt1 .or)
  | v :: rest => (v, { s with fifo := rest })

/-- The request withdrawn when the FIFO is empty (R331). -/
def relinquish (s : State) : State := if s.fifo.isEmpty then { s with internalDrq := false } else s

/-- The result of a command that waited in Drain, once the FIFO is empty (R331, R411). -/
def finishDrain (s : State) : State :=
  if (s.slot s.cur.d).subState == .drain && s.fifo.isEmpty then finishResult s.cur.d s else s

/-- `HostPop()` (R331): the byte and the state after; in the write direction it has no effect. -/
def hostPop (s : State) : Byte × State :=
  if s.fifoWrite then (0xFF, s) else ((hostTake s).1, finishDrain (relinquish (hostTake s).2))

end Sys2Proof.Machine
end

