-- ==== Sys2Proof/Machine/Live.lean ====
section
/-! DEFINITION. The control of the live transfer: commit, start and abort (spec/40_pll.md R142, spec/41_bitstream.md R190,
R191, R193). -/

namespace Sys2Proof.Machine

/-- `Commit(t)` for the drive of the transfer (R142). -/
def commitWrite (d : Drive) (t : Int) (s : State) : State :=
  match s.pll.writeStartTime with
  | none => s
  | some w =>
    if t = w then s
    else
      { s.writeFlux d w t s.pll.writeBuffer with
        pll := { s.pll with writeStartTime := some t, writeBuffer := [] } }

/-- `StopWriting(t)` (R142). -/
def stopWriting (d : Drive) (t : Int) (s : State) : State :=
  let s' := commitWrite d t s
  { s' with pll := { s'.pll with writeStartTime := none } }

/-- A live transfer as a live start makes it (R190). -/
def newTransfer (d : Drive) (st : LiveState) (t : Int) : LiveTransfer where
  tm := t
  state := st
  nextState := none
  drive := d
  shiftReg := 0
  crc := crcInit
  bitCounter := 0
  byteCounter := 0
  dataReg := 0
  dataSeparatorPhase := false
  dataBitContext := false
  markDeleted := false
  suppress := false
  idbuf := { c := 0, h := 0, r := 0, n := 0 }

/-- The PLL at a live start: re-centred and clocked for the rate and mode in force (R133, R134, R190), and writing when the
transfer starts with a track's preamble. -/
def startPll (st : LiveState) (s : State) : Pll :=
  let p := pllSetClock (pllReset s.pll s.now) (nominalPeriod (rateTable s.rateSel) s.cur.mf)
  if st = .writeTrackPreSectors then pllStartWriting p s.now else p

/-- `LiveStart(d, st, now)` (R190). Its `LiveRun(now)` processes no cell; the choice of a write state's first word is the
engine's next step, at the same instant (log entry 11). -/
def liveStart (d : Drive) (st : LiveState) (s : State) : Result :=
  if s.live.isSome then .refused .liveBusy
  else
    .next { s.updSlot d (fun x => { x with live := true }) with
      live := some (newTransfer d st s.now)
      pll := startPll st s }

/-- The transfer ends: `drives[d].live <- 0`, `live <- absent` (R230). -/
def dropLive (d : Drive) (s : State) : State :=
  { s.updSlot d (fun x => { x with live := false }) with live := none }

/-- `LiveAbort(now)` (R191). The engine has already caught up: a step takes the engine's cells first (R470). -/
def liveAbort (s : State) : State :=
  match s.live with
  | none => s
  | some L => dropLive L.drive (stopWriting L.drive s.now s)

end Sys2Proof.Machine
end

