-- ==== Sys2Proof/Machine/Stepping.lean ====
section
/-! DEFINITION. Head load, the start of a search, and the step-pulse machine of Seek, Recalibrate and the implied seek
(spec/43_seek_commands.md, spec/42_rw_commands.md R235). -/

namespace Sys2Proof.Machine

/-- A drive's timer set to an instant or to Never (R352). -/
def State.setTimer (s : State) (d : Drive) (t : Option Int) : State :=
  { s with driveTimer := s.driveTimer.set d t }

/-- A drive's sub-state set. -/
def State.setSub (s : State) (d : Drive) (x : SubState) : State :=
  s.updSlot d fun y => { y with subState := x }

/-- The SeekDone sub-state: the search of a read, write or read-ID command starts, Read Track and Format Track wait for
the index, and a TC that came during the implied seek ends the command (R235). -/
def runSeekDone (d : Drive) (s : State) : Result :=
  if s.tcDone then .next (commandDone d s)
  else if s.cur.op = .readTrack ∨ s.cur.op = .formatTrack then .next (s.setSub d .waitIndex)
  else
    liveStart d .searchAddressMarkHeader
      { s.updSlot d (fun x => { x with counter := 0, subState := .scanId }) with
        cur := { s.cur with seenHeader := false } }

/-- The end of a Seek or Recalibrate (R306). -/
def seekEnd (d : Drive) (ok : Bool) (s : State) : State :=
  let s1 := s.setSt0 d .se
  let s2 := if ok then s1 else s1.setIC d icAbnormal
  s2.updSlot d fun x => { x with irq := .seekDone, mainState := .idle, subState := .idle }

/-- `SeekFinish(d, outcome)` (R306). -/
def seekFinish (d : Drive) (ok : Bool) (s : State) : Result :=
  let s' := s.setTimer d none
  if (s'.slot d).mainState = .seek ∨ (s'.slot d).mainState = .recalibrate then .next (seekEnd d ok s')
  else runSeekDone d (s'.setSub d .seekDone)

/-- One step pulse: `step(dir)`, and the pulse's timer (R303, R304). -/
def stepPulse (d : Drive) (dir : Dir) (s : State) : State :=
  ((s.updSlot d fun x => { x with dir := dir, subState := .waitStepPulse }).emit (.step d dir)).setTimer d
    (some (s.now + stepPulseWidth))

/-- The direction from the present cylinder to the target (R303). -/
def seekDir (x : DriveSlot) : Dir := if x.pcn < x.seekTarget then .inward else .out

/-- Move, for Seek and the implied seek (R303). -/
def moveSeek (d : Drive) (s : State) : Result :=
  if (s.slot d).pcn = (s.slot d).seekTarget then seekFinish d true s
  else .next (stepPulse d (seekDir (s.slot d)) s)

/-- Move, for Recalibrate (R304). -/
def moveRecalibrate (d : Drive) (s : State) : Result :=
  if s.atTrackZero d then seekFinish d true (s.updSlot d fun x => { x with pcn := 0 })
  else if recalStepLimit ≤ (s.slot d).counter then seekFinish d false (s.setSt0 d .ec)
  else .next (stepPulse d .out (s.updSlot d fun x => { x with counter := x.counter + 1 }))

/-- Move (R303, R304). -/
def runMove (d : Drive) (s : State) : Result :=
  if (s.slot d).mainState = .recalibrate then moveRecalibrate d s else moveSeek d s

/-- HeadLoadSettle: the implied seek where Configure enables it, else straight to the search (R235, R310). -/
def runHeadLoadSettle (d : Drive) (s : State) : Result :=
  if s.eis && s.cur.op.impliesSeek && (s.slot d).pcn != s.cur.c then
    runMove d (s.updSlot d fun x => { x with seekTarget := s.cur.c, subState := .move })
  else runSeekDone d (s.setSub d .seekDone)

/-- `PCN` after a step pulse (R305). -/
def steppedPcn (x : DriveSlot) : Byte :=
  if x.mainState = .recalibrate then x.pcn else if x.dir = .inward then x.pcn + 1 else x.pcn - 1

/-- The settle interval `(16 - SRT) × STEP_UNIT` (R305). -/
def State.settleTime (s : State) : Int := (16 - (s.srt.toNat : Int)) * s.par.stepUnit

/-- `drive_timer[d]` expires (R305). In a sub-state that arms no timer, which no run reaches, it only stops. -/
def driveTimerExpiry (d : Drive) (s : State) : Result :=
  match (s.slot d).subState with
  | .waitStepPulse =>
    .next ((s.updSlot d fun x => { x with pcn := steppedPcn x, subState := .waitStepSettle }).setTimer d
      (some (s.now + s.settleTime)))
  | .waitStepSettle => runMove d ((s.setTimer d none).setSub d .move)
  | _ => .next (s.setTimer d none)

/-- The state in which StartSeek checks the drive: main state, ST0, no IRQ reason, Command phase (R301). -/
def seekPrepare (main : MainState) (s : State) : State :=
  { s.updSlot s.cur.d (fun x => { x with mainState := main, st0 := headUnit s.cur.hd s.cur.d, irq := .none }) with
    phase := .command }

/-- A drive aimed at a cylinder, about to Move (R301). -/
def aimSeek (d : Drive) (target : Byte) (s : State) : State :=
  s.updSlot d fun x => { x with seekTarget := target, counter := 0, subState := .move }

/-- `StartSeek(op)` (R301, R302): `cur` is loaded, and `main` and `target` are those of the command. -/
def startSeek (main : MainState) (target : Byte) (s : State) : Result :=
  if s.driveReady s.cur.d then runMove s.cur.d (aimSeek s.cur.d target (seekPrepare main s))
  else seekFinish s.cur.d false ((seekPrepare main s).setSt0 s.cur.d .nr)

end Sys2Proof.Machine
end

