-- ==== Sys2Proof/Machine/Transfer.lean ====
section
/-! DEFINITION. The read, write, read-track, read-ID and format state machines: start, reactions to the engine's reports, index
pulses and terminal count (spec/42_rw_commands.md, spec/44_fifo.md R335). -/

namespace Sys2Proof.Machine

/-- An event the engine reports to a drive's state machine (R193). -/
inductive EngineEvent where
  | headerRead
  | dataMarkMissing
  | fieldRead
  | fieldWritten
deriving DecidableEq, Repr

/-! ## Start (R231) -/

/-- The state in which the start checks are made: phase, main state, ST0 to ST2, FIFO, TC flags, sector size and the head
selected (R231). -/
def startPrepare (s : State) : State :=
  let s1 := s.updSlot s.cur.d fun x => { x with mainState := s.cur.op.mainState, st0 := headUnit s.cur.hd s.cur.d }
  let s2 := fifoReset { s1 with phase := .execution, st1 := 0, st2 := 0 }
  { s2 with
    tcDone := false
    tcCut := false
    cur := { s2.cur with sectorSize := sectorBytes s2.cur.n } }.selectSide s.cur.d s.cur.hd

/-- `StartRW(op)` (R231, R232, R234); `cur` is loaded. -/
def startRW (s : State) : Result :=
  let d := s.cur.d
  let s1 := startPrepare s
  if !s1.driveReady d then .next (commandDone d ((s1.setSt0 d .nr).setIC d icAbnormal))
  else if s1.cur.op.isHostWrite && s1.writeProtected d then
    .next (commandDone d ((s1.setSt1 .nw).setIC d icAbnormal))
  else runHeadLoadSettle d (s1.setSub d .headLoadSettle)

/-! ## Multi-sector advance (R250) -/

/-- The head toggle of a multi-track command (R250). -/
def toggleHead (s : State) : State :=
  { s with cur := { s.cur with h := s.cur.h ^^^ 0x01, hd := !s.cur.hd } }.selectSide s.cur.d (!s.cur.hd)

/-- The end of the cylinder: EN without TC, the next cylinder with it (R250). -/
def endOfCylinder (s : State) : State :=
  if s.tcDone then { s with cur := { s.cur with c := s.cur.c + 1 } }
  else (s.setSt1 .en).setIC s.cur.d icAbnormal

/-- The next sector number (R250). -/
def nextR (s : State) : State := { s with cur := { s.cur with r := s.cur.r + 1 } }

/-- The wrap to sector 1, on the other head where the command is multi-track (R250). -/
def wrapSector (s : State) : State :=
  let s' := { s with cur := { s.cur with r := 1 } }
  if s.cur.mt then toggleHead s' else s'

/-- `Advance()` (R250): whether the command is done, and the state after. -/
def advance (s : State) : Bool × State :=
  let s1 := nextR s
  if s1.cur.eot < s1.cur.r then
    let s2 := wrapSector s1
    if !s2.cur.mt || !bitAt s2.cur.h 0 then (true, endOfCylinder s2) else (s.tcDone, s2)
  else (s.tcDone, s1)

/-! ## Reactions to reports. `L` is the transfer that reported; it is dropped already (R230). -/

/-- A header was read: `seen_header` and `last_id` (R237, R264). -/
def noteHeader (L : LiveTransfer) (s : State) : State :=
  { s with cur := { s.cur with seenHeader := true, lastId := L.idbuf } }

/-- The status of a header with the wrong cylinder (R237). -/
def wrongCylinder (d : Drive) (c : Byte) (s : State) : State :=
  let s1 := s.setSt2 .wc
  let s2 := if c = 0xFF then s1.setSt2 .bc else s1
  (s2.setSt1 .nd).setIC d icAbnormal

/-- Header evaluation of read and write data (R237). -/
def onHeaderReadRW (d : Drive) (L : LiveTransfer) (s0 : State) : Result :=
  let s := noteHeader L s0
  if L.crc ≠ 0 then .next (commandDone d ((s.setSt1 .de).setIC d icAbnormal))
  else if L.idbuf.c ≠ s.cur.c then .next (commandDone d (wrongCylinder d L.idbuf.c s))
  else if L.idbuf.h ≠ s.cur.h ∨ L.idbuf.r ≠ s.cur.r ∨ L.idbuf.n ≠ s.cur.n then
    liveStart d .searchAddressMarkHeader s
  else if s.cur.op = .readData ∨ s.cur.op = .readDeletedData then
    liveStart d .searchAddressMarkData (s.setSub d .sectorRead)
  else liveStart d .writeSectorSkipGap2 (fifoExpect s.cur.sectorSize (s.setSub d .sectorWrite))

/-- The address the command asks for. -/
def Cur.chrn (x : Cur) : Chrn := { c := x.c, h := x.h, r := x.r, n := x.n }

/-- Read Track's header (R264): errors are recorded and the field is read. -/
def onHeaderReadTrack (d : Drive) (L : LiveTransfer) (s0 : State) : Result :=
  let s := noteHeader L s0
  let s1 := if L.crc ≠ 0 then (s.setSt1 .de).setIC d icAbnormal else s
  let s2 := if L.idbuf ≠ s.cur.chrn then (s1.setSt1 .nd).setIC d icAbnormal else s1
  liveStart d .searchAddressMarkData (s2.setSub d .sectorRead)

/-- Read ID's header (R269). -/
def onHeaderReadId (d : Drive) (L : LiveTransfer) (s : State) : Result :=
  let s1 := { s with cur := { s.cur with
    c := L.idbuf.c, h := L.idbuf.h, r := L.idbuf.r, n := L.idbuf.n, lastId := L.idbuf } }
  .next (commandDone d (if L.crc ≠ 0 then (s1.setSt1 .de).setIC d icAbnormal else s1))

/-- The bits of a missing data mark (R238, R265). -/
def missingDataMark (d : Drive) (s : State) : State :=
  ((s.setSt1 .ma).setSt2 .md).setIC d icAbnormal

/-- The bits of a data CRC error (R242, R265). -/
def dataCrcError (d : Drive) (s : State) : State :=
  ((s.setSt1 .de).setSt2 .dd).setIC d icAbnormal

/-- After a sector of a multi-sector command: end, or search the next one (R242, R258). -/
def nextSector (d : Drive) (done : Bool) (s : State) : Result :=
  if done then .next (commandDone d s) else runSeekDone d (s.setSub d .seekDone)

/-- The data mark was of the other kind than the command expects (R178, R242). -/
def markMismatch (s : State) (deleted : Bool) : Bool := deleted != (s.cur.op == .readDeletedData)

/-- End of a data field of Read Data and Read Deleted Data (R242 to R245). -/
def onFieldReadRW (d : Drive) (L : LiveTransfer) (s0 : State) : Result :=
  let s := flushRequest s0
  let mismatch := markMismatch s L.markDeleted
  let s1 := if mismatch then s.setSt2 .cm else s
  let s2 := if L.crc ≠ 0 then dataCrcError d s1 else s1
  if L.crc ≠ 0 ∧ s.par.crcErrorContinues = false then .next (commandDone d s2)
  else
    let (done, s3) := advance s2
    nextSector d (done || (mismatch && !s3.cur.sk) || s3.overrun) s3

/-- End of a data field of Read Track (R265). -/
def onFieldReadTrack (d : Drive) (L : LiveTransfer) (s0 : State) : Result :=
  let s := flushRequest s0
  let s1 := if L.crc ≠ 0 then dataCrcError d s else s
  let s2 := { s1 with cur := { s1.cur with count := s1.cur.count + 1, r := s1.cur.r + 1 } }
  if s2.tcDone || decide (s2.cur.eot.toNat ≤ s2.cur.count) || s2.overrun then .next (commandDone d s2)
  else liveStart d .searchAddressMarkHeader (s2.setSub d .scanId)

/-- No data mark for Read Track (R265): recorded, and the search goes on. -/
def onDataMarkMissingTrack (d : Drive) (s : State) : Result :=
  liveStart d .searchAddressMarkHeader ((missingDataMark d s).setSub d .scanId)

/-- End of a written field (R258). -/
def onFieldWritten (d : Drive) (s0 : State) : Result :=
  let (done, s) := advance (fifoStopExpect s0)
  nextSector d (done || s.overrun) s

/-- `Report(e)` (R193): the transfer ends (R230), and the drive's state machine reacts. A report that the drive's state
does not wait for, which no run makes, only ends the transfer. -/
def report (e : EngineEvent) (L : LiveTransfer) (s0 : State) : Result :=
  let d := L.drive
  let s := dropLive d s0
  match e, (s.slot d).mainState, (s.slot d).subState with
  | .headerRead, .readData, .scanId => onHeaderReadRW d L s
  | .headerRead, .writeData, .scanId => onHeaderReadRW d L s
  | .headerRead, .readTrack, .scanId => onHeaderReadTrack d L s
  | .headerRead, .readId, .scanId => onHeaderReadId d L s
  | .dataMarkMissing, .readData, .sectorRead => .next (commandDone d (missingDataMark d s))
  | .dataMarkMissing, .readTrack, .sectorRead => onDataMarkMissingTrack d s
  | .fieldRead, .readData, .sectorRead => onFieldReadRW d L s
  | .fieldRead, .readTrack, .sectorRead => onFieldReadTrack d L s
  | .fieldWritten, .writeData, .sectorWrite => onFieldWritten d s
  | _, _, _ => .next s

/-! ## Index pulses -/

/-- The search ends without the sector: ND, and MA if no header at all was seen (R236, R263). -/
def recordNotFound (d : Drive) (s : State) : State :=
  let s1 := (liveAbort s).setSt1 .nd
  let s2 := if s1.cur.seenHeader then s1 else s1.setSt1 .ma
  commandDone d (s2.setIC d icAbnormal)

/-- An index pulse during a header search (R236). -/
def onIndexSearch (d : Drive) (s : State) : Result :=
  let s1 := s.updSlot d fun x => { x with counter := x.counter + 1 }
  .next (if headerIndexLimit ≤ (s1.slot d).counter then recordNotFound d s1 else s1)

/-- An index pulse starts Read Track's reading (R263). -/
def onIndexReadTrack (d : Drive) (s : State) : Result :=
  liveStart d .searchAddressMarkHeader
    ({ s with cur := { s.cur with count := 0, seenHeader := false } }.setSub d .scanId)

/-- An index pulse while a track is written ends the format in the postamble and is ignored before it (R275). -/
def onIndexTrackWrite (d : Drive) (s : State) : Result :=
  match s.live with
  | some L => .next (if L.state = .writeTrackPostSectors then commandDone d (liveAbort s) else s)
  | none => .next s

/-- An index pulse of drive `d` (R195, R236, R263, R273, R275). In every other state it is ignored (R312), and a slot with no
drive delivers none (R351). -/
def onIndex (d : Drive) (s : State) : Result :=
  if (s.units.get d).attached then
    match (s.slot d).mainState, (s.slot d).subState with
    | .readData, .scanId => onIndexSearch d s
    | .writeData, .scanId => onIndexSearch d s
    | .readId, .scanId => onIndexSearch d s
    | .readTrack, .waitIndex => onIndexReadTrack d s
    | .readTrack, .scanId => .next (recordNotFound d s)
    | .readTrack, .sectorRead => .next (recordNotFound d s)
    | .formatTrack, .waitIndex => liveStart d .writeTrackPreSectors (s.setSub d .trackWrite)
    | .formatTrack, .trackWrite => onIndexTrackWrite d s
    | _, _ => .next s
  else .next s

/-! ## Terminal count (R335) -/

/-- The engine has no byte of the field in flight yet (R335). -/
def LiveState.beforeField : LiveState → Bool
  | .searchAddressMarkData => true
  | .readDataBlockHeader => true
  | _ => false

/-- `tc_cut` as `OnTC` sets it (R335). -/
def cutBeforeField (s : State) : State :=
  match s.live with
  | some L => if L.state.beforeField then { s with tcCut := true } else s
  | none => s

/-- `OnTC()` (R335, R239). -/
def onTC (s : State) : State :=
  if s.phase ≠ .execution ∨ s.tcDone = true then s
  else
    let s1 := { s with tcDone := true }
    let s2 := if s1.fifoWrite then { s1 with fifoExpected := 0, internalDrq := false } else s1
    let s3 := cutBeforeField s2
    match (s3.slot s3.cur.d).subState with
    | .scanId => commandDone s3.cur.d (liveAbort s3)
    | .waitIndex => commandDone s3.cur.d (liveAbort s3)
    | .drain => finishResult s3.cur.d { s3 with fifo := [], internalDrq := false }
    | _ => s3

end Sys2Proof.Machine
end

