-- ==== Sys2Proof/Machine/Accept.lean ====
section
/-! DEFINITION. `Accept()`: what every command does when its last byte has been written (spec/45_host_interface.md R362). -/

namespace Sys2Proof.Machine

/-- The command record loaded and the command buffer emptied (R34, R362). -/
def loadCommand (i : Instr) (s : State) : State := { s with cur := loadCur i, cmd := [] }

/-- Acceptance of a command that addresses no drive's state machine (R362). -/
def accept (i : Instr) (run : State → Result) (s : State) : Result := finishOutputs (run (loadCommand i s))

/-- Acceptance of a command for a drive: a drive that is not Idle gets the invalid result (R362, R363, D52). -/
def acceptForDrive (i : Instr) (d : Drive) (run : State → Result) (s : State) : Result :=
  finishOutputs
    (if (s.slot d).mainState = .idle then run (loadCommand i s) else .next (invalidCommand (loadCommand i s)))

end Sys2Proof.Machine
end

