-- ==== Sys2Proof/Machine/ReadCommands.lean ====
section
/-! DEFINITION. The meanings of READ_DATA, READ_DELETED_DATA, READ_TRACK and READ_ID: the command's acceptance, after which the
drive's state machine (Transfer.lean) and the engine (Engine.lean) carry it to its result. -/

namespace Sys2Proof.Machine

/-- READ_DATA (R240). -/
def execReadData (mt mf sk hd : Bool) (us : Drive) (p : SectorParams) (s : State) : Result :=
  acceptForDrive (.readData mt mf sk hd us p) us startRW s

/-- READ_DELETED_DATA (R241). -/
def execReadDeletedData (mt mf sk hd : Bool) (us : Drive) (p : SectorParams) (s : State) : Result :=
  acceptForDrive (.readDeletedData mt mf sk hd us p) us startRW s

/-- READ_TRACK (R262). -/
def execReadTrack (mf hd : Bool) (us : Drive) (p : SectorParams) (s : State) : Result :=
  acceptForDrive (.readTrack mf hd us p) us startRW s

/-- READ_ID (R268). -/
def execReadId (mf hd : Bool) (us : Drive) (s : State) : Result :=
  acceptForDrive (.readId mf hd us) us startRW s

end Sys2Proof.Machine
end

