-- ==== Sys2Proof/Machine/SeekCommands.lean ====
section
/-! DEFINITION. The meanings of SEEK and RECALIBRATE: the start of the stepping, which the drive's timer (Stepping.lean) carries to
its end in the background. -/

namespace Sys2Proof.Machine

/-- SEEK (R307). -/
def execSeek (hd : Bool) (us : Drive) (ncn : Byte) (s : State) : Result :=
  acceptForDrive (.seek hd us ncn) us (startSeek .seek ncn) s

/-- RECALIBRATE (R308). -/
def execRecalibrate (us : Drive) (s : State) : Result :=
  acceptForDrive (.recalibrate us) us (startSeek .recalibrate 0) s

end Sys2Proof.Machine
end

