-- ==== Sys2Proof/Machine/SenseCommands.lean ====
section
/-! DEFINITION. The meanings of SENSE_INTERRUPT_STATUS and SENSE_DRIVE_STATUS. -/

namespace Sys2Proof.Machine

/-- The lowest drive with an IRQ reason (R372). -/
def State.lowestReason (s : State) : Option Drive :=
  if s.drives.s0.irq ≠ .none then some .d0
  else if s.drives.s1.irq ≠ .none then some .d1
  else if s.drives.s2.irq ≠ .none then some .d2
  else if s.drives.s3.irq ≠ .none then some .d3
  else none

/-- The two result bytes of a drive's reason (R372). -/
def reasonBytes (d : Drive) (x : DriveSlot) : List Byte :=
  if x.irq = .polled then [(3 : BitVec 2) ++ (0 : BitVec 4) ++ driveBits d, x.pcn] else [x.st0, x.pcn]

/-- A Polled reason removed (R372, GlobalFlag). -/
def DriveSlot.clearPolled (x : DriveSlot) : DriveSlot := if x.irq = .polled then { x with irq := .none } else x

/-- A reason reported: cleared on its drive, and with it every Polled reason under GlobalFlag (R372, D38). -/
def clearReason (d : Drive) (s : State) : State :=
  let s' := s.updSlot d fun x => { x with irq := .none }
  match s.par.pollIrqPolicy with
  | .perDrive => s'
  | .globalFlag => { s' with drives := s'.drives.map DriveSlot.clearPolled }

/-- `SIS()` (R372). -/
def senseInterrupt (s : State) : State :=
  match s.lowestReason with
  | none => enterResult [0x80] s
  | some d => enterResult (reasonBytes d (s.slot d)) (clearReason d s)

/-- SENSE_INTERRUPT_STATUS (R372). -/
def execSenseInterruptStatus (s : State) : Result :=
  accept .senseInterruptStatus (fun s => .next (senseInterrupt s)) s

/-- SENSE_DRIVE_STATUS (R373). -/
def execSenseDriveStatus (hd : Bool) (us : Drive) (s : State) : Result :=
  accept (.senseDriveStatus hd us) (fun s => .next (enterResult [s.st3 us hd] s)) s

end Sys2Proof.Machine
end

