-- ==== Sys2Proof/Machine/SetupCommands.lean ====
section
/-! DEFINITION. The meanings of SPECIFY, CONFIGURE and LOCK. -/

namespace Sys2Proof.Machine

/-- SPECIFY (R375). -/
def execSpecify (srt hut : BitVec 4) (hlt : BitVec 7) (nd : Bool) (s : State) : Result :=
  accept (.specify srt hut hlt nd)
    (fun s => .next { s with srt := srt, hut := hut, hlt := hlt, nd := nd, phase := .command }) s

/-- CONFIGURE (R376). -/
def execConfigure (cfg pretrk : Byte) (s : State) : Result :=
  accept (.configure cfg pretrk)
    (fun s => .next { s with fifocfg := cfg, precomp := pretrk, phase := .command }) s

/-- The result byte of LOCK, `LOCK << 4` (R112, R377). -/
def lockByte (lk : Bool) : Byte := (0 : BitVec 3) ++ BitVec.ofBool lk ++ (0 : BitVec 4)

/-- LOCK (R377). -/
def execLock (lk : Bool) (s : State) : Result :=
  accept (.lock lk) (fun s => .next (enterResult [lockByte lk] { s with locked := lk })) s

end Sys2Proof.Machine
end

