-- ==== Sys2Proof/Machine/WriteCommands.lean ====
section
/-! DEFINITION. The meanings of WRITE_DATA, WRITE_DELETED_DATA and FORMAT_TRACK: the command's acceptance, after which the drive's
state machine (Transfer.lean) and the engine (Engine.lean) carry it to its result. -/

namespace Sys2Proof.Machine

/-- WRITE_DATA (R255). -/
def execWriteData (mt mf hd : Bool) (us : Drive) (p : SectorParams) (s : State) : Result :=
  acceptForDrive (.writeData mt mf hd us p) us startRW s

/-- WRITE_DELETED_DATA (R256). -/
def execWriteDeletedData (mt mf hd : Bool) (us : Drive) (p : SectorParams) (s : State) : Result :=
  acceptForDrive (.writeDeletedData mt mf hd us p) us startRW s

/-- FORMAT_TRACK (R272). -/
def execFormatTrack (mf hd : Bool) (us : Drive) (n sc gpl fill : Byte) (s : State) : Result :=
  acceptForDrive (.formatTrack mf hd us n sc gpl fill) us startRW s

end Sys2Proof.Machine
end

