-- ==== Sys2Proof/Machine/Dispatch.lean ====
section
/-! DEFINITION. The dispatch of an accepted command to its meaning (spec/45_host_interface.md R362), in the order of
spec/opcode_table.json. -/

namespace Sys2Proof.Machine

def exec (i : Instr) (s : State) : Host.Outcome State Fault Refusal :=
  match i with
  | .readTrack mf hd us p => Sys2Proof.Machine.execReadTrack mf hd us p s
  | .specify srt hut hlt nd => Sys2Proof.Machine.execSpecify srt hut hlt nd s
  | .senseDriveStatus hd us => Sys2Proof.Machine.execSenseDriveStatus hd us s
  | .writeData mt mf hd us p => Sys2Proof.Machine.execWriteData mt mf hd us p s
  | .readData mt mf sk hd us p => Sys2Proof.Machine.execReadData mt mf sk hd us p s
  | .recalibrate us => Sys2Proof.Machine.execRecalibrate us s
  | .senseInterruptStatus => Sys2Proof.Machine.execSenseInterruptStatus s
  | .writeDeletedData mt mf hd us p => Sys2Proof.Machine.execWriteDeletedData mt mf hd us p s
  | .readId mf hd us => Sys2Proof.Machine.execReadId mf hd us s
  | .readDeletedData mt mf sk hd us p => Sys2Proof.Machine.execReadDeletedData mt mf sk hd us p s
  | .formatTrack mf hd us n sc gpl fill => Sys2Proof.Machine.execFormatTrack mf hd us n sc gpl fill s
  | .seek hd us ncn => Sys2Proof.Machine.execSeek hd us ncn s
  | .configure cfg pretrk => Sys2Proof.Machine.execConfigure cfg pretrk s
  | .lock lk => Sys2Proof.Machine.execLock lk s

end Sys2Proof.Machine
end

