-- ==== Sys2Proof/Machine/Engine.lean ====
section
/-! DEFINITION. The live bitstream engine, one cell or one choice of a byte at a time (spec/41_bitstream.md R170 to R187, R192). -/

namespace Sys2Proof.Machine

/-- The transfer's working registers stored back. -/
def State.setLive (s : State) (L : LiveTransfer) : State := { s with live := some L }

/-- The live states that emit bytes (R180); the gap skip reads cells (R182). -/
def LiveState.writes : LiveState → Bool
  | .writeSectorData => true
  | .writeTrackPreSectors => true
  | .writeTrackSector => true
  | .writeTrackPostSectors => true
  | _ => false

/-- The instant of the engine's next work (R90, R192): the end of the next cell, or, in a write state whose next word is not
chosen, the instant the last byte ended. -/
def LiveTransfer.nextTime (L : LiveTransfer) (p : Pll) : Option Int :=
  if L.state = .idle then none
  else if L.state.writes then (if L.bitCounter = 0 then some L.tm else some (pllWriteEnd p))
  else some (pllWindowEnd p)

/-- `live_timer` (R70, R193): the instant of the engine's next work, Never when no transfer runs. -/
def State.liveTimer (s : State) : Option Int :=
  match s.live with
  | none => none
  | some L => L.nextTime s.pll

/-! ## Reading (R171 to R178) -/

/-- The registers after one read cell (R171). -/
def shiftCell (L : LiveTransfer) (r : Bool) (ctime : Int) : LiveTransfer :=
  { L with
    tm := ctime
    shiftReg := (L.shiftReg <<< 1) ||| (BitVec.ofBool r).setWidth 16
    bitCounter := L.bitCounter + 1
    dataReg := if L.dataSeparatorPhase then (L.dataReg <<< 1) ||| bitByte r else L.dataReg
    crc := if L.dataSeparatorPhase then crcBit L.crc r else L.crc
    dataSeparatorPhase := !L.dataSeparatorPhase }

/-- `ReadCell(limit)` (R171), none for `NeedMoreTime`. -/
def readCell (limit : Int) (L : LiveTransfer) (s : State) : Option (LiveTransfer × State) :=
  match nextBit s.pll (s.nextFlux L.drive s.pll.ctime) limit with
  | none => none
  | some (r, p) => some (shiftCell L r p.ctime, { s with pll := p })

/-- A sync or mark was matched: the CRC is loaded, and the next cell is a clock cell (R169, R172, R175). -/
def resync (L : LiveTransfer) (crc : BitVec 16) (st : LiveState) : LiveTransfer :=
  { L with crc := crc, dataSeparatorPhase := false, bitCounter := 0, state := st }

/-- SearchAddressMarkHeader (R172). -/
def searchHeader (mfm : Bool) (L : LiveTransfer) : LiveTransfer :=
  if mfm && L.shiftReg == mfmSync then resync L crcAfterSync .readHeaderBlockHeader
  else if !mfm && L.shiftReg == fmHeaderMark then resync L crcAfterFmHeader .readIdBlock
  else L

/-- ReadHeaderBlockHeader at a byte boundary (R173). -/
def headerMark (L : LiveTransfer) : LiveTransfer :=
  if L.bitCounter / 16 < 3 then
    if L.shiftReg = mfmSync then L else { L with state := .searchAddressMarkHeader }
  else if L.dataReg = markHeader then { L with bitCounter := 0, state := .readIdBlock }
  else { L with state := .searchAddressMarkHeader }

/-- ReadIdBlock at a byte boundary: C, H, R, N in slots 0 to 3 (R174). -/
def idByteRead (L : LiveTransfer) : LiveTransfer :=
  { L with idbuf := L.idbuf.setByte (L.bitCounter / 16 - 1) L.dataReg }

/-- `SkipField()` (R178). -/
def skipField (s : State) (deleted : Bool) : Bool :=
  ((s.cur.op == .readData && deleted) || (s.cur.op == .readDeletedData && !deleted)) && s.cur.sk

/-- The data field starts (R175, R176). -/
def startField (s : State) (deleted : Bool) (L : LiveTransfer) : LiveTransfer :=
  { L with markDeleted := deleted, suppress := skipField s deleted, bitCounter := 0, state := .readSectorData }

/-- SearchAddressMarkData inside the window (R175). -/
def searchData (s : State) (L : LiveTransfer) : LiveTransfer :=
  if s.cur.mf then
    if L.shiftReg = mfmSync then resync L crcAfterSync .readDataBlockHeader else L
  else if L.shiftReg = fmDeletedMark then startField s true (resync L crcAfterFmDeleted .readSectorData)
  else if L.shiftReg = fmDataMark then startField s false (resync L crcAfterFmData .readSectorData)
  else L

/-- ReadDataBlockHeader at a byte boundary (R176). -/
def dataMark (s : State) (L : LiveTransfer) : LiveTransfer :=
  if L.bitCounter / 16 < 3 then
    if L.shiftReg = mfmSync then L else { L with state := .searchAddressMarkData }
  else if L.dataReg = markData then startField s false L
  else if L.dataReg = markDeletedData then startField s true L
  else { L with state := .searchAddressMarkData }

/-- A TC seen by the end of a byte cuts the bytes after it (R177). -/
def cutAfterTC (s : State) : State := if s.tcDone then { s with tcCut := true } else s

/-- A data byte is complete: delivered unless it is suppressed or cut (R177). -/
def deliverByte (L : LiveTransfer) (s : State) : State :=
  cutAfterTC (if L.suppress || s.tcCut then s else enginePush L.dataReg s)

/-- ReadSectorData at a byte boundary (R177). -/
def sectorByte (L : LiveTransfer) (s : State) : Result :=
  if L.bitCounter / 16 - 1 < s.cur.sectorSize then .next (deliverByte L (s.setLive L))
  else if L.bitCounter / 16 - 1 = s.cur.sectorSize + 1 then report .fieldRead { L with state := .idle } s
  else .next (s.setLive L)

/-- WriteSectorSkipGap2 (R182). -/
def skipGap2 (L : LiveTransfer) (s : State) : State :=
  if L.bitCounter = 16 * gap2Skip s.cur.mf then
    { s with
      pll := pllStartWriting s.pll L.tm
      live := some { L with bitCounter := 0, byteCounter := 0, state := .writeSectorData } }
  else s.setLive L

/-- What a read state does with a cell just read; `L` holds the registers after the cell, `s` the rest. -/
def afterCell (L : LiveTransfer) (s : State) : Result :=
  match L.state with
  | .searchAddressMarkHeader => .next (s.setLive (searchHeader s.cur.mf L))
  | .readHeaderBlockHeader => .next (s.setLive (if L.bitCounter % 16 = 0 then headerMark L else L))
  | .readIdBlock =>
    if L.bitCounter % 16 = 0 then
      if L.bitCounter / 16 - 1 = 5 then report .headerRead { idByteRead L with state := .idle } s
      else .next (s.setLive (idByteRead L))
    else .next (s.setLive L)
  | .searchAddressMarkData =>
    if dataMarkMax s.cur.mf < L.bitCounter then report .dataMarkMissing { L with state := .idle } s
    else .next (s.setLive (if dataMarkMin s.cur.mf ≤ L.bitCounter then searchData s L else L))
  | .readDataBlockHeader => .next (s.setLive (if L.bitCounter % 16 = 0 then dataMark s L else L))
  | .readSectorData => if L.bitCounter % 16 = 0 then sectorByte L s else .next (s.setLive L)
  | .writeSectorSkipGap2 => .next (skipGap2 L s)
  | .idle => .next (s.setLive L)
  | .writeSectorData => .next (s.setLive L)
  | .writeTrackPreSectors => .next (s.setLive L)
  | .writeTrackSector => .next (s.setLive L)
  | .writeTrackPostSectors => .next (s.setLive L)

/-! ## Writing (R179 to R187) -/

/-- `EmitByte(v)` (R179): the cells of a byte are loaded. -/
def emitByte (mfm : Bool) (v : Byte) (L : LiveTransfer) : LiveTransfer :=
  if mfm then
    { L with
      shiftReg := (mfmEncode v L.dataBitContext).1
      dataBitContext := (mfmEncode v L.dataBitContext).2
      bitCounter := 16 }
  else { L with shiftReg := fmEncode v, dataBitContext := bitAt v 0, bitCounter := 16 }

/-- `EmitRaw(w)` (R179): a mark's cells are loaded. -/
def emitRaw (w : Cells) (L : LiveTransfer) : LiveTransfer :=
  { L with shiftReg := w, dataBitContext := w.getLsbD 0, bitCounter := 16 }

/-- The registers after one written cell (R179). -/
def shiftOut (L : LiveTransfer) (ctime : Int) : LiveTransfer :=
  { L with
    tm := ctime
    crc := if L.bitCounter % 2 = 1 then crcBit L.crc (L.shiftReg.getLsbD 15) else L.crc
    shiftReg := L.shiftReg <<< 1
    bitCounter := L.bitCounter - 1 }

/-- One cell of `EmitCells(limit)`, with the commit at the end of the byte (R179). -/
def emitCell (limit : Int) (L : LiveTransfer) (s : State) : State :=
  match writeBit s.pll (L.shiftReg.getLsbD 15) limit with
  | none => s
  | some p =>
    let L1 := shiftOut L p.ctime
    let s1 := { s with pll := p }
    if L1.bitCounter = 0 then
      (commitWrite L.drive L1.tm s1).setLive { L1 with byteCounter := L1.byteCounter + 1 }
    else s1.setLive L1

/-- `DataByte()` (R183): zero-fill after TC, without an underrun. -/
def dataByte (s : State) : Byte × State := if s.tcDone && s.fifo.isEmpty then (0, s) else enginePop s

/-- `IdByte(i)` (R186). -/
def idByte (i : Nat) (s : State) : Byte × State :=
  let (v, s') := dataByte s
  (v, { s' with cur := { s'.cur with lastId := s'.cur.lastId.setByte i v } })

/-- The CRC restarts before a field's first mark (R183, R186). -/
def crcStart (L : LiveTransfer) : LiveTransfer := { L with crc := crcInit }

/-- The data mark written: the MFM marker byte or the FM mark (R183). -/
def emitDataMark (mfm deleted : Bool) (L : LiveTransfer) : LiveTransfer :=
  if mfm then emitByte true (if deleted then markDeletedData else markData) L
  else emitRaw (if deleted then fmDeletedMark else fmDataMark) (crcStart L)

/-- The ID mark written (R186). -/
def emitIdMark (mfm : Bool) (L : LiveTransfer) : LiveTransfer :=
  if mfm then emitByte true markHeader L else emitRaw fmHeaderMark (crcStart L)

/-- The sync field, the MFM syncs and the mark that open a field at relative position `k`: 12 + 3 + 1 byte-times in MFM,
6 + 1 in FM (R183, R186). -/
def emitFieldOpening (mfm : Bool) (mark : LiveTransfer → LiveTransfer) (k : Nat) (L : LiveTransfer) : LiveTransfer :=
  if mfm then
    if k < 12 then emitByte true 0x00 L
    else if k = 12 then emitRaw mfmSync (crcStart L)
    else if k < 15 then emitRaw mfmSync L
    else mark L
  else if k < 6 then emitByte false 0x00 L
  else mark L

/-- The length of a field's opening, in byte-times. -/
def openingBytes (mfm : Bool) : Nat := if mfm then 16 else 7

/-- The gap byte of a track (R185 to R187). -/
def gapByte (mfm : Bool) : Byte := if mfm then 0x4E else 0xFF

/-- The choice of the next byte of a data field write at position `L.byteCounter` (R183). -/
def chooseSectorData (L : LiveTransfer) (s : State) : Result :=
  let mfm := s.cur.mf
  let k := L.byteCounter
  let o := openingBytes mfm
  if k < o then
    .next (s.setLive (emitFieldOpening mfm (emitDataMark mfm (s.cur.op == .writeDeletedData)) k L))
  else if k < o + s.cur.sectorSize then
    let (v, s') := dataByte s
    .next (s'.setLive (emitByte mfm v L))
  else if k < o + s.cur.sectorSize + 2 then .next (s.setLive (emitByte mfm (crcHigh L.crc) L))
  else report .fieldWritten { L with state := .idle } (stopWriting L.drive L.tm s)

/-- The track preamble's next byte (R185): the MFM and FM layouts. -/
def emitPreamble (mfm : Bool) (k : Nat) (L : LiveTransfer) : LiveTransfer :=
  if mfm then
    if k < 80 then emitByte true 0x4E L
    else if k < 92 then emitByte true 0x00 L
    else if k < 95 then emitRaw mfmIndexSync L
    else if k = 95 then emitByte true markIndex L
    else emitByte true 0x4E L
  else if k < 40 then emitByte false 0xFF L
  else if k < 46 then emitByte false 0x00 L
  else if k = 46 then emitRaw fmIndexMark L
  else emitByte false 0xFF L

/-- The length of the preamble, in byte-times (R185). -/
def preambleBytes (mfm : Bool) : Nat := if mfm then 146 else 73

/-- The choice of the next byte of the track preamble (R185). -/
def choosePreamble (L : LiveTransfer) (s : State) : State :=
  if L.byteCounter < preambleBytes s.cur.mf then
    (if L.byteCounter = 0 ∧ 0 < s.cur.sc.toNat then fifoExpect 4 s else s).setLive
      (emitPreamble s.cur.mf L.byteCounter L)
  else
    s.setLive { L with
      byteCounter := 0
      state := if 0 < s.cur.sectorsLeft then .writeTrackSector else .writeTrackPostSectors }

/-- The end of a formatted sector (R186). -/
def sectorEnd (L : LiveTransfer) (s : State) : State :=
  let id := s.cur.lastId
  let s1 := { s with cur := { s.cur with
    sectorsLeft := s.cur.sectorsLeft - 1, c := id.c, h := id.h, r := id.r, n := id.n } }
  if 0 < s1.cur.sectorsLeft then (fifoExpect 4 s1).setLive { L with byteCounter := 0 }
  else s1.setLive { L with byteCounter := 0, state := .writeTrackPostSectors }

/-- Gap 2 of a formatted sector, in byte-times (R186). -/
def gap2Bytes (mfm : Bool) : Nat := if mfm then 22 else 11

/-- The choice of the next byte of a formatted sector at position `L.byteCounter` (R186): opening, four ID bytes, two CRC
bytes, gap 2, opening, the filled data field, two CRC bytes, gap 3. -/
def chooseTrackSector (L : LiveTransfer) (s : State) : State :=
  let mfm := s.cur.mf
  let k := L.byteCounter
  let o := openingBytes mfm
  let g := o + 6 + gap2Bytes mfm
  let e := g + o + s.cur.sectorSize
  if k < o then s.setLive (emitFieldOpening mfm (emitIdMark mfm) k L)
  else if k < o + 4 then
    let (v, s') := idByte (k - o) s
    s'.setLive (emitByte mfm v L)
  else if k < o + 6 then s.setLive (emitByte mfm (crcHigh L.crc) L)
  else if k < g then s.setLive (emitByte mfm (gapByte mfm) L)
  else if k < g + o then s.setLive (emitFieldOpening mfm (emitDataMark mfm false) (k - g) L)
  else if k < e then s.setLive (emitByte mfm s.cur.fill L)
  else if k < e + 2 then s.setLive (emitByte mfm (crcHigh L.crc) L)
  else if k < e + 2 + s.cur.gpl.toNat then s.setLive (emitByte mfm (gapByte mfm) L)
  else sectorEnd L s

/-- The choice a write state makes at the end of a byte (R180). -/
def chooseByte (L : LiveTransfer) (s : State) : Result :=
  match L.state with
  | .writeSectorData => chooseSectorData L s
  | .writeTrackPreSectors => .next (choosePreamble L s)
  | .writeTrackSector => .next (chooseTrackSector L s)
  | .writeTrackPostSectors => .next (s.setLive (emitByte s.cur.mf (gapByte s.cur.mf) L))
  | _ => .next s

/-! ## One unit of the engine's work (R192) -/

/-- One read cell, one written cell, or one choice of the next byte, up to `limit` (R192). -/
def engineStep (limit : Int) (s : State) : Result :=
  match s.live with
  | none => .next s
  | some L =>
    if L.state.writes then
      if L.bitCounter = 0 then chooseByte L s else .next (emitCell limit L s)
    else
      match readCell limit L s with
      | none => .next s
      | some (L', s') => afterCell L' s'

end Sys2Proof.Machine
end

