-- ==== Sys2Proof/Machine/Reset.lean ====
section
/-! DEFINITION. The soft and hardware resets and the ready poll (spec/70_reset_and_hazards.md R450 to R454,
spec/60_exceptions.md R430). -/

namespace Sys2Proof.Machine

/-- `ArmPoll()` (R430, R452). -/
def armPoll (s : State) : State := { s with pollTimer := some (s.now + pollFirst) }

/-- A drive slot after a soft reset: the cylinder and the step direction stay (R45, R451). -/
def softResetSlot (readyPolled : Bool) (x : DriveSlot) : DriveSlot :=
  { DriveSlot.reset readyPolled with pcn := x.pcn, dir := x.dir }

/-- `SoftReset()` (R451). -/
def softReset (s : State) : State :=
  let s1 := fifoReset (liveAbort s)
  { s1 with
    phase := .command
    cmd := []
    res := []
    st1 := 0
    st2 := 0
    tcDone := false
    tcCut := false
    dataIrq := false
    fifocfg := if s1.locked then s1.fifocfg else fifocfgReset
    precomp := if s1.locked then s1.precomp else 0
    drives := s1.drives.map (softResetSlot s1.par.readyPolled)
    driveTimer := Slots.replicate none
    pollTimer := none }

/-- The DOR motor enable of a drive, bit `4 + d` (R366). -/
def motorBit (v : Byte) : Drive → Bool
  | .d0 => bitAt v 4
  | .d1 => bitAt v 5
  | .d2 => bitAt v 6
  | .d3 => bitAt v 7

/-- `motor(on)` for a drive whose motor bit changes (R366). -/
def motorCall (old new : Byte) (d : Drive) : List Output :=
  if motorBit old d = motorBit new d then [] else [.motor d (motorBit new d)]

/-- The motor calls of a DOR change, drive 0 first (R366). -/
def motorCalls (old new : Byte) : List Output :=
  motorCall old new .d0 ++ motorCall old new .d1 ++ motorCall old new .d2 ++ motorCall old new .d3

/-- `HardwareReset()` (R453): every field at its power-on value and the poll armed. The Drives, the parameters and the
inputs to come are not the block's, and the lines keep their reported levels until the step's `UpdateOutputs()`, which
reports their falling edges (log entry 12). -/
def hardwareReset (s : State) : State :=
  let s1 := liveAbort s
  armPoll { State.reset with
    drives := Slots.replicate (DriveSlot.reset s1.par.readyPolled)
    irqOut := s1.irqOut
    drqOut := s1.drqOut
    units := s1.units
    par := s1.par
    now := s1.now
    inputs := s1.inputs
    outs := s1.outs ++ motorCalls s1.dor dorReset }

/-- The ready poll of one drive (R430). -/
def pollSlot (ready : Bool) (x : DriveSlot) : DriveSlot :=
  if x.mainState = .idle ∧ ready ≠ x.ready then
    { x with ready := ready, irq := if x.irq = .none then .polled else x.irq }
  else x

/-- `poll_timer` expires (R430). -/
def pollExpiry (s : State) : State :=
  let s1 := { s with pollTimer := some (s.now + pollInterval) }
  if !s1.par.readyPolled || !s1.notReset || s1.pollDisabled then s1
  else if s1.phase ≠ .command ∨ s1.cmd ≠ [] then s1
  else
    { s1 with drives :=
      { s0 := pollSlot (s1.driveReady .d0) s1.drives.s0
        s1 := pollSlot (s1.driveReady .d1) s1.drives.s1
        s2 := pollSlot (s1.driveReady .d2) s1.drives.s2
        s3 := pollSlot (s1.driveReady .d3) s1.drives.s3 } }

end Sys2Proof.Machine
end

