-- ==== Sys2Proof/Machine/HostPort.lean ====
section
/-! DEFINITION. The host's register accesses, the DMA pair, the TC input, and the command bytes (spec/45_host_interface.md R353 to
R369). -/

namespace Sys2Proof.Machine

/-! ## The dispatcher's byte parser (R362) -/

/-- The command's bytes with one more: the command runs when its last byte is there. -/
def appendCommandByte (bs : List Byte) (s : State) : Result :=
  match decode bs with
  | .known i [] => exec i s
  | _ => .next { s with cmd := bs }

/-- `CommandByte(v)` (R362): the first byte clears the data IRQ, and is answered at once where it is invalid (R363) or of
another family member (R108). -/
def commandByte (v : Byte) (s : State) : Result :=
  if s.cmd = [] then
    let s' := { s with dataIrq := false }
    match decodeOpcode v with
    | .invalid => .next (invalidCommand s')
    | .refused r => .refused (.unmodelledCommand r)
    | .known _ => appendCommandByte [v] s'
  else appendCommandByte (s.cmd ++ [v]) s

/-! ## Register writes -/

/-- `HostWriteData(v)` (R358). -/
def hostWriteData (v : Byte) (s : State) : Result :=
  if s.notReset then
    match s.phase with
    | .command => commandByte v s
    | .execution => .next (if s.cur.op.isHostWrite then hostPush v s else s)
    | .result => .next s
  else .next s

/-- `HostWriteDOR(v)` (R366). -/
def hostWriteDor (v : Byte) (s : State) : State :=
  let s1 := { s with dor := v, outs := s.outs ++ motorCalls s.dor v }
  let s2 := if bitAt s.dor 2 && !bitAt v 2 then softReset s1 else s1
  if !bitAt s.dor 2 && bitAt v 2 then armPoll s2 else s2

/-- The rate selector in bits 1..0 of DSR and CCR (R368, R369). -/
def setRate (v : Byte) (s : State) : State := { s with rateSel := v.extractLsb' 0 2 }

/-- `DSR` write (R368). -/
def hostWriteDsr (v : Byte) (s : State) : State :=
  let s1 := setRate v s
  if bitAt v 7 then
    let s2 := softReset s1
    if s2.notReset then armPoll s2 else s2
  else s1

/-- A host register write (R353); a write of MSR is ignored. -/
def hostWrite (reg : HostReg) (v : Byte) (s : State) : Result :=
  match reg with
  | .msr => .next s
  | .dsr => .next (hostWriteDsr v s)
  | .data => hostWriteData v s
  | .dor => .next (hostWriteDor v s)
  | .ccr => .next (setRate v s)
  | .extended => .refused .extendedRegister

/-! ## Register reads -/

/-- The byte a host or DMA read returns. -/
def answer (r : Byte × State) : Result := .next (r.2.emit (.readValue r.1))

/-- `HostReadData()` (R357). -/
def hostReadData (s : State) : Byte × State :=
  match s.phase with
  | .result => resultRead s
  | .execution => if s.cur.op.isHostRead then hostPop s else (0xFF, s)
  | .command => (0xFF, s)

/-- A host register read (R353): MSR clears the data IRQ (R354), DSR and CCR are write only. -/
def hostRead (reg : HostReg) (s : State) : Result :=
  match reg with
  | .msr => answer (s.mainStatus, { s with dataIrq := false })
  | .dsr => answer (0xFF, s)
  | .data => answer (hostReadData s)
  | .dor => answer (s.dor, s)
  | .ccr => answer (0xFF, s)
  | .extended => .refused .extendedRegister

/-! ## The DMA pair (R360) and the TC input (R361) -/

/-- DMA `read()` (R360). -/
def dmaRead (s : State) : Byte × State :=
  if s.phase = .execution ∧ s.cur.op.isHostRead = true then hostPop s else (0xFF, s)

/-- DMA `write(v)` (R360). -/
def dmaWrite (v : Byte) (s : State) : State :=
  if s.phase = .execution ∧ s.cur.op.isHostWrite = true then hostPush v s else s

/-- A level of the TC input (R361): a rising edge calls `OnTC()`. -/
def tcInput (level : Bool) (s : State) : State :=
  if !s.tcLevel && level then onTC { s with tcLevel := true } else { s with tcLevel := level }

/-! ## The Drive collaborators' own changes (R71) -/

/-- A drive presents these levels from now on. -/
def setLines (d : Drive) (attached ready trackZero writeProtected twoSided : Bool) (s : State) : State :=
  s.updUnit d fun u =>
    { u with
      attached := attached, ready := ready, trackZero := trackZero, writeProtected := writeProtected,
      twoSided := twoSided }

/-- A drive presents this flux on a head from now on. -/
def setFluxInput (d : Drive) (head : Bool) (ts : List Int) (s : State) : State :=
  s.updUnit d fun u => u.setFlux head (fluxOfList ts)

/-- One input of the outside world (R30, R350). -/
def applyInput (i : Input) (s : State) : Result :=
  match i with
  | .hostWrite reg v => hostWrite reg v s
  | .hostRead reg => hostRead reg s
  | .dmaRead => answer (dmaRead s)
  | .dmaWrite v => .next (dmaWrite v s)
  | .tc level => .next (tcInput level s)
  | .index d => onIndex d s
  | .hardwareReset => .next (hardwareReset s)
  | .lines d a r t w x => .next (setLines d a r t w x s)
  | .flux d h ts => .next (setFluxInput d h ts s)

end Sys2Proof.Machine
end

