-- ==== Sys2Proof/Machine/Schedule.lean ====
section
/-! DEFINITION. Which event is next, and the order of events at one instant (spec/20_memory.md R90 to R92,
spec/70_reset_and_hazards.md R470). -/

namespace Sys2Proof.Machine

/-- The earlier of two instants; Never is later than every instant (R11). -/
def earlier : Option Int → Option Int → Option Int
  | none, b => b
  | a, none => a
  | some a, some b => some (if b < a then b else a)

/-- The earliest pending event time (R90): the engine's next work, the drive timers, the poll timer, the inputs. -/
def State.nextEvent (s : State) : Option Int :=
  earlier s.liveTimer
    (earlier s.driveTimer.s0
      (earlier s.driveTimer.s1
        (earlier s.driveTimer.s2
          (earlier s.driveTimer.s3
            (earlier s.pollTimer (s.inputs.foldr (fun e t => earlier (some e.time) t) none))))))

/-- An instant that has come. -/
def dueAt (now : Int) : Option Int → Bool
  | none => false
  | some t => decide (t ≤ now)

/-- The place of an input among the events of one instant (R470): index pulses by drive, the TC edge, host and DMA
accesses. The Drives' own changes come first, and the reset input before the host (log entry 5). -/
def Input.rank : Input → Nat
  | .lines .. => 0
  | .flux .. => 0
  | .index .d0 => 1
  | .index .d1 => 2
  | .index .d2 => 3
  | .index .d3 => 4
  | .tc _ => 5
  | .hardwareReset => 6
  | .hostWrite .. => 7
  | .hostRead _ => 7
  | .dmaRead => 7
  | .dmaWrite _ => 7

/-- The first due input of a rank, and the inputs without it: those of one rank are taken in the order they stand. -/
def takeRank (now : Int) (k : Nat) : List Event → Option (Input × List Event)
  | [] => none
  | e :: es =>
    if e.time ≤ now ∧ e.input.rank = k then some (e.input, es)
    else
      match takeRank now k es with
      | none => none
      | some (i, rest) => some (i, e :: rest)

/-- The first due input of the lowest of these ranks. -/
def takeRanks (now : Int) (es : List Event) : List Nat → Option (Input × List Event)
  | [] => none
  | k :: ks =>
    match takeRank now k es with
    | some r => some r
    | none => takeRanks now es ks

/-- The first due drive timer, in increasing drive number (R470). -/
def State.dueTimer (s : State) : Option Drive :=
  if dueAt s.now s.driveTimer.s0 then some .d0
  else if dueAt s.now s.driveTimer.s1 then some .d1
  else if dueAt s.now s.driveTimer.s2 then some .d2
  else if dueAt s.now s.driveTimer.s3 then some .d3
  else none

/-- What comes first at an instant. -/
inductive Work where
  /-- the engine's next cell or choice of a byte -/
  | engine
  /-- the expiry of a drive's timer -/
  | driveTimer (d : Drive)
  /-- the expiry of the ready poll's timer -/
  | poll
  /-- an input, with the inputs that stay -/
  | input (i : Input) (rest : List Event)
  /-- nothing is due -/
  | nothing
deriving DecidableEq, Repr

/-- The first due input other than the Drives' own changes (R470). -/
def State.dueInput (s : State) : Work :=
  match takeRanks s.now s.inputs [1, 2, 3, 4, 5, 6, 7] with
  | some (i, rest) => .input i rest
  | none => .nothing

/-- What comes first at the instant `s.now` (R470): the engine, the Drives' own changes, the drive timers, the poll timer,
the other inputs. -/
def State.work (s : State) : Work :=
  if dueAt s.now s.liveTimer then .engine
  else
    match takeRank s.now 0 s.inputs with
    | some (i, rest) => .input i rest
    | none =>
      match s.dueTimer with
      | some d => .driveTimer d
      | none => if dueAt s.now s.pollTimer then .poll else s.dueInput

/-- One piece of work. -/
def doWork (w : Work) (s : State) : Result :=
  match w with
  | .engine => engineStep s.now s
  | .driveTimer d => driveTimerExpiry d s
  | .poll => .next (pollExpiry s)
  | .input i rest => applyInput i { s with inputs := rest }
  | .nothing => .next s

/-- Time moves to the next event, never back, and stays where no event is pending; the calls of the step before are gone
(R90). -/
def arrive (s : State) : State :=
  { s with
    now :=
      match s.nextEvent with
      | none => s.now
      | some t => if s.now < t then t else s.now
    outs := [] }

/-! ## The host's table words -/

/-- Everything that would come before a host access at the instant `s.now` taken out of the way: a running transfer, due
timers and due inputs. -/
def clearDue (s : State) : State :=
  let keep (t : Option Int) : Option Int := if dueAt s.now t then none else t
  { s with
    live := none
    driveTimer := s.driveTimer.map keep
    pollTimer := keep s.pollTimer
    inputs := s.inputs.filter fun e => s.now < e.time }

/-- The command buffer holding all but the last byte of a command, and the host's write of the last byte waiting, in
Command phase out of reset. -/
def placeCommand (bs : List Byte) (s : State) : State :=
  { s with
    phase := .command
    dor := s.dor ||| 0x04
    cmd := bs.dropLast
    inputs := { time := s.now, input := .hostWrite .data (bs.getLastD 0) } :: s.inputs }

end Sys2Proof.Machine
end

