-- ==== Sys2Proof/Machine/Step.lean ====
section
/-! DEFINITION. One step: time moves to the next event and that event is applied (spec/20_memory.md R89 to R92,
spec/70_reset_and_hazards.md R470). -/

namespace Sys2Proof.Machine

/-- One step: the first of what is due at the next event's instant, and the output lines recomputed (R420). With no event
pending the block waits. -/
def step (s : State) : Host.Outcome State Fault Refusal := finishOutputs (doWork (arrive s).work (arrive s))

/-- `s` with the instruction of a table word as its next: its bytes but the last in the command buffer, the last one
waiting as the host's `DATA` write at this instant, and nothing before it (log entry 6). -/
def State.withFetchWord (s : State) (nbits w : Nat) : State := placeCommand (tableCommand nbits w) (clearDue s)

end Sys2Proof.Machine
end

