-- ==== Sys2Proof/Safety.lean ====
section
/-! DEFINITION. What a safe state of the controller is, in the terms the statements use: the invariants of
spec/10_state.md R74 and R75, of spec/40_pll.md R140, and of the media and the output lines. -/

namespace Sys2Proof.Machine

/-- The main states of the commands that use the engine (R74): neither Idle nor Seek nor Recalibrate. -/
def MainState.usesEngine : MainState → Bool
  | .idle => false
  | .recalibrate => false
  | .seek => false
  | .readData => true
  | .writeData => true
  | .readTrack => true
  | .formatTrack => true
  | .readId => true

/-- The sub-states in which a live transfer may run (R230). -/
def SubState.mayTransfer : SubState → Bool
  | .scanId => true
  | .sectorRead => true
  | .sectorWrite => true
  | .trackWrite => true
  | _ => false

/-- A command buffer holds nothing, or a known opcode with bytes still to come (R34, R362). -/
def partialCommand : List Byte → Prop
  | [] => True
  | b :: ps => ∃ n, decodeOpcode b = .known n ∧ ps.length + 1 < n

/-- The invariants of R74 and R75, with what makes them hold along every step: the command and result buffers fit the
phase, one drive at most owns the transfer, the drive that uses the engine is the current command's and keeps the
controller in Execution, and an Idle drive has an Idle sub-state. -/
structure ControllerInv (s : State) : Prop where
  fifo_le : s.fifo.length ≤ fifoCap
  res_le : s.res.length ≤ resMax
  cmd_partial : partialCommand s.cmd
  cmd_phase : s.phase ≠ .command → s.cmd = []
  res_phase : s.phase = .result ↔ s.res ≠ []
  live_iff : ∀ d, (s.slot d).live = true ↔ ∃ L, s.live = some L ∧ L.drive = d
  live_runs : ∀ L, s.live = some L → s.phase = .execution ∧ L.drive = s.cur.d ∧
    (s.slot L.drive).mainState.usesEngine = true ∧ (s.slot L.drive).subState.mayTransfer = true
  engine_phase : ∀ d, (s.slot d).mainState.usesEngine = true → s.phase = .execution ∧ d = s.cur.d
  execution_engine : s.phase = .execution → (s.slot s.cur.d).mainState.usesEngine = true
  idle_sub : ∀ d, (s.slot d).mainState = .idle → (s.slot d).subState = .idle

/-- What R140 rests on: a nominal period of at least 100 ticks, the constants of `SetClock`, the period inside its clamp,
and the phase correction between -68 % and 41 % of nominal. -/
structure PllInv (p : Pll) : Prop where
  nominal_ge : 100 ≤ p.nominal
  base_eq : p.periodAdjustBase = tdiv (p.nominal * pllFreqNum) 100
  min_eq : p.minPeriod = tdiv (p.nominal * pllMinNum) 100
  max_eq : p.maxPeriod = tdiv (p.nominal * pllMaxNum) 100
  period_ge : p.minPeriod ≤ p.period
  period_le : p.period ≤ p.maxPeriod
  phase_ge : -(68 * p.nominal) ≤ 100 * p.phaseAdjust
  phase_le : 100 * p.phaseAdjust ≤ 41 * p.nominal

/-- Every drive's flux lists are in the one form they are kept in, strictly rising (log entry 8). -/
def MediaInv (s : State) : Prop := ∀ d, FluxWf (s.units.get d).flux0 ∧ FluxWf (s.units.get d).flux1

/-- The reported levels of IRQ and DRQ are those their sources give (R420). -/
def LinesShown (s : State) : Prop := s.irqOut = s.irqLevel ∧ s.drqOut = s.drqLevel

end Sys2Proof.Machine
end

