-- ==== Sys2Proof/Certificates/Slice0/Obligations.lean ====
section
/-! DEFINITION. The statements for the provers. Each says in its docstring which rule of spec/ it formalises. A statement of
the form `exec i s = .next (updateOutputs { s with … })` is the result, the frame and the completion of the command at
once: what the record update does not name keeps its value. -/

open Sys2Proof Sys2Proof.Machine

/-! ## The vocabulary of the statements -/

namespace Sys2Proof.Claims

/-- The commands that use the engine (R231). -/
def mediumCommand : Instr → Bool
  | .readTrack .. => true
  | .writeData .. => true
  | .readData .. => true
  | .writeDeletedData .. => true
  | .readId .. => true
  | .readDeletedData .. => true
  | .formatTrack .. => true
  | _ => false

/-- Those of them that search a header at once (R235). -/
def searchCommand : Instr → Bool
  | .writeData .. => true
  | .readData .. => true
  | .writeDeletedData .. => true
  | .readId .. => true
  | .readDeletedData .. => true
  | _ => false

/-- Those of them that wait for an index pulse (R235). -/
def trackCommand : Instr → Bool
  | .readTrack .. => true
  | .formatTrack .. => true
  | _ => false

/-- The commands that may seek implicitly (R310): Read ID and Format Track never do. -/
def seeksImplicitly : Instr → Bool
  | .readData .. => true
  | .readDeletedData .. => true
  | .writeData .. => true
  | .writeDeletedData .. => true
  | .readTrack .. => true
  | _ => false

/-- The commands that write the medium (R234). -/
def writeCommand : Instr → Bool
  | .writeData .. => true
  | .writeDeletedData .. => true
  | .formatTrack .. => true
  | _ => false

/-- The main state of each command of R231. -/
def mainOf : Instr → MainState
  | .readData .. => .readData
  | .readDeletedData .. => .readData
  | .writeData .. => .writeData
  | .writeDeletedData .. => .writeData
  | .readTrack .. => .readTrack
  | .readId .. => .readId
  | .formatTrack .. => .formatTrack
  | _ => .idle

/-- Seek and Recalibrate. -/
def seekCommand : Instr → Bool
  | .recalibrate .. => true
  | .seek .. => true
  | _ => false

/-- ST0 with IC = 01 where IC was 00 (R400). -/
def abnormal (st0 : Byte) : Byte := if st0.extractLsb' 6 2 = 0 then st0 ||| 0x40 else st0

/-- ST0 at the end of a command, where an overrun or underrun may make the termination abnormal (R410). -/
def finalSt0 (p : Params) (st0 st1 : Byte) : Byte :=
  if st1.getLsbD 4 = true ∧ p.orSetsAbnormal = true then abnormal st0 else st0

/-- The state of a command of R231 just started, its drive in sub-state `sub`. -/
def started (i : Instr) (sub : SubState) (s : State) : State :=
  { s with
    phase := .execution
    cmd := []
    cur := { loadCur i with sectorSize := 128 * 2 ^ min (loadCur i).n.toNat 7 }
    st1 := 0
    st2 := 0
    fifo := []
    fifoExpected := 0
    fifoWrite := false
    internalDrq := false
    tcDone := false
    tcCut := false
    drives := s.drives.set (loadCur i).d { s.slot (loadCur i).d with
      mainState := mainOf i
      subState := sub
      st0 := driveByte (loadCur i).hd (loadCur i).d }
    units := (s.selectSide (loadCur i).d (loadCur i).hd).units
    outs := s.outs ++ [.sideSelected (loadCur i).d (loadCur i).hd] }

/-- The nominal cell period of a rate selector and a mode, in ticks of 10⁻¹⁸ s: the selected rate is 500, 300, 250 or 1000
kbit/s; an MFM cell is half a bit time long, an FM cell a whole one, truncated (R131, R8). -/
def cellPeriod (sel : BitVec 2) (mfm : Bool) : Int :=
  match sel.toNat, mfm with
  | 0, true => 1000000000000
  | 0, false => 2000000000000
  | 1, true => 1666666666666
  | 1, false => 3333333333333
  | 2, true => 2000000000000
  | 2, false => 4000000000000
  | _, true => 500000000000
  | _, false => 1000000000000

/-- The registers of a live transfer just started (R190). -/
def freshTransfer (d : Drive) (st : LiveState) (t : Int) : LiveTransfer :=
  { tm := t, state := st, nextState := none, drive := d, shiftReg := 0, crc := 0xFFFF, bitCounter := 0,
    byteCounter := 0, dataReg := 0, dataSeparatorPhase := false, dataBitContext := false, markDeleted := false,
    suppress := false, idbuf := { c := 0, h := 0, r := 0, n := 0 } }

/-- The PLL re-centred at instant `t` and clocked for a nominal period (R132, R133). -/
def clockedPll (t nom : Int) : Pll :=
  { nominal := nom, period := nom, periodAdjustBase := (nom * 5).tdiv 100, minPeriod := (nom * 75).tdiv 100,
    maxPeriod := (nom * 125).tdiv 100, ctime := t, phaseAdjust := 0, freqHist := 0, writeStartTime := none,
    writeBuffer := [] }

/-- A live transfer of drive `d` just started in state `st`, the drive in sub-state `sub`: fresh registers, and the PLL
clocked for the rate and the mode in force, writing where the transfer starts with a track's preamble (R190). -/
def searching (d : Drive) (sub : SubState) (st : LiveState) (s : State) : State :=
  { s with
    live := some (freshTransfer d st s.now)
    pll := { clockedPll s.now (cellPeriod s.rateSel s.cur.mf) with
      writeStartTime := if st = .writeTrackPreSectors then some s.now else none }
    drives := s.drives.set d { s.slot d with subState := sub, live := true } }

/-- The transfer dropped and the result of drive `d`'s command entered, with these status bytes (R410, R411). -/
def ended (d : Drive) (st0 st1 st2 : Byte) (s : State) : State :=
  { s with
    phase := .result
    res := [st0, st1, st2, s.cur.c, s.cur.h, s.cur.r, s.cur.n]
    st1 := st1
    st2 := st2
    dataIrq := true
    internalDrq := false
    live := none
    drives := s.drives.set d { s.slot d with mainState := .idle, subState := .idle, live := false, st0 := st0 } }

/-- The end of drive `d`'s command with these status bytes: a read whose bytes the host has not taken waits in Drain with the
request up, unless TC came; every other command enters its result at once, its ST0 final (R410). -/
def finished (d : Drive) (st0 st1 st2 : Byte) (s : State) : State :=
  if s.cur.op ∈ ([.readData, .readDeletedData, .readTrack] : List Op) ∧ s.fifo ≠ [] ∧ s.tcDone = false then
    { s with
      st1 := st1
      st2 := st2
      internalDrq := true
      live := none
      drives := s.drives.set d { s.slot d with subState := .drain, live := false, st0 := st0 } }
  else ended d (finalSt0 s.par st0 st1) st1 st2 s

/-- ST0 of drive `d` replaced. -/
def withSt0 (d : Drive) (st0 : Byte) (s : State) : State :=
  { s with drives := s.drives.set d { s.slot d with st0 := st0 } }

/-- A mask where a condition holds, else no bit. -/
def bitsIf (p : Bool) (m : Byte) : Byte := if p then m else 0

/-- The configuration of R406. -/
structure ConfigKept (s t : State) : Prop where
  dor : t.dor = s.dor
  rateSel : t.rateSel = s.rateSel
  srt : t.srt = s.srt
  hut : t.hut = s.hut
  hlt : t.hlt = s.hlt
  nd : t.nd = s.nd
  fifocfg : t.fifocfg = s.fifocfg
  precomp : t.precomp = s.precomp
  locked : t.locked = s.locked

/-- The expiry of drive `d`'s timer at its instant. -/
def expire (d : Drive) (s : State) : Result := driveTimerExpiry d { s with now := (s.driveTimer.get d).getD s.now }

/-- `n` expiries of drive `d`'s timer, each at its instant. -/
def expiries (d : Drive) : Nat → State → Result
  | 0, s => .next s
  | n + 1, s =>
    match expire d s with
    | .next t => expiries d n t
    | .fault r => .fault r
    | .refused r => .refused r

/-- How many cylinders apart two cylinder numbers are. -/
def distance (a b : Byte) : Nat := (a.toNat - b.toNat) + (b.toNat - a.toNat)

/-- `STEP_PULSE_WIDTH`, 2.5 µs in ticks of 10⁻¹⁸ s (R8). -/
def pulseTicks : Int := 2500000000000

/-- `POLL_FIRST`, 100 µs (R8). -/
def firstPollTicks : Int := 100000000000000

/-- `POLL_INTERVAL`, 1024 µs (R8). -/
def pollTicks : Int := 1024000000000000

/-- One step: the pulse and the settle interval (R305). -/
def stepTime (s : State) : Int := pulseTicks + (16 - (s.srt.toNat : Int)) * s.par.stepUnit

/-- `n` host pops: the bytes, and the state after. -/
def pops : Nat → State → List Byte × State
  | 0, s => ([], s)
  | n + 1, s => ((hostPop s).1 :: (pops n (hostPop s).2).1, (pops n (hostPop s).2).2)

/-- `n` reads of `DATA`: the bytes, and the state after. -/
def dataReads : Nat → State → List Byte × State
  | 0, s => ([], s)
  | n + 1, s => ((hostReadData s).1 :: (dataReads n (hostReadData s).2).1, (dataReads n (hostReadData s).2).2)

/-- The reports of edges among the calls of a step. -/
def irqEdges (outs : List Output) : List Output := outs.filter fun o => o = .irqEdge true ∨ o = .irqEdge false

def drqEdges (outs : List Output) : List Output := outs.filter fun o => o = .drqEdge true ∨ o = .drqEdge false

/-- `n` cells read at the instants the PLL asks for, from flux `f`: the cells, and the PLL after. -/
def readCells (f : List Int) : Nat → Pll → List Bool × Pll
  | 0, p => ([], p)
  | n + 1, p =>
    match nextBit p (fluxAfter f p.ctime) (pllWindowEnd p) with
    | none => ([], p)
    | some (b, q) => (b :: (readCells f n q).1, (readCells f n q).2)

/-- One cell written at the instant the PLL asks for (R143). -/
def writeCell (s : State) (b : Bool) : State :=
  { s with pll := (writeBit s.pll b (pllWriteEnd s.pll)).getD s.pll }

/-- The cells of one byte written on drive `d`, and the commit that ends it (R179, R184). -/
def writeByteCells (d : Drive) (s : State) (cells : List Bool) : State :=
  commitWrite d (cells.foldl writeCell s).pll.ctime (cells.foldl writeCell s)

/-- The cells of these bytes written on drive `d` from the PLL's instant on: `StartWriting`, the bytes, `StopWriting`
(R142). -/
def writeStream (d : Drive) (bytes : List (List Bool)) (s : State) : State :=
  let u := bytes.foldl (writeByteCells d) { s with pll := pllStartWriting s.pll s.pll.ctime }
  stopWriting d u.pll.ctime u

/-- The cells of a word, bit 15 first (R85). -/
def wordCells (w : Cells) : List Bool := (List.range 16).map fun i => w.getLsbD (15 - i)

/-- The transfer's registers after reading these cells. -/
def readWord (L : LiveTransfer) (cells : List Bool) : LiveTransfer := cells.foldl (fun L b => shiftCell L b L.tm) L

/-- The cells of the next `n` cells to emit, and the registers after them. -/
def writeWord : Nat → LiveTransfer → List Bool × LiveTransfer
  | 0, L => ([], L)
  | n + 1, L =>
    (L.shiftReg.getLsbD 15 :: (writeWord n (shiftOut L L.tm)).1, (writeWord n (shiftOut L L.tm)).2)

/-- A header with its byte `i` replaced: cylinder, head, sector, size (R174, R186). -/
def idWith (id : Chrn) (i : Nat) (v : Byte) : Chrn :=
  { c := if i = 0 then v else id.c
    h := if i = 1 then v else id.h
    r := if i = 2 then v else id.r
    n := if i = 3 then v else id.n }

/-- The loading of a byte's cells and of a mark's cells, and the engine's write side cell by cell: the choice of the next word
where none is loaded, else one cell, with the commit at the end of the byte (R179, R180). -/
def WriteCellsRule : Prop :=
  (∀ (v : Byte) (L : LiveTransfer), emitByte true v L =
    { L with shiftReg := (mfmEncode v L.dataBitContext).1, dataBitContext := v.getLsbD 0, bitCounter := 16 }) ∧
  (∀ (v : Byte) (L : LiveTransfer), emitByte false v L =
    { L with shiftReg := fmEncode v, dataBitContext := v.getLsbD 0, bitCounter := 16 }) ∧
  (∀ (w : Cells) (L : LiveTransfer), emitRaw w L =
    { L with shiftReg := w, dataBitContext := w.getLsbD 0, bitCounter := 16 }) ∧
  ∀ (L : LiveTransfer) (s : State) (limit : Int), s.live = some L →
    L.state ∈ ([.writeSectorData, .writeTrackPreSectors, .writeTrackSector, .writeTrackPostSectors] : List LiveState) →
    (L.bitCounter = 0 → engineStep limit s = chooseByte L s) ∧
    (0 < L.bitCounter → writeBit s.pll (L.shiftReg.getLsbD 15) limit = none → engineStep limit s = .next s) ∧
    (∀ p, 0 < L.bitCounter → writeBit s.pll (L.shiftReg.getLsbD 15) limit = some p →
      let after : LiveTransfer :=
        { L with
          tm := p.ctime
          crc := if L.bitCounter % 2 = 1 then crcBit L.crc (L.shiftReg.getLsbD 15) else L.crc
          shiftReg := L.shiftReg <<< 1
          bitCounter := L.bitCounter - 1 }
      (L.bitCounter ≠ 1 → engineStep limit s = .next { s with pll := p, live := some after }) ∧
      (L.bitCounter = 1 → engineStep limit s = .next
        { commitWrite L.drive p.ctime { s with pll := p } with
          live := some { after with byteCounter := L.byteCounter + 1 } }))

/-- The data field a write emits, position by position, in MFM and in FM, and its end (R183). -/
def DataFieldLayout : Prop :=
  ∀ (L : LiveTransfer) (s : State), L.state = .writeSectorData →
    let k := L.byteCounter
    let S := s.cur.sectorSize
    let del : Bool := s.cur.op = .writeDeletedData
    (s.cur.mf = true →
      (k < 12 → chooseByte L s = .next (s.setLive (emitByte true 0x00 L))) ∧
      (k = 12 → chooseByte L s = .next (s.setLive (emitRaw 0x4489 { L with crc := 0xFFFF }))) ∧
      (12 < k → k < 15 → chooseByte L s = .next (s.setLive (emitRaw 0x4489 L))) ∧
      (k = 15 → chooseByte L s = .next (s.setLive (emitByte true (if del then 0xF8 else 0xFB) L))) ∧
      (16 ≤ k → k < 16 + S → chooseByte L s = .next ((dataByte s).2.setLive (emitByte true (dataByte s).1 L))) ∧
      (16 + S ≤ k → k < 18 + S → chooseByte L s = .next (s.setLive (emitByte true (L.crc.extractLsb' 8 8) L))) ∧
      (18 + S ≤ k →
        chooseByte L s = report .fieldWritten { L with state := .idle } (stopWriting L.drive L.tm s))) ∧
    (s.cur.mf = false →
      (k < 6 → chooseByte L s = .next (s.setLive (emitByte false 0x00 L))) ∧
      (k = 6 →
        chooseByte L s = .next (s.setLive (emitRaw (if del then 0xF56A else 0xF56F) { L with crc := 0xFFFF }))) ∧
      (7 ≤ k → k < 7 + S → chooseByte L s = .next ((dataByte s).2.setLive (emitByte false (dataByte s).1 L))) ∧
      (7 + S ≤ k → k < 9 + S → chooseByte L s = .next (s.setLive (emitByte false (L.crc.extractLsb' 8 8) L))) ∧
      (9 + S ≤ k →
        chooseByte L s = report .fieldWritten { L with state := .idle } (stopWriting L.drive L.tm s))) ∧
    (s.tcDone = true → s.fifo = [] → dataByte s = (0, s)) ∧
    (s.tcDone = false ∨ s.fifo ≠ [] → dataByte s = enginePop s)

/-- The track preamble in MFM and in FM, the request for the first sector's ID bytes, the state after it (R185), and the
postamble (R187). -/
def TrackEndsLayout : Prop :=
  ∀ (L : LiveTransfer) (s : State),
    let k := L.byteCounter
    let asked : State := if k = 0 ∧ s.cur.sc ≠ 0 then fifoExpect 4 s else s
    let done : LiveTransfer :=
      { L with
        byteCounter := 0
        state := if s.cur.sectorsLeft = 0 then .writeTrackPostSectors else .writeTrackSector }
    (L.state = .writeTrackPreSectors → s.cur.mf = true →
      (k < 80 → chooseByte L s = .next (asked.setLive (emitByte true 0x4E L))) ∧
      (80 ≤ k → k < 92 → chooseByte L s = .next (s.setLive (emitByte true 0x00 L))) ∧
      (92 ≤ k → k < 95 → chooseByte L s = .next (s.setLive (emitRaw 0x5224 L))) ∧
      (k = 95 → chooseByte L s = .next (s.setLive (emitByte true 0xFC L))) ∧
      (96 ≤ k → k < 146 → chooseByte L s = .next (s.setLive (emitByte true 0x4E L))) ∧
      (146 ≤ k → chooseByte L s = .next (s.setLive done))) ∧
    (L.state = .writeTrackPreSectors → s.cur.mf = false →
      (k < 40 → chooseByte L s = .next (asked.setLive (emitByte false 0xFF L))) ∧
      (40 ≤ k → k < 46 → chooseByte L s = .next (s.setLive (emitByte false 0x00 L))) ∧
      (k = 46 → chooseByte L s = .next (s.setLive (emitRaw 0xF77A L))) ∧
      (47 ≤ k → k < 73 → chooseByte L s = .next (s.setLive (emitByte false 0xFF L))) ∧
      (73 ≤ k → chooseByte L s = .next (s.setLive done))) ∧
    (L.state = .writeTrackPostSectors →
      chooseByte L s = .next (s.setLive (emitByte s.cur.mf (if s.cur.mf then 0x4E else 0xFF) L)))

/-- One formatted sector in MFM and in FM, position by position, and its end (R186). -/
def TrackSectorLayout : Prop :=
  ∀ (L : LiveTransfer) (s : State), L.state = .writeTrackSector →
    let k := L.byteCounter
    let S := s.cur.sectorSize
    let G := s.cur.gpl.toNat
    let byte (v : Byte) : Result := .next (s.setLive (emitByte s.cur.mf v L))
    let taken := dataByte s
    let idField (i : Nat) : Result :=
      .next (State.setLive
        { taken.2 with cur := { s.cur with lastId := idWith s.cur.lastId i taken.1 } } (emitByte s.cur.mf taken.1 L))
    let left := s.cur.sectorsLeft - 1
    let formatted : State :=
      { s with cur := { s.cur with
        sectorsLeft := left
        c := s.cur.lastId.c
        h := s.cur.lastId.h
        r := s.cur.lastId.r
        n := s.cur.lastId.n } }
    let atEnd : Result :=
      if left = 0 then .next (formatted.setLive { L with byteCounter := 0, state := .writeTrackPostSectors })
      else .next ((fifoExpect 4 formatted).setLive { L with byteCounter := 0 })
    (s.cur.mf = true →
      (k < 12 ∨ 44 ≤ k ∧ k < 56 → chooseByte L s = byte 0x00) ∧
      (k = 12 ∨ k = 56 → chooseByte L s = .next (s.setLive (emitRaw 0x4489 { L with crc := 0xFFFF }))) ∧
      (k = 13 ∨ k = 14 ∨ k = 57 ∨ k = 58 → chooseByte L s = .next (s.setLive (emitRaw 0x4489 L))) ∧
      (k = 15 → chooseByte L s = byte 0xFE) ∧
      (16 ≤ k → k < 20 → chooseByte L s = idField (k - 16)) ∧
      (k = 20 ∨ k = 21 ∨ k = 60 + S ∨ k = 61 + S → chooseByte L s = byte (L.crc.extractLsb' 8 8)) ∧
      (22 ≤ k ∧ k < 44 ∨ 62 + S ≤ k ∧ k < 62 + S + G → chooseByte L s = byte 0x4E) ∧
      (k = 59 → chooseByte L s = byte 0xFB) ∧
      (60 ≤ k → k < 60 + S → chooseByte L s = byte s.cur.fill) ∧
      (62 + S + G ≤ k → chooseByte L s = atEnd)) ∧
    (s.cur.mf = false →
      (k < 6 ∨ 24 ≤ k ∧ k < 30 → chooseByte L s = byte 0x00) ∧
      (k = 6 → chooseByte L s = .next (s.setLive (emitRaw 0xF57E { L with crc := 0xFFFF }))) ∧
      (7 ≤ k → k < 11 → chooseByte L s = idField (k - 7)) ∧
      (k = 11 ∨ k = 12 ∨ k = 31 + S ∨ k = 32 + S → chooseByte L s = byte (L.crc.extractLsb' 8 8)) ∧
      (13 ≤ k ∧ k < 24 ∨ 33 + S ≤ k ∧ k < 33 + S + G → chooseByte L s = byte 0xFF) ∧
      (k = 30 → chooseByte L s = .next (s.setLive (emitRaw 0xF56F { L with crc := 0xFFFF }))) ∧
      (31 ≤ k → k < 31 + S → chooseByte L s = byte s.cur.fill) ∧
      (33 + S + G ≤ k → chooseByte L s = atEnd))

/-- The engine's read states, cell by cell: the registers after a cell (R171), and what each state then does: the header
search and its mark (R172, R173), the header's bytes (R174), the data-mark window and its mark (R175, R176), the data field
with the cut of TC and the suppressed field (R177, R178), and the gap before a write (R182). -/
def ReadStatesRule : Prop :=
  ∀ (L : LiveTransfer) (s : State) (limit : Int) (r : Bool) (p : Pll), s.live = some L →
    nextBit s.pll (s.nextFlux L.drive s.pll.ctime) limit = some (r, p) →
    let cell : LiveTransfer :=
      { L with
        tm := p.ctime
        shiftReg := (L.shiftReg <<< 1) ||| (BitVec.ofBool r).setWidth 16
        bitCounter := L.bitCounter + 1
        dataReg := if L.dataSeparatorPhase then (L.dataReg <<< 1) ||| (BitVec.ofBool r).setWidth 8 else L.dataReg
        crc := if L.dataSeparatorPhase then crcBit L.crc r else L.crc
        dataSeparatorPhase := !L.dataSeparatorPhase }
    let n := L.bitCounter + 1
    let read : State := { s with pll := p }
    let goesOn (M : LiveTransfer) : Prop := engineStep limit s = .next (read.setLive M)
    let reports (e : EngineEvent) : Prop := engineStep limit s = report e { cell with state := .idle } read
    let marked (crc : BitVec 16) (st : LiveState) : LiveTransfer :=
      { cell with crc := crc, dataSeparatorPhase := false, bitCounter := 0, state := st }
    let field (M : LiveTransfer) (deleted : Bool) : LiveTransfer :=
      { M with
        markDeleted := deleted
        bitCounter := 0
        suppress := s.cur.sk && ((s.cur.op = .readData && deleted) || (s.cur.op = .readDeletedData && !deleted))
        state := .readSectorData }
    (L.state = .searchAddressMarkHeader →
      goesOn (if s.cur.mf then (if cell.shiftReg = 0x4489 then marked 0x443B .readHeaderBlockHeader else cell)
        else (if cell.shiftReg = 0xF57E then marked 0xEF21 .readIdBlock else cell))) ∧
    (L.state = .readHeaderBlockHeader →
      (n % 16 ≠ 0 → goesOn cell) ∧
      (n = 16 ∨ n = 32 →
        goesOn (if cell.shiftReg = 0x4489 then cell else { cell with state := .searchAddressMarkHeader })) ∧
      (n = 48 → goesOn (if cell.dataReg = 0xFE then { cell with bitCounter := 0, state := .readIdBlock }
        else { cell with state := .searchAddressMarkHeader }))) ∧
    (L.state = .readIdBlock →
      (n % 16 ≠ 0 ∨ n = 80 → goesOn cell) ∧
      (∀ i, i < 4 → n = 16 * (i + 1) → goesOn { cell with idbuf := idWith L.idbuf i cell.dataReg }) ∧
      (n = 96 → reports .headerRead)) ∧
    (L.state = .searchAddressMarkData →
      ((if s.cur.mf then 992 else 368) < n → reports .dataMarkMissing) ∧
      (n < (if s.cur.mf then 352 else 176) → goesOn cell) ∧
      (s.cur.mf = true → 352 ≤ n → n ≤ 992 →
        goesOn (if cell.shiftReg = 0x4489 then marked 0x443B .readDataBlockHeader else cell)) ∧
      (s.cur.mf = false → 176 ≤ n → n ≤ 368 →
        goesOn (if cell.shiftReg = 0xF56F then field (marked 0xBF84 .readSectorData) false
          else if cell.shiftReg = 0xF56A then field (marked 0x8FE7 .readSectorData) true else cell))) ∧
    (L.state = .readDataBlockHeader →
      (n % 16 ≠ 0 → goesOn cell) ∧
      (n = 16 ∨ n = 32 →
        goesOn (if cell.shiftReg = 0x4489 then cell else { cell with state := .searchAddressMarkData })) ∧
      (n = 48 → goesOn (if cell.dataReg = 0xFB then field cell false else if cell.dataReg = 0xF8 then field cell true
        else { cell with state := .searchAddressMarkData }))) ∧
    (L.state = .readSectorData →
      (n % 16 ≠ 0 ∨ n = 16 * (s.cur.sectorSize + 1) → goesOn cell) ∧
      (∀ k, k < s.cur.sectorSize → n = 16 * (k + 1) →
        let pushed := if L.suppress = true ∨ s.tcCut = true then read.setLive cell
          else enginePush cell.dataReg (read.setLive cell)
        engineStep limit s = .next { pushed with tcCut := s.tcCut || s.tcDone }) ∧
      (n = 16 * (s.cur.sectorSize + 2) → reports .fieldRead)) ∧
    (L.state = .writeSectorSkipGap2 →
      (n ≠ (if s.cur.mf then 16 * 22 else 16 * 11) → goesOn cell) ∧
      (n = (if s.cur.mf then 16 * 22 else 16 * 11) → engineStep limit s = .next
        { s with
          pll := { p with writeStartTime := some p.ctime, writeBuffer := [] }
          live := some { cell with bitCounter := 0, byteCounter := 0, state := .writeSectorData } }))

/-- A host register access or a DMA access (R470). -/
def isAccess : Input → Bool
  | .hostWrite .. => true
  | .hostRead _ => true
  | .dmaRead => true
  | .dmaWrite _ => true
  | _ => false

/-- A change that a Drive makes of its own lines or flux (R71). -/
def isDriveChange : Input → Bool
  | .lines .. => true
  | .flux .. => true
  | _ => false

/-- Two inputs of one kind: accesses, TC levels, index pulses of one drive, resets, Drives' own changes. -/
def sameTurn : Input → Input → Bool
  | .tc _, .tc _ => true
  | .hardwareReset, .hardwareReset => true
  | .index d, .index e => decide (d = e)
  | i, j => (isAccess i && isAccess j) || (isDriveChange i && isDriveChange j)

/-- What drive `d` presents on a head. -/
def fluxOn (s : State) (d : Drive) (head : Bool) : List Int :=
  if head then (s.units.get d).flux1 else (s.units.get d).flux0

/-- Something is pending at instant `t`: the engine's next work, a timer, or an input (R90). -/
def PendingAt (s : State) (t : Int) : Prop :=
  s.liveTimer = some t ∨ (∃ d, s.driveTimer.get d = some t) ∨ s.pollTimer = some t ∨ ∃ e ∈ s.inputs, e.time = t

/-- The instant of the engine's next work: none without a transfer or once it has reported; the next window's end where it
reads; where it writes, the next cell's end, or the instant of the last one where the next word is still to be chosen, which
is the model's choice (R90, R192; log entry 11). -/
def LiveTimerRule (s : State) : Prop :=
  (s.live = none → s.liveTimer = none) ∧
  ∀ L, s.live = some L →
    (L.state = .idle → s.liveTimer = none) ∧
    (L.state ∈ ([.searchAddressMarkHeader, .readHeaderBlockHeader, .readIdBlock, .searchAddressMarkData,
        .readDataBlockHeader, .readSectorData, .writeSectorSkipGap2] : List LiveState) →
      s.liveTimer = some (s.pll.ctime + s.pll.period + s.pll.phaseAdjust)) ∧
    (L.state ∈ ([.writeSectorData, .writeTrackPreSectors, .writeTrackSector, .writeTrackPostSectors] : List LiveState) →
      (0 < L.bitCounter → s.liveTimer = some (s.pll.ctime + s.pll.nominal)) ∧
      (L.bitCounter = 0 → s.liveTimer = some L.tm))

/-- What a slot's Drive answers, and what the head select does: an attached drive selects the head, and its flux is read and
written on that head's list; a slot with no drive answers every query false or Never and ignores the select, but the call is
made (R351, R86; that the Drive's levels, head and lists stand in `units` is log entry 10). -/
def DriveInterfaceRule : Prop :=
  (∀ (s : State) (d : Drive) (head : Bool),
    s.selectSide d head =
      { s with
        units := s.units.set d
          (if (s.units.get d).attached then { s.units.get d with side := head } else s.units.get d)
        outs := s.outs ++ [.sideSelected d head] }) ∧
  (∀ (s : State) (d : Drive) (t : Int),
    ((s.units.get d).attached = false → s.nextFlux d t = none) ∧
    ((s.units.get d).attached = true → (s.units.get d).side = false →
      s.nextFlux d t = fluxAfter (s.units.get d).flux0 t) ∧
    ((s.units.get d).attached = true → (s.units.get d).side = true →
      s.nextFlux d t = fluxAfter (s.units.get d).flux1 t)) ∧
  (∀ (u : DriveUnit) (f : List Int),
    (u.side = false → u.flux = u.flux0 ∧ u.setFlux u.side f = { u with flux0 := f }) ∧
    (u.side = true → u.flux = u.flux1 ∧ u.setFlux u.side f = { u with flux1 := f })) ∧
  ∀ (s : State) (d : Drive),
    s.driveReady d = ((s.units.get d).attached && (s.units.get d).ready) ∧
    s.atTrackZero d = ((s.units.get d).attached && (s.units.get d).trackZero) ∧
    s.writeProtected d = ((s.units.get d).attached && (s.units.get d).writeProtected)

/-- A write span is open on this head of drive `d` since instant `w`: the transfer is the drive's, and the head is the one
selected (R142). -/
def WritingSince (s : State) (d : Drive) (head : Bool) (w : Int) : Prop :=
  (∃ L, s.live = some L ∧ L.drive = d) ∧ (s.units.get d).attached = true ∧ (s.units.get d).side = head ∧
    s.pll.writeStartTime = some w

/-- The PLL of a running transfer is within its bounds (R140). -/
def RunningPll (s : State) : Prop := s.live.isSome = true → PllInv s.pll

end Sys2Proof.Claims

open Sys2Proof.Claims

/-! ## Encoding and dispatch -/

/-- R110 with the tables of R103, R108 and R109: every opcode byte gives the one outcome of its row. -/
def Obligations.OpcodeBytesClassified : Prop :=
  ∀ b : Byte,
    (∀ r ∈ ([(0x02, 9), (0x03, 3), (0x04, 2), (0x05, 9), (0x06, 9), (0x07, 2), (0x08, 1), (0x09, 9), (0x0A, 2),
        (0x0C, 9), (0x0D, 6), (0x13, 4), (0x14, 1)] : List (BitVec 5 × Nat)),
      b.extractLsb' 0 5 = r.1 → decodeOpcode b = .known r.2) ∧
    (b.extractLsb' 0 5 = 0x0F → b.getLsbD 7 = false → decodeOpcode b = .known 3) ∧
    (b.extractLsb' 0 5 = 0x0F → b.getLsbD 7 = true → decodeOpcode b = .refused .relativeSeek) ∧
    (∀ r ∈ ([(0x0E, .dumpreg), (0x10, .version), (0x11, .scanEqual), (0x12, .perpendicularMode), (0x16, .verify),
        (0x17, .powerdownMode), (0x18, .partId), (0x19, .scanLowOrEqual),
        (0x1D, .scanHighOrEqual)] : List (BitVec 5 × FamilyCommand)),
      b.extractLsb' 0 5 = r.1 → decodeOpcode b = .refused r.2) ∧
    (b.extractLsb' 0 5 ∈ ([0x00, 0x01, 0x0B, 0x15, 0x1A, 0x1B, 0x1C, 0x1E, 0x1F] : List (BitVec 5)) →
      decodeOpcode b = .invalid)

/-- R84, R100 to R107: the decoder reads every command back from its encoding, whatever bytes follow. -/
def Obligations.EncodedCommandsDecode : Prop :=
  ∀ (i : Instr) (rest : List Byte), decode (encode i ++ rest) = .known i rest

/-- R103 to R107: words written out from the encodings decode to the commands they stand for. -/
def Obligations.TableWordsDecode : Prop :=
  decode [0x66, 0x05, 0x05, 0x01, 0x03, 0x02, 0x09, 0x1B, 0xFF] =
      .known (.readData false true true true .d1 ⟨0x05, 0x01, 0x03, 0x02, 0x09, 0x1B, 0xFF⟩) [] ∧
    decode [0x03, 0xDF, 0x02] = .known (.specify 0xD 0xF 0x01 false) [] ∧
    decode [0x0F, 0x06, 0x0A] = .known (.seek true .d2 0x0A) [] ∧
    decode [0x4D, 0x03, 0x02, 0x01, 0x54, 0xE5] = .known (.formatTrack true false .d3 0x02 0x01 0x54 0xE5) [] ∧
    decode [0x94] = .known (.lock true) []

/-- R101, R102, R104 to R107, R362: the operands of the command bytes in the command record. The flag bits a command does
not read are not loaded (log entry 7). -/
def Obligations.OperandsReachTheCommandRecord : Prop :=
  ∀ b p c h r n eot gpl dtl : Byte, ∀ us : Drive, p.extractLsb' 0 2 = driveBits us →
    (b.extractLsb' 0 5 = 0x06 → ∃ i, decode [b, p, c, h, r, n, eot, gpl, dtl] = .known i [] ∧
      loadCur i =
        { op := .readData, mt := b.getLsbD 7, mf := b.getLsbD 6, sk := b.getLsbD 5, d := us,
          hd := p.getLsbD 2, c := c, h := h, r := r, n := n, eot := eot, gpl := gpl, dtl := dtl }) ∧
    (b.extractLsb' 0 5 = 0x0C → ∃ i, decode [b, p, c, h, r, n, eot, gpl, dtl] = .known i [] ∧
      loadCur i =
        { op := .readDeletedData, mt := b.getLsbD 7, mf := b.getLsbD 6, sk := b.getLsbD 5, d := us,
          hd := p.getLsbD 2, c := c, h := h, r := r, n := n, eot := eot, gpl := gpl, dtl := dtl }) ∧
    (b.extractLsb' 0 5 = 0x05 → ∃ i, decode [b, p, c, h, r, n, eot, gpl, dtl] = .known i [] ∧
      loadCur i =
        { op := .writeData, mt := b.getLsbD 7, mf := b.getLsbD 6, d := us,
          hd := p.getLsbD 2, c := c, h := h, r := r, n := n, eot := eot, gpl := gpl, dtl := dtl }) ∧
    (b.extractLsb' 0 5 = 0x09 → ∃ i, decode [b, p, c, h, r, n, eot, gpl, dtl] = .known i [] ∧
      loadCur i =
        { op := .writeDeletedData, mt := b.getLsbD 7, mf := b.getLsbD 6, d := us,
          hd := p.getLsbD 2, c := c, h := h, r := r, n := n, eot := eot, gpl := gpl, dtl := dtl }) ∧
    (b.extractLsb' 0 5 = 0x02 → ∃ i, decode [b, p, c, h, r, n, eot, gpl, dtl] = .known i [] ∧
      loadCur i =
        { op := .readTrack, mf := b.getLsbD 6, d := us,
          hd := p.getLsbD 2, c := c, h := h, r := r, n := n, eot := eot, gpl := gpl, dtl := dtl }) ∧
    (b.extractLsb' 0 5 = 0x0A → ∃ i, decode [b, p] = .known i [] ∧
      loadCur i =
        { op := .readId, mf := b.getLsbD 6, d := us, hd := p.getLsbD 2 }) ∧
    (b.extractLsb' 0 5 = 0x0D → ∃ i, decode [b, p, n, r, gpl, c] = .known i [] ∧
      loadCur i =
        { op := .formatTrack, mf := b.getLsbD 6, d := us, hd := p.getLsbD 2, n := n, sc := r, gpl := gpl,
          fill := c, sectorsLeft := r.toNat }) ∧
    (b.extractLsb' 0 5 = 0x0F → b.getLsbD 7 = false → ∃ i, decode [b, p, c] = .known i [] ∧
      loadCur i =
        { op := .seek, d := us, hd := p.getLsbD 2, ncn := c }) ∧
    (b.extractLsb' 0 5 = 0x07 → ∃ i, decode [b, p] = .known i [] ∧ loadCur i = { op := .recalibrate, d := us })

/-- R30, R89, R470 with R362: a step is one piece of work at the instant it arrives at, then the output lines recomputed.
The host's write of the byte that completes a command runs the command's `exec`, the input consumed, and the data IRQ
cleared if it is the command's first byte. The engine's turn is its next cell, or, as a step of its own that takes no time,
its choice of the next word, which is how the model cuts R192 into steps (log entry 11); a timer's turn is its expiry. Every
input is consumed and has its effect: a register or DMA access, with the byte a read returns, a TC level, an index pulse,
the hardware reset. R30 names no change of a Drive's own levels or flux as the cause of a step, and R71 samples them: that
such a change is an input and a step of its own, its levels and its list stored in `units`, is the model's choice (log entry
10), and so is that the list is brought into its strictly rising form (log entry 8) and that a step with nothing due changes
only the lines (log entry 16). -/
def Obligations.StepRunsDecodedCommand : Prop :=
  ∀ s : State,
    let arrived := arrive s
    (∀ (v : Byte) (rest : List Event) (i : Instr), arrived.work = .input (.hostWrite .data v) rest → s.phase = .command →
      s.notReset = true → decode (s.cmd ++ [v]) = .known i [] →
      step s = finishOutputs
        (exec i { arrived with inputs := rest, dataIrq := if s.cmd = [] then false else s.dataIrq })) ∧
    (arrived.work = .engine → step s = finishOutputs (engineStep arrived.now arrived)) ∧
    (∀ d, arrived.work = .driveTimer d → step s = finishOutputs (driveTimerExpiry d arrived)) ∧
    (arrived.work = .poll → step s = .next (updateOutputs (pollExpiry arrived))) ∧
    (arrived.work = .nothing → step s = .next (updateOutputs arrived)) ∧
    ∀ (i : Input) (rest : List Event), arrived.work = .input i rest →
      let u : State := { arrived with inputs := rest }
      (∀ reg v, i = .hostWrite reg v → step s = finishOutputs (hostWrite reg v u)) ∧
      (∀ reg, i = .hostRead reg → step s = finishOutputs (hostRead reg u)) ∧
      (i = .dmaRead → step s = .next (updateOutputs
        { (dmaRead u).2 with outs := (dmaRead u).2.outs ++ [.readValue (dmaRead u).1] })) ∧
      (∀ v, i = .dmaWrite v → step s = .next (updateOutputs (dmaWrite v u))) ∧
      (∀ level, i = .tc level → step s = .next (updateOutputs (tcInput level u))) ∧
      (∀ d, i = .index d → step s = finishOutputs (onIndex d u)) ∧
      (i = .hardwareReset → step s = .next (updateOutputs (hardwareReset u))) ∧
      (∀ d a r z w two, i = .lines d a r z w two → step s = .next (updateOutputs
        { u with units := u.units.set d { u.units.get d with
          attached := a, ready := r, trackZero := z, writeProtected := w, twoSided := two } })) ∧
      (∀ d head ts, i = .flux d head ts → step s = .next (updateOutputs
        { u with
          units := u.units.set d
            (if head then { u.units.get d with flux1 := fluxOfList ts }
              else { u.units.get d with flux0 := fluxOfList ts }) }))

/-- A command of the table, its last byte waiting as `withFetchWord` places it (log entry 6), is what the next step runs, in
every state. -/
def Obligations.FetchedCommandRunsNext : Prop :=
  ∀ (s : State) (i : Instr) (nbits w : Nat), tableCommand nbits w = encode i →
    step (s.withFetchWord nbits w) = finishOutputs
      (exec i { clearDue s with
        phase := .command
        dor := s.dor ||| 0x04
        cmd := (encode i).dropLast
        dataIrq := if i.commandBytes = 1 then false else s.dataIrq
        outs := [] })

/-- R362, R111: a byte that leaves a known command incomplete is appended and nothing else happens, but that the first
byte clears the data IRQ. -/
def Obligations.IncompleteCommandsKeepAcceptingBytes : Prop :=
  ∀ (s : State) (v b : Byte) (ps : List Byte) (n : Nat),
    s.phase = .command → s.notReset = true → s.cmd ++ [v] = b :: ps → decodeOpcode b = .known n → ps.length + 1 < n →
    hostWrite .data v s =
      .next { s with cmd := s.cmd ++ [v], dataIrq := if s.cmd = [] then false else s.dataIrq }

/-- R363, R109, R108: an invalid opcode byte is answered at once with the one byte 0x80; one of another family member is
refused by its name, and only as a first byte. -/
def Obligations.UnknownOpcodesAnswered : Prop :=
  ∀ (s : State) (v : Byte), s.phase = .command → s.notReset = true →
    (s.cmd = [] → decodeOpcode v = .invalid → hostWrite .data v s =
      .next { s with dataIrq := false, cmd := [], res := [0x80], phase := .result, internalDrq := false }) ∧
    (∀ r, s.cmd = [] → decodeOpcode v = .refused r → hostWrite .data v s = .refused (.unmodelledCommand r)) ∧
    (∀ b ps n r, s.cmd = b :: ps → decodeOpcode b = .known n → ps.length + 2 ≤ n →
      hostWrite .data v s ≠ .refused (.unmodelledCommand r))

/-- R362, R363: a complete command to a drive that is not Idle gets the invalid result, and its drive's state does not
change. -/
def Obligations.BusyDriveAnsweredInvalid : Prop :=
  ∀ (i : Instr) (s : State), mediumCommand i = true ∨ seekCommand i = true →
    (s.slot (loadCur i).d).mainState ≠ .idle →
    exec i s = .next (updateOutputs
      { s with cur := loadCur i, cmd := [], res := [0x80], phase := .result, internalDrq := false })

/-! ## The commands without the engine -/

/-- R375: SPECIFY. -/
def Obligations.SpecifyStoresTiming : Prop :=
  (∀ b p q : Byte, b.extractLsb' 0 5 = 0x03 →
    decode [b, p, q] =
      .known (.specify (p.extractLsb' 4 4) (p.extractLsb' 0 4) (q.extractLsb' 1 7) (q.getLsbD 0)) []) ∧
  (∀ srt hut hlt nd, ∀ s : State,
    exec (.specify srt hut hlt nd) s = .next (updateOutputs
      { s with srt := srt, hut := hut, hlt := hlt, nd := nd, phase := .command, cmd := [],
               cur := { op := .specify } }))

/-- R376: CONFIGURE. -/
def Obligations.ConfigureStoresConfiguration : Prop :=
  (∀ b x cfg pretrk : Byte, b.extractLsb' 0 5 = 0x13 →
    decode [b, x, cfg, pretrk] = .known (.configure cfg pretrk) []) ∧
  (∀ cfg pretrk, ∀ s : State,
    exec (.configure cfg pretrk) s = .next (updateOutputs
      { s with fifocfg := cfg, precomp := pretrk, phase := .command, cmd := [], cur := { op := .configure } }))

/-- R377: LOCK. -/
def Obligations.LockSetsAndReports : Prop :=
  (∀ b : Byte, b.extractLsb' 0 5 = 0x14 → decode [b] = .known (.lock (b.getLsbD 7)) []) ∧
  (∀ lk, ∀ s : State,
    exec (.lock lk) s = .next (updateOutputs
      { s with locked := lk, res := [if lk then 0x10 else 0x00], phase := .result, internalDrq := false, cmd := [],
               cur := { op := .lock, lock := lk } }))

/-- R373, R403: SENSE_DRIVE_STATUS, in any state of the drive. An empty slot reports its queries as false (R351). The HD and
US bits of ST0 are those of ST3 (R400). -/
def Obligations.SenseDriveStatusReportsLines : Prop :=
  (∀ b p : Byte, ∀ us : Drive, b.extractLsb' 0 5 = 0x04 → p.extractLsb' 0 2 = driveBits us →
    decode [b, p] = .known (.senseDriveStatus (p.getLsbD 2) us) []) ∧
  (∀ hd us, ∀ s : State,
    exec (.senseDriveStatus hd us) s = .next (updateOutputs
      { s with
        res := [bitsIf ((s.units.get us).attached && (s.units.get us).writeProtected) 0x40 |||
          bitsIf ((s.units.get us).attached && (s.units.get us).ready) 0x20 |||
          bitsIf ((s.units.get us).attached && (s.units.get us).trackZero) 0x10 |||
          bitsIf ((s.units.get us).attached && (s.units.get us).twoSided) 0x08 |||
          bitsIf hd 0x04 ||| (driveBits us).setWidth 8]
        phase := .result
        internalDrq := false
        cmd := []
        cur := { op := .senseDriveStatus, d := us, hd := hd } })) ∧
  (∀ hd us, driveByte hd us = bitsIf hd 0x04 ||| (driveBits us).setWidth 8) ∧
  driveBits .d0 = 0 ∧ driveBits .d1 = 1 ∧ driveBits .d2 = 2 ∧ driveBits .d3 = 3

/-- R372: SENSE_INTERRUPT_STATUS. Without a reason the result is 0x80; else the lowest drive with a reason is reported and
its reason cleared, and under GlobalFlag every Polled reason with it. -/
def Obligations.SenseInterruptReportsLowestReason : Prop :=
  (∀ b : Byte, b.extractLsb' 0 5 = 0x08 → decode [b] = .known .senseInterruptStatus []) ∧
  (∀ s : State, (∀ d, (s.slot d).irq = .none) →
    exec .senseInterruptStatus s = .next (updateOutputs
      { s with res := [0x80], phase := .result, internalDrq := false, cmd := [],
               cur := { op := .senseInterruptStatus } })) ∧
  (∀ (s : State) (d : Drive), (s.slot d).irq ≠ .none →
    (∀ e, (driveBits e).toNat < (driveBits d).toNat → (s.slot e).irq = .none) →
    exec .senseInterruptStatus s = .next (updateOutputs
      { s with
        res := [if (s.slot d).irq = .polled then 0xC0 ||| (driveBits d).setWidth 8 else (s.slot d).st0, (s.slot d).pcn]
        phase := .result
        internalDrq := false
        cmd := []
        cur := { op := .senseInterruptStatus }
        drives :=
          match s.par.pollIrqPolicy with
          | .perDrive => s.drives.set d { s.slot d with irq := .none }
          | .globalFlag =>
            (s.drives.set d { s.slot d with irq := .none }).map fun x =>
              if x.irq = .polled then { x with irq := .none } else x }))

/-! ## Seek and Recalibrate -/

/-- R301, R303, R307: SEEK to a ready Idle drive: at its target it ends at once, without a step; else it issues the first
step toward the target and returns to Command phase. -/
def Obligations.SeekStarts : Prop :=
  ∀ (hd : Bool) (us : Drive) (ncn : Byte) (s : State), (s.slot us).mainState = .idle → s.driveReady us = true →
    ((s.slot us).pcn = ncn →
      exec (.seek hd us ncn) s = .next (updateOutputs
        { s with
          cur := { op := .seek, d := us, hd := hd, ncn := ncn }
          cmd := []
          phase := .command
          drives := s.drives.set us { s.slot us with
            subState := .idle, st0 := 0x20 ||| driveByte hd us, irq := .seekDone, counter := 0, seekTarget := ncn }
          driveTimer := s.driveTimer.set us none })) ∧
    ((s.slot us).pcn ≠ ncn →
      exec (.seek hd us ncn) s = .next (updateOutputs
        { s with
          cur := { op := .seek, d := us, hd := hd, ncn := ncn }
          cmd := []
          phase := .command
          drives := s.drives.set us { s.slot us with
            mainState := .seek, subState := .waitStepPulse, st0 := driveByte hd us, irq := .none, counter := 0,
            seekTarget := ncn, dir := if (s.slot us).pcn < ncn then .inward else .out }
          driveTimer := s.driveTimer.set us (some (s.now + pulseTicks))
          outs := s.outs ++ [.step us (if (s.slot us).pcn < ncn then .inward else .out)] }))

/-- R301, R304, R308: RECALIBRATE of a ready Idle drive: at track zero it ends at once with PCN 0; else it issues the first
step outward. -/
def Obligations.RecalibrateStarts : Prop :=
  ∀ (us : Drive) (s : State), (s.slot us).mainState = .idle → s.driveReady us = true →
    (s.atTrackZero us = true →
      exec (.recalibrate us) s = .next (updateOutputs
        { s with
          cur := { op := .recalibrate, d := us }
          cmd := []
          phase := .command
          drives := s.drives.set us { s.slot us with
            subState := .idle, st0 := 0x20 ||| driveByte false us, irq := .seekDone, counter := 0, seekTarget := 0,
            pcn := 0 }
          driveTimer := s.driveTimer.set us none })) ∧
    (s.atTrackZero us = false →
      exec (.recalibrate us) s = .next (updateOutputs
        { s with
          cur := { op := .recalibrate, d := us }
          cmd := []
          phase := .command
          drives := s.drives.set us { s.slot us with
            mainState := .recalibrate, subState := .waitStepPulse, st0 := driveByte false us, irq := .none,
            counter := 1, seekTarget := 0, dir := .out }
          driveTimer := s.driveTimer.set us (some (s.now + pulseTicks))
          outs := s.outs ++ [.step us .out] }))

/-- R302: a Seek or Recalibrate of a drive that is not ready issues no step and ends at once with IC = 01, SE and NR. -/
def Obligations.SeekOfUnreadyDriveFails : Prop :=
  ∀ (i : Instr) (s : State), seekCommand i = true → (s.slot (loadCur i).d).mainState = .idle →
    s.driveReady (loadCur i).d = false →
    exec i s = .next (updateOutputs
      { s with
        cur := loadCur i
        cmd := []
        phase := .command
        drives := s.drives.set (loadCur i).d { s.slot (loadCur i).d with
          subState := .idle, st0 := 0x68 ||| driveByte (loadCur i).hd (loadCur i).d, irq := .seekDone }
        driveTimer := s.driveTimer.set (loadCur i).d none })

/-- R303 to R306, R308: the two expiries of a drive's timer while it steps. A pulse that ends moves the PCN, but not of a
Recalibrate, and arms the settle interval. After the settle a SEEK ends on its target, SE set, the seek reason pending and
the timer off, or steps on toward it; a RECALIBRATE ends at track zero with PCN 0, fails with EC and IC = 01 after its 77th
step, or steps on outward, counting the step. A command that seeks implicitly goes on as `ImpliedSeekMovesFirst` says. -/
def Obligations.StepTimerMovesTheHead : Prop :=
  ∀ (d : Drive) (s : State),
    ((s.slot d).subState = .waitStepPulse →
      driveTimerExpiry d s = .next
        { s with
          drives := s.drives.set d { s.slot d with
            subState := .waitStepSettle
            pcn :=
              if (s.slot d).mainState = .recalibrate then (s.slot d).pcn
              else if (s.slot d).dir = .inward then (s.slot d).pcn + 1
              else (s.slot d).pcn - 1 }
          driveTimer := s.driveTimer.set d (some (s.now + (16 - (s.srt.toNat : Int)) * s.par.stepUnit)) }) ∧
    ((s.slot d).subState = .waitStepSettle →
      let ends (x : DriveSlot) : Result := .next
        { s with
          drives := s.drives.set d { x with mainState := .idle, subState := .idle, irq := .seekDone }
          driveTimer := s.driveTimer.set d none }
      let steps (dir : Dir) (x : DriveSlot) : Result := .next
        { s with
          drives := s.drives.set d { x with subState := .waitStepPulse, dir := dir }
          driveTimer := s.driveTimer.set d (some (s.now + pulseTicks))
          outs := s.outs ++ [.step d dir] }
      let slot := s.slot d
      driveTimerExpiry d s = runMove d
        { s with
          drives := s.drives.set d { slot with subState := .move }
          driveTimer := s.driveTimer.set d none } ∧
      (slot.mainState = .seek →
        (slot.pcn = slot.seekTarget → driveTimerExpiry d s = ends { slot with st0 := slot.st0 ||| 0x20 }) ∧
        (slot.pcn ≠ slot.seekTarget →
          driveTimerExpiry d s = steps (if slot.pcn < slot.seekTarget then .inward else .out) slot)) ∧
      (slot.mainState = .recalibrate →
        (s.atTrackZero d = true →
          driveTimerExpiry d s = ends { slot with pcn := 0, st0 := slot.st0 ||| 0x20 }) ∧
        (s.atTrackZero d = false → 77 ≤ slot.counter →
          driveTimerExpiry d s = ends { slot with st0 := abnormal (slot.st0 ||| 0x10 ||| 0x20) }) ∧
        (s.atTrackZero d = false → slot.counter < 77 →
          driveTimerExpiry d s = steps .out { slot with counter := slot.counter + 1 })))

/-- R303, R305, R306, R307: a SEEK of a ready Idle drive reaches its target after as many steps as cylinders lie between, all
in one direction, each taking `STEP_PULSE_WIDTH + (16 − SRT) × STEP_UNIT`, and ends with SE. The run is of the drive's timer
alone, with no input between: that a step leaves the Drive's lines as they are is the model's choice (log entry 10). -/
def Obligations.SeekReachesItsTarget : Prop :=
  ∀ (hd : Bool) (us : Drive) (ncn : Byte) (s t : State), (s.slot us).mainState = .idle → s.driveReady us = true →
    exec (.seek hd us ncn) s = .next t →
    ∃ u, expiries us (2 * distance (s.slot us).pcn ncn) t = .next u ∧
      u.slot us = { s.slot us with
        mainState := .idle, subState := .idle, pcn := ncn, seekTarget := ncn, counter := 0,
        dir := if (s.slot us).pcn = ncn then (s.slot us).dir else if (s.slot us).pcn < ncn then .inward else .out,
        st0 := 0x20 ||| driveByte hd us, irq := .seekDone } ∧
      u.driveTimer.get us = none ∧
      u.now = s.now + (distance (s.slot us).pcn ncn : Int) * stepTime s ∧
      u.outs.count (.step us (if (s.slot us).pcn < ncn then .inward else .out)) =
        s.outs.count (.step us (if (s.slot us).pcn < ncn then .inward else .out)) + distance (s.slot us).pcn ncn ∧
      u.outs.count (.step us (if (s.slot us).pcn < ncn then .out else .inward)) =
        s.outs.count (.step us (if (s.slot us).pcn < ncn then .out else .inward)) ∧
      (∀ e, e ≠ us → u.slot e = s.slot e) ∧ u.phase = .command ∧ u.units = s.units ∧ ConfigKept s u

/-- R309: a RECALIBRATE whose track-zero sensor is false for good issues its steps 1 to 77 outward, its counter running with
them, and the Move after the settle of the 77th fails with IC = 01, SE and EC, the PCN what it was; it makes no step
more. The run is of the drive's timer alone, with no input between: that the sensor then stays false, whatever the block's
steps, is the model's choice (log entry 10). -/
def Obligations.RecalibrateGivesUpAfter77Steps : Prop :=
  ∀ (us : Drive) (s t : State), (s.slot us).mainState = .idle → s.driveReady us = true → s.atTrackZero us = false →
    exec (.recalibrate us) s = .next t →
    (∀ k, k < 77 → ∃ v, expiries us (2 * k) t = .next v ∧ (v.slot us).counter = k + 1 ∧
      (v.slot us).subState = .waitStepPulse ∧
      v.outs.count (.step us .out) = s.outs.count (.step us .out) + (k + 1)) ∧
    ∃ u, expiries us (2 * 77) t = .next u ∧
      u.slot us = { s.slot us with
        mainState := .idle, subState := .idle, seekTarget := 0, counter := 77, dir := .out,
        st0 := 0x70 ||| driveByte false us, irq := .seekDone } ∧
      u.driveTimer.get us = none ∧
      u.now = s.now + 77 * stepTime s ∧
      u.outs.count (.step us .out) = s.outs.count (.step us .out) + 77 ∧
      u.outs.count (.step us .inward) = s.outs.count (.step us .inward) ∧
      (∀ e, e ≠ us → u.slot e = s.slot e) ∧ u.phase = .command ∧ u.units = s.units ∧ ConfigKept s u

/-! ## The start of the commands that use the engine -/

/-- R231, R235, R190: READ_DATA, READ_DELETED_DATA, WRITE_DATA, WRITE_DELETED_DATA and READ_ID to a ready Idle drive, not
write-protected for a write, with no implied seek to make, start the header search: the transfer's registers fresh, the PLL
re-centred at that instant and clocked for the selected rate and the command's mode (R131 to R133). -/
def Obligations.HeaderSearchStarts : Prop :=
  ∀ (i : Instr) (s : State), searchCommand i = true → (s.slot (loadCur i).d).mainState = .idle →
    s.driveReady (loadCur i).d = true → s.live = none →
    (writeCommand i = true → s.writeProtected (loadCur i).d = false) →
    (seeksImplicitly i = true → s.fifocfg.getLsbD 6 = true → (s.slot (loadCur i).d).pcn = (loadCur i).c) →
    exec i s = .next (updateOutputs
      { started i .scanId s with
        live := some (freshTransfer (loadCur i).d .searchAddressMarkHeader s.now)
        pll := clockedPll s.now (cellPeriod s.rateSel (loadCur i).mf)
        drives := s.drives.set (loadCur i).d { s.slot (loadCur i).d with
          mainState := mainOf i
          subState := .scanId
          st0 := driveByte (loadCur i).hd (loadCur i).d
          counter := 0
          live := true } })

/-- R231, R235: READ_TRACK and FORMAT_TRACK to a ready Idle drive, not write-protected for a format, with no implied seek to
make, wait for the index pulse. -/
def Obligations.TrackCommandsWaitForIndex : Prop :=
  ∀ (i : Instr) (s : State), trackCommand i = true → (s.slot (loadCur i).d).mainState = .idle →
    s.driveReady (loadCur i).d = true →
    (writeCommand i = true → s.writeProtected (loadCur i).d = false) →
    (seeksImplicitly i = true → s.fifocfg.getLsbD 6 = true → (s.slot (loadCur i).d).pcn = (loadCur i).c) →
    exec i s = .next (updateOutputs (started i .waitIndex s))

/-- R310, R235, R303: with EIS = 1, a command that may seek implicitly first steps toward its cylinder, in Execution. After
a settle it steps again, or, on its cylinder, goes on without SE and without an IRQ reason: the header search or the wait
for the index, or its end where TC came meanwhile (R235, R239). -/
def Obligations.ImpliedSeekMovesFirst : Prop :=
  (∀ (i : Instr) (s : State), seeksImplicitly i = true → (s.slot (loadCur i).d).mainState = .idle →
    s.driveReady (loadCur i).d = true →
    (writeCommand i = true → s.writeProtected (loadCur i).d = false) →
    s.fifocfg.getLsbD 6 = true → (s.slot (loadCur i).d).pcn ≠ (loadCur i).c →
    exec i s = .next (updateOutputs
      { started i .waitStepPulse s with
        drives := s.drives.set (loadCur i).d { s.slot (loadCur i).d with
          mainState := mainOf i
          subState := .waitStepPulse
          st0 := driveByte (loadCur i).hd (loadCur i).d
          seekTarget := (loadCur i).c
          dir := if (s.slot (loadCur i).d).pcn < (loadCur i).c then .inward else .out }
        driveTimer := s.driveTimer.set (loadCur i).d (some (s.now + pulseTicks))
        outs := s.outs ++ [.sideSelected (loadCur i).d (loadCur i).hd,
          .step (loadCur i).d (if (s.slot (loadCur i).d).pcn < (loadCur i).c then .inward else .out)] })) ∧
  (∀ (d : Drive) (s : State), (s.slot d).subState = .waitStepSettle →
    (s.slot d).mainState ∈ ([.readData, .writeData, .readTrack] : List MainState) →
    ((s.slot d).pcn ≠ (s.slot d).seekTarget →
      driveTimerExpiry d s = .next
        { s with
          drives := s.drives.set d { s.slot d with
            subState := .waitStepPulse, dir := if (s.slot d).pcn < (s.slot d).seekTarget then .inward else .out }
          driveTimer := s.driveTimer.set d (some (s.now + pulseTicks))
          outs := s.outs ++ [.step d (if (s.slot d).pcn < (s.slot d).seekTarget then .inward else .out)] }) ∧
    ((s.slot d).pcn = (s.slot d).seekTarget →
      let arrived : State := { s with driveTimer := s.driveTimer.set d none }
      (s.tcDone = true → s.live = none → (s.slot d).live = false →
        driveTimerExpiry d s =
          .next (ended d (finalSt0 s.par (s.slot d).st0 s.st1) s.st1 s.st2 arrived)) ∧
      (s.tcDone = false → s.cur.op = .readTrack → driveTimerExpiry d s = .next
        { arrived with drives := s.drives.set d { s.slot d with subState := .waitIndex } }) ∧
      (s.tcDone = false → s.cur.op ∈ ([.readData, .readDeletedData, .writeData, .writeDeletedData] : List Op) →
        s.live = none → driveTimerExpiry d s = .next (searching d .scanId .searchAddressMarkHeader
          { arrived with
            cur := { s.cur with seenHeader := false }
            drives := s.drives.set d { s.slot d with counter := 0 } }))))

/-- R232: a command of R231 to a drive that is not ready ends at once with NR and IC = 01, its parameters unchanged in the
result. -/
def Obligations.UnreadyDriveEndsTheCommand : Prop :=
  ∀ (i : Instr) (s : State), mediumCommand i = true → (s.slot (loadCur i).d).mainState = .idle →
    s.driveReady (loadCur i).d = false →
    exec i s = .next (updateOutputs
      { started i .idle s with
        phase := .result
        res := [0x48 ||| driveByte (loadCur i).hd (loadCur i).d, 0, 0, (loadCur i).c, (loadCur i).h, (loadCur i).r,
          (loadCur i).n]
        dataIrq := true
        drives := s.drives.set (loadCur i).d { s.slot (loadCur i).d with
          subState := .idle, st0 := 0x48 ||| driveByte (loadCur i).hd (loadCur i).d } })

/-- R234: a write or format command to a write-protected drive ends at once with NW and IC = 01, and nothing is written. -/
def Obligations.ProtectedDriveEndsTheWrite : Prop :=
  ∀ (i : Instr) (s : State), writeCommand i = true → (s.slot (loadCur i).d).mainState = .idle →
    s.driveReady (loadCur i).d = true → s.writeProtected (loadCur i).d = true →
    exec i s = .next (updateOutputs
      { started i .idle s with
        phase := .result
        res := [0x40 ||| driveByte (loadCur i).hd (loadCur i).d, 0x02, 0, (loadCur i).c, (loadCur i).h, (loadCur i).r,
          (loadCur i).n]
        st1 := 0x02
        dataIrq := true
        drives := s.drives.set (loadCur i).d { s.slot (loadCur i).d with
          subState := .idle, st0 := 0x40 ||| driveByte (loadCur i).hd (loadCur i).d } })

/-! ## The reactions of the drive state machines -/

/-- R237: the evaluation of a header that a read or write search found. The clauses that end the command give its end whole:
a read with bytes the host has not taken waits in Drain first (R410, `finished`). -/
def Obligations.HeaderEvaluation : Prop :=
  ∀ (L : LiveTransfer) (s0 : State),
    (s0.slot L.drive).mainState = .readData ∨ (s0.slot L.drive).mainState = .writeData →
    (s0.slot L.drive).subState = .scanId →
    let s : State := { s0 with cur := { s0.cur with seenHeader := true, lastId := L.idbuf } }
    let st0 := (s.slot L.drive).st0
    (L.crc ≠ 0 →
      report .headerRead L s0 = .next (finished L.drive (abnormal st0) (s.st1 ||| 0x20) s.st2 s)) ∧
    (L.crc = 0 → L.idbuf.c ≠ s.cur.c →
      report .headerRead L s0 = .next (finished L.drive (abnormal st0) (s.st1 ||| 0x04)
        (s.st2 ||| 0x10 ||| bitsIf (L.idbuf.c = 0xFF) 0x02) s)) ∧
    (L.crc = 0 → L.idbuf.c = s.cur.c → (L.idbuf.h ≠ s.cur.h ∨ L.idbuf.r ≠ s.cur.r ∨ L.idbuf.n ≠ s.cur.n) →
      report .headerRead L s0 = .next (searching L.drive .scanId .searchAddressMarkHeader s)) ∧
    (L.crc = 0 → L.idbuf = s.cur.chrn → s.cur.op = .readData ∨ s.cur.op = .readDeletedData →
      report .headerRead L s0 = .next (searching L.drive .sectorRead .searchAddressMarkData s)) ∧
    (L.crc = 0 → L.idbuf = s.cur.chrn → s.cur.op = .writeData ∨ s.cur.op = .writeDeletedData → s.tcDone = false →
      report .headerRead L s0 = .next (searching L.drive .sectorWrite .writeSectorSkipGap2
        { s with
          fifoWrite := true
          fifoExpected := s.cur.sectorSize
          internalDrq := decide (s.fifo.length < 16) }))

/-- R236: the first index pulse of a header search is counted, the second ends the command with ND, and MA if no header was
seen; with bytes the host has not taken a read waits in Drain first (R410, `finished`). -/
def Obligations.IndexLimitEndsTheSearch : Prop :=
  ∀ (d : Drive) (L : LiveTransfer) (s : State), (s.units.get d).attached = true →
    (s.slot d).mainState = .readData ∨ (s.slot d).mainState = .writeData ∨ (s.slot d).mainState = .readId →
    (s.slot d).subState = .scanId → s.live = some L → L.drive = d → s.pll.writeStartTime = none →
    ((s.slot d).counter + 1 < 2 →
      onIndex d s =
        .next { s with drives := s.drives.set d { s.slot d with counter := (s.slot d).counter + 1 } }) ∧
    (2 ≤ (s.slot d).counter + 1 →
      onIndex d s = .next (finished d (abnormal (s.slot d).st0)
        (s.st1 ||| 0x04 ||| bitsIf (!s.cur.seenHeader) 0x01) s.st2
        { s with drives := s.drives.set d { s.slot d with counter := (s.slot d).counter + 1 } }))

/-- R242 to R245, R238: the end of a data field. Without a CRC error that ends the command `Advance` follows, and then the
next sector is searched, unless the command is done by it, the data mark was of the other kind without SK, or a byte was
lost; the next state is written out for a field that is not the last of its track, and given by `advance` (see
`AdvanceRule`) for one that is. A data mark that is missing ends the command. Where the command ends with bytes the host has
not taken, it waits in Drain first (R410, `finished`). -/
def Obligations.DataFieldEnd : Prop :=
  ∀ (L : LiveTransfer) (s : State), (s.slot L.drive).mainState = .readData →
    (s.slot L.drive).subState = .sectorRead → s.cur.op = .readData ∨ s.cur.op = .readDeletedData →
    let bad : Bool := L.crc ≠ 0
    let mismatch : Bool := L.markDeleted != (s.cur.op == .readDeletedData)
    let st0 := if bad then abnormal (s.slot L.drive).st0 else (s.slot L.drive).st0
    let st1 := s.st1 ||| bitsIf bad 0x20
    let st2 := s.st2 ||| bitsIf mismatch 0x40 ||| bitsIf bad 0x20
    let next : State := { s with cur := { s.cur with r := s.cur.r + 1 } }
    report .dataMarkMissing L s =
      .next (finished L.drive (abnormal (s.slot L.drive).st0) (s.st1 ||| 0x01) (s.st2 ||| 0x01) s) ∧
    (bad = true → s.par.crcErrorContinues = false →
      report .fieldRead L s = .next (finished L.drive st0 st1 st2 s)) ∧
    ((bad = true → s.par.crcErrorContinues = true) → ¬ s.cur.eot < s.cur.r + 1 →
      (s.tcDone = true ∨ (mismatch = true ∧ s.cur.sk = false) ∨ s.st1.getLsbD 4 = true →
        report .fieldRead L s = .next (finished L.drive st0 st1 st2 next)) ∧
      (s.tcDone = false → (mismatch = true → s.cur.sk = true) → s.st1.getLsbD 4 = false →
        report .fieldRead L s = .next (searching L.drive .scanId .searchAddressMarkHeader
          { next with
            st1 := st1
            st2 := st2
            internalDrq := s.internalDrq || decide (s.fifo ≠ [])
            cur := { next.cur with seenHeader := false }
            drives := s.drives.set L.drive { s.slot L.drive with st0 := st0, counter := 0 } }))) ∧
    ((bad = true → s.par.crcErrorContinues = true) → s.cur.eot < s.cur.r + 1 →
      let after := advance
        { s with
          live := none
          st1 := st1
          st2 := st2
          internalDrq := s.internalDrq || decide (s.fifo ≠ [])
          drives := s.drives.set L.drive { s.slot L.drive with live := false, st0 := st0 } }
      let t := after.2
      (after.1 = true ∨ (mismatch = true ∧ s.cur.sk = false) ∨ s.st1.getLsbD 4 = true →
        report .fieldRead L s = .next (finished L.drive (t.slot L.drive).st0 t.st1 t.st2 t)) ∧
      (after.1 = false → (mismatch = true → s.cur.sk = true) → s.st1.getLsbD 4 = false →
        report .fieldRead L s = .next (searching L.drive .scanId .searchAddressMarkHeader
          { t with
            cur := { t.cur with seenHeader := false }
            drives := t.drives.set L.drive { t.slot L.drive with counter := 0 } })))

/-- R258 with R250: the end of a written field. The request and the FIFO are dropped, `Advance` follows, and then the command
ends or the next sector is searched; the next state is written out for a field that is not the last of its track, and given
by `advance` (see `AdvanceRule`) for one that is: the ordinary end of a single-sector write. -/
def Obligations.WrittenFieldEnd : Prop :=
  ∀ (L : LiveTransfer) (s : State), (s.slot L.drive).mainState = .writeData →
    (s.slot L.drive).subState = .sectorWrite → s.cur.op = .writeData ∨ s.cur.op = .writeDeletedData →
    let next : State :=
      { s with cur := { s.cur with r := s.cur.r + 1 }, fifo := [], fifoExpected := 0, internalDrq := false }
    (¬ s.cur.eot < s.cur.r + 1 →
      (s.tcDone = true ∨ s.st1.getLsbD 4 = true →
        report .fieldWritten L s =
          .next (ended L.drive (finalSt0 s.par (s.slot L.drive).st0 s.st1) s.st1 s.st2 next)) ∧
      (s.tcDone = false → s.st1.getLsbD 4 = false →
        report .fieldWritten L s = .next (searching L.drive .scanId .searchAddressMarkHeader
          { next with
            cur := { next.cur with seenHeader := false }
            drives := s.drives.set L.drive { s.slot L.drive with counter := 0 } }))) ∧
    (s.cur.eot < s.cur.r + 1 →
      let after := advance
        { s with
          live := none
          fifo := []
          fifoExpected := 0
          internalDrq := false
          drives := s.drives.set L.drive { s.slot L.drive with live := false } }
      let t := after.2
      (after.1 = true ∨ s.st1.getLsbD 4 = true →
        report .fieldWritten L s =
          .next (ended L.drive (finalSt0 s.par (t.slot L.drive).st0 t.st1) t.st1 t.st2 t)) ∧
      (after.1 = false → s.st1.getLsbD 4 = false →
        report .fieldWritten L s = .next (searching L.drive .scanId .searchAddressMarkHeader
          { t with
            cur := { t.cur with seenHeader := false }
            drives := t.drives.set L.drive { t.slot L.drive with counter := 0 } })))

/-- R264, R265, R269: Read Track records a bad header or a missing data mark and goes on, counts the fields it has read, and
ends after `EOT` of them; Read ID reports the first header, bad or not. A Read Track that ends with bytes the host has not
taken waits in Drain first (R410, `finished`). -/
def Obligations.TrackAndIdReports : Prop :=
  ∀ (L : LiveTransfer) (s : State),
    let st0 := (s.slot L.drive).st0
    let bad : Bool := L.crc ≠ 0
    ((s.slot L.drive).mainState = .readTrack → (s.slot L.drive).subState = .scanId →
      let other : Bool := L.idbuf ≠ s.cur.chrn
      report .headerRead L s = .next (searching L.drive .sectorRead .searchAddressMarkData
        (withSt0 L.drive (if bad || other then abnormal st0 else st0)
          { s with
            cur := { s.cur with seenHeader := true, lastId := L.idbuf }
            st1 := s.st1 ||| bitsIf bad 0x20 ||| bitsIf other 0x04 }))) ∧
    ((s.slot L.drive).mainState = .readTrack → (s.slot L.drive).subState = .sectorRead →
      report .dataMarkMissing L s = .next (searching L.drive .scanId .searchAddressMarkHeader
        (withSt0 L.drive (abnormal st0) { s with st1 := s.st1 ||| 0x01, st2 := s.st2 ||| 0x01 }))) ∧
    ((s.slot L.drive).mainState = .readTrack → (s.slot L.drive).subState = .sectorRead →
      let next : State := { s with cur := { s.cur with count := s.cur.count + 1, r := s.cur.r + 1 } }
      (s.tcDone = true ∨ s.cur.eot.toNat ≤ s.cur.count + 1 ∨ s.st1.getLsbD 4 = true →
        report .fieldRead L s = .next (finished L.drive (if bad then abnormal st0 else st0)
          (s.st1 ||| bitsIf bad 0x20) (s.st2 ||| bitsIf bad 0x20) next)) ∧
      (s.tcDone = false → s.cur.count + 1 < s.cur.eot.toNat → s.st1.getLsbD 4 = false →
        report .fieldRead L s = .next (searching L.drive .scanId .searchAddressMarkHeader
          (withSt0 L.drive (if bad then abnormal st0 else st0)
            { next with
              st1 := s.st1 ||| bitsIf bad 0x20
              st2 := s.st2 ||| bitsIf bad 0x20
              internalDrq := s.internalDrq || decide (s.fifo ≠ []) })))) ∧
    ((s.slot L.drive).mainState = .readId → (s.slot L.drive).subState = .scanId →
      report .headerRead L s = .next (finished L.drive (if bad then abnormal st0 else st0)
        (s.st1 ||| bitsIf bad 0x20) s.st2
        { s with cur := { s.cur with
          c := L.idbuf.c, h := L.idbuf.h, r := L.idbuf.r, n := L.idbuf.n, lastId := L.idbuf } }))

/-- R263, R273, R275, R312, R230, R236, R351: the index pulses of Read Track and Format Track, and those that are ignored:
of a drive that is Idle, seeks or recalibrates, in the field of a read or a write, while a read drains, during an implied
seek, and of a slot with no drive. A Read Track that ends with bytes the host has not taken waits in Drain first (R410,
`finished`). -/
def Obligations.IndexPulsesDriveTrackCommands : Prop :=
  ∀ (d : Drive) (s : State),
    ((s.units.get d).attached = true → s.live = none → (s.slot d).subState = .waitIndex →
      ((s.slot d).mainState = .readTrack →
        onIndex d s = .next (searching d .scanId .searchAddressMarkHeader
          { s with cur := { s.cur with count := 0, seenHeader := false } })) ∧
      ((s.slot d).mainState = .formatTrack →
        onIndex d s = .next (searching d .trackWrite .writeTrackPreSectors s))) ∧
    ((s.units.get d).attached = true → (s.slot d).mainState = .readTrack →
      (s.slot d).subState = .scanId ∨ (s.slot d).subState = .sectorRead →
      ∀ L, s.live = some L → L.drive = d →
        onIndex d s = .next (finished d (abnormal (s.slot d).st0)
          (s.st1 ||| 0x04 ||| bitsIf (!s.cur.seenHeader) 0x01) s.st2 (liveAbort s))) ∧
    ((s.units.get d).attached = true → (s.slot d).mainState = .formatTrack → (s.slot d).subState = .trackWrite →
      s.cur.op = .formatTrack → ∀ L, s.live = some L → L.drive = d →
      (L.state = .writeTrackPostSectors →
        onIndex d s = .next (ended d (finalSt0 s.par (s.slot d).st0 s.st1) s.st1 s.st2 (liveAbort s))) ∧
      (L.state ≠ .writeTrackPostSectors → onIndex d s = .next s)) ∧
    ((s.slot d).mainState = .idle ∨ (s.slot d).mainState = .seek ∨ (s.slot d).mainState = .recalibrate →
      onIndex d s = .next s) ∧
    ((s.slot d).mainState = .readData ∨ (s.slot d).mainState = .writeData →
      (s.slot d).subState ∈ ([.sectorRead, .sectorWrite, .drain, .waitStepPulse, .waitStepSettle] : List SubState) →
      onIndex d s = .next s) ∧
    ((s.slot d).mainState = .readTrack →
      (s.slot d).subState ∈ ([.drain, .waitStepPulse, .waitStepSettle] : List SubState) → onIndex d s = .next s) ∧
    ((s.units.get d).attached = false → onIndex d s = .next s)

/-- R250: `Advance`, with the boundary values of its corner cases. -/
def Obligations.AdvanceRule : Prop :=
  ∀ s : State,
    let d := s.cur.d
    let wrapped : Cur := { s.cur with r := 1 }
    let turned : State :=
      { s with
        cur := { s.cur with r := 1, h := s.cur.h ^^^ 0x01, hd := !s.cur.hd }
        units := (s.selectSide d (!s.cur.hd)).units
        outs := s.outs ++ [.sideSelected d (!s.cur.hd)] }
    (¬ s.cur.eot < s.cur.r + 1 →
      advance s = (s.tcDone, { s with cur := { s.cur with r := s.cur.r + 1 } })) ∧
    (s.cur.eot < s.cur.r + 1 → s.cur.mt = false → s.tcDone = false →
      advance s = (true, withSt0 d (abnormal (s.slot d).st0) { s with cur := wrapped, st1 := s.st1 ||| 0x80 })) ∧
    (s.cur.eot < s.cur.r + 1 → s.cur.mt = false → s.tcDone = true →
      advance s = (true, { s with cur := { wrapped with c := s.cur.c + 1 } })) ∧
    (s.cur.eot < s.cur.r + 1 → s.cur.mt = true → s.cur.h.getLsbD 0 = false → advance s = (s.tcDone, turned)) ∧
    (s.cur.eot < s.cur.r + 1 → s.cur.mt = true → s.cur.h.getLsbD 0 = true → s.tcDone = false →
      advance s = (true, withSt0 d (abnormal (s.slot d).st0) { turned with st1 := s.st1 ||| 0x80 })) ∧
    (s.cur.eot < s.cur.r + 1 → s.cur.mt = true → s.cur.h.getLsbD 0 = true → s.tcDone = true →
      advance s = (true, { turned with cur := { turned.cur with c := s.cur.c + 1 } })) ∧
    (s.cur.r = 0xFF → s.cur.eot = 0xFF → (advance s).2.cur.r = 0x00)

/-! ## The FIFO, terminal count and the result -/

/-- R332: the FIFO's bound and order, for both pushes and both pops. -/
def Obligations.FifoKeepsOrderAndBound : Prop :=
  ∀ (v : Byte) (s : State), s.fifo.length ≤ 16 →
    (s.fifo.length = 16 → (enginePush v s).fifo = s.fifo ∧ (enginePush v s).st1 = s.st1 ||| 0x10) ∧
    (s.fifo.length < 16 → (enginePush v s).fifo = s.fifo ++ [v] ∧ (enginePush v s).st1 = s.st1) ∧
    (s.fifoWrite = true → s.fifoExpected ≠ 0 →
      (s.fifo.length = 16 → (hostPush v s).fifo = s.fifo ∧ (hostPush v s).st1 = s.st1 ||| 0x10) ∧
      (s.fifo.length < 16 → (hostPush v s).fifo = s.fifo ++ [v] ∧ (hostPush v s).st1 = s.st1)) ∧
    (s.fifoWrite = false ∨ s.fifoExpected = 0 → hostPush v s = s) ∧
    (s.fifo = [] → (enginePop s).1 = 0 ∧ (enginePop s).2.fifo = [] ∧ (enginePop s).2.st1 = s.st1 ||| 0x10) ∧
    (∀ x rest, s.fifo = x :: rest →
      (enginePop s).1 = x ∧ (enginePop s).2.fifo = rest ∧ (enginePop s).2.st1 = s.st1) ∧
    (s.fifoWrite = false →
      (s.fifo = [] → (hostPop s).1 = 0 ∧ (hostPop s).2.fifo = [] ∧ (hostPop s).2.st1 = s.st1 ||| 0x10) ∧
      (∀ x rest, s.fifo = x :: rest →
        (hostPop s).1 = x ∧ (hostPop s).2.fifo = rest ∧ (hostPop s).2.st1 = s.st1)) ∧
    (s.fifoWrite = true → hostPop s = (0xFF, s)) ∧
    (enginePush v s).fifo.length ≤ 16 ∧ (hostPush v s).fifo.length ≤ 16 ∧ (enginePop s).2.fifo.length ≤ 16 ∧
    (hostPop s).2.fifo.length ≤ 16

/-- R323 to R329, R331: when the FIFO requests the host, and when it stops. -/
def Obligations.FifoRequestsTheHost : Prop :=
  ∀ (v : Byte) (n : Nat) (s : State),
    (s.fifo.length < 16 → (enginePush v s).internalDrq =
      (s.internalDrq || decide ((if s.fifocfg.getLsbD 5 then 1 else (s.fifocfg.extractLsb' 0 4).toNat + 1) ≤
        s.fifo.length + 1))) ∧
    (enginePop s).2.internalDrq =
      (s.internalDrq || (decide (0 < s.fifoExpected) &&
        (if s.fifocfg.getLsbD 5 then decide ((enginePop s).2.fifo = [])
         else decide ((enginePop s).2.fifo.length ≤ (s.fifocfg.extractLsb' 0 4).toNat)))) ∧
    (flushRequest s).internalDrq = (s.internalDrq || decide (s.fifo ≠ [])) ∧
    (s.tcDone = false → fifoExpect n s =
      { s with fifoWrite := true, fifoExpected := n, internalDrq := decide (s.fifo.length < 16) }) ∧
    (s.tcDone = true → fifoExpect n s = { s with fifoWrite := true, fifoExpected := 0, internalDrq := false }) ∧
    fifoStopExpect s = { s with fifoExpected := 0, fifo := [], internalDrq := false } ∧
    fifoReset s = { s with fifo := [], fifoExpected := 0, fifoWrite := false, internalDrq := false } ∧
    (s.fifoWrite = true → s.fifoExpected ≠ 0 → s.fifo.length < 16 →
      (hostPush v s).fifoExpected = s.fifoExpected - 1 ∧
      (hostPush v s).internalDrq =
        (s.internalDrq && !(s.fifo.length + 1 == 16 || s.fifoExpected - 1 == 0 || s.fifocfg.getLsbD 5))) ∧
    (s.fifo.length = 16 → (enginePush v s).internalDrq = s.internalDrq ∧
      (hostPush v s).internalDrq = s.internalDrq ∧ (hostPush v s).fifoExpected = s.fifoExpected) ∧
    (s.fifoWrite = false →
      (s.fifo.length ≤ 1 → (hostPop s).2.internalDrq = false) ∧
      (1 < s.fifo.length → (hostPop s).2.internalDrq = s.internalDrq))

/-- R335, R239, R361: a rising edge of TC. It is ignored outside Execution and after the first one; it ends a command that
searches, waits for the index or drains; in a field it only stops the host's part, and cuts a read field that has not begun;
during an implied seek it only is remembered (its end is in `ImpliedSeekMovesFirst`). Only a rise of the input is such an
edge. -/
def Obligations.TerminalCount : Prop :=
  ∀ s : State,
    let flags : State :=
      { s with
        tcDone := true
        fifoExpected := if s.fifoWrite then 0 else s.fifoExpected
        internalDrq := if s.fifoWrite then false else s.internalDrq }
    let waiting : SubState := (s.slot s.cur.d).subState
    let st0 := finalSt0 s.par (s.slot s.cur.d).st0 s.st1
    (s.phase ≠ .execution ∨ s.tcDone = true → onTC s = s) ∧
    (s.phase = .execution → s.tcDone = false →
      ((∀ L, s.live = some L → L.drive = s.cur.d ∧ L.state ≠ .searchAddressMarkData ∧ L.state ≠ .readDataBlockHeader) →
        (s.live = none → (s.slot s.cur.d).live = false) →
        waiting = .scanId ∨ waiting = .waitIndex →
        onTC s = ended s.cur.d st0 s.st1 s.st2 (liveAbort flags)) ∧
      (waiting = .drain → s.live = none → (s.slot s.cur.d).live = false →
        onTC s = ended s.cur.d st0 s.st1 s.st2 { flags with fifo := [] }) ∧
      (waiting = .sectorRead ∨ waiting = .sectorWrite ∨ waiting = .trackWrite →
        ∀ L, s.live = some L →
        (L.state = .searchAddressMarkData ∨ L.state = .readDataBlockHeader → onTC s = { flags with tcCut := true }) ∧
        (L.state ≠ .searchAddressMarkData → L.state ≠ .readDataBlockHeader → onTC s = flags)) ∧
      (waiting = .waitStepPulse ∨ waiting = .waitStepSettle → s.live = none → onTC s = flags)) ∧
    (s.tcLevel = false → tcInput true s = onTC { s with tcLevel := true }) ∧
    (s.tcLevel = true → tcInput true s = s) ∧
    tcInput false s = { s with tcLevel := false }

/-- R410, R411, R331: a read command that ends with bytes in the FIFO waits in Drain with the request up; the host's pops
deliver every byte in order, and the last one enters the result. -/
def Obligations.DrainDeliversEveryByte : Prop :=
  ∀ (s : State), s.cur.op ∈ ([.readData, .readDeletedData, .readTrack] : List Op) → s.fifo ≠ [] →
    s.tcDone = false → s.fifoWrite = false → s.live = none → (s.slot s.cur.d).live = false →
    commandDone s.cur.d s =
      { s with internalDrq := true,
               drives := s.drives.set s.cur.d { s.slot s.cur.d with subState := .drain } } ∧
    (∀ k, k < s.fifo.length → (pops k (commandDone s.cur.d s)).2.phase = s.phase ∧
      (pops k (commandDone s.cur.d s)).2.internalDrq = true) ∧
    pops s.fifo.length (commandDone s.cur.d s) =
      (s.fifo, ended s.cur.d (finalSt0 s.par (s.slot s.cur.d).st0 s.st1) s.st1 s.st2 { s with fifo := [] })

/-- R356: in Result phase each `DATA` read returns and removes the first result byte, and the phase returns to Command when the
last one is gone. -/
def Obligations.ResultBytesLeaveInOrder : Prop :=
  ∀ s : State, s.phase = .result →
    (∀ v rest, s.res = v :: rest →
      finishOutputs (hostRead .data s) = .next (updateOutputs
        { s with res := rest, phase := if rest = [] then .command else .result, outs := s.outs ++ [.readValue v] })) ∧
    (s.res ≠ [] → dataReads s.res.length s = (s.res, { s with res := [], phase := .command }))

/-! ## The register surface -/

/-- R354, with the read's side effect, and the values of R355. -/
def Obligations.MainStatusRegister : Prop :=
  (∀ s : State,
    s.mainStatus =
      bitsIf (s.dor.getLsbD 2 && (s.phase != .execution || s.internalDrq)) 0x80 |||
      bitsIf (s.phase == .result || (s.phase == .execution && !s.fifoWrite && s.internalDrq)) 0x40 |||
      bitsIf (s.phase == .execution && s.nd) 0x20 |||
      bitsIf (s.phase != .command || decide (0 < s.cmd.length)) 0x10 |||
      bitsIf ((s.slot .d3).mainState == .seek || (s.slot .d3).mainState == .recalibrate) 0x08 |||
      bitsIf ((s.slot .d2).mainState == .seek || (s.slot .d2).mainState == .recalibrate) 0x04 |||
      bitsIf ((s.slot .d1).mainState == .seek || (s.slot .d1).mainState == .recalibrate) 0x02 |||
      bitsIf ((s.slot .d0).mainState == .seek || (s.slot .d0).mainState == .recalibrate) 0x01 ∧
    finishOutputs (hostRead .msr s) =
      .next (updateOutputs { s with dataIrq := false, outs := s.outs ++ [.readValue s.mainStatus] }))

/-- R353, R357 to R360: the accesses of the data port and of the DMA pair by phase and direction, and those without
effect. -/
def Obligations.DataPortByPhase : Prop :=
  ∀ (v : Byte) (s : State),
    (s.phase = .command → hostReadData s = (0xFF, s) ∧ dmaRead s = (0xFF, s) ∧ dmaWrite v s = s) ∧
    (s.phase = .execution →
      (s.cur.op = .readData ∨ s.cur.op = .readDeletedData ∨ s.cur.op = .readTrack →
        hostReadData s = hostPop s ∧ dmaRead s = hostPop s ∧ dmaWrite v s = s ∧ hostWrite .data v s = .next s) ∧
      (s.cur.op = .writeData ∨ s.cur.op = .writeDeletedData ∨ s.cur.op = .formatTrack →
        hostReadData s = (0xFF, s) ∧ dmaRead s = (0xFF, s) ∧ dmaWrite v s = hostPush v s ∧
        (s.dor.getLsbD 2 = true → hostWrite .data v s = .next (hostPush v s))) ∧
      (s.cur.op = .readId → hostReadData s = (0xFF, s) ∧ dmaRead s = (0xFF, s) ∧ dmaWrite v s = s ∧
        hostWrite .data v s = .next s)) ∧
    (s.phase = .result → dmaRead s = (0xFF, s) ∧ dmaWrite v s = s ∧ hostWrite .data v s = .next s) ∧
    (s.dor.getLsbD 2 = false → hostWrite .data v s = .next s) ∧
    hostWrite .msr v s = .next s ∧
    hostRead .data s =
      .next { (hostReadData s).2 with outs := (hostReadData s).2.outs ++ [.readValue (hostReadData s).1] } ∧
    hostRead .dor s = .next { s with outs := s.outs ++ [.readValue s.dor] } ∧
    hostRead .dsr s = .next { s with outs := s.outs ++ [.readValue 0xFF] } ∧
    hostRead .ccr s = .next { s with outs := s.outs ++ [.readValue 0xFF] }

/-- R366: the four cases of a `DOR` write, by the old and the new not-reset bit. -/
def Obligations.DigitalOutputWrite : Prop :=
  ∀ (v : Byte) (s : State),
    let stored : State := { s with dor := v, outs := s.outs ++ motorCalls s.dor v }
    (s.dor.getLsbD 2 = v.getLsbD 2 → hostWrite .dor v s = .next stored) ∧
    (s.dor.getLsbD 2 = true → v.getLsbD 2 = false → hostWrite .dor v s = .next (softReset stored)) ∧
    (s.dor.getLsbD 2 = false → v.getLsbD 2 = true →
      hostWrite .dor v s = .next { stored with pollTimer := some (s.now + firstPollTicks) }) ∧
    (∀ (d : Drive) (on : Bool), .motor d on ∈ motorCalls s.dor v ↔
      v.getLsbD (4 + (driveBits d).toNat) = on ∧ s.dor.getLsbD (4 + (driveBits d).toNat) ≠ on)

/-- R368, R369: writes of `DSR` and `CCR`. -/
def Obligations.RateRegisterWrites : Prop :=
  ∀ (v : Byte) (s : State),
    let selected : State := { s with rateSel := v.extractLsb' 0 2 }
    hostWrite .ccr v s = .next selected ∧
    (v.getLsbD 7 = false → hostWrite .dsr v s = .next selected) ∧
    (v.getLsbD 7 = true → s.dor.getLsbD 2 = false → hostWrite .dsr v s = .next (softReset selected)) ∧
    (v.getLsbD 7 = true → s.dor.getLsbD 2 = true →
      hostWrite .dsr v s = .next { softReset selected with pollTimer := some (s.now + firstPollTicks) })

/-! ## Lines, polling, resets -/

/-- R420: `UpdateOutputs` changes the reported levels and reports their edges, and nothing else; after every step the
reported levels are those the sources and the gate give, and the step reported an edge of a line exactly where its level
changed. That it counts edges by steps is the model's reading (log entry 9), and so is that the step of a hardware reset
reports the falling edges of lines that were high, where R453 read word for word reports none (log entry 12). -/
def Obligations.OutputLinesFollowTheirSources : Prop :=
  (∀ u : State, finishOutputs (.next u) = .next (updateOutputs u) ∧
    let v := updateOutputs u
    v = { u with
      irqOut := v.irqOut
      drqOut := v.drqOut
      outs := u.outs ++ (if v.irqOut = u.irqOut then [] else [.irqEdge v.irqOut]) ++
        (if v.drqOut = u.drqOut then [] else [.drqEdge v.drqOut]) }) ∧
  ∀ s t : State, step s = .next t →
    t.irqOut = ((t.dataIrq ||
        decide ((t.slot .d0).irq ≠ .none ∨ (t.slot .d1).irq ≠ .none ∨ (t.slot .d2).irq ≠ .none ∨
          (t.slot .d3).irq ≠ .none) ||
        (t.nd && t.phase == .execution && t.internalDrq)) &&
      (if t.par.outputGate = .dorGated then t.dor.getLsbD 3 else true)) ∧
    t.drqOut = (!t.nd && t.internalDrq && (if t.par.outputGate = .dorGated then t.dor.getLsbD 3 else true)) ∧
    irqEdges t.outs = (if t.irqOut = s.irqOut then [] else [.irqEdge t.irqOut]) ∧
    drqEdges t.outs = (if t.drqOut = s.drqOut then [] else [.drqEdge t.drqOut])

/-- R430: the ready poll. -/
def Obligations.ReadyPollReportsChanges : Prop :=
  ∀ s : State,
    let armed : State := { s with pollTimer := some (s.now + pollTicks) }
    (s.par.readyPolled = false ∨ s.dor.getLsbD 2 = false ∨ s.fifocfg.getLsbD 4 = true ∨ s.phase ≠ .command ∨
        s.cmd ≠ [] → pollExpiry s = armed) ∧
    (s.par.readyPolled = true → s.dor.getLsbD 2 = true → s.fifocfg.getLsbD 4 = false → s.phase = .command →
      s.cmd = [] →
      pollExpiry s = { armed with drives := (pollExpiry s).drives } ∧
      ∀ d, ((s.slot d).mainState = .idle → s.driveReady d ≠ (s.slot d).ready →
          (pollExpiry s).slot d = { s.slot d with
            ready := s.driveReady d, irq := if (s.slot d).irq = .none then .polled else (s.slot d).irq }) ∧
        ((s.slot d).mainState ≠ .idle ∨ s.driveReady d = (s.slot d).ready → (pollExpiry s).slot d = s.slot d))

/-- R451, R191, R462: the soft reset. A running transfer is aborted first, its engine caught up since the engine comes first
at every instant (R470, log entry 11): its writing stops at this instant, which commits the byte cut by the abort as far as
its cells have come (see `PllReadsWrittenCells` for `StopWriting`), the transfer is dropped and its drive's `live` flag
cleared, and nothing else. -/
def Obligations.SoftResetRule : Prop :=
  ∀ s : State,
    (s.live = none → softReset s =
      { s with
        phase := .command
        cmd := []
        res := []
        st1 := 0
        st2 := 0
        fifo := []
        fifoExpected := 0
        fifoWrite := false
        internalDrq := false
        tcDone := false
        tcCut := false
        dataIrq := false
        fifocfg := if s.locked then s.fifocfg else 0x20
        precomp := if s.locked then s.precomp else 0
        drives := s.drives.map fun x =>
          { x with mainState := .idle, subState := .idle, irq := .none, live := false, st0 := 0, counter := 0,
                   seekTarget := 0, ready := !s.par.readyPolled }
        driveTimer := Slots.replicate none
        pollTimer := none }) ∧
    (s.live = none → liveAbort s = s) ∧
    (∀ L, s.live = some L →
      let stopped := stopWriting L.drive s.now s
      liveAbort s =
        { stopped with live := none, drives := s.drives.set L.drive { s.slot L.drive with live := false } } ∧
      softReset s = softReset (liveAbort s))

/-- R453: the hardware reset. The lines keep their reported levels until the step's `UpdateOutputs` (log entry 12), and the
Drives, the parameters, time and the inputs to come are not the block's. -/
def Obligations.HardwareResetRule : Prop :=
  ∀ s : State, hardwareReset s =
    { phase := .command, cmd := [], res := [], cur := {}, st1 := 0, st2 := 0, dor := 0x0C, rateSel := 2, srt := 0,
      hut := 0, hlt := 0, nd := false, fifocfg := 0x20, precomp := 0, locked := false, dataIrq := false,
      internalDrq := false, tcLevel := false, tcDone := false, tcCut := false, irqOut := s.irqOut, drqOut := s.drqOut,
      fifo := [], fifoExpected := 0, fifoWrite := false, live := none, pll := Pll.reset,
      drives := Slots.replicate
        { mainState := .idle, subState := .idle, pcn := 0, dir := .out, ready := !s.par.readyPolled, irq := .none,
          live := false, st0 := 0, counter := 0, seekTarget := 0 },
      driveTimer := Slots.replicate none, pollTimer := some (s.now + firstPollTicks), units := (liveAbort s).units,
      par := s.par, now := s.now, inputs := s.inputs, outs := (liveAbort s).outs ++ motorCalls s.dor 0x0C }

/-- R454: after any reset the lines are low, and MSR reads 0x80, or 0x00 while the DOR holds the controller in reset. -/
def Obligations.LinesLowAfterReset : Prop :=
  ∀ s t : State, t = softReset s ∨ t = hardwareReset s ∨ t = State.reset →
    (updateOutputs t).irqOut = false ∧ (updateOutputs t).drqOut = false ∧
    t.mainStatus = if t.dor.getLsbD 2 then 0x80 else 0x00

/-- R32, R45, R63, R69, R70, R450, R452: the values the spec states for power-on. -/
def Obligations.PowerOnState : Prop :=
  State.reset.phase = .command ∧ State.reset.cmd = [] ∧ State.reset.res = [] ∧ State.reset.cur = {} ∧
  State.reset.st1 = 0 ∧ State.reset.st2 = 0 ∧ State.reset.dor = 0x0C ∧ State.reset.rateSel = 2 ∧
  State.reset.srt = 0 ∧ State.reset.hut = 0 ∧ State.reset.hlt = 0 ∧ State.reset.nd = false ∧
  State.reset.fifocfg = 0x20 ∧ State.reset.precomp = 0 ∧ State.reset.locked = false ∧
  State.reset.dataIrq = false ∧ State.reset.internalDrq = false ∧ State.reset.tcLevel = false ∧
  State.reset.tcDone = false ∧ State.reset.tcCut = false ∧ State.reset.irqOut = false ∧ State.reset.drqOut = false ∧
  State.reset.fifo = [] ∧ State.reset.fifoExpected = 0 ∧ State.reset.fifoWrite = false ∧ State.reset.live = none ∧
  State.reset.pll =
    { nominal := 0, period := 0, periodAdjustBase := 0, minPeriod := 0, maxPeriod := 0, ctime := 0,
      phaseAdjust := 0, freqHist := 0, writeStartTime := none, writeBuffer := [] } ∧
  (∀ d, State.reset.slot d =
    { mainState := .idle, subState := .idle, pcn := 0, dir := .out, ready := false,
      irq := .none, live := false, st0 := 0, counter := 0, seekTarget := 0 }) ∧
  (∀ d, State.reset.driveTimer.get d = none) ∧ State.reset.pollTimer = some 100000000000000

/-! ## The PLL, the codec and the medium -/

/-- R135 to R139: a window is processed exactly when it ends by the deadline, the deadline changes nothing else, and a
`NeedMoreTime` changes no state. A window without a transition gives a 0 and no phase adjustment; a transition in it gives a
1, 65/100 of its offset from the centre as the next window's phase adjustment, and from the second correction of one sign on
a correction of the period within its bounds. -/
def Obligations.PllWindowTest : Prop :=
  ∀ (p : Pll) (e : Option Int) (limit limit' : Int),
    (nextBit p e limit = none ↔ limit < p.ctime + p.period + p.phaseAdjust) ∧
    (p.ctime + p.period + p.phaseAdjust ≤ limit → limit ≤ limit' → nextBit p e limit = nextBit p e limit') ∧
    (p.ctime + p.period + p.phaseAdjust ≤ limit →
      let stop := p.ctime + p.period + p.phaseAdjust
      ((∀ x, e = some x → stop ≤ x) → nextBit p e limit = some (false, { p with ctime := stop, phaseAdjust := 0 })) ∧
      (∀ x, e = some x → x < stop →
        let delta := x - (stop - p.period.tdiv 2)
        let hist : Int :=
          if delta < 0 then (if p.freqHist < 0 then p.freqHist - 1 else -1)
          else if 0 < delta then (if 0 < p.freqHist then p.freqHist + 1 else 1)
          else 0
        let moved := p.period + (p.periodAdjustBase * delta).tdiv p.period
        nextBit p e limit = some (true,
          { p with
            ctime := stop
            phaseAdjust := (delta * 65).tdiv 100
            freqHist := hist
            period :=
              if 2 ≤ hist ∨ hist ≤ -2 then
                (if moved < p.minPeriod then p.minPeriod else if p.maxPeriod < moved then p.maxPeriod else moved)
              else p.period }))) ∧
    (∀ (L : LiveTransfer) (s : State), s.live = some L → L.state.writes = false → readCell limit L s = none →
      engineStep limit s = .next s)

/-- R140: from a PLL within its bounds, whatever flux the drive gives, `NextBit` succeeds by its deadline, time advances, and
the PLL stays within its bounds; `SetClock` establishes them. -/
def Obligations.PllStaysBounded : Prop :=
  (∀ (p : Pll) (nom : Int) (t : Int), pllSetClock (pllReset p t) nom = clockedPll t nom) ∧
  (∀ nom t : Int, 100 ≤ nom → PllInv (clockedPll t nom)) ∧
  (∀ (p : Pll) (f : List Int) (limit : Int), PllInv p → pllWindowEnd p ≤ limit →
    ∃ b q, nextBit p (fluxAfter f p.ctime) limit = some (b, q) ∧ p.ctime < q.ctime ∧ PllInv q)

/-- R142, R143, R141: the write side, operation by operation, and the round trip. Bytes of at most 16 cells written on an
attached drive from instant `t`, each ended by its commit, read back as exactly those cells by a PLL reset and clocked at
the same instant and nominal period, from whatever the medium held; outside their span the medium is unchanged. -/
def Obligations.PllReadsWrittenCells : Prop :=
  (∀ (p : Pll) (b : Bool) (limit : Int),
    (limit < p.ctime + p.nominal → writeBit p b limit = none) ∧
    (p.ctime + p.nominal ≤ limit → writeBit p b limit = some
      { p with
        ctime := p.ctime + p.nominal
        writeBuffer :=
          if b = true ∧ p.writeBuffer.length < 32 then p.writeBuffer ++ [p.ctime + tdiv p.nominal 2]
          else p.writeBuffer })) ∧
  (∀ (p : Pll) (t : Int), pllStartWriting p t = { p with writeStartTime := some t, writeBuffer := [] }) ∧
  (∀ (d : Drive) (t : Int) (s : State),
    (s.pll.writeStartTime = none ∨ s.pll.writeStartTime = some t → commitWrite d t s = s) ∧
    (∀ w, s.pll.writeStartTime = some w → w ≠ t →
      let u := s.units.get d
      commitWrite d t s =
        { s with
          pll := { s.pll with writeStartTime := some t, writeBuffer := [] }
          units :=
            if u.attached then s.units.set d (u.setFlux u.side (fluxReplace u.flux w t s.pll.writeBuffer)) else s.units
          outs := s.outs ++ [.writeFlux d w t s.pll.writeBuffer] }) ∧
    stopWriting d t s =
      { commitWrite d t s with pll := { (commitWrite d t s).pll with writeStartTime := none } }) ∧
  (∀ (d : Drive) (s : State) (nom t : Int) (bytes : List (List Bool)), 100 ≤ nom →
    (s.units.get d).attached = true → FluxWf (s.units.get d).flux → (∀ c ∈ bytes, c.length ≤ 16) →
    let cells := bytes.flatten
    let stop := t + (cells.length : Int) * nom
    let w := writeStream d bytes { s with pll := pllSetClock (pllReset s.pll t) nom }
    let r := readCells (w.units.get d).flux cells.length (pllSetClock (pllReset w.pll t) nom)
    r.1 = cells ∧ r.2.ctime = stop ∧ w.pll.ctime = stop ∧ w.pll.writeStartTime = none ∧ w.pll.writeBuffer = [] ∧
      ∀ x, x < t ∨ stop ≤ x → (x ∈ (w.units.get d).flux ↔ x ∈ (s.units.get d).flux))

/-- R166, R168, R169: the CRC is the one of generator 0x1021, a byte's bits entering bit 7 first; from any accumulator, the two
bytes that leave the residual 0 are the accumulator's high byte and low byte, and they are the two bytes the writer emits. -/
def Obligations.CrcResidueZero : Prop :=
  (∀ (c : BitVec 16) (b : Bool),
    (c.getLsbD 15 = b → crcBit c b = c <<< 1) ∧ (c.getLsbD 15 ≠ b → crcBit c b = (c <<< 1) ^^^ 0x1021)) ∧
  (∀ (c : BitVec 16) (v : Byte),
    crcByte c v = ([7, 6, 5, 4, 3, 2, 1, 0] : List Nat).foldl (fun k i => crcBit k (v.getLsbD i)) c) ∧
  (∀ c : BitVec 16, crcBytes c [] = c) ∧
  (∀ (c : BitVec 16) (v : Byte) (vs : List Byte), crcBytes c (v :: vs) = crcBytes (crcByte c v) vs) ∧
  (∀ (c : BitVec 16) (hi lo : Byte),
    crcBytes c [hi, lo] = 0 ↔ hi = c.extractLsb' 8 8 ∧ lo = c.extractLsb' 0 8) ∧
  (∀ c : BitVec 16, crcHigh c = c.extractLsb' 8 8 ∧ crcHigh (crcByte c (crcHigh c)) = c.extractLsb' 0 8)

/-- R160 to R163, R167, R171, R179: the clock and data cells of a byte's MFM and FM words; sixteen cells written from a byte are
those cells, the reader assembles the same byte from them, and writer and reader pass exactly its data bits through the
CRC. -/
def Obligations.CodecReadsWhatItWrites : Prop :=
  (∀ (v : Byte) (ctx : Bool) (i : Nat), i < 8 →
    (mfmEncode v ctx).1.getLsbD (2 * i) = v.getLsbD i ∧
    (mfmEncode v ctx).1.getLsbD (2 * i + 1) =
      (!v.getLsbD i && !(if i = 7 then ctx else v.getLsbD (i + 1))) ∧
    (mfmEncode v ctx).2 = v.getLsbD 0 ∧
    (fmEncode v).getLsbD (2 * i) = v.getLsbD i ∧
    (fmEncode v).getLsbD (2 * i + 1) = true) ∧
  ∀ (mfm : Bool) (v : Byte) (W R : LiveTransfer), R.dataSeparatorPhase = false →
    let w : Cells := if mfm then (mfmEncode v W.dataBitContext).1 else fmEncode v
    (writeWord 16 (emitByte mfm v W)).1 = wordCells w ∧
    (writeWord 16 (emitByte mfm v W)).2.crc = crcByte W.crc v ∧
    (writeWord 16 (emitByte mfm v W)).2.bitCounter = 0 ∧
    (writeWord 16 (emitByte mfm v W)).2.dataBitContext = v.getLsbD 0 ∧
    (readWord R (wordCells w)).dataReg = v ∧
    (readWord R (wordCells w)).shiftReg = w ∧
    (readWord R (wordCells w)).crc = crcByte R.crc v ∧
    (readWord R (wordCells w)).bitCounter = R.bitCounter + 16 ∧
    (readWord R (wordCells w)).dataSeparatorPhase = false

/-- R86, R87, R351: the query gives the earliest transition strictly after an instant, and a write replaces exactly the
transitions of its interval; both on a flux list in its strictly rising form, which the write keeps and into which a list
that a Drive presents is brought (log entry 8). Beside them the Drive interface: the head select, the queries, and the flux
read and written on the selected head. -/
def Obligations.FluxReplacement : Prop :=
  (∀ f : List Int, FluxWf f →
    (∀ a t, fluxAfter f a = some t ↔ t ∈ f ∧ a < t ∧ ∀ x ∈ f, a < x → t ≤ x) ∧
    (∀ a, fluxAfter f a = none ↔ ∀ x ∈ f, x ≤ a) ∧
    (∀ start stop ts, FluxWf (fluxReplace f start stop ts) ∧
      ∀ x, x ∈ fluxReplace f start stop ts ↔
        (x ∈ f ∧ ¬(start ≤ x ∧ x < stop)) ∨ (x ∈ ts ∧ start ≤ x ∧ x < stop))) ∧
  (∀ ts : List Int, FluxWf (fluxOfList ts) ∧ ∀ x, x ∈ fluxOfList ts ↔ x ∈ ts) ∧
  DriveInterfaceRule

/-- R183, R185 to R187 with R179: the words the engine writes, position by position: a data field, a track's preamble, its
sectors and its postamble, and the cells of each word with the commit that ends it. Beside them the engine's read states,
R171 to R178 and R182. -/
def Obligations.DataFieldWriteLayout : Prop :=
  WriteCellsRule ∧ DataFieldLayout ∧ TrackEndsLayout ∧ TrackSectorLayout ∧ ReadStatesRule

/-! ## Invariants and rules of the whole machine -/

/-- R74, R75: every step keeps the controller's invariants, from every state that has them. -/
def Obligations.ControllerInvariantKept : Prop :=
  ∀ s t : State, ControllerInv s → step s = .next t → ControllerInv t

/-- R74, R140: the state after reset has the invariants. -/
def Obligations.InvariantsHoldAtReset : Prop :=
  ControllerInv State.reset ∧ MediaInv State.reset ∧ RunningPll State.reset ∧ LinesShown State.reset

/-- R140, R142, R87: every step keeps the PLL of a running transfer within its bounds, and the media change only where the
engine writes: where no input presents flux on a head of a drive, that head's flux stays what it is unless a write span is
open there, and then outside the interval from the span's start to the step's instant. That every flux list is kept strictly
rising is the model's form of the data, not the spec's (log entry 8). -/
def Obligations.MediaAndPllInvariantsKept : Prop :=
  ∀ s t : State, step s = .next t →
    (MediaInv s → MediaInv t) ∧ (RunningPll s → RunningPll t) ∧
    ∀ (d : Drive) (head : Bool), (∀ ts rest, (arrive s).work ≠ .input (.flux d head ts) rest) →
      ((∀ w, ¬ WritingSince s d head w) → fluxOn t d head = fluxOn s d head) ∧
      (∀ w x, WritingSince s d head w → x < w ∨ t.now ≤ x → (x ∈ fluxOn t d head ↔ x ∈ fluxOn s d head))

/-- R406: no step of a state with the invariants stops, but by a refusal of an opcode of another family member, which R406
calls the only exception, or by a refusal of an access to an extended register, which is U8's of
93_implementation_defined.md (log entry 14). -/
def Obligations.OnlyNamedRefusals : Prop :=
  ∀ s : State, ControllerInv s →
    (∃ t, step s = .next t) ∨
    (∃ v rest r, (arrive s).work = .input (.hostWrite .data v) rest ∧ s.phase = .command ∧ s.cmd = [] ∧
      decodeOpcode v = .refused r ∧ step s = .refused (.unmodelledCommand r)) ∨
    ((∃ i rest, (arrive s).work = .input i rest ∧
      (i = .hostRead .extended ∨ ∃ v, i = .hostWrite .extended v)) ∧ step s = .refused .extendedRegister)

/-- R406, R43: the configuration changes only in a step that is a host register write or the hardware reset; the parameters
never change, and `locked` changes only by the command byte that completes LOCK or by the hardware reset. -/
def Obligations.ConfigurationChangesOnlyByTheHost : Prop :=
  ∀ s t : State, step s = .next t →
    t.par = s.par ∧
    ((∀ reg v rest, (arrive s).work ≠ .input (.hostWrite reg v) rest) →
      (∀ rest, (arrive s).work ≠ .input .hardwareReset rest) → ConfigKept s t) ∧
    (t.locked ≠ s.locked →
      (∃ v rest lk, (arrive s).work = .input (.hostWrite .data v) rest ∧ decode (s.cmd ++ [v]) = .known (.lock lk) []) ∨
      (∃ rest, (arrive s).work = .input .hardwareReset rest))

/-- R89, R90, R470: a step happens at the earliest pending event, which is the engine's next work, a timer or an input;
arriving there changes nothing but the time and the calls reported; and of what is due at one instant the engine comes
first, then the drive timers in increasing number, then the poll timer, then the index pulses in increasing drive number,
then TC, then the accesses of the host and of DMA in the order they stand. The places of a Drive's own change (before the
timers) and of the reset input (before the accesses) are the model's choice, and so is the order in which two of another
kind than accesses are taken (log entry 5). Time never goes back: an input or a timer whose instant lies in the past counts
as due, and with nothing pending time stays (log entry 16). -/
def Obligations.SameInstantOrder : Prop :=
  ∀ s : State,
    let due (kind : Input → Bool) : Prop := ∃ e ∈ s.inputs, e.time ≤ s.now ∧ kind e.input = true
    let timersDue : Prop := (∃ d, dueAt s.now (s.driveTimer.get d) = true) ∨ dueAt s.now s.pollTimer = true
    arrive s = { s with now := (arrive s).now, outs := [] } ∧
    LiveTimerRule s ∧
    ((∃ t, PendingAt s t) → (∀ t, PendingAt s t → s.now ≤ t) →
      PendingAt s (arrive s).now ∧ ∀ t, PendingAt s t → (arrive s).now ≤ t) ∧
    ((∃ t, PendingAt s t ∧ t ≤ s.now) → (arrive s).now = s.now) ∧
    ((∀ t, ¬ PendingAt s t) → (arrive s).now = s.now) ∧
    (s.work = .engine ↔ dueAt s.now s.liveTimer = true) ∧
    (∀ d, s.work = .driveTimer d → ¬ due isDriveChange ∧ dueAt s.now (s.driveTimer.get d) = true ∧
      ∀ e, (driveBits e).toNat < (driveBits d).toNat → dueAt s.now (s.driveTimer.get e) = false) ∧
    (s.work = .poll → ¬ due isDriveChange ∧ dueAt s.now s.pollTimer = true ∧
      ∀ d, dueAt s.now (s.driveTimer.get d) = false) ∧
    (s.work = .nothing → ¬ timersDue ∧ ∀ e ∈ s.inputs, s.now < e.time) ∧
    (∀ i rest, s.work = .input i rest →
      (isDriveChange i = false → ¬ timersDue ∧ ¬ due isDriveChange) ∧
      (∀ d e, i = .index d → due (fun j => decide (j = .index e)) → (driveBits d).toNat ≤ (driveBits e).toNat) ∧
      (∀ level e, i = .tc level → ¬ due (fun j => decide (j = .index e))) ∧
      (∀ e, i = .hardwareReset → ¬ due (fun j => decide (j = .index e)) ∧ ∀ level, ¬ due (fun j => decide (j = .tc level))) ∧
      (isAccess i = true → ∀ e ∈ s.inputs, e.time ≤ s.now → isAccess e.input = true) ∧
      ∃ before time after, s.inputs = before ++ { time := time, input := i } :: after ∧ rest = before ++ after ∧
        time ≤ s.now ∧ ∀ e ∈ before, e.time ≤ s.now → sameTurn i e.input = false)
end

