-- ==== Sys2Proof/Laws/State.lean ====
section
/-! SUPPORT. The fields after each named update of the state, one lemma per field and update, and the drive slots after an
update of one of them. -/

namespace Sys2Proof.Machine

/-! ## Slots -/

@[simp] theorem Slots.get_set_same {α : Type} (v : Slots α) (d : Drive) (x : α) : (v.set d x).get d = x := by
  cases d <;> rfl

@[simp] theorem Slots.set_set {α : Type} (v : Slots α) (d : Drive) (x y : α) : (v.set d x).set d y = v.set d y := by
  cases d <;> rfl

@[simp] theorem Slots.set_get {α : Type} (v : Slots α) (d : Drive) : v.set d (v.get d) = v := by
  cases d <;> rfl

theorem Slots.get_set_ne {α : Type} (v : Slots α) {d e : Drive} (x : α) (h : e ≠ d) :
    (v.set d x).get e = v.get e := by
  cases d <;> cases e <;> first | rfl | exact absurd rfl h

theorem Slots.get_set {α : Type} (v : Slots α) (d e : Drive) (x : α) :
    (v.set d x).get e = if e = d then x else v.get e := by
  cases d <;> cases e <;> rfl

@[simp] theorem Slots.get_map {α β : Type} (f : α → β) (v : Slots α) (d : Drive) :
    (v.map f).get d = f (v.get d) := by
  cases d <;> rfl

@[simp] theorem Slots.get_replicate {α : Type} (x : α) (d : Drive) : (Slots.replicate x).get d = x := by
  cases d <;> rfl

theorem Slots.ext_get {α : Type} {v w : Slots α} (h : ∀ d, v.get d = w.get d) : v = w := by
  have h0 := h .d0
  have h1 := h .d1
  have h2 := h .d2
  have h3 := h .d3
  cases v
  cases w
  simp only [Slots.get] at h0 h1 h2 h3
  subst h0 h1 h2 h3
  rfl

/-! ## A drive slot after an update -/

@[simp] theorem State.slot_def (s : State) (d : Drive) : s.slot d = s.drives.get d := rfl

@[simp] theorem updSlot_get_same (s : State) (d : Drive) (f : DriveSlot → DriveSlot) :
    (s.updSlot d f).drives.get d = f (s.drives.get d) := by
  simp [State.updSlot]

theorem updSlot_get_ne (s : State) {d e : Drive} (f : DriveSlot → DriveSlot) (h : e ≠ d) :
    (s.updSlot d f).drives.get e = s.drives.get e := by
  simp [State.updSlot, Slots.get_set_ne _ _ h]

theorem updSlot_get (s : State) (d e : Drive) (f : DriveSlot → DriveSlot) :
    (s.updSlot d f).drives.get e = if e = d then f (s.drives.get d) else s.drives.get e := by
  simp only [State.updSlot, Slots.get_set]

theorem setIC_get (s : State) (d e : Drive) (c : BitVec 2) :
    (s.setIC d c).drives.get e =
      if e = d then { s.drives.get d with st0 := withIC (s.drives.get d).st0 c } else s.drives.get e :=
  updSlot_get s d e _

theorem setSt0_get (s : State) (d e : Drive) (b : St0Bit) :
    (s.setSt0 d b).drives.get e =
      if e = d then { s.drives.get d with st0 := (s.drives.get d).st0 ||| b.mask } else s.drives.get e :=
  updSlot_get s d e _

theorem setSub_get (s : State) (d e : Drive) (x : SubState) :
    (s.setSub d x).drives.get e =
      if e = d then { s.drives.get d with subState := x } else s.drives.get e :=
  updSlot_get s d e _

@[simp] theorem setTimer_get_same (s : State) (d : Drive) (t : Option Int) :
    (s.setTimer d t).driveTimer.get d = t := by
  simp [State.setTimer]

theorem setTimer_get_ne (s : State) {d e : Drive} (t : Option Int) (h : e ≠ d) :
    (s.setTimer d t).driveTimer.get e = s.driveTimer.get e := by
  simp [State.setTimer, Slots.get_set_ne _ _ h]

/-! ## The other fields -/

section updSlot

variable (s : State) (d : Drive) (f : DriveSlot → DriveSlot)

@[simp] theorem updSlot_phase : (s.updSlot d f).phase = s.phase := rfl
@[simp] theorem updSlot_cmd : (s.updSlot d f).cmd = s.cmd := rfl
@[simp] theorem updSlot_res : (s.updSlot d f).res = s.res := rfl
@[simp] theorem updSlot_cur : (s.updSlot d f).cur = s.cur := rfl
@[simp] theorem updSlot_st1 : (s.updSlot d f).st1 = s.st1 := rfl
@[simp] theorem updSlot_st2 : (s.updSlot d f).st2 = s.st2 := rfl
@[simp] theorem updSlot_dor : (s.updSlot d f).dor = s.dor := rfl
@[simp] theorem updSlot_rateSel : (s.updSlot d f).rateSel = s.rateSel := rfl
@[simp] theorem updSlot_srt : (s.updSlot d f).srt = s.srt := rfl
@[simp] theorem updSlot_hut : (s.updSlot d f).hut = s.hut := rfl
@[simp] theorem updSlot_hlt : (s.updSlot d f).hlt = s.hlt := rfl
@[simp] theorem updSlot_nd : (s.updSlot d f).nd = s.nd := rfl
@[simp] theorem updSlot_fifocfg : (s.updSlot d f).fifocfg = s.fifocfg := rfl
@[simp] theorem updSlot_precomp : (s.updSlot d f).precomp = s.precomp := rfl
@[simp] theorem updSlot_locked : (s.updSlot d f).locked = s.locked := rfl
@[simp] theorem updSlot_dataIrq : (s.updSlot d f).dataIrq = s.dataIrq := rfl
@[simp] theorem updSlot_internalDrq : (s.updSlot d f).internalDrq = s.internalDrq := rfl
@[simp] theorem updSlot_tcLevel : (s.updSlot d f).tcLevel = s.tcLevel := rfl
@[simp] theorem updSlot_tcDone : (s.updSlot d f).tcDone = s.tcDone := rfl
@[simp] theorem updSlot_tcCut : (s.updSlot d f).tcCut = s.tcCut := rfl
@[simp] theorem updSlot_irqOut : (s.updSlot d f).irqOut = s.irqOut := rfl
@[simp] theorem updSlot_drqOut : (s.updSlot d f).drqOut = s.drqOut := rfl
@[simp] theorem updSlot_fifo : (s.updSlot d f).fifo = s.fifo := rfl
@[simp] theorem updSlot_fifoExpected : (s.updSlot d f).fifoExpected = s.fifoExpected := rfl
@[simp] theorem updSlot_fifoWrite : (s.updSlot d f).fifoWrite = s.fifoWrite := rfl
@[simp] theorem updSlot_live : (s.updSlot d f).live = s.live := rfl
@[simp] theorem updSlot_pll : (s.updSlot d f).pll = s.pll := rfl
@[simp] theorem updSlot_driveTimer : (s.updSlot d f).driveTimer = s.driveTimer := rfl
@[simp] theorem updSlot_pollTimer : (s.updSlot d f).pollTimer = s.pollTimer := rfl
@[simp] theorem updSlot_units : (s.updSlot d f).units = s.units := rfl
@[simp] theorem updSlot_par : (s.updSlot d f).par = s.par := rfl
@[simp] theorem updSlot_now : (s.updSlot d f).now = s.now := rfl
@[simp] theorem updSlot_inputs : (s.updSlot d f).inputs = s.inputs := rfl
@[simp] theorem updSlot_outs : (s.updSlot d f).outs = s.outs := rfl

end updSlot

section setIC

variable (s : State) (d : Drive) (c : BitVec 2)

@[simp] theorem setIC_phase : (s.setIC d c).phase = s.phase := rfl
@[simp] theorem setIC_cmd : (s.setIC d c).cmd = s.cmd := rfl
@[simp] theorem setIC_res : (s.setIC d c).res = s.res := rfl
@[simp] theorem setIC_cur : (s.setIC d c).cur = s.cur := rfl
@[simp] theorem setIC_st1 : (s.setIC d c).st1 = s.st1 := rfl
@[simp] theorem setIC_st2 : (s.setIC d c).st2 = s.st2 := rfl
@[simp] theorem setIC_dor : (s.setIC d c).dor = s.dor := rfl
@[simp] theorem setIC_rateSel : (s.setIC d c).rateSel = s.rateSel := rfl
@[simp] theorem setIC_srt : (s.setIC d c).srt = s.srt := rfl
@[simp] theorem setIC_hut : (s.setIC d c).hut = s.hut := rfl
@[simp] theorem setIC_hlt : (s.setIC d c).hlt = s.hlt := rfl
@[simp] theorem setIC_nd : (s.setIC d c).nd = s.nd := rfl
@[simp] theorem setIC_fifocfg : (s.setIC d c).fifocfg = s.fifocfg := rfl
@[simp] theorem setIC_precomp : (s.setIC d c).precomp = s.precomp := rfl
@[simp] theorem setIC_locked : (s.setIC d c).locked = s.locked := rfl
@[simp] theorem setIC_dataIrq : (s.setIC d c).dataIrq = s.dataIrq := rfl
@[simp] theorem setIC_internalDrq : (s.setIC d c).internalDrq = s.internalDrq := rfl
@[simp] theorem setIC_tcLevel : (s.setIC d c).tcLevel = s.tcLevel := rfl
@[simp] theorem setIC_tcDone : (s.setIC d c).tcDone = s.tcDone := rfl
@[simp] theorem setIC_tcCut : (s.setIC d c).tcCut = s.tcCut := rfl
@[simp] theorem setIC_irqOut : (s.setIC d c).irqOut = s.irqOut := rfl
@[simp] theorem setIC_drqOut : (s.setIC d c).drqOut = s.drqOut := rfl
@[simp] theorem setIC_fifo : (s.setIC d c).fifo = s.fifo := rfl
@[simp] theorem setIC_fifoExpected : (s.setIC d c).fifoExpected = s.fifoExpected := rfl
@[simp] theorem setIC_fifoWrite : (s.setIC d c).fifoWrite = s.fifoWrite := rfl
@[simp] theorem setIC_live : (s.setIC d c).live = s.live := rfl
@[simp] theorem setIC_pll : (s.setIC d c).pll = s.pll := rfl
@[simp] theorem setIC_driveTimer : (s.setIC d c).driveTimer = s.driveTimer := rfl
@[simp] theorem setIC_pollTimer : (s.setIC d c).pollTimer = s.pollTimer := rfl
@[simp] theorem setIC_units : (s.setIC d c).units = s.units := rfl
@[simp] theorem setIC_par : (s.setIC d c).par = s.par := rfl
@[simp] theorem setIC_now : (s.setIC d c).now = s.now := rfl
@[simp] theorem setIC_inputs : (s.setIC d c).inputs = s.inputs := rfl
@[simp] theorem setIC_outs : (s.setIC d c).outs = s.outs := rfl

end setIC

section setSt0

variable (s : State) (d : Drive) (b : St0Bit)

@[simp] theorem setSt0_phase : (s.setSt0 d b).phase = s.phase := rfl
@[simp] theorem setSt0_cmd : (s.setSt0 d b).cmd = s.cmd := rfl
@[simp] theorem setSt0_res : (s.setSt0 d b).res = s.res := rfl
@[simp] theorem setSt0_cur : (s.setSt0 d b).cur = s.cur := rfl
@[simp] theorem setSt0_st1 : (s.setSt0 d b).st1 = s.st1 := rfl
@[simp] theorem setSt0_st2 : (s.setSt0 d b).st2 = s.st2 := rfl
@[simp] theorem setSt0_dor : (s.setSt0 d b).dor = s.dor := rfl
@[simp] theorem setSt0_rateSel : (s.setSt0 d b).rateSel = s.rateSel := rfl
@[simp] theorem setSt0_srt : (s.setSt0 d b).srt = s.srt := rfl
@[simp] theorem setSt0_hut : (s.setSt0 d b).hut = s.hut := rfl
@[simp] theorem setSt0_hlt : (s.setSt0 d b).hlt = s.hlt := rfl
@[simp] theorem setSt0_nd : (s.setSt0 d b).nd = s.nd := rfl
@[simp] theorem setSt0_fifocfg : (s.setSt0 d b).fifocfg = s.fifocfg := rfl
@[simp] theorem setSt0_precomp : (s.setSt0 d b).precomp = s.precomp := rfl
@[simp] theorem setSt0_locked : (s.setSt0 d b).locked = s.locked := rfl
@[simp] theorem setSt0_dataIrq : (s.setSt0 d b).dataIrq = s.dataIrq := rfl
@[simp] theorem setSt0_internalDrq : (s.setSt0 d b).internalDrq = s.internalDrq := rfl
@[simp] theorem setSt0_tcLevel : (s.setSt0 d b).tcLevel = s.tcLevel := rfl
@[simp] theorem setSt0_tcDone : (s.setSt0 d b).tcDone = s.tcDone := rfl
@[simp] theorem setSt0_tcCut : (s.setSt0 d b).tcCut = s.tcCut := rfl
@[simp] theorem setSt0_irqOut : (s.setSt0 d b).irqOut = s.irqOut := rfl
@[simp] theorem setSt0_drqOut : (s.setSt0 d b).drqOut = s.drqOut := rfl
@[simp] theorem setSt0_fifo : (s.setSt0 d b).fifo = s.fifo := rfl
@[simp] theorem setSt0_fifoExpected : (s.setSt0 d b).fifoExpected = s.fifoExpected := rfl
@[simp] theorem setSt0_fifoWrite : (s.setSt0 d b).fifoWrite = s.fifoWrite := rfl
@[simp] theorem setSt0_live : (s.setSt0 d b).live = s.live := rfl
@[simp] theorem setSt0_pll : (s.setSt0 d b).pll = s.pll := rfl
@[simp] theorem setSt0_driveTimer : (s.setSt0 d b).driveTimer = s.driveTimer := rfl
@[simp] theorem setSt0_pollTimer : (s.setSt0 d b).pollTimer = s.pollTimer := rfl
@[simp] theorem setSt0_units : (s.setSt0 d b).units = s.units := rfl
@[simp] theorem setSt0_par : (s.setSt0 d b).par = s.par := rfl
@[simp] theorem setSt0_now : (s.setSt0 d b).now = s.now := rfl
@[simp] theorem setSt0_inputs : (s.setSt0 d b).inputs = s.inputs := rfl
@[simp] theorem setSt0_outs : (s.setSt0 d b).outs = s.outs := rfl

end setSt0

section setSub

variable (s : State) (d : Drive) (x : SubState)

@[simp] theorem setSub_phase : (s.setSub d x).phase = s.phase := rfl
@[simp] theorem setSub_cmd : (s.setSub d x).cmd = s.cmd := rfl
@[simp] theorem setSub_res : (s.setSub d x).res = s.res := rfl
@[simp] theorem setSub_cur : (s.setSub d x).cur = s.cur := rfl
@[simp] theorem setSub_st1 : (s.setSub d x).st1 = s.st1 := rfl
@[simp] theorem setSub_st2 : (s.setSub d x).st2 = s.st2 := rfl
@[simp] theorem setSub_dor : (s.setSub d x).dor = s.dor := rfl
@[simp] theorem setSub_rateSel : (s.setSub d x).rateSel = s.rateSel := rfl
@[simp] theorem setSub_srt : (s.setSub d x).srt = s.srt := rfl
@[simp] theorem setSub_hut : (s.setSub d x).hut = s.hut := rfl
@[simp] theorem setSub_hlt : (s.setSub d x).hlt = s.hlt := rfl
@[simp] theorem setSub_nd : (s.setSub d x).nd = s.nd := rfl
@[simp] theorem setSub_fifocfg : (s.setSub d x).fifocfg = s.fifocfg := rfl
@[simp] theorem setSub_precomp : (s.setSub d x).precomp = s.precomp := rfl
@[simp] theorem setSub_locked : (s.setSub d x).locked = s.locked := rfl
@[simp] theorem setSub_dataIrq : (s.setSub d x).dataIrq = s.dataIrq := rfl
@[simp] theorem setSub_internalDrq : (s.setSub d x).internalDrq = s.internalDrq := rfl
@[simp] theorem setSub_tcLevel : (s.setSub d x).tcLevel = s.tcLevel := rfl
@[simp] theorem setSub_tcDone : (s.setSub d x).tcDone = s.tcDone := rfl
@[simp] theorem setSub_tcCut : (s.setSub d x).tcCut = s.tcCut := rfl
@[simp] theorem setSub_irqOut : (s.setSub d x).irqOut = s.irqOut := rfl
@[simp] theorem setSub_drqOut : (s.setSub d x).drqOut = s.drqOut := rfl
@[simp] theorem setSub_fifo : (s.setSub d x).fifo = s.fifo := rfl
@[simp] theorem setSub_fifoExpected : (s.setSub d x).fifoExpected = s.fifoExpected := rfl
@[simp] theorem setSub_fifoWrite : (s.setSub d x).fifoWrite = s.fifoWrite := rfl
@[simp] theorem setSub_live : (s.setSub d x).live = s.live := rfl
@[simp] theorem setSub_pll : (s.setSub d x).pll = s.pll := rfl
@[simp] theorem setSub_driveTimer : (s.setSub d x).driveTimer = s.driveTimer := rfl
@[simp] theorem setSub_pollTimer : (s.setSub d x).pollTimer = s.pollTimer := rfl
@[simp] theorem setSub_units : (s.setSub d x).units = s.units := rfl
@[simp] theorem setSub_par : (s.setSub d x).par = s.par := rfl
@[simp] theorem setSub_now : (s.setSub d x).now = s.now := rfl
@[simp] theorem setSub_inputs : (s.setSub d x).inputs = s.inputs := rfl
@[simp] theorem setSub_outs : (s.setSub d x).outs = s.outs := rfl

end setSub

section setSt1

variable (s : State) (b : St1Bit)

@[simp] theorem setSt1_phase : (s.setSt1 b).phase = s.phase := rfl
@[simp] theorem setSt1_cmd : (s.setSt1 b).cmd = s.cmd := rfl
@[simp] theorem setSt1_res : (s.setSt1 b).res = s.res := rfl
@[simp] theorem setSt1_cur : (s.setSt1 b).cur = s.cur := rfl
@[simp] theorem setSt1_st2 : (s.setSt1 b).st2 = s.st2 := rfl
@[simp] theorem setSt1_dor : (s.setSt1 b).dor = s.dor := rfl
@[simp] theorem setSt1_rateSel : (s.setSt1 b).rateSel = s.rateSel := rfl
@[simp] theorem setSt1_srt : (s.setSt1 b).srt = s.srt := rfl
@[simp] theorem setSt1_hut : (s.setSt1 b).hut = s.hut := rfl
@[simp] theorem setSt1_hlt : (s.setSt1 b).hlt = s.hlt := rfl
@[simp] theorem setSt1_nd : (s.setSt1 b).nd = s.nd := rfl
@[simp] theorem setSt1_fifocfg : (s.setSt1 b).fifocfg = s.fifocfg := rfl
@[simp] theorem setSt1_precomp : (s.setSt1 b).precomp = s.precomp := rfl
@[simp] theorem setSt1_locked : (s.setSt1 b).locked = s.locked := rfl
@[simp] theorem setSt1_dataIrq : (s.setSt1 b).dataIrq = s.dataIrq := rfl
@[simp] theorem setSt1_internalDrq : (s.setSt1 b).internalDrq = s.internalDrq := rfl
@[simp] theorem setSt1_tcLevel : (s.setSt1 b).tcLevel = s.tcLevel := rfl
@[simp] theorem setSt1_tcDone : (s.setSt1 b).tcDone = s.tcDone := rfl
@[simp] theorem setSt1_tcCut : (s.setSt1 b).tcCut = s.tcCut := rfl
@[simp] theorem setSt1_irqOut : (s.setSt1 b).irqOut = s.irqOut := rfl
@[simp] theorem setSt1_drqOut : (s.setSt1 b).drqOut = s.drqOut := rfl
@[simp] theorem setSt1_fifo : (s.setSt1 b).fifo = s.fifo := rfl
@[simp] theorem setSt1_fifoExpected : (s.setSt1 b).fifoExpected = s.fifoExpected := rfl
@[simp] theorem setSt1_fifoWrite : (s.setSt1 b).fifoWrite = s.fifoWrite := rfl
@[simp] theorem setSt1_live : (s.setSt1 b).live = s.live := rfl
@[simp] theorem setSt1_pll : (s.setSt1 b).pll = s.pll := rfl
@[simp] theorem setSt1_drives : (s.setSt1 b).drives = s.drives := rfl
@[simp] theorem setSt1_driveTimer : (s.setSt1 b).driveTimer = s.driveTimer := rfl
@[simp] theorem setSt1_pollTimer : (s.setSt1 b).pollTimer = s.pollTimer := rfl
@[simp] theorem setSt1_units : (s.setSt1 b).units = s.units := rfl
@[simp] theorem setSt1_par : (s.setSt1 b).par = s.par := rfl
@[simp] theorem setSt1_now : (s.setSt1 b).now = s.now := rfl
@[simp] theorem setSt1_inputs : (s.setSt1 b).inputs = s.inputs := rfl
@[simp] theorem setSt1_outs : (s.setSt1 b).outs = s.outs := rfl

end setSt1

section setSt2

variable (s : State) (b : St2Bit)

@[simp] theorem setSt2_phase : (s.setSt2 b).phase = s.phase := rfl
@[simp] theorem setSt2_cmd : (s.setSt2 b).cmd = s.cmd := rfl
@[simp] theorem setSt2_res : (s.setSt2 b).res = s.res := rfl
@[simp] theorem setSt2_cur : (s.setSt2 b).cur = s.cur := rfl
@[simp] theorem setSt2_st1 : (s.setSt2 b).st1 = s.st1 := rfl
@[simp] theorem setSt2_dor : (s.setSt2 b).dor = s.dor := rfl
@[simp] theorem setSt2_rateSel : (s.setSt2 b).rateSel = s.rateSel := rfl
@[simp] theorem setSt2_srt : (s.setSt2 b).srt = s.srt := rfl
@[simp] theorem setSt2_hut : (s.setSt2 b).hut = s.hut := rfl
@[simp] theorem setSt2_hlt : (s.setSt2 b).hlt = s.hlt := rfl
@[simp] theorem setSt2_nd : (s.setSt2 b).nd = s.nd := rfl
@[simp] theorem setSt2_fifocfg : (s.setSt2 b).fifocfg = s.fifocfg := rfl
@[simp] theorem setSt2_precomp : (s.setSt2 b).precomp = s.precomp := rfl
@[simp] theorem setSt2_locked : (s.setSt2 b).locked = s.locked := rfl
@[simp] theorem setSt2_dataIrq : (s.setSt2 b).dataIrq = s.dataIrq := rfl
@[simp] theorem setSt2_internalDrq : (s.setSt2 b).internalDrq = s.internalDrq := rfl
@[simp] theorem setSt2_tcLevel : (s.setSt2 b).tcLevel = s.tcLevel := rfl
@[simp] theorem setSt2_tcDone : (s.setSt2 b).tcDone = s.tcDone := rfl
@[simp] theorem setSt2_tcCut : (s.setSt2 b).tcCut = s.tcCut := rfl
@[simp] theorem setSt2_irqOut : (s.setSt2 b).irqOut = s.irqOut := rfl
@[simp] theorem setSt2_drqOut : (s.setSt2 b).drqOut = s.drqOut := rfl
@[simp] theorem setSt2_fifo : (s.setSt2 b).fifo = s.fifo := rfl
@[simp] theorem setSt2_fifoExpected : (s.setSt2 b).fifoExpected = s.fifoExpected := rfl
@[simp] theorem setSt2_fifoWrite : (s.setSt2 b).fifoWrite = s.fifoWrite := rfl
@[simp] theorem setSt2_live : (s.setSt2 b).live = s.live := rfl
@[simp] theorem setSt2_pll : (s.setSt2 b).pll = s.pll := rfl
@[simp] theorem setSt2_drives : (s.setSt2 b).drives = s.drives := rfl
@[simp] theorem setSt2_driveTimer : (s.setSt2 b).driveTimer = s.driveTimer := rfl
@[simp] theorem setSt2_pollTimer : (s.setSt2 b).pollTimer = s.pollTimer := rfl
@[simp] theorem setSt2_units : (s.setSt2 b).units = s.units := rfl
@[simp] theorem setSt2_par : (s.setSt2 b).par = s.par := rfl
@[simp] theorem setSt2_now : (s.setSt2 b).now = s.now := rfl
@[simp] theorem setSt2_inputs : (s.setSt2 b).inputs = s.inputs := rfl
@[simp] theorem setSt2_outs : (s.setSt2 b).outs = s.outs := rfl

end setSt2

section emit

variable (s : State) (o : Output)

@[simp] theorem emit_phase : (s.emit o).phase = s.phase := rfl
@[simp] theorem emit_cmd : (s.emit o).cmd = s.cmd := rfl
@[simp] theorem emit_res : (s.emit o).res = s.res := rfl
@[simp] theorem emit_cur : (s.emit o).cur = s.cur := rfl
@[simp] theorem emit_st1 : (s.emit o).st1 = s.st1 := rfl
@[simp] theorem emit_st2 : (s.emit o).st2 = s.st2 := rfl
@[simp] theorem emit_dor : (s.emit o).dor = s.dor := rfl
@[simp] theorem emit_rateSel : (s.emit o).rateSel = s.rateSel := rfl
@[simp] theorem emit_srt : (s.emit o).srt = s.srt := rfl
@[simp] theorem emit_hut : (s.emit o).hut = s.hut := rfl
@[simp] theorem emit_hlt : (s.emit o).hlt = s.hlt := rfl
@[simp] theorem emit_nd : (s.emit o).nd = s.nd := rfl
@[simp] theorem emit_fifocfg : (s.emit o).fifocfg = s.fifocfg := rfl
@[simp] theorem emit_precomp : (s.emit o).precomp = s.precomp := rfl
@[simp] theorem emit_locked : (s.emit o).locked = s.locked := rfl
@[simp] theorem emit_dataIrq : (s.emit o).dataIrq = s.dataIrq := rfl
@[simp] theorem emit_internalDrq : (s.emit o).internalDrq = s.internalDrq := rfl
@[simp] theorem emit_tcLevel : (s.emit o).tcLevel = s.tcLevel := rfl
@[simp] theorem emit_tcDone : (s.emit o).tcDone = s.tcDone := rfl
@[simp] theorem emit_tcCut : (s.emit o).tcCut = s.tcCut := rfl
@[simp] theorem emit_irqOut : (s.emit o).irqOut = s.irqOut := rfl
@[simp] theorem emit_drqOut : (s.emit o).drqOut = s.drqOut := rfl
@[simp] theorem emit_fifo : (s.emit o).fifo = s.fifo := rfl
@[simp] theorem emit_fifoExpected : (s.emit o).fifoExpected = s.fifoExpected := rfl
@[simp] theorem emit_fifoWrite : (s.emit o).fifoWrite = s.fifoWrite := rfl
@[simp] theorem emit_live : (s.emit o).live = s.live := rfl
@[simp] theorem emit_pll : (s.emit o).pll = s.pll := rfl
@[simp] theorem emit_drives : (s.emit o).drives = s.drives := rfl
@[simp] theorem emit_driveTimer : (s.emit o).driveTimer = s.driveTimer := rfl
@[simp] theorem emit_pollTimer : (s.emit o).pollTimer = s.pollTimer := rfl
@[simp] theorem emit_units : (s.emit o).units = s.units := rfl
@[simp] theorem emit_par : (s.emit o).par = s.par := rfl
@[simp] theorem emit_now : (s.emit o).now = s.now := rfl
@[simp] theorem emit_inputs : (s.emit o).inputs = s.inputs := rfl

end emit

section updUnit

variable (s : State) (d : Drive) (f : DriveUnit → DriveUnit)

@[simp] theorem updUnit_phase : (s.updUnit d f).phase = s.phase := rfl
@[simp] theorem updUnit_cmd : (s.updUnit d f).cmd = s.cmd := rfl
@[simp] theorem updUnit_res : (s.updUnit d f).res = s.res := rfl
@[simp] theorem updUnit_cur : (s.updUnit d f).cur = s.cur := rfl
@[simp] theorem updUnit_st1 : (s.updUnit d f).st1 = s.st1 := rfl
@[simp] theorem updUnit_st2 : (s.updUnit d f).st2 = s.st2 := rfl
@[simp] theorem updUnit_dor : (s.updUnit d f).dor = s.dor := rfl
@[simp] theorem updUnit_rateSel : (s.updUnit d f).rateSel = s.rateSel := rfl
@[simp] theorem updUnit_srt : (s.updUnit d f).srt = s.srt := rfl
@[simp] theorem updUnit_hut : (s.updUnit d f).hut = s.hut := rfl
@[simp] theorem updUnit_hlt : (s.updUnit d f).hlt = s.hlt := rfl
@[simp] theorem updUnit_nd : (s.updUnit d f).nd = s.nd := rfl
@[simp] theorem updUnit_fifocfg : (s.updUnit d f).fifocfg = s.fifocfg := rfl
@[simp] theorem updUnit_precomp : (s.updUnit d f).precomp = s.precomp := rfl
@[simp] theorem updUnit_locked : (s.updUnit d f).locked = s.locked := rfl
@[simp] theorem updUnit_dataIrq : (s.updUnit d f).dataIrq = s.dataIrq := rfl
@[simp] theorem updUnit_internalDrq : (s.updUnit d f).internalDrq = s.internalDrq := rfl
@[simp] theorem updUnit_tcLevel : (s.updUnit d f).tcLevel = s.tcLevel := rfl
@[simp] theorem updUnit_tcDone : (s.updUnit d f).tcDone = s.tcDone := rfl
@[simp] theorem updUnit_tcCut : (s.updUnit d f).tcCut = s.tcCut := rfl
@[simp] theorem updUnit_irqOut : (s.updUnit d f).irqOut = s.irqOut := rfl
@[simp] theorem updUnit_drqOut : (s.updUnit d f).drqOut = s.drqOut := rfl
@[simp] theorem updUnit_fifo : (s.updUnit d f).fifo = s.fifo := rfl
@[simp] theorem updUnit_fifoExpected : (s.updUnit d f).fifoExpected = s.fifoExpected := rfl
@[simp] theorem updUnit_fifoWrite : (s.updUnit d f).fifoWrite = s.fifoWrite := rfl
@[simp] theorem updUnit_live : (s.updUnit d f).live = s.live := rfl
@[simp] theorem updUnit_pll : (s.updUnit d f).pll = s.pll := rfl
@[simp] theorem updUnit_drives : (s.updUnit d f).drives = s.drives := rfl
@[simp] theorem updUnit_driveTimer : (s.updUnit d f).driveTimer = s.driveTimer := rfl
@[simp] theorem updUnit_pollTimer : (s.updUnit d f).pollTimer = s.pollTimer := rfl
@[simp] theorem updUnit_par : (s.updUnit d f).par = s.par := rfl
@[simp] theorem updUnit_now : (s.updUnit d f).now = s.now := rfl
@[simp] theorem updUnit_inputs : (s.updUnit d f).inputs = s.inputs := rfl
@[simp] theorem updUnit_outs : (s.updUnit d f).outs = s.outs := rfl

end updUnit

section selectSide

variable (s : State) (d : Drive) (h : Bool)

@[simp] theorem selectSide_phase : (s.selectSide d h).phase = s.phase := rfl
@[simp] theorem selectSide_cmd : (s.selectSide d h).cmd = s.cmd := rfl
@[simp] theorem selectSide_res : (s.selectSide d h).res = s.res := rfl
@[simp] theorem selectSide_cur : (s.selectSide d h).cur = s.cur := rfl
@[simp] theorem selectSide_st1 : (s.selectSide d h).st1 = s.st1 := rfl
@[simp] theorem selectSide_st2 : (s.selectSide d h).st2 = s.st2 := rfl
@[simp] theorem selectSide_dor : (s.selectSide d h).dor = s.dor := rfl
@[simp] theorem selectSide_rateSel : (s.selectSide d h).rateSel = s.rateSel := rfl
@[simp] theorem selectSide_srt : (s.selectSide d h).srt = s.srt := rfl
@[simp] theorem selectSide_hut : (s.selectSide d h).hut = s.hut := rfl
@[simp] theorem selectSide_hlt : (s.selectSide d h).hlt = s.hlt := rfl
@[simp] theorem selectSide_nd : (s.selectSide d h).nd = s.nd := rfl
@[simp] theorem selectSide_fifocfg : (s.selectSide d h).fifocfg = s.fifocfg := rfl
@[simp] theorem selectSide_precomp : (s.selectSide d h).precomp = s.precomp := rfl
@[simp] theorem selectSide_locked : (s.selectSide d h).locked = s.locked := rfl
@[simp] theorem selectSide_dataIrq : (s.selectSide d h).dataIrq = s.dataIrq := rfl
@[simp] theorem selectSide_internalDrq : (s.selectSide d h).internalDrq = s.internalDrq := rfl
@[simp] theorem selectSide_tcLevel : (s.selectSide d h).tcLevel = s.tcLevel := rfl
@[simp] theorem selectSide_tcDone : (s.selectSide d h).tcDone = s.tcDone := rfl
@[simp] theorem selectSide_tcCut : (s.selectSide d h).tcCut = s.tcCut := rfl
@[simp] theorem selectSide_irqOut : (s.selectSide d h).irqOut = s.irqOut := rfl
@[simp] theorem selectSide_drqOut : (s.selectSide d h).drqOut = s.drqOut := rfl
@[simp] theorem selectSide_fifo : (s.selectSide d h).fifo = s.fifo := rfl
@[simp] theorem selectSide_fifoExpected : (s.selectSide d h).fifoExpected = s.fifoExpected := rfl
@[simp] theorem selectSide_fifoWrite : (s.selectSide d h).fifoWrite = s.fifoWrite := rfl
@[simp] theorem selectSide_live : (s.selectSide d h).live = s.live := rfl
@[simp] theorem selectSide_pll : (s.selectSide d h).pll = s.pll := rfl
@[simp] theorem selectSide_drives : (s.selectSide d h).drives = s.drives := rfl
@[simp] theorem selectSide_driveTimer : (s.selectSide d h).driveTimer = s.driveTimer := rfl
@[simp] theorem selectSide_pollTimer : (s.selectSide d h).pollTimer = s.pollTimer := rfl
@[simp] theorem selectSide_par : (s.selectSide d h).par = s.par := rfl
@[simp] theorem selectSide_now : (s.selectSide d h).now = s.now := rfl
@[simp] theorem selectSide_inputs : (s.selectSide d h).inputs = s.inputs := rfl

end selectSide

section writeFlux

variable (s : State) (d : Drive) (a b : Int) (ts : List Int)

@[simp] theorem writeFlux_phase : (s.writeFlux d a b ts).phase = s.phase := rfl
@[simp] theorem writeFlux_cmd : (s.writeFlux d a b ts).cmd = s.cmd := rfl
@[simp] theorem writeFlux_res : (s.writeFlux d a b ts).res = s.res := rfl
@[simp] theorem writeFlux_cur : (s.writeFlux d a b ts).cur = s.cur := rfl
@[simp] theorem writeFlux_st1 : (s.writeFlux d a b ts).st1 = s.st1 := rfl
@[simp] theorem writeFlux_st2 : (s.writeFlux d a b ts).st2 = s.st2 := rfl
@[simp] theorem writeFlux_dor : (s.writeFlux d a b ts).dor = s.dor := rfl
@[simp] theorem writeFlux_rateSel : (s.writeFlux d a b ts).rateSel = s.rateSel := rfl
@[simp] theorem writeFlux_srt : (s.writeFlux d a b ts).srt = s.srt := rfl
@[simp] theorem writeFlux_hut : (s.writeFlux d a b ts).hut = s.hut := rfl
@[simp] theorem writeFlux_hlt : (s.writeFlux d a b ts).hlt = s.hlt := rfl
@[simp] theorem writeFlux_nd : (s.writeFlux d a b ts).nd = s.nd := rfl
@[simp] theorem writeFlux_fifocfg : (s.writeFlux d a b ts).fifocfg = s.fifocfg := rfl
@[simp] theorem writeFlux_precomp : (s.writeFlux d a b ts).precomp = s.precomp := rfl
@[simp] theorem writeFlux_locked : (s.writeFlux d a b ts).locked = s.locked := rfl
@[simp] theorem writeFlux_dataIrq : (s.writeFlux d a b ts).dataIrq = s.dataIrq := rfl
@[simp] theorem writeFlux_internalDrq : (s.writeFlux d a b ts).internalDrq = s.internalDrq := rfl
@[simp] theorem writeFlux_tcLevel : (s.writeFlux d a b ts).tcLevel = s.tcLevel := rfl
@[simp] theorem writeFlux_tcDone : (s.writeFlux d a b ts).tcDone = s.tcDone := rfl
@[simp] theorem writeFlux_tcCut : (s.writeFlux d a b ts).tcCut = s.tcCut := rfl
@[simp] theorem writeFlux_irqOut : (s.writeFlux d a b ts).irqOut = s.irqOut := rfl
@[simp] theorem writeFlux_drqOut : (s.writeFlux d a b ts).drqOut = s.drqOut := rfl
@[simp] theorem writeFlux_fifo : (s.writeFlux d a b ts).fifo = s.fifo := rfl
@[simp] theorem writeFlux_fifoExpected : (s.writeFlux d a b ts).fifoExpected = s.fifoExpected := rfl
@[simp] theorem writeFlux_fifoWrite : (s.writeFlux d a b ts).fifoWrite = s.fifoWrite := rfl
@[simp] theorem writeFlux_live : (s.writeFlux d a b ts).live = s.live := rfl
@[simp] theorem writeFlux_pll : (s.writeFlux d a b ts).pll = s.pll := rfl
@[simp] theorem writeFlux_drives : (s.writeFlux d a b ts).drives = s.drives := rfl
@[simp] theorem writeFlux_driveTimer : (s.writeFlux d a b ts).driveTimer = s.driveTimer := rfl
@[simp] theorem writeFlux_pollTimer : (s.writeFlux d a b ts).pollTimer = s.pollTimer := rfl
@[simp] theorem writeFlux_par : (s.writeFlux d a b ts).par = s.par := rfl
@[simp] theorem writeFlux_now : (s.writeFlux d a b ts).now = s.now := rfl
@[simp] theorem writeFlux_inputs : (s.writeFlux d a b ts).inputs = s.inputs := rfl

end writeFlux

section setTimer

variable (s : State) (d : Drive) (t : Option Int)

@[simp] theorem setTimer_phase : (s.setTimer d t).phase = s.phase := rfl
@[simp] theorem setTimer_cmd : (s.setTimer d t).cmd = s.cmd := rfl
@[simp] theorem setTimer_res : (s.setTimer d t).res = s.res := rfl
@[simp] theorem setTimer_cur : (s.setTimer d t).cur = s.cur := rfl
@[simp] theorem setTimer_st1 : (s.setTimer d t).st1 = s.st1 := rfl
@[simp] theorem setTimer_st2 : (s.setTimer d t).st2 = s.st2 := rfl
@[simp] theorem setTimer_dor : (s.setTimer d t).dor = s.dor := rfl
@[simp] theorem setTimer_rateSel : (s.setTimer d t).rateSel = s.rateSel := rfl
@[simp] theorem setTimer_srt : (s.setTimer d t).srt = s.srt := rfl
@[simp] theorem setTimer_hut : (s.setTimer d t).hut = s.hut := rfl
@[simp] theorem setTimer_hlt : (s.setTimer d t).hlt = s.hlt := rfl
@[simp] theorem setTimer_nd : (s.setTimer d t).nd = s.nd := rfl
@[simp] theorem setTimer_fifocfg : (s.setTimer d t).fifocfg = s.fifocfg := rfl
@[simp] theorem setTimer_precomp : (s.setTimer d t).precomp = s.precomp := rfl
@[simp] theorem setTimer_locked : (s.setTimer d t).locked = s.locked := rfl
@[simp] theorem setTimer_dataIrq : (s.setTimer d t).dataIrq = s.dataIrq := rfl
@[simp] theorem setTimer_internalDrq : (s.setTimer d t).internalDrq = s.internalDrq := rfl
@[simp] theorem setTimer_tcLevel : (s.setTimer d t).tcLevel = s.tcLevel := rfl
@[simp] theorem setTimer_tcDone : (s.setTimer d t).tcDone = s.tcDone := rfl
@[simp] theorem setTimer_tcCut : (s.setTimer d t).tcCut = s.tcCut := rfl
@[simp] theorem setTimer_irqOut : (s.setTimer d t).irqOut = s.irqOut := rfl
@[simp] theorem setTimer_drqOut : (s.setTimer d t).drqOut = s.drqOut := rfl
@[simp] theorem setTimer_fifo : (s.setTimer d t).fifo = s.fifo := rfl
@[simp] theorem setTimer_fifoExpected : (s.setTimer d t).fifoExpected = s.fifoExpected := rfl
@[simp] theorem setTimer_fifoWrite : (s.setTimer d t).fifoWrite = s.fifoWrite := rfl
@[simp] theorem setTimer_live : (s.setTimer d t).live = s.live := rfl
@[simp] theorem setTimer_pll : (s.setTimer d t).pll = s.pll := rfl
@[simp] theorem setTimer_drives : (s.setTimer d t).drives = s.drives := rfl
@[simp] theorem setTimer_pollTimer : (s.setTimer d t).pollTimer = s.pollTimer := rfl
@[simp] theorem setTimer_units : (s.setTimer d t).units = s.units := rfl
@[simp] theorem setTimer_par : (s.setTimer d t).par = s.par := rfl
@[simp] theorem setTimer_now : (s.setTimer d t).now = s.now := rfl
@[simp] theorem setTimer_inputs : (s.setTimer d t).inputs = s.inputs := rfl
@[simp] theorem setTimer_outs : (s.setTimer d t).outs = s.outs := rfl

end setTimer

section setLive

variable (s : State) (L : LiveTransfer)

@[simp] theorem setLive_phase : (s.setLive L).phase = s.phase := rfl
@[simp] theorem setLive_cmd : (s.setLive L).cmd = s.cmd := rfl
@[simp] theorem setLive_res : (s.setLive L).res = s.res := rfl
@[simp] theorem setLive_cur : (s.setLive L).cur = s.cur := rfl
@[simp] theorem setLive_st1 : (s.setLive L).st1 = s.st1 := rfl
@[simp] theorem setLive_st2 : (s.setLive L).st2 = s.st2 := rfl
@[simp] theorem setLive_dor : (s.setLive L).dor = s.dor := rfl
@[simp] theorem setLive_rateSel : (s.setLive L).rateSel = s.rateSel := rfl
@[simp] theorem setLive_srt : (s.setLive L).srt = s.srt := rfl
@[simp] theorem setLive_hut : (s.setLive L).hut = s.hut := rfl
@[simp] theorem setLive_hlt : (s.setLive L).hlt = s.hlt := rfl
@[simp] theorem setLive_nd : (s.setLive L).nd = s.nd := rfl
@[simp] theorem setLive_fifocfg : (s.setLive L).fifocfg = s.fifocfg := rfl
@[simp] theorem setLive_precomp : (s.setLive L).precomp = s.precomp := rfl
@[simp] theorem setLive_locked : (s.setLive L).locked = s.locked := rfl
@[simp] theorem setLive_dataIrq : (s.setLive L).dataIrq = s.dataIrq := rfl
@[simp] theorem setLive_internalDrq : (s.setLive L).internalDrq = s.internalDrq := rfl
@[simp] theorem setLive_tcLevel : (s.setLive L).tcLevel = s.tcLevel := rfl
@[simp] theorem setLive_tcDone : (s.setLive L).tcDone = s.tcDone := rfl
@[simp] theorem setLive_tcCut : (s.setLive L).tcCut = s.tcCut := rfl
@[simp] theorem setLive_irqOut : (s.setLive L).irqOut = s.irqOut := rfl
@[simp] theorem setLive_drqOut : (s.setLive L).drqOut = s.drqOut := rfl
@[simp] theorem setLive_fifo : (s.setLive L).fifo = s.fifo := rfl
@[simp] theorem setLive_fifoExpected : (s.setLive L).fifoExpected = s.fifoExpected := rfl
@[simp] theorem setLive_fifoWrite : (s.setLive L).fifoWrite = s.fifoWrite := rfl
@[simp] theorem setLive_pll : (s.setLive L).pll = s.pll := rfl
@[simp] theorem setLive_drives : (s.setLive L).drives = s.drives := rfl
@[simp] theorem setLive_driveTimer : (s.setLive L).driveTimer = s.driveTimer := rfl
@[simp] theorem setLive_pollTimer : (s.setLive L).pollTimer = s.pollTimer := rfl
@[simp] theorem setLive_units : (s.setLive L).units = s.units := rfl
@[simp] theorem setLive_par : (s.setLive L).par = s.par := rfl
@[simp] theorem setLive_now : (s.setLive L).now = s.now := rfl
@[simp] theorem setLive_inputs : (s.setLive L).inputs = s.inputs := rfl
@[simp] theorem setLive_outs : (s.setLive L).outs = s.outs := rfl

end setLive

section updateOutputs

variable (s : State)

@[simp] theorem updateOutputs_phase : (updateOutputs s).phase = s.phase := rfl
@[simp] theorem updateOutputs_cmd : (updateOutputs s).cmd = s.cmd := rfl
@[simp] theorem updateOutputs_res : (updateOutputs s).res = s.res := rfl
@[simp] theorem updateOutputs_cur : (updateOutputs s).cur = s.cur := rfl
@[simp] theorem updateOutputs_st1 : (updateOutputs s).st1 = s.st1 := rfl
@[simp] theorem updateOutputs_st2 : (updateOutputs s).st2 = s.st2 := rfl
@[simp] theorem updateOutputs_dor : (updateOutputs s).dor = s.dor := rfl
@[simp] theorem updateOutputs_rateSel : (updateOutputs s).rateSel = s.rateSel := rfl
@[simp] theorem updateOutputs_srt : (updateOutputs s).srt = s.srt := rfl
@[simp] theorem updateOutputs_hut : (updateOutputs s).hut = s.hut := rfl
@[simp] theorem updateOutputs_hlt : (updateOutputs s).hlt = s.hlt := rfl
@[simp] theorem updateOutputs_nd : (updateOutputs s).nd = s.nd := rfl
@[simp] theorem updateOutputs_fifocfg : (updateOutputs s).fifocfg = s.fifocfg := rfl
@[simp] theorem updateOutputs_precomp : (updateOutputs s).precomp = s.precomp := rfl
@[simp] theorem updateOutputs_locked : (updateOutputs s).locked = s.locked := rfl
@[simp] theorem updateOutputs_dataIrq : (updateOutputs s).dataIrq = s.dataIrq := rfl
@[simp] theorem updateOutputs_internalDrq : (updateOutputs s).internalDrq = s.internalDrq := rfl
@[simp] theorem updateOutputs_tcLevel : (updateOutputs s).tcLevel = s.tcLevel := rfl
@[simp] theorem updateOutputs_tcDone : (updateOutputs s).tcDone = s.tcDone := rfl
@[simp] theorem updateOutputs_tcCut : (updateOutputs s).tcCut = s.tcCut := rfl
@[simp] theorem updateOutputs_fifo : (updateOutputs s).fifo = s.fifo := rfl
@[simp] theorem updateOutputs_fifoExpected : (updateOutputs s).fifoExpected = s.fifoExpected := rfl
@[simp] theorem updateOutputs_fifoWrite : (updateOutputs s).fifoWrite = s.fifoWrite := rfl
@[simp] theorem updateOutputs_live : (updateOutputs s).live = s.live := rfl
@[simp] theorem updateOutputs_pll : (updateOutputs s).pll = s.pll := rfl
@[simp] theorem updateOutputs_drives : (updateOutputs s).drives = s.drives := rfl
@[simp] theorem updateOutputs_driveTimer : (updateOutputs s).driveTimer = s.driveTimer := rfl
@[simp] theorem updateOutputs_pollTimer : (updateOutputs s).pollTimer = s.pollTimer := rfl
@[simp] theorem updateOutputs_units : (updateOutputs s).units = s.units := rfl
@[simp] theorem updateOutputs_par : (updateOutputs s).par = s.par := rfl
@[simp] theorem updateOutputs_now : (updateOutputs s).now = s.now := rfl
@[simp] theorem updateOutputs_inputs : (updateOutputs s).inputs = s.inputs := rfl

end updateOutputs

end Sys2Proof.Machine
end

