-- ==== Sys2Proof/Laws/Control.lean ====
section
/-! SUPPORT. What the shared operations do to the part of the state that `ControllerInv` speaks of: phase, buffers, drive
main and sub-states, and the owner of the live transfer. -/

namespace Sys2Proof.Machine

/-- `t` agrees with `s` on everything `ControllerInv` reads, but that the FIFO may have another length within its bound. -/
structure SameControl (s t : State) : Prop where
  res : t.res = s.res
  cmd : t.cmd = s.cmd
  phase : t.phase = s.phase
  curD : t.cur.d = s.cur.d
  live : t.live.map (·.drive) = s.live.map (·.drive)
  slots : ∀ d, (t.drives.get d).mainState = (s.drives.get d).mainState ∧
    (t.drives.get d).subState = (s.drives.get d).subState ∧ (t.drives.get d).live = (s.drives.get d).live
  fifo : s.fifo.length ≤ fifoCap → t.fifo.length ≤ fifoCap

theorem SameControl.refl (s : State) : SameControl s s :=
  ⟨rfl, rfl, rfl, rfl, rfl, fun _ => ⟨rfl, rfl, rfl⟩, id⟩

theorem SameControl.trans {s t u : State} (h : SameControl s t) (k : SameControl t u) : SameControl s u where
  res := k.res.trans h.res
  cmd := k.cmd.trans h.cmd
  phase := k.phase.trans h.phase
  curD := k.curD.trans h.curD
  live := k.live.trans h.live
  slots d := ⟨(k.slots d).1.trans (h.slots d).1, (k.slots d).2.1.trans (h.slots d).2.1,
    (k.slots d).2.2.trans (h.slots d).2.2⟩
  fifo x := k.fifo (h.fifo x)

theorem SameControl.live_some {s t : State} (h : SameControl s t) {M : LiveTransfer} (hM : t.live = some M) :
    ∃ L, s.live = some L ∧ L.drive = M.drive := by
  have := h.live
  rw [hM] at this
  cases hs : s.live with
  | none => simp [hs] at this
  | some L => exact ⟨L, rfl, by simpa [hs] using this.symm⟩

theorem SameControl.symm_live {s t : State} (h : SameControl s t) {L : LiveTransfer} (hL : s.live = some L) :
    ∃ M, t.live = some M ∧ M.drive = L.drive := by
  have := h.live
  rw [hL] at this
  cases ht : t.live with
  | none => simp [ht] at this
  | some M => exact ⟨M, rfl, by simpa [ht] using this⟩

/-- `ControllerInv` reads nothing that `SameControl` lets change. -/
theorem ControllerInv.of_same {s t : State} (hi : ControllerInv s) (h : SameControl s t) : ControllerInv t where
  fifo_le := h.fifo hi.fifo_le
  res_le := by rw [h.res]; exact hi.res_le
  cmd_partial := by rw [h.cmd]; exact hi.cmd_partial
  cmd_phase := by rw [h.phase, h.cmd]; exact hi.cmd_phase
  res_phase := by rw [h.phase, h.res]; exact hi.res_phase
  live_iff d := by
    rw [State.slot_def, (h.slots d).2.2, ← State.slot_def, hi.live_iff]
    constructor
    · rintro ⟨L, hL, hd⟩
      obtain ⟨M, hM, hd'⟩ := h.symm_live hL
      exact ⟨M, hM, hd'.trans hd⟩
    · rintro ⟨M, hM, hd⟩
      obtain ⟨L, hL, hd'⟩ := h.live_some hM
      exact ⟨L, hL, hd'.trans hd⟩
  live_runs M hM := by
    obtain ⟨L, hL, hd⟩ := h.live_some hM
    obtain ⟨h1, h2, h3, h4⟩ := hi.live_runs L hL
    simp only [State.slot_def] at h3 h4 ⊢
    rw [← hd, h.phase, h.curD, (h.slots _).1, (h.slots _).2.1]
    exact ⟨h1, h2, h3, h4⟩
  engine_phase d := by
    rw [State.slot_def, (h.slots d).1, h.phase, h.curD]
    exact hi.engine_phase d
  execution_engine := by
    rw [State.slot_def, (h.slots _).1, h.phase, h.curD]
    exact hi.execution_engine
  idle_sub d := by
    rw [State.slot_def, (h.slots d).1, (h.slots d).2.1]
    exact hi.idle_sub d

/-- An update of a slot that keeps its main state, sub-state and live flag keeps the control part. -/
theorem SameControl.updSlot (s : State) (d : Drive) (f : DriveSlot → DriveSlot)
    (h : ∀ x, (f x).mainState = x.mainState ∧ (f x).subState = x.subState ∧ (f x).live = x.live) :
    SameControl s (s.updSlot d f) where
  res := rfl
  cmd := rfl
  phase := rfl
  curD := rfl
  live := rfl
  slots e := by
    rw [updSlot_get]
    split
    · next he => subst he; exact h _
    · exact ⟨rfl, rfl, rfl⟩
  fifo := id

theorem SameControl.setIC (s : State) (d : Drive) (c : BitVec 2) : SameControl s (s.setIC d c) :=
  .updSlot s d _ fun _ => ⟨rfl, rfl, rfl⟩

theorem SameControl.setSt0 (s : State) (d : Drive) (b : St0Bit) : SameControl s (s.setSt0 d b) :=
  .updSlot s d _ fun _ => ⟨rfl, rfl, rfl⟩

theorem SameControl.setSt1 (s : State) (b : St1Bit) : SameControl s (s.setSt1 b) :=
  ⟨rfl, rfl, rfl, rfl, rfl, fun _ => ⟨rfl, rfl, rfl⟩, id⟩

theorem SameControl.setSt2 (s : State) (b : St2Bit) : SameControl s (s.setSt2 b) :=
  ⟨rfl, rfl, rfl, rfl, rfl, fun _ => ⟨rfl, rfl, rfl⟩, id⟩

theorem SameControl.updUnit (s : State) (d : Drive) (f : DriveUnit → DriveUnit) : SameControl s (s.updUnit d f) :=
  ⟨rfl, rfl, rfl, rfl, rfl, fun _ => ⟨rfl, rfl, rfl⟩, id⟩

theorem SameControl.selectSide (s : State) (d : Drive) (h : Bool) : SameControl s (s.selectSide d h) :=
  ⟨rfl, rfl, rfl, rfl, rfl, fun _ => ⟨rfl, rfl, rfl⟩, id⟩

theorem SameControl.writeFlux (s : State) (d : Drive) (a b : Int) (ts : List Int) :
    SameControl s (s.writeFlux d a b ts) :=
  ⟨rfl, rfl, rfl, rfl, rfl, fun _ => ⟨rfl, rfl, rfl⟩, id⟩

theorem SameControl.setTimer (s : State) (d : Drive) (t : Option Int) : SameControl s (s.setTimer d t) :=
  ⟨rfl, rfl, rfl, rfl, rfl, fun _ => ⟨rfl, rfl, rfl⟩, id⟩

theorem SameControl.updateOutputs (s : State) : SameControl s (updateOutputs s) :=
  ⟨rfl, rfl, rfl, rfl, rfl, fun _ => ⟨rfl, rfl, rfl⟩, id⟩

theorem SameControl.fifoReset (s : State) : SameControl s (fifoReset s) :=
  ⟨rfl, rfl, rfl, rfl, rfl, fun _ => ⟨rfl, rfl, rfl⟩, fun _ => Nat.zero_le _⟩

theorem SameControl.fifoStopExpect (s : State) : SameControl s (fifoStopExpect s) :=
  ⟨rfl, rfl, rfl, rfl, rfl, fun _ => ⟨rfl, rfl, rfl⟩, fun _ => Nat.zero_le _⟩

theorem SameControl.flushRequest (s : State) : SameControl s (flushRequest s) :=
  ⟨rfl, rfl, rfl, rfl, rfl, fun _ => ⟨rfl, rfl, rfl⟩, id⟩

theorem SameControl.fifoExpect (n : Nat) (s : State) : SameControl s (fifoExpect n s) := by
  unfold Sys2Proof.Machine.fifoExpect
  split <;> exact ⟨rfl, rfl, rfl, rfl, rfl, fun _ => ⟨rfl, rfl, rfl⟩, id⟩

theorem SameControl.enginePush (v : Byte) (s : State) : SameControl s (enginePush v s) := by
  unfold Sys2Proof.Machine.enginePush
  split
  · exact .setSt1 _ _
  · next h =>
    refine ⟨rfl, rfl, rfl, rfl, rfl, fun _ => ⟨rfl, rfl, rfl⟩, fun hl => ?_⟩
    simp only [List.length_append, List.length_singleton]
    omega

theorem SameControl.enginePop (s : State) : SameControl s (enginePop s).2 := by
  unfold Sys2Proof.Machine.enginePop
  split
  · exact ⟨rfl, rfl, rfl, rfl, rfl, fun _ => ⟨rfl, rfl, rfl⟩, id⟩
  · next h =>
    refine ⟨rfl, rfl, rfl, rfl, rfl, fun _ => ⟨rfl, rfl, rfl⟩, fun hl => ?_⟩
    rw [h, List.length_cons] at hl
    exact Nat.le_of_succ_le hl

theorem SameControl.hostPush (v : Byte) (s : State) : SameControl s (hostPush v s) := by
  unfold Sys2Proof.Machine.hostPush
  split
  · exact .refl _
  · split
    · exact .setSt1 _ _
    · next h =>
      refine ⟨rfl, rfl, rfl, rfl, rfl, fun _ => ⟨rfl, rfl, rfl⟩, fun hl => ?_⟩
      simp only [List.length_append, List.length_singleton]
      omega

theorem SameControl.abnormalOnOverrun (d : Drive) (s : State) : SameControl s (abnormalOnOverrun d s) := by
  unfold Sys2Proof.Machine.abnormalOnOverrun
  split
  · exact .setIC _ _ _
  · exact .refl _

theorem SameControl.commitWrite (d : Drive) (t : Int) (s : State) : SameControl s (commitWrite d t s) := by
  unfold Sys2Proof.Machine.commitWrite
  split
  · exact .refl _
  · split
    · exact .refl _
    · exact ⟨rfl, rfl, rfl, rfl, rfl, fun _ => ⟨rfl, rfl, rfl⟩, id⟩

theorem SameControl.stopWriting (d : Drive) (t : Int) (s : State) : SameControl s (stopWriting d t s) :=
  (SameControl.commitWrite d t s).trans ⟨rfl, rfl, rfl, rfl, rfl, fun _ => ⟨rfl, rfl, rfl⟩, id⟩

theorem SameControl.toggleHead (s : State) : SameControl s (toggleHead s) :=
  ⟨rfl, rfl, rfl, rfl, rfl, fun _ => ⟨rfl, rfl, rfl⟩, id⟩

theorem SameControl.endOfCylinder (s : State) : SameControl s (endOfCylinder s) := by
  unfold Sys2Proof.Machine.endOfCylinder
  split
  · exact ⟨rfl, rfl, rfl, rfl, rfl, fun _ => ⟨rfl, rfl, rfl⟩, id⟩
  · exact (SameControl.setSt1 _ _).trans (.setIC _ _ _)

theorem SameControl.nextR (s : State) : SameControl s (nextR s) :=
  ⟨rfl, rfl, rfl, rfl, rfl, fun _ => ⟨rfl, rfl, rfl⟩, id⟩

theorem SameControl.wrapSector (s : State) : SameControl s (wrapSector s) := by
  unfold Sys2Proof.Machine.wrapSector
  dsimp only
  split <;> exact ⟨rfl, rfl, rfl, rfl, rfl, fun _ => ⟨rfl, rfl, rfl⟩, id⟩

theorem SameControl.advance (s : State) : SameControl s (advance s).2 := by
  unfold Sys2Proof.Machine.advance
  dsimp only
  split
  · split
    · exact ((SameControl.nextR s).trans (.wrapSector _)).trans (.endOfCylinder _)
    · exact (SameControl.nextR s).trans (.wrapSector _)
  · exact .nextR s

theorem SameControl.noteHeader (L : LiveTransfer) (s : State) : SameControl s (noteHeader L s) :=
  ⟨rfl, rfl, rfl, rfl, rfl, fun _ => ⟨rfl, rfl, rfl⟩, id⟩

theorem SameControl.wrongCylinder (d : Drive) (c : Byte) (s : State) : SameControl s (wrongCylinder d c s) := by
  unfold Sys2Proof.Machine.wrongCylinder
  dsimp only
  refine (SameControl.trans ?_ (.setSt1 _ _)).trans (.setIC _ _ _)
  split
  · exact (SameControl.setSt2 _ _).trans (.setSt2 _ _)
  · exact .setSt2 _ _

theorem SameControl.missingDataMark (d : Drive) (s : State) : SameControl s (missingDataMark d s) :=
  ((SameControl.setSt1 _ _).trans (.setSt2 _ _)).trans (.setIC _ _ _)

theorem SameControl.dataCrcError (d : Drive) (s : State) : SameControl s (dataCrcError d s) :=
  ((SameControl.setSt1 _ _).trans (.setSt2 _ _)).trans (.setIC _ _ _)

/-! ## A drive whose command may start a transfer or end -/

/-- The invariants hold, no transfer runs, and drive `d` is in a state that uses the engine. -/
structure EngineReady (d : Drive) (s : State) : Prop where
  inv : ControllerInv s
  live : s.live = none
  main : (s.drives.get d).mainState.usesEngine = true

theorem EngineReady.phase {d : Drive} {s : State} (h : EngineReady d s) : s.phase = .execution :=
  (h.inv.engine_phase d h.main).1

theorem EngineReady.curD {d : Drive} {s : State} (h : EngineReady d s) : d = s.cur.d :=
  (h.inv.engine_phase d h.main).2

theorem EngineReady.of_same {d : Drive} {s t : State} (h : EngineReady d s) (k : SameControl s t) :
    EngineReady d t where
  inv := h.inv.of_same k
  live := by
    have := k.live
    rw [h.live] at this
    simpa using this
  main := by rw [(k.slots d).1]; exact h.main

/-- No drive owns a transfer when none runs. -/
theorem ControllerInv.no_live {s : State} (h : ControllerInv s) (hl : s.live = none) (d : Drive) :
    (s.drives.get d).live = false := by
  have := h.live_iff d
  rw [hl] at this
  simpa using this

/-- A handler that answers a next state with a property. -/
def Answers (P : State → Prop) (r : Result) : Prop := ∃ s', r = .next s' ∧ P s'

theorem Answers.next {P : State → Prop} {s : State} (h : P s) : Answers P (.next s) := ⟨s, rfl, h⟩

/-- Without a transfer the sub-state of the drive that uses the engine is free. -/
theorem EngineReady.setSub {d : Drive} {s : State} (h : EngineReady d s) (x : SubState) :
    EngineReady d (s.setSub d x) where
  inv :=
    { fifo_le := h.inv.fifo_le
      res_le := h.inv.res_le
      cmd_partial := h.inv.cmd_partial
      cmd_phase := h.inv.cmd_phase
      res_phase := h.inv.res_phase
      live_iff := fun e => by
        have := h.inv.live_iff e
        simp only [State.slot_def, setSub_get, setSub_live] at this ⊢
        split
        · next he => subst he; exact this
        · exact this
      live_runs := fun L hL => by
        have h1 : s.live = some L := hL
        have h2 := h.live
        simp [h1] at h2
      engine_phase := fun e he => by
        refine h.inv.engine_phase e ?_
        simp only [State.slot_def, setSub_get] at he ⊢
        split at he
        · next hd => subst hd; exact he
        · exact he
      execution_engine := fun hp => by
        have := h.inv.execution_engine hp
        simp only [State.slot_def, setSub_get, setSub_cur] at this ⊢
        split
        · next hd => rw [hd] at this; exact this
        · exact this
      idle_sub := fun e he => by
        have hi := h.inv.idle_sub e
        have hm := h.main
        simp only [State.slot_def, setSub_get] at he hi ⊢
        split at he
        · next hd => simp only at he; rw [he] at hm; exact absurd hm (by decide)
        · next hd => rw [if_neg hd]; exact hi he }
  live := h.live
  main := by
    rw [setSub_get, if_pos rfl]
    exact h.main

/-- A live start of the drive that uses the engine, from a sub-state in which a transfer may run. -/
theorem liveStart_inv {d : Drive} {st : LiveState} {s : State} (h : EngineReady d s)
    (hs : (s.drives.get d).subState.mayTransfer = true) : Answers ControllerInv (liveStart d st s) := by
  unfold liveStart
  rw [h.live]
  refine .next ⟨h.inv.fifo_le, h.inv.res_le, h.inv.cmd_partial, h.inv.cmd_phase, h.inv.res_phase, ?_, ?_, ?_, ?_, ?_⟩
  · intro e
    simp only [State.slot_def, updSlot_get, Option.some.injEq, exists_eq_left']
    split
    · next he => subst he; simp [newTransfer]
    · next he => simp [newTransfer, h.inv.no_live h.live e, Ne.symm he]
  · rintro L hL
    simp only [Option.some.injEq] at hL
    subst hL
    simp only [newTransfer, State.slot_def, updSlot_get_same, updSlot_phase, updSlot_cur]
    exact ⟨h.phase, h.curD, h.main, hs⟩
  · intro e he
    refine h.inv.engine_phase e ?_
    simp only [State.slot_def, updSlot_get] at he ⊢
    split at he
    · next hd => subst hd; exact he
    · exact he
  · intro _
    simp only [State.slot_def, updSlot_get, updSlot_cur]
    rw [if_pos h.curD.symm]
    exact h.main
  · intro e he
    have hi := h.inv.idle_sub e
    simp only [State.slot_def, updSlot_get] at he hi ⊢
    split at he
    · next hd => rw [if_pos hd]; subst hd; exact hi he
    · next hd => rw [if_neg hd]; exact hi he

/-- `FinishResult` of the drive that uses the engine. -/
theorem finishResult_inv {d : Drive} {s : State} (h0 : EngineReady d s) : ControllerInv (finishResult d s) := by
  have h := h0.of_same (.abnormalOnOverrun d s)
  have others : ∀ e, e ≠ d →
      ((abnormalOnOverrun d s).drives.get e).mainState.usesEngine = false := fun e he => by
    cases hm : ((abnormalOnOverrun d s).drives.get e).mainState.usesEngine with
    | false => rfl
    | true => exact absurd ((h.inv.engine_phase e hm).2.trans h.curD.symm) he
  refine ⟨h.inv.fifo_le, by simp [finishResult, enterResult, State.sevenBytes, resMax], ?_, fun _ => ?_, ?_, ?_, ?_, ?_, ?_, ?_⟩
  · exact h.inv.cmd_partial
  · exact h.inv.cmd_phase (by rw [h.phase]; decide)
  · simp [finishResult, enterResult, State.sevenBytes]
  · intro e
    have hl := h.inv.no_live h.live e
    simp only [finishResult, enterResult, State.slot_def, updSlot_get, updSlot_live, h.live]
    split
    · next he => subst he; simpa using hl
    · simpa using hl
  · intro L hL
    have : (abnormalOnOverrun d s).live = some L := hL
    rw [h.live] at this
    cases this
  · intro e he
    simp only [finishResult, enterResult, State.slot_def, updSlot_get] at he
    split at he
    · simp [MainState.usesEngine] at he
    · next hd => rw [others e hd] at he; cases he
  · intro hp
    cases hp
  · intro e he
    have hi := h.inv.idle_sub e
    simp only [finishResult, enterResult, State.slot_def, updSlot_get] at he hi ⊢
    split at he
    · next hd => rw [if_pos hd]
    · next hd => rw [if_neg hd]; exact hi he

/-- `CommandDone` of the drive that uses the engine. -/
theorem commandDone_inv {d : Drive} {s : State} (h : EngineReady d s) : ControllerInv (commandDone d s) := by
  unfold commandDone
  split
  · exact (h.setSub .drain).inv.of_same ⟨rfl, rfl, rfl, rfl, rfl, fun _ => ⟨rfl, rfl, rfl⟩, id⟩
  · exact finishResult_inv h

end Sys2Proof.Machine
end

