-- ==== Sys2Proof/Laws/Handlers.lean ====
section
/-! SUPPORT. For each handler of an event, once, what it does to the controller's invariants: it answers a next state and keeps
them. -/

namespace Sys2Proof.Machine

theorem Answers.mono {P Q : State → Prop} {r : Result} (h : Answers P r) (k : ∀ s, P s → Q s) : Answers Q r := by
  obtain ⟨s, hs, hp⟩ := h
  exact ⟨s, hs, k s hp⟩

theorem Answers.finish {P : State → Prop} {r : Result} (h : Answers P r) (k : ∀ s, P s → P (updateOutputs s)) :
    Answers P (finishOutputs r) := by
  obtain ⟨s, rfl, hp⟩ := h
  exact ⟨_, rfl, k s hp⟩

theorem ControllerInv.updateOutputs {s : State} (h : ControllerInv s) : ControllerInv (updateOutputs s) :=
  h.of_same (.updateOutputs s)

theorem Answers.finishInv {r : Result} (h : Answers ControllerInv r) : Answers ControllerInv (finishOutputs r) :=
  h.finish fun _ hs => hs.updateOutputs

/-! ## Stepping -/

/-- Drive `d` may step: it seeks or recalibrates, or it runs the implied seek of the current command. -/
structure Steppable (d : Drive) (s : State) : Prop where
  inv : ControllerInv s
  main : ((s.drives.get d).mainState = .seek ∨ (s.drives.get d).mainState = .recalibrate) ∨ EngineReady d s

theorem Steppable.of_same {d : Drive} {s t : State} (h : Steppable d s) (k : SameControl s t) : Steppable d t where
  inv := h.inv.of_same k
  main := by
    rw [(k.slots d).1]
    exact h.main.imp id fun e => e.of_same k

/-- A drive that seeks or recalibrates owns no transfer. -/
theorem ControllerInv.stepping_no_live {s : State} (h : ControllerInv s) {d : Drive}
    (hm : (s.drives.get d).mainState = .seek ∨ (s.drives.get d).mainState = .recalibrate) {L : LiveTransfer}
    (hL : s.live = some L) : L.drive ≠ d := by
  rintro rfl
  have := (h.live_runs L hL).2.2.1
  simp only [State.slot_def] at this
  rcases hm with e | e <;> rw [e] at this <;> cases this

/-- The sub-state of a drive that seeks or recalibrates is free. -/
theorem ControllerInv.setSub_stepping {s : State} (h : ControllerInv s) {d : Drive} (x : SubState)
    (hm : (s.drives.get d).mainState = .seek ∨ (s.drives.get d).mainState = .recalibrate) :
    ControllerInv (s.setSub d x) where
  fifo_le := h.fifo_le
  res_le := h.res_le
  cmd_partial := h.cmd_partial
  cmd_phase := h.cmd_phase
  res_phase := h.res_phase
  live_iff e := by
    have := h.live_iff e
    simp only [State.slot_def, setSub_get, setSub_live] at this ⊢
    split
    · next he => subst he; exact this
    · exact this
  live_runs L hL := by
    have hd := h.stepping_no_live hm hL
    have hr := h.live_runs L hL
    simp only [State.slot_def, setSub_get, setSub_phase, setSub_cur] at hr ⊢
    rw [if_neg hd]
    exact hr
  engine_phase e he := by
    refine h.engine_phase e ?_
    simp only [State.slot_def, setSub_get] at he ⊢
    split at he
    · next hd => subst hd; exact he
    · exact he
  execution_engine hp := by
    have := h.execution_engine hp
    simp only [State.slot_def, setSub_get, setSub_cur] at this ⊢
    split
    · next hd => rw [hd] at this; exact this
    · exact this
  idle_sub e he := by
    have hi := h.idle_sub e
    simp only [State.slot_def, setSub_get] at he hi ⊢
    split at he
    · simp only at he
      rcases hm with k | k <;> rw [k] at he <;> cases he
    · next hd => rw [if_neg hd]; exact hi he

theorem Steppable.setSub {d : Drive} {s : State} (h : Steppable d s) (x : SubState) : Steppable d (s.setSub d x) := by
  rcases h.main with hm | hr
  · refine ⟨h.inv.setSub_stepping x hm, .inl ?_⟩
    rw [setSub_get, if_pos rfl]
    exact hm
  · exact ⟨(hr.setSub x).inv, .inr (hr.setSub x)⟩

/-- SeekDone of the drive that uses the engine. -/
theorem runSeekDone_inv {d : Drive} {s : State} (h : EngineReady d s) : Answers ControllerInv (runSeekDone d s) := by
  unfold runSeekDone
  split
  · exact .next (commandDone_inv h)
  · split
    · exact .next (h.setSub _).inv
    · refine liveStart_inv (EngineReady.of_same (h.setSub .scanId) ?_) ?_
      · refine ⟨rfl, rfl, rfl, rfl, rfl, fun e => ?_, id⟩
        simp only [updSlot_get, setSub_get]
        split <;> exact ⟨rfl, rfl, rfl⟩
      · simp only [updSlot_get, if_pos]
        rfl

/-- The end of a Seek or Recalibrate. -/
theorem seekEnd_inv {d : Drive} {s : State} (ok : Bool) (h : ControllerInv s)
    (hm : (s.drives.get d).mainState = .seek ∨ (s.drives.get d).mainState = .recalibrate) :
    ControllerInv (seekEnd d ok s) := by
  have hs : SameControl s (if ok then s.setSt0 d .se else (s.setSt0 d .se).setIC d icAbnormal) := by
    split
    · exact .setSt0 _ _ _
    · exact (SameControl.setSt0 _ _ _).trans (.setIC _ _ _)
  unfold seekEnd
  dsimp only
  generalize ht : (if ok then s.setSt0 d .se else (s.setSt0 d .se).setIC d icAbnormal) = t at hs ⊢
  have hi := h.of_same hs
  rw [← (hs.slots d).1] at hm
  refine ⟨hi.fifo_le, hi.res_le, hi.cmd_partial, hi.cmd_phase, hi.res_phase, ?_, ?_, ?_, ?_, ?_⟩
  · intro e
    have := hi.live_iff e
    simp only [State.slot_def, updSlot_get, updSlot_live] at this ⊢
    split
    · next he => subst he; exact this
    · exact this
  · intro L hL
    have hd := hi.stepping_no_live hm hL
    have hr := hi.live_runs L hL
    simp only [State.slot_def, updSlot_get, updSlot_phase, updSlot_cur] at hr ⊢
    rw [if_neg hd]
    exact hr
  · intro e he
    refine hi.engine_phase e ?_
    simp only [State.slot_def, updSlot_get] at he ⊢
    split at he
    · cases he
    · exact he
  · intro hp
    have := hi.execution_engine hp
    simp only [State.slot_def, updSlot_get, updSlot_cur] at this ⊢
    split
    · next hd => rw [hd] at this; rcases hm with k | k <;> rw [k] at this <;> cases this
    · exact this
  · intro e he
    have hn := hi.idle_sub e
    simp only [State.slot_def, updSlot_get] at he hn ⊢
    split at he
    · next hd => rw [if_pos hd]
    · next hd => rw [if_neg hd]; exact hn he

/-- `SeekFinish`. -/
theorem seekFinish_inv {d : Drive} {s : State} (ok : Bool) (h : Steppable d s) :
    Answers ControllerInv (seekFinish d ok s) := by
  have hs := h.of_same (.setTimer s d none)
  unfold seekFinish
  dsimp only
  rw [State.slot_def]
  split
  · next hm => exact .next (seekEnd_inv ok hs.inv hm)
  · next hm =>
    rcases hs.main with k | k
    · exact absurd k hm
    · exact runSeekDone_inv (k.setSub .seekDone)

/-- One step pulse. -/
theorem stepPulse_inv {d : Drive} {s : State} (dir : Dir) (h : Steppable d s) : ControllerInv (stepPulse d dir s) := by
  refine (h.setSub .waitStepPulse).inv.of_same ⟨rfl, rfl, rfl, rfl, rfl, fun e => ?_, id⟩
  simp only [stepPulse, setTimer_drives, emit_drives, updSlot_get, setSub_get]
  split <;> exact ⟨rfl, rfl, rfl⟩

/-- Move. -/
theorem runMove_inv {d : Drive} {s : State} (h : Steppable d s) : Answers ControllerInv (runMove d s) := by
  unfold runMove moveRecalibrate moveSeek
  split
  · split
    · exact seekFinish_inv true (h.of_same (.updSlot s d _ fun _ => ⟨rfl, rfl, rfl⟩))
    · split
      · exact seekFinish_inv false (h.of_same (.setSt0 s d .ec))
      · exact .next (stepPulse_inv _ (h.of_same (.updSlot s d _ fun _ => ⟨rfl, rfl, rfl⟩)))
  · split
    · exact seekFinish_inv true h
    · exact .next (stepPulse_inv _ h)

/-- HeadLoadSettle. -/
theorem runHeadLoadSettle_inv {d : Drive} {s : State} (h : EngineReady d s) :
    Answers ControllerInv (runHeadLoadSettle d s) := by
  unfold runHeadLoadSettle
  split
  · have h1 := h.setSub .move
    refine runMove_inv (Steppable.of_same ⟨h1.inv, .inr h1⟩ ⟨rfl, rfl, rfl, rfl, rfl, fun e => ?_, id⟩)
    simp only [updSlot_get, setSub_get]
    split <;> exact ⟨rfl, rfl, rfl⟩
  · exact runSeekDone_inv (h.setSub .seekDone)

/-- A drive in a sub-state in which no transfer may run, and not Idle, may step. -/
theorem ControllerInv.steppable {s : State} (h : ControllerInv s) {d : Drive}
    (hs : (s.drives.get d).subState.mayTransfer = false) (hn : (s.drives.get d).subState ≠ .idle) : Steppable d s := by
  refine ⟨h, ?_⟩
  have hi := h.idle_sub d
  rw [State.slot_def] at hi
  cases hu : (s.drives.get d).mainState.usesEngine with
  | true =>
    refine .inr ⟨h, ?_, hu⟩
    cases hl : s.live with
    | none => rfl
    | some L =>
      obtain ⟨-, hd, -, hm⟩ := h.live_runs L hl
      rw [hd, ← (h.engine_phase d hu).2, State.slot_def, hs] at hm
      cases hm
  | false =>
    cases hm : (s.drives.get d).mainState <;> rw [hm] at hu hi <;> simp [MainState.usesEngine] at hu <;> simp
    exact (hn (hi rfl)).elim

/-- A drive timer's expiry. -/
theorem driveTimerExpiry_inv {s : State} (d : Drive) (h : ControllerInv s) :
    Answers ControllerInv (driveTimerExpiry d s) := by
  unfold driveTimerExpiry
  rw [State.slot_def]
  split
  · next hs =>
    have hst := (h.steppable (d := d) (by rw [hs]; rfl) (by rw [hs]; decide)).setSub .waitStepSettle
    refine .next (hst.inv.of_same ⟨rfl, rfl, rfl, rfl, rfl, fun e => ?_, id⟩)
    simp only [setTimer_drives, updSlot_get, setSub_get]
    split <;> exact ⟨rfl, rfl, rfl⟩
  · next hs =>
    have hst := h.steppable (d := d) (by rw [hs]; rfl) (by rw [hs]; decide)
    exact runMove_inv ((hst.of_same (.setTimer _ _ _)).setSub .move)
  · exact .next (h.of_same (.setTimer _ _ _))

/-! ## The end of a transfer -/

/-- `FinishResult`, `CommandDone` and SeekDone need the transfer gone: dropping it leaves the drive that uses the engine ready. -/
theorem dropLive_ready {s : State} (h : ControllerInv s) {L : LiveTransfer} (hL : s.live = some L) :
    EngineReady L.drive (dropLive L.drive s) := by
  obtain ⟨hp, hd, hm, -⟩ := h.live_runs L hL
  rw [State.slot_def] at hm
  refine ⟨⟨h.fifo_le, h.res_le, h.cmd_partial, h.cmd_phase, h.res_phase, ?_, ?_, ?_, ?_, ?_⟩, rfl, ?_⟩
  · intro e
    have := h.live_iff e
    rw [hL] at this
    simp only [dropLive, State.slot_def, updSlot_get] at this ⊢
    split
    · simp
    · next he =>
      simp only [Option.some.injEq, exists_eq_left', reduceCtorEq, false_and, exists_false, iff_false] at this ⊢
      rw [this]
      exact fun k => he k.symm
  · intro M hM
    cases hM
  · intro e he
    refine h.engine_phase e ?_
    simp only [dropLive, State.slot_def, updSlot_get] at he ⊢
    split at he
    · next k => subst k; exact he
    · exact he
  · intro k
    have := h.execution_engine k
    simp only [dropLive, State.slot_def, updSlot_get, updSlot_cur] at this ⊢
    split
    · next k => rw [k] at this; exact this
    · exact this
  · intro e he
    have hi := h.idle_sub e
    simp only [dropLive, State.slot_def, updSlot_get] at he hi ⊢
    split at he
    · next k => rw [if_pos k]; subst k; exact hi he
    · next k => rw [if_neg k]; exact hi he
  · simp only [dropLive, updSlot_get_same]
    exact hm

/-- In Execution, `LiveAbort` leaves the current command's drive ready. -/
theorem liveAbort_ready {s : State} (h : ControllerInv s) (hp : s.phase = .execution) :
    EngineReady s.cur.d (liveAbort s) := by
  unfold liveAbort
  split
  · next hl => exact ⟨h, hl, h.execution_engine hp⟩
  · next L hL =>
    have hs := SameControl.stopWriting L.drive s.now s
    obtain ⟨M, hM, hd⟩ := hs.symm_live hL
    have := dropLive_ready (h.of_same hs) hM
    rw [hd] at this
    rw [← (h.live_runs L hL).2.1]
    exact this

/-- `LiveAbort` keeps the invariants. -/
theorem liveAbort_inv {s : State} (h : ControllerInv s) : ControllerInv (liveAbort s) := by
  cases hl : s.live with
  | none => simpa [liveAbort, hl] using h
  | some L => exact (liveAbort_ready h (h.live_runs L hl).1).inv

/-! ## The reactions to reports -/

theorem onHeaderReadRW_inv {d : Drive} {s : State} (L : LiveTransfer) (h0 : EngineReady d s)
    (hs : (s.drives.get d).subState = .scanId) : Answers ControllerInv (onHeaderReadRW d L s) := by
  have h := h0.of_same (.noteHeader L s)
  unfold onHeaderReadRW
  dsimp only
  split
  · exact .next (commandDone_inv ((h.of_same (.setSt1 _ _)).of_same (.setIC _ _ _)))
  · split
    · exact .next (commandDone_inv (h.of_same (.wrongCylinder _ _ _)))
    · split
      · exact liveStart_inv h (by rw [((SameControl.noteHeader L s).slots d).2.1, hs]; rfl)
      · split
        · exact liveStart_inv (h.setSub _) (by simp [setSub_get, SubState.mayTransfer])
        · exact liveStart_inv ((h.setSub _).of_same (.fifoExpect _ _)) (by
            rw [((SameControl.fifoExpect _ _).slots d).2.1]; simp [setSub_get, SubState.mayTransfer])

theorem onHeaderReadTrack_inv {d : Drive} {s : State} (L : LiveTransfer) (h0 : EngineReady d s) :
    Answers ControllerInv (onHeaderReadTrack d L s) := by
  have h := h0.of_same (.noteHeader L s)
  unfold onHeaderReadTrack
  dsimp only
  refine liveStart_inv (EngineReady.setSub ?_ _) (by simp [setSub_get, SubState.mayTransfer])
  have h1 : EngineReady d (if L.crc ≠ 0 then ((noteHeader L s).setSt1 .de).setIC d icAbnormal
      else noteHeader L s) := by
    split
    · exact (h.of_same (.setSt1 _ _)).of_same (.setIC _ _ _)
    · exact h
  split
  · exact (h1.of_same (.setSt1 _ _)).of_same (.setIC _ _ _)
  · exact h1

theorem onHeaderReadId_inv {d : Drive} {s : State} (L : LiveTransfer) (h0 : EngineReady d s) :
    Answers ControllerInv (onHeaderReadId d L s) := by
  have h := h0.of_same (t := { s with cur := { s.cur with
    c := L.idbuf.c, h := L.idbuf.h, r := L.idbuf.r, n := L.idbuf.n, lastId := L.idbuf } })
    ⟨rfl, rfl, rfl, rfl, rfl, fun _ => ⟨rfl, rfl, rfl⟩, id⟩
  unfold onHeaderReadId
  dsimp only
  refine .next (commandDone_inv ?_)
  split
  · exact (h.of_same (.setSt1 _ _)).of_same (.setIC _ _ _)
  · exact h

theorem nextSector_inv {d : Drive} {s : State} (done : Bool) (h : EngineReady d s) :
    Answers ControllerInv (nextSector d done s) := by
  unfold nextSector
  split
  · exact .next (commandDone_inv h)
  · exact runSeekDone_inv (h.setSub _)

theorem onFieldReadRW_inv {d : Drive} {s : State} (L : LiveTransfer) (h0 : EngineReady d s) :
    Answers ControllerInv (onFieldReadRW d L s) := by
  have h := h0.of_same (.flushRequest s)
  unfold onFieldReadRW
  dsimp only
  generalize markMismatch (flushRequest s) L.markDeleted = m
  have h1 : EngineReady d (if m then (flushRequest s).setSt2 .cm else flushRequest s) := by
    split
    · exact h.of_same (.setSt2 _ _)
    · exact h
  revert h1
  generalize (if m then (flushRequest s).setSt2 .cm else flushRequest s) = u
  intro h1
  have h2 : EngineReady d (if L.crc ≠ 0 then dataCrcError d u else u) := by
    split
    · exact h1.of_same (.dataCrcError _ _)
    · exact h1
  revert h2
  generalize (if L.crc ≠ 0 then dataCrcError d u else u) = w
  intro h2
  split
  · exact .next (commandDone_inv h2)
  · exact nextSector_inv _ (h2.of_same (.advance w))

theorem onFieldReadTrack_inv {d : Drive} {s : State} (L : LiveTransfer) (h0 : EngineReady d s) :
    Answers ControllerInv (onFieldReadTrack d L s) := by
  have h := h0.of_same (.flushRequest s)
  have h1 : EngineReady d (if L.crc ≠ 0 then dataCrcError d (flushRequest s) else flushRequest s) := by
    split
    · exact h.of_same (.dataCrcError _ _)
    · exact h
  unfold onFieldReadTrack
  dsimp only
  revert h1
  generalize (if L.crc ≠ 0 then dataCrcError d (flushRequest s) else flushRequest s) = w
  intro h1
  have h2 := h1.of_same (t := { w with cur := { w.cur with count := w.cur.count + 1, r := w.cur.r + 1 } })
    ⟨rfl, rfl, rfl, rfl, rfl, fun _ => ⟨rfl, rfl, rfl⟩, id⟩
  split
  · exact .next (commandDone_inv h2)
  · exact liveStart_inv (h2.setSub .scanId) (by simp [setSub_get, SubState.mayTransfer])

theorem onDataMarkMissingTrack_inv {d : Drive} {s : State} (h : EngineReady d s) :
    Answers ControllerInv (onDataMarkMissingTrack d s) :=
  liveStart_inv ((h.of_same (.missingDataMark d s)).setSub .scanId) (by simp [setSub_get, SubState.mayTransfer])

theorem onFieldWritten_inv {d : Drive} {s : State} (h : EngineReady d s) :
    Answers ControllerInv (onFieldWritten d s) :=
  nextSector_inv _ ((h.of_same (.fifoStopExpect s)).of_same (.advance _))

/-- `Report` of the running transfer. -/
theorem report_inv {s : State} (e : EngineEvent) {L M : LiveTransfer} (h0 : ControllerInv s)
    (hM : s.live = some M) (hd : M.drive = L.drive) : Answers ControllerInv (report e L s) := by
  have h := dropLive_ready h0 hM
  rw [hd] at h
  unfold report
  dsimp only
  rw [State.slot_def]
  split
  · next hs => exact onHeaderReadRW_inv L h hs
  · next hs => exact onHeaderReadRW_inv L h hs
  · exact onHeaderReadTrack_inv L h
  · exact onHeaderReadId_inv L h
  · exact .next (commandDone_inv (h.of_same (.missingDataMark _ _)))
  · exact onDataMarkMissingTrack_inv h
  · exact onFieldReadRW_inv L h
  · exact onFieldReadTrack_inv L h
  · exact onFieldWritten_inv h
  · exact .next h.inv

/-! ## Index pulses and terminal count -/

/-- The drive whose main state uses the engine is the current command's, and the controller is in Execution. -/
theorem ControllerInv.abort_ready {s : State} (h : ControllerInv s) {d : Drive}
    (hm : (s.drives.get d).mainState.usesEngine = true) : EngineReady d (liveAbort s) := by
  obtain ⟨hp, hd⟩ := h.engine_phase d hm
  rw [hd]
  exact liveAbort_ready h hp

/-- With the drive's sub-state one in which no transfer runs, no transfer runs at all. -/
theorem ControllerInv.ready {s : State} (h : ControllerInv s) {d : Drive}
    (hm : (s.drives.get d).mainState.usesEngine = true) (hs : (s.drives.get d).subState.mayTransfer = false) :
    EngineReady d s := by
  refine ⟨h, ?_, hm⟩
  cases hl : s.live with
  | none => rfl
  | some L =>
    obtain ⟨-, hd, -, hr⟩ := h.live_runs L hl
    rw [hd, ← (h.engine_phase d hm).2, State.slot_def, hs] at hr
    cases hr

theorem recordNotFound_inv {d : Drive} {s : State} (h : EngineReady d (liveAbort s)) :
    ControllerInv (recordNotFound d s) := by
  unfold recordNotFound
  dsimp only
  refine commandDone_inv (EngineReady.of_same ?_ (.setIC _ _ _))
  have h1 := h.of_same (.setSt1 _ .nd)
  split
  · exact h1
  · exact h1.of_same (.setSt1 _ _)

theorem onIndexSearch_inv {d : Drive} {s : State} (h0 : ControllerInv s)
    (hm : (s.drives.get d).mainState.usesEngine = true) : Answers ControllerInv (onIndexSearch d s) := by
  have k := SameControl.updSlot s d (fun x => { x with counter := x.counter + 1 }) fun _ => ⟨rfl, rfl, rfl⟩
  have h := h0.of_same k
  unfold onIndexSearch
  dsimp only
  refine .next ?_
  split
  · exact recordNotFound_inv (h.abort_ready (by rw [(k.slots d).1]; exact hm))
  · exact h

theorem onIndex_inv {s : State} (d : Drive) (h : ControllerInv s) : Answers ControllerInv (onIndex d s) := by
  unfold onIndex
  rw [State.slot_def]
  split
  · split
    · next hm _ => exact onIndexSearch_inv h (by rw [hm]; rfl)
    · next hm _ => exact onIndexSearch_inv h (by rw [hm]; rfl)
    · next hm _ => exact onIndexSearch_inv h (by rw [hm]; rfl)
    · next hm hs =>
      refine liveStart_inv (((h.ready (by rw [hm]; rfl) (by rw [hs]; rfl)).of_same
        (t := { s with cur := { s.cur with count := 0, seenHeader := false } })
        ⟨rfl, rfl, rfl, rfl, rfl, fun _ => ⟨rfl, rfl, rfl⟩, id⟩).setSub .scanId) ?_
      simp [setSub_get, SubState.mayTransfer]
    · next hm _ => exact .next (recordNotFound_inv (h.abort_ready (by rw [hm]; rfl)))
    · next hm _ => exact .next (recordNotFound_inv (h.abort_ready (by rw [hm]; rfl)))
    · next hm hs =>
      exact liveStart_inv ((h.ready (by rw [hm]; rfl) (by rw [hs]; rfl)).setSub .trackWrite)
        (by simp [setSub_get, SubState.mayTransfer])
    · next hm _ =>
      unfold onIndexTrackWrite
      split
      · refine .next ?_
        split
        · exact commandDone_inv (h.abort_ready (by rw [hm]; rfl))
        · exact h
      · exact .next h
    · exact .next h
  · exact .next h

theorem onTC_inv {s : State} (h0 : ControllerInv s) : ControllerInv (onTC s) := by
  unfold onTC
  split
  · exact h0
  · next hp =>
    rw [not_or, not_not] at hp
    dsimp only
    have k1 : SameControl s (if ({ s with tcDone := true } : State).fifoWrite then
        { s with tcDone := true, fifoExpected := 0, internalDrq := false } else { s with tcDone := true }) := by
      split <;> exact ⟨rfl, rfl, rfl, rfl, rfl, fun _ => ⟨rfl, rfl, rfl⟩, id⟩
    revert k1
    generalize (if ({ s with tcDone := true } : State).fifoWrite then
        ({ s with tcDone := true, fifoExpected := 0, internalDrq := false } : State) else { s with tcDone := true }) = t
    intro k1
    have k2 : SameControl t (cutBeforeField t) := by
      unfold cutBeforeField
      split
      · split
        · exact ⟨rfl, rfl, rfl, rfl, rfl, fun _ => ⟨rfl, rfl, rfl⟩, id⟩
        · exact .refl _
      · exact .refl _
    have h := h0.of_same (k1.trans k2)
    have hq : (cutBeforeField t).phase = .execution := by rw [(k1.trans k2).phase]; exact hp.1
    revert h hq
    generalize cutBeforeField t = u
    intro h hq
    rw [State.slot_def]
    split
    · exact commandDone_inv (liveAbort_ready h hq)
    · exact commandDone_inv (liveAbort_ready h hq)
    · next hs =>
      have hr := h.ready (h.execution_engine hq) (by rw [hs]; rfl)
      exact finishResult_inv (hr.of_same ⟨rfl, rfl, rfl, rfl, rfl, fun _ => ⟨rfl, rfl, rfl⟩, fun _ => Nat.zero_le _⟩)
    · exact h

theorem tcInput_inv {s : State} (level : Bool) (h : ControllerInv s) : ControllerInv (tcInput level s) := by
  have k : SameControl s { s with tcLevel := level } := ⟨rfl, rfl, rfl, rfl, rfl, fun _ => ⟨rfl, rfl, rfl⟩, id⟩
  have k' : SameControl s { s with tcLevel := true } := ⟨rfl, rfl, rfl, rfl, rfl, fun _ => ⟨rfl, rfl, rfl⟩, id⟩
  unfold tcInput
  split
  · exact onTC_inv (h.of_same k')
  · exact h.of_same k

/-! ## The host's data accesses in Execution -/

theorem SameControl.hostTake (s : State) : SameControl s (hostTake s).2 := by
  unfold Sys2Proof.Machine.hostTake
  split
  · exact .setSt1 _ _
  · next hf =>
    refine ⟨rfl, rfl, rfl, rfl, rfl, fun _ => ⟨rfl, rfl, rfl⟩, fun hl => ?_⟩
    rw [hf, List.length_cons] at hl
    exact Nat.le_of_succ_le hl

theorem SameControl.relinquish (s : State) : SameControl s (relinquish s) := by
  unfold Sys2Proof.Machine.relinquish
  split
  · exact ⟨rfl, rfl, rfl, rfl, rfl, fun _ => ⟨rfl, rfl, rfl⟩, id⟩
  · exact .refl _

theorem finishDrain_inv {s : State} (h : ControllerInv s) (hp : s.phase = .execution) :
    ControllerInv (finishDrain s) := by
  unfold finishDrain
  split
  · next hs =>
    simp only [State.slot_def, Bool.and_eq_true, beq_iff_eq] at hs
    exact finishResult_inv (h.ready (h.execution_engine hp) (by rw [hs.1]; rfl))
  · exact h

theorem hostPop_inv {s : State} (h : ControllerInv s) (hp : s.phase = .execution) :
    ControllerInv (hostPop s).2 := by
  unfold hostPop
  split
  · exact h
  · have k := (SameControl.hostTake s).trans (.relinquish _)
    exact finishDrain_inv (h.of_same k) (by rw [k.phase]; exact hp)

/-! ## The result bytes -/

/-- A change of the result buffer and phase that suits R74, where no drive uses the engine. -/
theorem ControllerInv.leaveResult {s t : State} (h : ControllerInv s) (hp : s.phase ≠ .execution)
    (h1 : t.drives = s.drives) (h2 : t.live = s.live) (h3 : t.cmd = s.cmd) (h4 : t.fifo = s.fifo)
    (h5 : t.phase ≠ .execution) (h6 : t.res.length ≤ resMax) (h7 : t.phase = .result ↔ t.res ≠ [])
    (h8 : t.phase ≠ .command → t.cmd = []) : ControllerInv t where
  fifo_le := by rw [h4]; exact h.fifo_le
  res_le := h6
  cmd_partial := by rw [h3]; exact h.cmd_partial
  cmd_phase := h8
  res_phase := h7
  live_iff d := by rw [State.slot_def, h1, h2]; exact h.live_iff d
  live_runs L hL := absurd (h.live_runs L (h2 ▸ hL)).1 hp
  engine_phase d hd := absurd (h.engine_phase d (by rw [State.slot_def, h1] at hd; exact hd)).1 hp
  execution_engine k := absurd k h5
  idle_sub d := by rw [State.slot_def, h1]; exact h.idle_sub d

theorem resultRead_inv {s : State} (h : ControllerInv s) (hp : s.phase = .result) :
    ControllerInv (resultRead s).2 := by
  have hc : s.cmd = [] := h.cmd_phase (by rw [hp]; decide)
  have hl := h.res_le
  have hn : s.phase ≠ .execution := by rw [hp]; decide
  unfold resultRead
  split
  · next hr => exact absurd hr (h.res_phase.1 hp)
  · exact h.leaveResult hn rfl rfl rfl rfl (by simp) (by simp [resMax]) (by simp) (by simp)
  · next v rest hne hr =>
    have hrest : rest ≠ [] := hne
    rw [hr, List.length_cons] at hl
    refine h.leaveResult hn rfl rfl rfl rfl hn (by dsimp only; omega) ?_ fun _ => hc
    simp [hp, hrest]

/-! ## Acceptance -/

/-- No drive uses the engine in Command phase, and no transfer runs. -/
theorem ControllerInv.no_engine {s : State} (h : ControllerInv s) (hp : s.phase = .command) (d : Drive) :
    (s.drives.get d).mainState.usesEngine = false := by
  cases hm : (s.drives.get d).mainState.usesEngine with
  | false => rfl
  | true => exact absurd ((h.engine_phase d hm).1.symm.trans hp) (by decide)

theorem ControllerInv.no_transfer {s : State} (h : ControllerInv s) (hp : s.phase = .command) : s.live = none := by
  cases hl : s.live with
  | none => rfl
  | some L => exact absurd ((h.live_runs L hl).1.symm.trans hp) (by decide)

/-- The command record is free in Command phase, and an emptied command buffer suits it. -/
theorem ControllerInv.setCur {s : State} (h : ControllerInv s) (hp : s.phase = .command) (c : Cur) :
    ControllerInv { s with cur := c, cmd := [] } where
  fifo_le := h.fifo_le
  res_le := h.res_le
  cmd_partial := trivial
  cmd_phase := fun _ => rfl
  res_phase := h.res_phase
  live_iff := h.live_iff
  live_runs L hL := absurd ((h.live_runs L hL).1.symm.trans hp) (by decide)
  engine_phase d hd := absurd ((h.engine_phase d hd).1.symm.trans hp) (by decide)
  execution_engine k := absurd (hp.symm.trans k) (by decide)
  idle_sub := h.idle_sub

theorem loadCommand_inv {s : State} (i : Instr) (h : ControllerInv s) (hp : s.phase = .command) :
    ControllerInv (loadCommand i s) :=
  h.setCur hp _

/-- `EnterResult` from Command phase with the command buffer empty. -/
theorem enterResult_inv {s : State} (h : ControllerInv s) (hp : s.phase = .command) (hc : s.cmd = [])
    {r : List Byte} (h1 : r ≠ []) (h2 : r.length ≤ resMax) : ControllerInv (enterResult r s) :=
  h.leaveResult (t := enterResult r s) (by rw [hp]; decide) rfl rfl rfl rfl (by simp [enterResult]) h2
    (by simp [enterResult, h1]) fun _ => hc

theorem invalidCommand_inv {s : State} (h : ControllerInv s) (hp : s.phase = .command) :
    ControllerInv (invalidCommand s) :=
  enterResult_inv (h.setCur hp s.cur) hp rfl (by simp) (by simp [resMax])

/-- The state in which the start checks are made is ready. -/
theorem startPrepare_ready {s : State} (h : ControllerInv s) (hp : s.phase = .command) (hc : s.cmd = [])
    (ho : s.cur.op.mainState.usesEngine = true) : EngineReady s.cur.d (startPrepare s) := by
  have hl := h.no_transfer hp
  have hres : s.res = [] := by
    by_contra hne
    exact absurd (hp.symm.trans (h.res_phase.2 hne)) (by decide)
  have hi : s.cur.op.mainState ≠ .idle := by
    intro k
    rw [k] at ho
    cases ho
  have hget : ∀ e, ((startPrepare s).drives.get e) =
      if e = s.cur.d then { s.drives.get s.cur.d with
        mainState := s.cur.op.mainState, st0 := headUnit s.cur.hd s.cur.d } else s.drives.get e := fun e => by
    simp only [startPrepare, selectSide_drives, fifoReset, updSlot_get]
  refine ⟨⟨Nat.zero_le _, h.res_le, ?_, fun _ => hc, ?_, ?_, ?_, ?_, ?_, ?_⟩, hl, ?_⟩
  · show partialCommand s.cmd
    rw [hc]
    trivial
  · show Phase.execution = .result ↔ s.res ≠ []
    simp [hres]
  · intro e
    have hn := h.no_live hl e
    have hl' : (startPrepare s).live = none := hl
    rw [State.slot_def, hget, hl']
    split
    · next he => subst he; simpa using hn
    · simpa using hn
  · intro L hL
    have hl' : (startPrepare s).live = none := hl
    rw [hl'] at hL
    cases hL
  · intro e he
    rw [State.slot_def, hget] at he
    split at he
    · next k => exact ⟨rfl, k⟩
    · rw [h.no_engine hp e] at he
      cases he
  · intro _
    have hd : (startPrepare s).cur.d = s.cur.d := rfl
    rw [State.slot_def, hget, hd, if_pos rfl]
    exact ho
  · intro e he
    have hn := h.idle_sub e
    rw [State.slot_def, hget] at he ⊢
    split at he
    · exact absurd he hi
    · next k => rw [if_neg k]; exact hn he
  · rw [hget, if_pos rfl]
    exact ho

/-- `StartRW`. -/
theorem startRW_inv {s : State} (h0 : ControllerInv s) (hp : s.phase = .command) (hc : s.cmd = [])
    (ho : s.cur.op.mainState.usesEngine = true) : Answers ControllerInv (startRW s) := by
  have h := startPrepare_ready h0 hp hc ho
  unfold startRW
  dsimp only
  split
  · exact .next (commandDone_inv ((h.of_same (.setSt0 _ _ _)).of_same (.setIC _ _ _)))
  · split
    · exact .next (commandDone_inv ((h.of_same (.setSt1 _ _)).of_same (.setIC _ _ _)))
    · exact runHeadLoadSettle_inv (h.setSub _)

/-- `StartSeek`. -/
theorem startSeek_inv {s : State} {m : MainState} (target : Byte) (h : ControllerInv s) (hp : s.phase = .command)
    (hm : m = .seek ∨ m = .recalibrate) : Answers ControllerInv (startSeek m target s) := by
  have hl := h.no_transfer hp
  have hu : m.usesEngine = false := by rcases hm with rfl | rfl <;> rfl
  have hi : m ≠ .idle := by rcases hm with rfl | rfl <;> decide
  have hget : ∀ e, (seekPrepare m s).drives.get e =
      if e = s.cur.d then { s.drives.get s.cur.d with
        mainState := m, st0 := headUnit s.cur.hd s.cur.d, irq := .none } else s.drives.get e := fun e => by
    simp only [seekPrepare, updSlot_get]
  have h1 : Steppable s.cur.d (seekPrepare m s) := by
    refine ⟨⟨h.fifo_le, h.res_le, h.cmd_partial, fun k => absurd rfl k, ?_, ?_, ?_, ?_, ?_, ?_⟩, .inl ?_⟩
    · have := h.res_phase
      rw [hp] at this
      exact this
    · intro e
      have hn := h.no_live hl e
      have hl' : (seekPrepare m s).live = none := hl
      rw [State.slot_def, hget, hl']
      split
      · next he => subst he; simpa using hn
      · simpa using hn
    · intro L hL
      have : s.live = some L := hL
      rw [hl] at this
      cases this
    · intro e he
      rw [State.slot_def, hget] at he
      split at he
      · rw [hu] at he
        cases he
      · rw [h.no_engine hp e] at he
        cases he
    · intro k
      cases k
    · intro e he
      have hn := h.idle_sub e
      rw [State.slot_def, hget] at he ⊢
      split at he
      · exact absurd he hi
      · next k => rw [if_neg k]; exact hn he
    · rw [hget, if_pos rfl]
      exact hm
  unfold startSeek
  split
  · refine runMove_inv ((h1.setSub .move).of_same ⟨rfl, rfl, rfl, rfl, rfl, fun e => ?_, id⟩)
    simp only [aimSeek, updSlot_get, setSub_get]
    split <;> exact ⟨rfl, rfl, rfl⟩
  · exact seekFinish_inv false (h1.of_same (.setSt0 _ _ _))

end Sys2Proof.Machine
end

