-- ==== Sys2Proof/Laws/Events.lean ====
section
/-! SUPPORT. For each event of a step, once: the commands, the host's accesses, the resets, the poll and the engine's work answer
a next state, or a refusal by name, and keep the controller's invariants. -/

namespace Sys2Proof.Machine

/-! ## The commands -/

theorem acceptForDrive_inv {i : Instr} {d : Drive} {run : State → Result} {s : State} (h : ControllerInv s)
    (hp : s.phase = .command) (hr : Answers ControllerInv (run (loadCommand i s))) :
    Answers ControllerInv (acceptForDrive i d run s) := by
  unfold acceptForDrive
  refine Answers.finishInv ?_
  split
  · exact hr
  · exact .next (invalidCommand_inv (loadCommand_inv i h hp) hp)

theorem startRW_accept {i : Instr} {s : State} (h : ControllerInv s) (hp : s.phase = .command)
    (ho : (loadCur i).op.mainState.usesEngine = true) : Answers ControllerInv (startRW (loadCommand i s)) :=
  startRW_inv (loadCommand_inv i h hp) hp rfl ho

theorem clearReason_same (d : Drive) (s : State) : SameControl s (clearReason d s) := by
  have h1 : SameControl s (s.updSlot d fun x => { x with irq := .none }) := .updSlot s d _ fun _ => ⟨rfl, rfl, rfl⟩
  unfold clearReason
  dsimp only
  split
  · exact h1
  · refine h1.trans ⟨rfl, rfl, rfl, rfl, rfl, fun e => ?_, id⟩
    simp only [Slots.get_map, DriveSlot.clearPolled]
    split <;> exact ⟨rfl, rfl, rfl⟩

theorem senseInterrupt_inv {s : State} (h : ControllerInv s) (hp : s.phase = .command) (hc : s.cmd = []) :
    ControllerInv (senseInterrupt s) := by
  unfold senseInterrupt
  split
  · exact enterResult_inv h hp hc (by simp) (by simp [resMax])
  · next d _ =>
    have k := clearReason_same d s
    refine enterResult_inv (h.of_same k) (k.phase.trans hp) (k.cmd.trans hc) ?_ ?_ <;> unfold reasonBytes <;>
      split <;> simp [resMax]

/-- Every command accepted in Command phase answers a next state and keeps the invariants. -/
theorem exec_inv (i : Instr) {s : State} (h : ControllerInv s) (hp : s.phase = .command) :
    Answers ControllerInv (exec i s) := by
  have hl := loadCommand_inv i h hp
  cases i with
  | readTrack mf hd us p => exact acceptForDrive_inv h hp (startRW_accept h hp rfl)
  | writeData mt mf hd us p => exact acceptForDrive_inv h hp (startRW_accept h hp rfl)
  | readData mt mf sk hd us p => exact acceptForDrive_inv h hp (startRW_accept h hp rfl)
  | writeDeletedData mt mf hd us p => exact acceptForDrive_inv h hp (startRW_accept h hp rfl)
  | readId mf hd us => exact acceptForDrive_inv h hp (startRW_accept h hp rfl)
  | readDeletedData mt mf sk hd us p => exact acceptForDrive_inv h hp (startRW_accept h hp rfl)
  | formatTrack mf hd us n sc gpl fill => exact acceptForDrive_inv h hp (startRW_accept h hp rfl)
  | recalibrate us => exact acceptForDrive_inv h hp (startSeek_inv 0 hl hp (.inr rfl))
  | seek hd us ncn => exact acceptForDrive_inv h hp (startSeek_inv ncn hl hp (.inl rfl))
  | specify srt hut hlt nd =>
    refine Answers.finishInv (.next (hl.of_same ?_))
    exact ⟨rfl, rfl, hp.symm, rfl, rfl, fun _ => ⟨rfl, rfl, rfl⟩, id⟩
  | configure cfg pretrk =>
    refine Answers.finishInv (.next (hl.of_same ?_))
    exact ⟨rfl, rfl, hp.symm, rfl, rfl, fun _ => ⟨rfl, rfl, rfl⟩, id⟩
  | senseDriveStatus hd us => exact Answers.finishInv (.next (enterResult_inv hl hp rfl (by simp) (by simp [resMax])))
  | senseInterruptStatus => exact Answers.finishInv (.next (senseInterrupt_inv hl hp rfl))
  | lock lk =>
    have h1 := hl.of_same (t := { loadCommand (.lock lk) s with locked := lk })
      ⟨rfl, rfl, rfl, rfl, rfl, fun _ => ⟨rfl, rfl, rfl⟩, id⟩
    exact Answers.finishInv (.next (enterResult_inv h1 hp rfl (by simp) (by simp [resMax])))

/-! ## The parser -/

theorem decodeNine_length (k : SectorParams → Instr) (ps : List Byte) :
    (ps.length < 7 → decodeNine k ps = .incomplete) ∧ (ps.length = 7 → ∃ p, decodeNine k ps = .known (k p) []) := by
  rcases ps with _ | ⟨a, _ | ⟨b, _ | ⟨c, _ | ⟨d, _ | ⟨e, _ | ⟨f, _ | ⟨g, r⟩⟩⟩⟩⟩⟩⟩ <;>
    simp [decodeNine, List.length_eq_zero_iff]

theorem decodeNine_cons (k : Byte → SectorParams → Instr) (ps : List Byte)
    (f : List Byte → Decoded) (hf : f [] = .incomplete) (hc : ∀ p qs, f (p :: qs) = decodeNine (k p) qs) :
    (ps.length + 1 < 9 → f ps = .incomplete) ∧ (ps.length + 1 = 9 → ∃ i, f ps = .known i []) := by
  cases ps with
  | nil => exact ⟨fun _ => hf, fun h => by simp at h⟩
  | cons p qs =>
    rw [hc]
    obtain ⟨h1, h2⟩ := decodeNine_length (k p) qs
    rw [List.length_cons]
    refine ⟨fun h => h1 (by omega), fun h => ?_⟩
    obtain ⟨q, hq⟩ := h2 (by omega)
    exact ⟨_, hq⟩

/-- A command's bytes are complete exactly at the length its opcode byte asks for. -/
theorem decode_known_length {b : Byte} {n : Nat} (hb : decodeOpcode b = .known n) (ps : List Byte) :
    (ps.length + 1 < n → decode (b :: ps) = .incomplete) ∧
      (ps.length + 1 = n → ∃ i, decode (b :: ps) = .known i []) := by
  have hd : decode (b :: ps) = decodeParams b ps := by simp only [decode, hb]
  rw [hd]
  unfold decodeOpcode at hb
  split at hb
  all_goals try (split at hb)
  all_goals first
    | (cases hb; done)
    | (next ho =>
        injection hb with hn
        subst hn
        first
          | exact decodeNine_cons _ ps (decodeParams b) (by simp [decodeParams, ho])
              (by intro p qs; simp [decodeParams, ho]; rfl)
          | (rcases ps with _ | ⟨p, _ | ⟨q, _ | ⟨r, _ | ⟨t, _ | ⟨u, ps⟩⟩⟩⟩⟩ <;>
              simp [decodeParams, ho, List.length_eq_zero_iff]))
    | skip
  next ho _ =>
    injection hb with hn
    subst hn
    rcases ps with _ | ⟨p, _ | ⟨q, ps⟩⟩ <;> simp [decodeParams, ho, List.length_eq_zero_iff]

/-- The outcomes of an event: a next state with the invariants, or one of the two refusals the spec leaves. -/
def Keeps (r : Result) : Prop :=
  Answers ControllerInv r ∨ (∃ f, r = .refused (.unmodelledCommand f)) ∨ r = .refused .extendedRegister

theorem Keeps.next {s : State} (h : ControllerInv s) : Keeps (.next s) := .inl (.next h)

theorem Keeps.finish {r : Result} (h : Keeps r) : Keeps (finishOutputs r) := by
  rcases h with h | ⟨f, rfl⟩ | rfl
  · exact .inl h.finishInv
  · exact .inr (.inl ⟨f, rfl⟩)
  · exact .inr (.inr rfl)

/-- A command buffer that R74 allows in Command phase. -/
theorem ControllerInv.setCmd {s : State} (h : ControllerInv s) (hp : s.phase = .command) {bs : List Byte}
    (hb : partialCommand bs) : ControllerInv { s with cmd := bs } where
  fifo_le := h.fifo_le
  res_le := h.res_le
  cmd_partial := hb
  cmd_phase := fun k => absurd hp k
  res_phase := h.res_phase
  live_iff := h.live_iff
  live_runs := h.live_runs
  engine_phase := h.engine_phase
  execution_engine := h.execution_engine
  idle_sub := h.idle_sub

/-- A byte that leaves the command incomplete, or completes it. -/
theorem appendCommandByte_inv {s : State} (h : ControllerInv s) (hp : s.phase = .command) {b : Byte} {n : Nat}
    (hb : decodeOpcode b = .known n) {ps : List Byte} (hn : ps.length + 1 ≤ n) :
    Answers ControllerInv (appendCommandByte (b :: ps) s) := by
  obtain ⟨h1, h2⟩ := decode_known_length hb ps
  unfold appendCommandByte
  rcases Nat.lt_or_eq_of_le hn with k | k
  · rw [h1 k]
    exact .next (h.setCmd hp ⟨n, hb, k⟩)
  · obtain ⟨i, hi⟩ := h2 k
    rw [hi]
    exact exec_inv i h hp

theorem dataIrq_same (s : State) (v : Bool) : SameControl s { s with dataIrq := v } :=
  ⟨rfl, rfl, rfl, rfl, rfl, fun _ => ⟨rfl, rfl, rfl⟩, id⟩

theorem commandByte_inv {s : State} (v : Byte) (h : ControllerInv s) (hp : s.phase = .command) :
    Keeps (commandByte v s) := by
  have h' := h.of_same (dataIrq_same s false)
  unfold commandByte
  dsimp only
  split
  · split
    · exact .next (invalidCommand_inv h' hp)
    · next r _ => exact .inr (.inl ⟨r, rfl⟩)
    · next n hv =>
      refine .inl (appendCommandByte_inv h' hp hv ?_)
      have : 1 ≤ n := by
        unfold decodeOpcode at hv
        split at hv
        all_goals try (split at hv)
        all_goals cases hv
        all_goals decide
      simpa using this
  · next hc =>
    have hq := h.cmd_partial
    cases hb : s.cmd with
    | nil => exact absurd hb hc
    | cons b ps =>
      rw [hb] at hq
      obtain ⟨n, hn, hl⟩ := hq
      refine .inl (appendCommandByte_inv (ps := ps ++ [v]) h hp hn ?_)
      rw [List.length_append, List.length_singleton]
      omega

/-! ## Resets and the poll -/

/-- A state as a reset leaves it keeps the invariants. -/
theorem ControllerInv.reset {s : State} (h1 : s.fifo = []) (h2 : s.res = []) (h3 : s.cmd = []) (h4 : s.phase = .command)
    (h5 : s.live = none) (h6 : ∀ d, (s.drives.get d).mainState = .idle ∧ (s.drives.get d).subState = .idle ∧
      (s.drives.get d).live = false) : ControllerInv s where
  fifo_le := by rw [h1]; exact Nat.zero_le _
  res_le := by rw [h2]; exact Nat.zero_le _
  cmd_partial := by rw [h3]; trivial
  cmd_phase _ := h3
  res_phase := by rw [h4, h2]; simp
  live_iff d := by rw [State.slot_def, (h6 d).2.2, h5]; simp
  live_runs L hL := by rw [h5] at hL; cases hL
  engine_phase d hd := by rw [State.slot_def, (h6 d).1] at hd; cases hd
  execution_engine k := by rw [h4] at k; cases k
  idle_sub d _ := (h6 d).2.1

theorem softReset_live (s : State) : (softReset s).live = none := by
  show (liveAbort s).live = none
  unfold liveAbort
  split
  · assumption
  · rfl

theorem softReset_inv (s : State) : ControllerInv (softReset s) := by
  refine .reset rfl rfl rfl rfl (softReset_live s) fun d => ?_
  simp only [softReset, Slots.get_map, softResetSlot]
  exact ⟨rfl, rfl, rfl⟩

theorem hardwareReset_inv (s : State) : ControllerInv (hardwareReset s) := by
  refine .reset rfl rfl rfl rfl rfl fun d => ?_
  simp only [hardwareReset, armPoll, Slots.get_replicate]
  exact ⟨rfl, rfl, rfl⟩

theorem armPoll_same (s : State) : SameControl s (armPoll s) :=
  ⟨rfl, rfl, rfl, rfl, rfl, fun _ => ⟨rfl, rfl, rfl⟩, id⟩

theorem pollSlot_same (r : Bool) (x : DriveSlot) :
    (pollSlot r x).mainState = x.mainState ∧ (pollSlot r x).subState = x.subState ∧ (pollSlot r x).live = x.live := by
  unfold pollSlot
  split <;> exact ⟨rfl, rfl, rfl⟩

theorem pollExpiry_same (s : State) : SameControl s (pollExpiry s) := by
  unfold pollExpiry
  dsimp only
  split
  · exact ⟨rfl, rfl, rfl, rfl, rfl, fun _ => ⟨rfl, rfl, rfl⟩, id⟩
  · split
    · exact ⟨rfl, rfl, rfl, rfl, rfl, fun _ => ⟨rfl, rfl, rfl⟩, id⟩
    · refine ⟨rfl, rfl, rfl, rfl, rfl, fun d => ?_, id⟩
      cases d <;> exact pollSlot_same _ _

/-! ## The host's accesses -/

theorem hostWriteDor_inv {s : State} (v : Byte) (h : ControllerInv s) : ControllerInv (hostWriteDor v s) := by
  unfold hostWriteDor
  dsimp only
  have h1 : ControllerInv { s with dor := v, outs := s.outs ++ motorCalls s.dor v } :=
    h.of_same ⟨rfl, rfl, rfl, rfl, rfl, fun _ => ⟨rfl, rfl, rfl⟩, id⟩
  have h2 : ControllerInv (if (bitAt s.dor 2 && !bitAt v 2) = true then
      softReset { s with dor := v, outs := s.outs ++ motorCalls s.dor v }
      else { s with dor := v, outs := s.outs ++ motorCalls s.dor v }) := by
    split
    · exact softReset_inv _
    · exact h1
  split
  · exact h2.of_same (armPoll_same _)
  · exact h2

theorem setRate_same (v : Byte) (s : State) : SameControl s (setRate v s) :=
  ⟨rfl, rfl, rfl, rfl, rfl, fun _ => ⟨rfl, rfl, rfl⟩, id⟩

theorem hostWriteDsr_inv {s : State} (v : Byte) (h : ControllerInv s) : ControllerInv (hostWriteDsr v s) := by
  unfold hostWriteDsr
  dsimp only
  split
  · split
    · exact (softReset_inv _).of_same (armPoll_same _)
    · exact softReset_inv _
  · exact h.of_same (setRate_same v s)

theorem hostWriteData_inv {s : State} (v : Byte) (h : ControllerInv s) : Keeps (hostWriteData v s) := by
  unfold hostWriteData
  split
  · split
    · next hp => exact commandByte_inv v h hp
    · refine .next ?_
      split
      · exact h.of_same (.hostPush v s)
      · exact h
    · exact .next h
  · exact .next h

theorem hostWrite_inv {s : State} (reg : HostReg) (v : Byte) (h : ControllerInv s) : Keeps (hostWrite reg v s) := by
  cases reg with
  | msr => exact .next h
  | dsr => exact .next (hostWriteDsr_inv v h)
  | data => exact hostWriteData_inv v h
  | dor => exact .next (hostWriteDor_inv v h)
  | ccr => exact .next (h.of_same (setRate_same v s))
  | extended => exact .inr (.inr rfl)

theorem emit_same (s : State) (o : Output) : SameControl s (s.emit o) :=
  ⟨rfl, rfl, rfl, rfl, rfl, fun _ => ⟨rfl, rfl, rfl⟩, id⟩

theorem answer_inv {r : Byte × State} (h : ControllerInv r.2) : Keeps (answer r) := .next (h.of_same (emit_same _ _))

theorem hostReadData_inv {s : State} (h : ControllerInv s) : ControllerInv (hostReadData s).2 := by
  unfold hostReadData
  split
  · next hp => exact resultRead_inv h hp
  · next hp =>
    split
    · exact hostPop_inv h hp
    · exact h
  · exact h

theorem hostRead_inv {s : State} (reg : HostReg) (h : ControllerInv s) : Keeps (hostRead reg s) := by
  cases reg with
  | msr => exact answer_inv (h.of_same (dataIrq_same s false))
  | dsr => exact answer_inv h
  | data => exact answer_inv (hostReadData_inv h)
  | dor => exact answer_inv h
  | ccr => exact answer_inv h
  | extended => exact .inr (.inr rfl)

theorem dmaRead_inv {s : State} (h : ControllerInv s) : ControllerInv (dmaRead s).2 := by
  unfold dmaRead
  split
  · next k => exact hostPop_inv h k.1
  · exact h

theorem dmaWrite_inv {s : State} (v : Byte) (h : ControllerInv s) : ControllerInv (dmaWrite v s) := by
  unfold dmaWrite
  split
  · exact h.of_same (.hostPush v s)
  · exact h

/-- Every input keeps the invariants, or is refused by name. -/
theorem applyInput_inv {s : State} (i : Input) (h : ControllerInv s) : Keeps (applyInput i s) := by
  cases i with
  | hostWrite reg v => exact hostWrite_inv reg v h
  | hostRead reg => exact hostRead_inv reg h
  | dmaRead => exact answer_inv (dmaRead_inv h)
  | dmaWrite v => exact .next (dmaWrite_inv v h)
  | tc level => exact .next (tcInput_inv level h)
  | index d => exact .inl (onIndex_inv d h)
  | hardwareReset => exact .next (hardwareReset_inv s)
  | lines d a r t w x => exact .next (h.of_same (.updUnit s d _))
  | flux d hd ts => exact .next (h.of_same (.updUnit s d _))

end Sys2Proof.Machine
end

