-- ==== Sys2Proof/Laws/EngineWork.lean ====
section
/-! SUPPORT. One unit of the engine's work: it answers a next state and keeps the controller's invariants. -/

namespace Sys2Proof.Machine

/-- The working registers of the running transfer are free, its drive apart. -/
theorem setLive_same {s t : State} (h : SameControl s t) {M L : LiveTransfer} (hM : s.live = some M)
    (hd : L.drive = M.drive) : SameControl s (t.setLive L) :=
  h.trans ⟨rfl, rfl, rfl, rfl, by
    show Option.map _ (some L) = _
    rw [h.live, hM]
    simp [hd], fun _ => ⟨rfl, rfl, rfl⟩, id⟩

theorem setLive_inv {s t : State} (h : ControllerInv s) (k : SameControl s t) {M L : LiveTransfer}
    (hM : s.live = some M) (hd : L.drive = M.drive) : ControllerInv (t.setLive L) :=
  h.of_same (setLive_same k hM hd)

/-! ## The drive of the transfer never changes -/

@[simp] theorem resync_drive (L : LiveTransfer) (c : BitVec 16) (st : LiveState) : (resync L c st).drive = L.drive := rfl

@[simp] theorem startField_drive (s : State) (b : Bool) (L : LiveTransfer) : (startField s b L).drive = L.drive := rfl

@[simp] theorem shiftCell_drive (L : LiveTransfer) (r : Bool) (t : Int) : (shiftCell L r t).drive = L.drive := rfl

@[simp] theorem shiftOut_drive (L : LiveTransfer) (t : Int) : (shiftOut L t).drive = L.drive := rfl

@[simp] theorem idByteRead_drive (L : LiveTransfer) : (idByteRead L).drive = L.drive := rfl

@[simp] theorem searchHeader_drive (m : Bool) (L : LiveTransfer) : (searchHeader m L).drive = L.drive := by
  unfold searchHeader
  split
  · rfl
  · split <;> rfl

@[simp] theorem headerMark_drive (L : LiveTransfer) : (headerMark L).drive = L.drive := by
  unfold headerMark
  repeat' split
  all_goals rfl

@[simp] theorem searchData_drive (s : State) (L : LiveTransfer) : (searchData s L).drive = L.drive := by
  unfold searchData
  repeat' split
  all_goals rfl

@[simp] theorem dataMark_drive (s : State) (L : LiveTransfer) : (dataMark s L).drive = L.drive := by
  unfold dataMark
  repeat' split
  all_goals rfl

@[simp] theorem emitByte_drive (m : Bool) (v : Byte) (L : LiveTransfer) : (emitByte m v L).drive = L.drive := by
  unfold emitByte
  split <;> rfl

@[simp] theorem emitRaw_drive (w : Cells) (L : LiveTransfer) : (emitRaw w L).drive = L.drive := rfl

@[simp] theorem crcStart_drive (L : LiveTransfer) : (crcStart L).drive = L.drive := rfl

@[simp] theorem emitDataMark_drive (m b : Bool) (L : LiveTransfer) : (emitDataMark m b L).drive = L.drive := by
  unfold emitDataMark
  split <;> simp

@[simp] theorem emitIdMark_drive (m : Bool) (L : LiveTransfer) : (emitIdMark m L).drive = L.drive := by
  unfold emitIdMark
  split <;> simp

theorem emitFieldOpening_drive (m : Bool) {mark : LiveTransfer → LiveTransfer} (hm : ∀ L, (mark L).drive = L.drive)
    (k : Nat) (L : LiveTransfer) : (emitFieldOpening m mark k L).drive = L.drive := by
  unfold emitFieldOpening
  repeat' split
  all_goals simp [hm]

@[simp] theorem emitPreamble_drive (m : Bool) (k : Nat) (L : LiveTransfer) : (emitPreamble m k L).drive = L.drive := by
  unfold emitPreamble
  repeat' split
  all_goals simp

/-! ## Reading -/

/-- A read cell changes the PLL alone, beside the transfer's registers. -/
theorem readCell_cases {limit : Int} {L L' : LiveTransfer} {s s' : State} (h : readCell limit L s = some (L', s')) :
    ∃ r p, nextBit s.pll (s.nextFlux L.drive s.pll.ctime) limit = some (r, p) ∧
      L' = shiftCell L r p.ctime ∧ s' = { s with pll := p } := by
  unfold readCell at h
  split at h
  · cases h
  · next r p hp =>
    simp only [Option.some.injEq, Prod.mk.injEq] at h
    exact ⟨r, p, hp, h.1.symm, h.2.symm⟩

theorem cutAfterTC_same (s : State) : SameControl s (cutAfterTC s) := by
  unfold cutAfterTC
  split
  · exact ⟨rfl, rfl, rfl, rfl, rfl, fun _ => ⟨rfl, rfl, rfl⟩, id⟩
  · exact .refl _

theorem deliverByte_same (L : LiveTransfer) (s : State) : SameControl s (deliverByte L s) := by
  unfold deliverByte
  split
  · exact cutAfterTC_same _
  · exact (SameControl.enginePush _ _).trans (cutAfterTC_same _)

theorem sectorByte_inv {s : State} (h : ControllerInv s) {M L : LiveTransfer} (hM : s.live = some M)
    (hd : L.drive = M.drive) : Answers ControllerInv (sectorByte L s) := by
  unfold sectorByte
  split
  · exact .next (h.of_same ((setLive_same (.refl s) hM hd).trans (deliverByte_same _ _)))
  · split
    · exact report_inv .fieldRead h hM hd.symm
    · exact .next (setLive_inv h (.refl s) hM hd)

theorem skipGap2_inv {s : State} (h : ControllerInv s) {M L : LiveTransfer} (hM : s.live = some M)
    (hd : L.drive = M.drive) : ControllerInv (skipGap2 L s) := by
  unfold skipGap2
  split
  · exact setLive_inv h (t := { s with pll := pllStartWriting s.pll L.tm })
      ⟨rfl, rfl, rfl, rfl, rfl, fun _ => ⟨rfl, rfl, rfl⟩, id⟩ hM
      (L := { L with bitCounter := 0, byteCounter := 0, state := .writeSectorData }) hd
  · exact setLive_inv h (.refl s) hM hd

theorem afterCell_inv {s : State} (h : ControllerInv s) {M L : LiveTransfer} (hM : s.live = some M)
    (hd : L.drive = M.drive) : Answers ControllerInv (afterCell L s) := by
  have key : ∀ L' : LiveTransfer, L'.drive = M.drive → Answers ControllerInv (.next (s.setLive L')) :=
    fun L' h' => .next (setLive_inv h (.refl s) hM h')
  unfold afterCell
  split
  · exact key _ (by simpa using hd)
  · refine key _ ?_
    split <;> simpa using hd
  · split
    · split
      · exact report_inv .headerRead h hM hd.symm
      · exact key _ hd
    · exact key _ hd
  · split
    · exact report_inv .dataMarkMissing h hM hd.symm
    · refine key _ ?_
      split <;> simpa using hd
  · refine key _ ?_
    split <;> simpa using hd
  · split
    · exact sectorByte_inv h hM hd
    · exact key _ hd
  · exact .next (skipGap2_inv h hM hd)
  all_goals exact key _ hd

/-! ## Writing -/

theorem dataByte_same (s : State) : SameControl s (dataByte s).2 := by
  unfold dataByte
  split
  · exact .refl _
  · exact .enginePop _

theorem idByte_same (i : Nat) (s : State) : SameControl s (idByte i s).2 :=
  (dataByte_same s).trans ⟨rfl, rfl, rfl, rfl, rfl, fun _ => ⟨rfl, rfl, rfl⟩, id⟩

theorem emitCell_inv {s : State} (limit : Int) (h : ControllerInv s) {L : LiveTransfer} (hL : s.live = some L) :
    ControllerInv (emitCell limit L s) := by
  unfold emitCell
  split
  · exact h
  · next p _ =>
    dsimp only
    have k : SameControl s { s with pll := p } := ⟨rfl, rfl, rfl, rfl, rfl, fun _ => ⟨rfl, rfl, rfl⟩, id⟩
    split
    · exact setLive_inv h (k.trans (.commitWrite _ _ _)) hL rfl
    · exact setLive_inv h k hL rfl

theorem chooseSectorData_inv {s : State} (h : ControllerInv s) {L : LiveTransfer} (hL : s.live = some L) :
    Answers ControllerInv (chooseSectorData L s) := by
  unfold chooseSectorData
  dsimp only
  split
  · exact .next (setLive_inv h (.refl s) hL (emitFieldOpening_drive _ (by simp) _ _))
  · split
    · exact .next (setLive_inv h (dataByte_same s) hL (by simp))
    · split
      · exact .next (setLive_inv h (.refl s) hL (by simp))
      · have k := SameControl.stopWriting L.drive L.tm s
        obtain ⟨M, hM, hd⟩ := k.symm_live hL
        exact report_inv .fieldWritten (h.of_same k) hM hd

theorem choosePreamble_inv {s : State} (h : ControllerInv s) {L : LiveTransfer} (hL : s.live = some L) :
    ControllerInv (choosePreamble L s) := by
  unfold choosePreamble
  split
  · refine setLive_inv h ?_ hL (by simp)
    split
    · exact .fifoExpect _ _
    · exact .refl _
  · exact setLive_inv h (.refl s) hL rfl

theorem sectorEnd_inv {s : State} (h : ControllerInv s) {L : LiveTransfer} (hL : s.live = some L) :
    ControllerInv (sectorEnd L s) := by
  have k : SameControl s { s with cur := { s.cur with
      sectorsLeft := s.cur.sectorsLeft - 1, c := s.cur.lastId.c, h := s.cur.lastId.h, r := s.cur.lastId.r,
      n := s.cur.lastId.n } } := ⟨rfl, rfl, rfl, rfl, rfl, fun _ => ⟨rfl, rfl, rfl⟩, id⟩
  unfold sectorEnd
  dsimp only
  split
  · exact setLive_inv h (k.trans (.fifoExpect _ _)) hL rfl
  · exact setLive_inv h k hL rfl

theorem chooseTrackSector_inv {s : State} (h : ControllerInv s) {L : LiveTransfer} (hL : s.live = some L) :
    ControllerInv (chooseTrackSector L s) := by
  have key : ∀ L' : LiveTransfer, L'.drive = L.drive → ControllerInv (s.setLive L') :=
    fun L' h' => setLive_inv h (.refl s) hL h'
  unfold chooseTrackSector
  dsimp only
  split
  · exact key _ (emitFieldOpening_drive _ (by simp) _ _)
  · split
    · exact setLive_inv h (idByte_same _ s) hL (by simp)
    · split
      · exact key _ (by simp)
      · split
        · exact key _ (by simp)
        · split
          · exact key _ (emitFieldOpening_drive _ (by simp) _ _)
          · split
            · exact key _ (by simp)
            · split
              · exact key _ (by simp)
              · split
                · exact key _ (by simp)
                · exact sectorEnd_inv h hL

theorem chooseByte_inv {s : State} (h : ControllerInv s) {L : LiveTransfer} (hL : s.live = some L) :
    Answers ControllerInv (chooseByte L s) := by
  unfold chooseByte
  split
  · exact chooseSectorData_inv h hL
  · exact .next (choosePreamble_inv h hL)
  · exact .next (chooseTrackSector_inv h hL)
  · exact .next (setLive_inv h (.refl s) hL (by simp))
  · exact .next h

/-- One unit of the engine's work. -/
theorem engineStep_inv {s : State} (limit : Int) (h : ControllerInv s) : Answers ControllerInv (engineStep limit s) := by
  unfold engineStep
  split
  · exact .next h
  · next L hL =>
    split
    · split
      · exact chooseByte_inv h hL
      · exact .next (emitCell_inv limit h hL)
    · split
      · exact .next h
      · next L' s' hr =>
        obtain ⟨r, p, -, rfl, rfl⟩ := readCell_cases hr
        have k : SameControl s { s with pll := p } := ⟨rfl, rfl, rfl, rfl, rfl, fun _ => ⟨rfl, rfl, rfl⟩, id⟩
        exact afterCell_inv (h.of_same k) (M := L) hL rfl

end Sys2Proof.Machine
end

