-- ==== Sys2Proof/Laws/Frames.lean ====
section
/-! SUPPORT. What no handler of an event touches: the configuration, the parameters, time, the inputs to come, the reported
levels of the lines and the reports of their edges; and the flux lists keep their form. -/

namespace Sys2Proof.Machine

/-! ## Flux lists -/

theorem fluxInsert_mem (t x : Int) (f : List Int) : x ∈ fluxInsert t f ↔ x = t ∨ x ∈ f := by
  induction f with
  | nil => simp [fluxInsert]
  | cons y f ih =>
    unfold fluxInsert
    split
    · simp
    · split
      · next h => subst h; simp
      · simp [ih]; tauto

theorem fluxInsert_wf (t : Int) {f : List Int} (h : FluxWf f) : FluxWf (fluxInsert t f) := by
  induction f with
  | nil => simp [fluxInsert]
  | cons y f ih =>
    obtain ⟨hy, hf⟩ := List.pairwise_cons.mp h
    unfold fluxInsert
    split
    · next hlt =>
      exact List.pairwise_cons.mpr ⟨fun x hx => by
        rcases List.mem_cons.mp hx with rfl | hx
        · exact hlt
        · exact hlt.trans (hy x hx), h⟩
    · next hlt =>
      split
      · exact h
      · next hne =>
        refine List.pairwise_cons.mpr ⟨fun x hx => ?_, ih hf⟩
        rcases (fluxInsert_mem t x f).mp hx with rfl | hx
        · omega
        · exact hy x hx

theorem fluxOfList_mem (x : Int) (ts : List Int) : x ∈ fluxOfList ts ↔ x ∈ ts := by
  induction ts with
  | nil => rfl
  | cons t ts ih => simp only [fluxOfList, List.foldr_cons, fluxInsert_mem, List.mem_cons] at ih ⊢; rw [ih]

/-- A drive's transitions are brought into the form (log entry 8). -/
theorem fluxOfList_wf (ts : List Int) : FluxWf (fluxOfList ts) := by
  induction ts with
  | nil => exact List.Pairwise.nil
  | cons t ts ih => exact fluxInsert_wf t ih

/-- A write keeps the form (R87). -/
theorem fluxReplace_wf {f : List Int} (h : FluxWf f) (start stop : Int) (ts : List Int) :
    FluxWf (fluxReplace f start stop ts) := by
  refine List.pairwise_append.mpr ⟨List.pairwise_append.mpr ⟨h.filter _, fluxOfList_wf _, ?_⟩, h.filter _, ?_⟩
  · intro a ha b hb
    simp only [List.mem_filter, fluxOfList_mem, decide_eq_true_eq, Bool.and_eq_true] at ha hb
    omega
  · intro a ha b hb
    simp only [List.mem_append, List.mem_filter, fluxOfList_mem, decide_eq_true_eq, Bool.and_eq_true] at ha hb
    omega

theorem setFlux_wf {u : DriveUnit} (h : FluxWf u.flux0 ∧ FluxWf u.flux1) (side : Bool) {f : List Int} (hf : FluxWf f) :
    FluxWf (u.setFlux side f).flux0 ∧ FluxWf (u.setFlux side f).flux1 := by
  cases side
  · exact ⟨hf, h.2⟩
  · exact ⟨h.1, hf⟩

theorem flux_wf {u : DriveUnit} (h : FluxWf u.flux0 ∧ FluxWf u.flux1) : FluxWf u.flux := by
  unfold DriveUnit.flux
  split
  · exact h.2
  · exact h.1

theorem MediaInv.updUnit {s : State} (h : MediaInv s) (d : Drive) (f : DriveUnit → DriveUnit)
    (hf : ∀ u : DriveUnit, FluxWf u.flux0 ∧ FluxWf u.flux1 → FluxWf (f u).flux0 ∧ FluxWf (f u).flux1) :
    MediaInv (s.updUnit d f) := by
  intro e
  simp only [State.updUnit, Slots.get_set]
  split
  · exact hf _ (h _)
  · exact h e

/-! ## The frame of an operation -/

/-- A report of an edge of IRQ or DRQ. -/
def Output.isEdge : Output → Bool
  | .irqEdge _ => true
  | .drqEdge _ => true
  | _ => false

/-- What no handler of an event touches. -/
def State.fixed (s : State) :=
  (s.dor, s.rateSel, s.srt, s.hut, s.hlt, s.nd, s.fifocfg, s.precomp, s.locked, s.par, s.now, s.inputs, s.irqOut,
    s.drqOut, s.tcLevel)

/-- `t` keeps what no handler touches of `s`, reports no edge more, and keeps the media in their form. -/
structure Frame (s t : State) : Prop where
  fixed : t.fixed = s.fixed
  edges : t.outs.filter Output.isEdge = s.outs.filter Output.isEdge
  media : MediaInv s → MediaInv t

/-- The next state of an answer keeps the frame. -/
def Framed (s : State) (r : Result) : Prop := ∀ t, r = .next t → Frame s t

theorem MediaInv.of_units {s t : State} (h : t.units = s.units) (k : MediaInv s) : MediaInv t := by
  intro d
  rw [h]
  exact k d

theorem Frame.of_eq {s t : State} (h : t.fixed = s.fixed) (ho : t.outs = s.outs) (hu : t.units = s.units) : Frame s t :=
  ⟨h, by rw [ho], .of_units hu⟩

theorem Frame.refl (s : State) : Frame s s := .of_eq rfl rfl rfl

theorem Frame.trans {s t u : State} (h : Frame s t) (k : Frame t u) : Frame s u :=
  ⟨k.fixed.trans h.fixed, k.edges.trans h.edges, k.media ∘ h.media⟩

theorem Framed.next {s t : State} (h : Frame s t) : Framed s (.next t) := by
  rintro _ ⟨⟩
  exact h

theorem Framed.refused (s : State) (r : Refusal) : Framed s (.refused r) := by
  rintro _ ⟨⟩

theorem Frame.then {s t : State} {r : Result} (h : Frame s t) (k : Framed t r) : Framed s r := fun u hu => h.trans (k u hu)

/-- `Frame.trans` with the later part first. -/
theorem Frame.after {s t u : State} (k : Frame t u) (h : Frame s t) : Frame s u := h.trans k

/-- `Frame.then` with the answer first. -/
theorem Framed.after {s t : State} {r : Result} (k : Framed t r) (h : Frame s t) : Framed s r := h.then k

theorem Frame.ite {s t u : State} {p : Prop} [Decidable p] (h : Frame s t) (k : Frame s u) :
    Frame s (if p then t else u) := by
  split
  · exact h
  · exact k

theorem Framed.ite {s : State} {r q : Result} {p : Prop} [Decidable p] (h : Framed s r) (k : Framed s q) :
    Framed s (if p then r else q) := by
  split
  · exact h
  · exact k

theorem Frame.dor {s t : State} (h : Frame s t) : t.dor = s.dor := congrArg (·.1) h.fixed
theorem Frame.rateSel {s t : State} (h : Frame s t) : t.rateSel = s.rateSel := congrArg (·.2.1) h.fixed
theorem Frame.srt {s t : State} (h : Frame s t) : t.srt = s.srt := congrArg (·.2.2.1) h.fixed
theorem Frame.hut {s t : State} (h : Frame s t) : t.hut = s.hut := congrArg (·.2.2.2.1) h.fixed
theorem Frame.hlt {s t : State} (h : Frame s t) : t.hlt = s.hlt := congrArg (·.2.2.2.2.1) h.fixed
theorem Frame.nd {s t : State} (h : Frame s t) : t.nd = s.nd := congrArg (·.2.2.2.2.2.1) h.fixed
theorem Frame.fifocfg {s t : State} (h : Frame s t) : t.fifocfg = s.fifocfg := congrArg (·.2.2.2.2.2.2.1) h.fixed
theorem Frame.precomp {s t : State} (h : Frame s t) : t.precomp = s.precomp := congrArg (·.2.2.2.2.2.2.2.1) h.fixed
theorem Frame.locked {s t : State} (h : Frame s t) : t.locked = s.locked := congrArg (·.2.2.2.2.2.2.2.2.1) h.fixed
theorem Frame.par {s t : State} (h : Frame s t) : t.par = s.par := congrArg (·.2.2.2.2.2.2.2.2.2.1) h.fixed
theorem Frame.now {s t : State} (h : Frame s t) : t.now = s.now := congrArg (·.2.2.2.2.2.2.2.2.2.2.1) h.fixed
theorem Frame.inputs {s t : State} (h : Frame s t) : t.inputs = s.inputs :=
  congrArg (·.2.2.2.2.2.2.2.2.2.2.2.1) h.fixed
theorem Frame.irqOut {s t : State} (h : Frame s t) : t.irqOut = s.irqOut :=
  congrArg (·.2.2.2.2.2.2.2.2.2.2.2.2.1) h.fixed
theorem Frame.drqOut {s t : State} (h : Frame s t) : t.drqOut = s.drqOut :=
  congrArg (·.2.2.2.2.2.2.2.2.2.2.2.2.2.1) h.fixed
theorem Frame.tcLevel {s t : State} (h : Frame s t) : t.tcLevel = s.tcLevel :=
  congrArg (·.2.2.2.2.2.2.2.2.2.2.2.2.2.2) h.fixed

/-! ## The shared operations -/

theorem Frame.updSlot (s : State) (d : Drive) (f : DriveSlot → DriveSlot) : Frame s (s.updSlot d f) := .of_eq rfl rfl rfl
theorem Frame.setIC (s : State) (d : Drive) (c : BitVec 2) : Frame s (s.setIC d c) := .of_eq rfl rfl rfl
theorem Frame.setSt0 (s : State) (d : Drive) (b : St0Bit) : Frame s (s.setSt0 d b) := .of_eq rfl rfl rfl
theorem Frame.setSt1 (s : State) (b : St1Bit) : Frame s (s.setSt1 b) := .of_eq rfl rfl rfl
theorem Frame.setSt2 (s : State) (b : St2Bit) : Frame s (s.setSt2 b) := .of_eq rfl rfl rfl
theorem Frame.setSub (s : State) (d : Drive) (x : SubState) : Frame s (s.setSub d x) := .of_eq rfl rfl rfl
theorem Frame.setTimer (s : State) (d : Drive) (t : Option Int) : Frame s (s.setTimer d t) := .of_eq rfl rfl rfl
theorem Frame.setLive (s : State) (L : LiveTransfer) : Frame s (s.setLive L) := .of_eq rfl rfl rfl

/-- A call on a collaborator is no report of an edge. -/
theorem Frame.emit (s : State) {o : Output} (h : o.isEdge = false) : Frame s (s.emit o) :=
  ⟨rfl, by simp [State.emit, h], .of_units rfl⟩

theorem Frame.updUnit (s : State) (d : Drive) (f : DriveUnit → DriveUnit)
    (hf : ∀ u : DriveUnit, FluxWf u.flux0 ∧ FluxWf u.flux1 → FluxWf (f u).flux0 ∧ FluxWf (f u).flux1) :
    Frame s (s.updUnit d f) :=
  ⟨rfl, rfl, fun h => h.updUnit d f hf⟩

theorem Frame.selectSide (s : State) (d : Drive) (head : Bool) : Frame s (s.selectSide d head) := by
  refine (Frame.updUnit s d (fun u => if u.attached then { u with side := head } else u) fun u hu => ?_).trans
    (.emit _ rfl)
  split <;> exact hu

theorem Frame.writeFlux (s : State) (d : Drive) (a b : Int) (ts : List Int) : Frame s (s.writeFlux d a b ts) := by
  refine (Frame.updUnit s d (fun u => if u.attached then u.setFlux u.side (fluxReplace u.flux a b ts) else u)
    fun u hu => ?_).trans (.emit _ rfl)
  split
  · exact setFlux_wf hu _ (fluxReplace_wf (flux_wf hu) a b ts)
  · exact hu

theorem fifoReset_frame (s : State) : Frame s (fifoReset s) := .of_eq rfl rfl rfl

theorem enginePush_frame (v : Byte) (s : State) : Frame s (enginePush v s) :=
  .ite (.setSt1 s .or) (.of_eq rfl rfl rfl)

theorem refillRequest_frame (s : State) : Frame s (refillRequest s) := .of_eq rfl rfl rfl

theorem enginePop_frame (s : State) : Frame s (enginePop s).2 := by
  unfold enginePop
  split <;> exact .of_eq rfl rfl rfl

theorem flushRequest_frame (s : State) : Frame s (flushRequest s) := .of_eq rfl rfl rfl

theorem fifoExpect_frame (n : Nat) (s : State) : Frame s (fifoExpect n s) := .ite (.of_eq rfl rfl rfl) (.of_eq rfl rfl rfl)

theorem fifoStopExpect_frame (s : State) : Frame s (fifoStopExpect s) := .of_eq rfl rfl rfl

theorem hostPush_frame (v : Byte) (s : State) : Frame s (hostPush v s) :=
  .ite (.refl s) (.ite (.of_eq rfl rfl rfl) (.of_eq rfl rfl rfl))

theorem enterResult_frame (r : List Byte) (s : State) : Frame s (enterResult r s) := .of_eq rfl rfl rfl

theorem abnormalOnOverrun_frame (d : Drive) (s : State) : Frame s (abnormalOnOverrun d s) :=
  .ite (.setIC s d _) (.refl s)

theorem finishResult_frame (d : Drive) (s : State) : Frame s (finishResult d s) :=
  (abnormalOnOverrun_frame d s).trans (.of_eq rfl rfl rfl)

theorem commandDone_frame (d : Drive) (s : State) : Frame s (commandDone d s) :=
  .ite (.of_eq rfl rfl rfl) (finishResult_frame d s)

theorem invalidCommand_frame (s : State) : Frame s (invalidCommand s) := .of_eq rfl rfl rfl

theorem resultRead_frame (s : State) : Frame s (resultRead s).2 := by
  unfold resultRead
  split <;> exact .of_eq rfl rfl rfl

theorem hostTake_frame (s : State) : Frame s (hostTake s).2 := by
  unfold hostTake
  split <;> exact .of_eq rfl rfl rfl

theorem relinquish_frame (s : State) : Frame s (relinquish s) := .ite (.of_eq rfl rfl rfl) (.refl s)

theorem finishDrain_frame (s : State) : Frame s (finishDrain s) := .ite (finishResult_frame _ s) (.refl s)

theorem hostPop_frame (s : State) : Frame s (hostPop s).2 := by
  unfold hostPop
  split
  · exact .refl s
  · exact (hostTake_frame s).trans ((relinquish_frame _).trans (finishDrain_frame _))

/-! ## The live transfer -/

theorem commitWrite_frame (d : Drive) (t : Int) (s : State) : Frame s (commitWrite d t s) := by
  unfold commitWrite
  split
  · exact .refl s
  · next w _ => exact .ite (.refl s) ((Frame.writeFlux s d w t _).trans (.of_eq rfl rfl rfl))

theorem stopWriting_frame (d : Drive) (t : Int) (s : State) : Frame s (stopWriting d t s) :=
  (commitWrite_frame d t s).trans (.of_eq rfl rfl rfl)

theorem liveStart_frame (d : Drive) (st : LiveState) (s : State) : Framed s (liveStart d st s) :=
  .ite (.refused s _) (.next (.of_eq rfl rfl rfl))

theorem dropLive_frame (d : Drive) (s : State) : Frame s (dropLive d s) := .of_eq rfl rfl rfl

theorem liveAbort_frame (s : State) : Frame s (liveAbort s) := by
  unfold liveAbort
  split
  · exact .refl s
  · exact (stopWriting_frame _ _ s).trans (dropLive_frame _ _)

/-! ## Stepping -/

theorem runSeekDone_frame (d : Drive) (s : State) : Framed s (runSeekDone d s) :=
  .ite (.next (commandDone_frame d s)) (.ite (.next (.setSub s d _))
    (Framed.after (liveStart_frame d _ _) (.of_eq rfl rfl rfl)))

theorem seekEnd_frame (d : Drive) (ok : Bool) (s : State) : Frame s (seekEnd d ok s) := by
  unfold seekEnd
  exact ((Frame.setSt0 s d .se).trans (.ite (.refl _) (.setIC _ d _))).trans (.updSlot _ d _)

theorem seekFinish_frame (d : Drive) (ok : Bool) (s : State) : Framed s (seekFinish d ok s) :=
  .ite (.next ((Frame.setTimer s d none).trans (seekEnd_frame d ok _)))
    (Frame.then ((Frame.setTimer s d none).trans (.setSub _ d _)) (runSeekDone_frame d _))

theorem stepPulse_frame (d : Drive) (dir : Dir) (s : State) : Frame s (stepPulse d dir s) :=
  ((Frame.updSlot s d _).trans (.emit _ rfl)).trans (.setTimer _ d _)

theorem moveSeek_frame (d : Drive) (s : State) : Framed s (moveSeek d s) :=
  .ite (seekFinish_frame d true s) (.next (stepPulse_frame d _ s))

theorem moveRecalibrate_frame (d : Drive) (s : State) : Framed s (moveRecalibrate d s) :=
  .ite (Frame.then (.updSlot s d _) (seekFinish_frame d true _))
    (.ite (Frame.then (.setSt0 s d _) (seekFinish_frame d false _))
      (.next ((Frame.updSlot s d _).trans (stepPulse_frame d _ _))))

theorem runMove_frame (d : Drive) (s : State) : Framed s (runMove d s) :=
  .ite (moveRecalibrate_frame d s) (moveSeek_frame d s)

theorem runHeadLoadSettle_frame (d : Drive) (s : State) : Framed s (runHeadLoadSettle d s) :=
  .ite (Frame.then (.updSlot s d _) (runMove_frame d _)) (Frame.then (.setSub s d _) (runSeekDone_frame d _))

theorem driveTimerExpiry_frame (d : Drive) (s : State) : Framed s (driveTimerExpiry d s) := by
  unfold driveTimerExpiry
  split
  · exact .next ((Frame.updSlot s d _).trans (.setTimer _ d _))
  · exact Frame.then ((Frame.setTimer s d none).trans (.setSub _ d _)) (runMove_frame d _)
  · exact .next (.setTimer s d none)

theorem startSeek_frame (m : MainState) (target : Byte) (s : State) : Framed s (startSeek m target s) :=
  .ite (Framed.after (runMove_frame _ _) (.of_eq rfl rfl rfl)) (Framed.after (seekFinish_frame _ false _) (.of_eq rfl rfl rfl))

/-! ## The state machines of the commands -/

theorem startPrepare_frame (s : State) : Frame s (startPrepare s) :=
  Frame.trans (t := { fifoReset { s.updSlot s.cur.d (fun x => { x with
    mainState := s.cur.op.mainState, st0 := headUnit s.cur.hd s.cur.d }) with phase := .execution, st1 := 0, st2 := 0 } with
    tcDone := false, tcCut := false, cur := { s.cur with sectorSize := sectorBytes s.cur.n } })
    (.of_eq rfl rfl rfl) (.selectSide _ _ _)

theorem startRW_frame (s : State) : Framed s (startRW s) := by
  have h := startPrepare_frame s
  unfold startRW
  dsimp only
  exact .ite (.next (h.trans (((Frame.setSt0 _ _ _).trans (.setIC _ _ _)).trans (commandDone_frame _ _))))
    (.ite (.next (h.trans (((Frame.setSt1 _ _).trans (.setIC _ _ _)).trans (commandDone_frame _ _))))
      (Frame.then (h.trans (.setSub _ _ _)) (runHeadLoadSettle_frame _ _)))

theorem advance_frame (s : State) : Frame s (advance s).2 := by
  have hw : ∀ u : State, Frame u (wrapSector u) := fun u =>
    .ite (Frame.trans (t := { u with cur := { u.cur with r := 1, h := u.cur.h ^^^ 0x01, hd := !u.cur.hd } })
      (.of_eq rfl rfl rfl) (.selectSide _ _ _)) (.of_eq rfl rfl rfl)
  have he : ∀ u : State, Frame u (endOfCylinder u) := fun u => .ite (.of_eq rfl rfl rfl) (.of_eq rfl rfl rfl)
  have hn : Frame s (nextR s) := .of_eq rfl rfl rfl
  unfold advance
  dsimp only
  split
  · split
    · exact (hn.trans (hw _)).trans (he _)
    · exact hn.trans (hw _)
  · exact hn

theorem wrongCylinder_frame (d : Drive) (c : Byte) (s : State) : Frame s (wrongCylinder d c s) := by
  unfold wrongCylinder
  dsimp only
  exact Frame.trans (.ite ((Frame.setSt2 s _).trans (.setSt2 _ _)) (.setSt2 s _)) (.of_eq rfl rfl rfl)

theorem onHeaderReadRW_frame (d : Drive) (L : LiveTransfer) (s : State) : Framed s (onHeaderReadRW d L s) := by
  have hn : Frame s (noteHeader L s) := .of_eq rfl rfl rfl
  unfold onHeaderReadRW
  dsimp only
  refine .ite (.next (hn.trans (Frame.after (commandDone_frame d _) (.of_eq rfl rfl rfl)))) (.ite (.next (hn.trans
    ((wrongCylinder_frame d _ _).trans (commandDone_frame d _)))) (.ite (hn.then (liveStart_frame d _ _)) (.ite
      ((hn.trans (.setSub _ d _)).then (liveStart_frame d _ _))
      (((hn.trans (.setSub _ d _)).trans (fifoExpect_frame _ _)).then (liveStart_frame d _ _)))))

theorem onHeaderReadTrack_frame (d : Drive) (L : LiveTransfer) (s : State) : Framed s (onHeaderReadTrack d L s) := by
  have hb : ∀ (u : State) (p : Prop) [Decidable p] (b : St1Bit),
      Frame u (if p then (u.setSt1 b).setIC d icAbnormal else u) := fun u p _ b => .ite (.of_eq rfl rfl rfl) (.refl u)
  have hn : Frame s (noteHeader L s) := .of_eq rfl rfl rfl
  unfold onHeaderReadTrack
  dsimp only
  exact (((hn.trans (hb _ _ _)).trans (hb _ _ _)).trans (.setSub _ d _)).then (liveStart_frame d _ _)

theorem onHeaderReadId_frame (d : Drive) (L : LiveTransfer) (s : State) : Framed s (onHeaderReadId d L s) := by
  unfold onHeaderReadId
  dsimp only
  refine .next (Frame.trans ?_ (commandDone_frame d _))
  split <;> exact .of_eq rfl rfl rfl

theorem nextSector_frame (d : Drive) (done : Bool) (s : State) : Framed s (nextSector d done s) :=
  .ite (.next (commandDone_frame d s)) ((Frame.setSub s d _).then (runSeekDone_frame d _))

theorem onFieldReadRW_frame (d : Drive) (L : LiveTransfer) (s : State) : Framed s (onFieldReadRW d L s) := by
  have hb : ∀ (u : State) (p : Prop) [Decidable p], Frame u (if p then dataCrcError d u else u) :=
    fun u p _ => .ite (.of_eq rfl rfl rfl) (.refl u)
  have hm : ∀ (u : State) (p : Prop) [Decidable p], Frame u (if p then u.setSt2 .cm else u) :=
    fun u p _ => .ite (.of_eq rfl rfl rfl) (.refl u)
  unfold onFieldReadRW
  dsimp only
  have h := ((flushRequest_frame s).trans (hm _ (markMismatch (flushRequest s) L.markDeleted = true))).trans
    (hb _ (L.crc ≠ 0))
  exact .ite (.next (h.trans (commandDone_frame d _))) ((h.trans (advance_frame _)).then (nextSector_frame d _ _))

theorem onFieldReadTrack_frame (d : Drive) (L : LiveTransfer) (s : State) : Framed s (onFieldReadTrack d L s) := by
  have hb : ∀ (u : State) (p : Prop) [Decidable p], Frame u (if p then dataCrcError d u else u) :=
    fun u p _ => .ite (.of_eq rfl rfl rfl) (.refl u)
  have hc : ∀ u : State, Frame u { u with cur := { u.cur with count := u.cur.count + 1, r := u.cur.r + 1 } } :=
    fun u => .of_eq rfl rfl rfl
  have h := ((flushRequest_frame s).trans (hb _ (L.crc ≠ 0))).trans (hc _)
  unfold onFieldReadTrack
  dsimp only
  exact .ite (.next (h.trans (commandDone_frame d _)))
    ((liveStart_frame d _ _).after (h.trans (.setSub _ d _)))

theorem onFieldWritten_frame (d : Drive) (s : State) : Framed s (onFieldWritten d s) :=
  ((fifoStopExpect_frame s).trans (advance_frame _)).then (nextSector_frame d _ _)

theorem report_frame (e : EngineEvent) (L : LiveTransfer) (s : State) : Framed s (report e L s) := by
  have h := dropLive_frame L.drive s
  have hm : ∀ u : State, Frame u (missingDataMark L.drive u) := fun u => .of_eq rfl rfl rfl
  unfold report
  dsimp only
  split
  · exact h.then (onHeaderReadRW_frame _ L _)
  · exact h.then (onHeaderReadRW_frame _ L _)
  · exact h.then (onHeaderReadTrack_frame _ L _)
  · exact h.then (onHeaderReadId_frame _ L _)
  · exact .next (h.trans ((hm _).trans (commandDone_frame _ _)))
  · exact (h.trans ((hm _).trans (.setSub _ _ _))).then (liveStart_frame _ _ _)
  · exact h.then (onFieldReadRW_frame _ L _)
  · exact h.then (onFieldReadTrack_frame _ L _)
  · exact h.then (onFieldWritten_frame _ _)
  · exact .next h

theorem recordNotFound_frame (d : Drive) (s : State) : Frame s (recordNotFound d s) := by
  unfold recordNotFound
  dsimp only
  exact (liveAbort_frame s).trans ((Frame.setSt1 _ _).trans ((Frame.ite (.refl _) (.setSt1 _ _)).trans
    ((Frame.setIC _ d _).trans (commandDone_frame d _))))

theorem onIndex_frame (d : Drive) (s : State) : Framed s (onIndex d s) := by
  have hs : Framed s (onIndexSearch d s) := by
    unfold onIndexSearch
    dsimp only
    exact .next (.ite ((Frame.updSlot s d _).trans (recordNotFound_frame d _)) (.updSlot s d _))
  unfold onIndex
  split
  · split
    · exact hs
    · exact hs
    · exact hs
    · exact Framed.after (liveStart_frame d _ _) (.of_eq rfl rfl rfl)
    · exact .next (recordNotFound_frame d s)
    · exact .next (recordNotFound_frame d s)
    · exact (Frame.setSub s d _).then (liveStart_frame d _ _)
    · unfold onIndexTrackWrite
      split
      · exact .next (.ite ((liveAbort_frame s).trans (commandDone_frame d _)) (.refl s))
      · exact .next (.refl s)
    · exact .next (.refl s)
  · exact .next (.refl s)

theorem cutBeforeField_frame (s : State) : Frame s (cutBeforeField s) := by
  unfold cutBeforeField
  split
  · exact .ite (.of_eq rfl rfl rfl) (.refl s)
  · exact .refl s

theorem onTC_frame (s : State) : Frame s (onTC s) := by
  unfold onTC
  split
  · exact .refl s
  · dsimp only
    generalize hu : (if ({ s with tcDone := true } : State).fifoWrite = true then
      ({ s with tcDone := true, fifoExpected := 0, internalDrq := false } : State) else { s with tcDone := true }) = u
    have h : Frame s u := by rw [← hu]; exact .ite (.of_eq rfl rfl rfl) (.of_eq rfl rfl rfl)
    have h' := h.trans (cutBeforeField_frame u)
    split
    · exact h'.trans ((liveAbort_frame _).trans (commandDone_frame _ _))
    · exact h'.trans ((liveAbort_frame _).trans (commandDone_frame _ _))
    · exact h'.trans (Frame.after (finishResult_frame _ _) (.of_eq rfl rfl rfl))
    · exact h'

/-! ## The engine -/

theorem readCell_frame {limit : Int} {L L' : LiveTransfer} {s t : State} (h : readCell limit L s = some (L', t)) :
    Frame s t := by
  unfold readCell at h
  split at h
  · cases h
  · cases h
    exact .of_eq rfl rfl rfl

theorem deliverByte_frame (L : LiveTransfer) (s : State) : Frame s (deliverByte L s) := by
  have hc : ∀ u : State, Frame u (cutAfterTC u) := fun u => .ite (.of_eq rfl rfl rfl) (.refl u)
  exact Frame.trans (.ite (.refl s) (enginePush_frame _ s)) (hc _)

theorem sectorByte_frame (L : LiveTransfer) (s : State) : Framed s (sectorByte L s) :=
  .ite (.next ((Frame.setLive s L).trans (deliverByte_frame L _))) (.ite (report_frame _ _ s) (.next (.setLive s L)))

theorem afterCell_frame (L : LiveTransfer) (s : State) : Framed s (afterCell L s) := by
  unfold afterCell
  split
  · exact .next (.setLive s _)
  · exact .next (.setLive s _)
  · exact .ite (.ite (report_frame _ _ s) (.next (.setLive s _))) (.next (.setLive s _))
  · exact .ite (report_frame _ _ s) (.next (.setLive s _))
  · exact .next (.setLive s _)
  · exact .ite (sectorByte_frame L s) (.next (.setLive s _))
  · exact .next (.ite (.of_eq rfl rfl rfl) (.setLive s _))
  · exact .next (.setLive s _)
  · exact .next (.setLive s _)
  · exact .next (.setLive s _)
  · exact .next (.setLive s _)
  · exact .next (.setLive s _)

theorem emitCell_frame (limit : Int) (L : LiveTransfer) (s : State) : Frame s (emitCell limit L s) := by
  unfold emitCell
  split
  · exact .refl s
  · dsimp only
    exact .ite (Frame.after ((commitWrite_frame _ _ _).trans (.setLive _ _)) (.of_eq rfl rfl rfl))
      (Frame.after (.setLive _ _) (.of_eq rfl rfl rfl))

theorem dataByte_frame (s : State) : Frame s (dataByte s).2 := by
  unfold dataByte
  split
  · exact .refl s
  · exact enginePop_frame s

theorem idByte_frame (i : Nat) (s : State) : Frame s (idByte i s).2 :=
  (dataByte_frame s).trans (.of_eq rfl rfl rfl)

theorem chooseSectorData_frame (L : LiveTransfer) (s : State) : Framed s (chooseSectorData L s) :=
  .ite (.next (.setLive s _)) (.ite (.next ((dataByte_frame s).trans (.setLive _ _))) (.ite (.next (.setLive s _))
    ((stopWriting_frame _ _ s).then (report_frame _ _ _))))

theorem choosePreamble_frame (L : LiveTransfer) (s : State) : Frame s (choosePreamble L s) :=
  .ite (Frame.trans (.ite (fifoExpect_frame 4 s) (.refl s)) (.setLive _ _)) (.setLive s _)

theorem sectorEnd_frame (L : LiveTransfer) (s : State) : Frame s (sectorEnd L s) := by
  unfold sectorEnd
  dsimp only
  exact .ite (Frame.after ((fifoExpect_frame 4 _).trans (.setLive _ _)) (.of_eq rfl rfl rfl))
    (Frame.after (.setLive _ _) (.of_eq rfl rfl rfl))

theorem chooseTrackSector_frame (L : LiveTransfer) (s : State) : Frame s (chooseTrackSector L s) :=
  .ite (.setLive s _) (.ite ((idByte_frame _ s).trans (.setLive _ _)) (.ite (.setLive s _) (.ite (.setLive s _)
    (.ite (.setLive s _) (.ite (.setLive s _) (.ite (.setLive s _) (.ite (.setLive s _) (sectorEnd_frame L s))))))))

theorem chooseByte_frame (L : LiveTransfer) (s : State) : Framed s (chooseByte L s) := by
  unfold chooseByte
  split
  · exact chooseSectorData_frame L s
  · exact .next (choosePreamble_frame L s)
  · exact .next (chooseTrackSector_frame L s)
  · exact .next (.setLive s _)
  · exact .next (.refl s)

/-- The engine's work keeps the frame, in whatever state. -/
theorem engineStep_frame (limit : Int) (s : State) : Framed s (engineStep limit s) := by
  unfold engineStep
  split
  · exact .next (.refl s)
  · split
    · exact .ite (chooseByte_frame _ s) (.next (emitCell_frame limit _ s))
    · split
      · exact .next (.refl s)
      · next h => exact (readCell_frame h).then (afterCell_frame _ _)

/-! ## The other events -/

theorem pollExpiry_frame (s : State) : Frame s (pollExpiry s) :=
  .ite (.of_eq rfl rfl rfl) (.ite (.of_eq rfl rfl rfl) (.of_eq rfl rfl rfl))

theorem hostReadData_frame (s : State) : Frame s (hostReadData s).2 := by
  unfold hostReadData
  split
  · exact resultRead_frame s
  · split
    · exact hostPop_frame s
    · exact .refl s
  · exact .refl s

theorem dmaRead_frame (s : State) : Frame s (dmaRead s).2 := by
  unfold dmaRead
  split
  · exact hostPop_frame s
  · exact .refl s

theorem dmaWrite_frame (v : Byte) (s : State) : Frame s (dmaWrite v s) := .ite (hostPush_frame v s) (.refl s)

theorem answer_frame {s : State} {r : Byte × State} (h : Frame s r.2) : Framed s (answer r) :=
  .next (h.trans (.emit _ rfl))

/-- A register read keeps the frame. -/
theorem hostRead_frame (reg : HostReg) (s : State) : Framed s (hostRead reg s) := by
  cases reg
  · exact answer_frame (.of_eq rfl rfl rfl)
  · exact answer_frame (.refl s)
  · exact answer_frame (hostReadData_frame s)
  · exact answer_frame (.refl s)
  · exact answer_frame (.refl s)
  · exact .refused s _

end Sys2Proof.Machine
end

