-- ==== Sys2Proof/Laws/Operations.lean ====
section
/-! SUPPORT. What each shared operation answers, said once, for the proofs that would otherwise unfold it. -/

namespace Sys2Proof.Machine

/-! ## Truncated division -/

/-- The bounds of the truncated quotient of a nonnegative number. -/
theorem tdiv_bounds_nonneg {a b : Int} (ha : 0 ≤ a) (hb : 0 < b) : b * tdiv a b ≤ a ∧ a < b * tdiv a b + b ∧ 0 ≤ tdiv a b := by
  have h1 := Int.mul_tdiv_add_tmod a b
  have h2 := Int.tmod_nonneg b ha
  have h3 := Int.tmod_lt_of_pos a hb
  have h4 := Int.tdiv_nonneg ha hb.le
  unfold tdiv
  exact ⟨by linarith, by linarith, h4⟩

theorem tdiv_neg_left (a b : Int) : tdiv (-a) b = -tdiv a b := Int.neg_tdiv a b

/-- The bounds of the truncated quotient of a nonpositive number. -/
theorem tdiv_bounds_nonpos {a b : Int} (ha : a ≤ 0) (hb : 0 < b) : a ≤ b * tdiv a b ∧ b * tdiv a b < a + b ∧ tdiv a b ≤ 0 := by
  have h := tdiv_bounds_nonneg (a := -a) (by omega) hb
  rw [tdiv_neg_left, mul_neg] at h
  exact ⟨by omega, by omega, by omega⟩

/-! ## Termination -/

/-- A command that has no bytes to deliver does not drain (R410). -/
theorem commandDone_of_empty {d : Drive} {s : State} (h : s.fifo = []) : commandDone d s = finishResult d s := by
  simp [commandDone, h]

/-- After TC a command does not drain (R410). -/
theorem commandDone_of_tc {d : Drive} {s : State} (h : s.tcDone = true) : commandDone d s = finishResult d s := by
  simp [commandDone, h]

/-- A command that delivers no bytes to the host does not drain (R410). -/
theorem commandDone_of_op {d : Drive} {s : State} (h : s.cur.op.isHostRead = false) :
    commandDone d s = finishResult d s := by
  simp [commandDone, h]

/-- `SetIC` leaves an IC that is not 00 (R400). -/
theorem withIC_withIC (x : Byte) : withIC (withIC x icAbnormal) icAbnormal = withIC x icAbnormal := by
  revert x
  decide

/-- The output lines recomputed twice are as recomputed once. -/
theorem updateOutputs_idem (s : State) : updateOutputs (updateOutputs s) = updateOutputs s := by
  have e1 : (updateOutputs s).irqLevel = s.irqLevel := rfl
  have e2 : (updateOutputs s).drqLevel = s.drqLevel := rfl
  have e3 : (updateOutputs s).irqOut = s.irqLevel := rfl
  have e4 : (updateOutputs s).drqOut = s.drqLevel := rfl
  rw [updateOutputs.eq_def (updateOutputs s), e1, e2, e3, e4]
  simp [edgeReport, updateOutputs]

/-! ## The live transfer -/

/-- With no transfer running a live start succeeds (R190). -/
theorem liveStart_of_none (d : Drive) (st : LiveState) {s : State} (h : s.live = none) :
    liveStart d st s = .next { s.updSlot d (fun x => { x with live := true }) with
      live := some (newTransfer d st s.now)
      pll := startPll st s } := by
  simp [liveStart, h]

/-- With no transfer running there is nothing to abort (R191). -/
theorem liveAbort_of_none {s : State} (h : s.live = none) : liveAbort s = s := by
  simp [liveAbort, h]

/-- After an abort no transfer runs (R191). -/
theorem liveAbort_live (s : State) : (liveAbort s).live = none := softReset_live s

/-- `StopWriting` leaves the drive slots, the status bytes, the FIFO and the command record (R142). -/
theorem stopWriting_keeps (d : Drive) (t : Int) (s : State) :
    (stopWriting d t s).drives = s.drives ∧ (stopWriting d t s).st1 = s.st1 ∧ (stopWriting d t s).st2 = s.st2 ∧
      (stopWriting d t s).fifo = s.fifo ∧ (stopWriting d t s).cur = s.cur ∧ (stopWriting d t s).tcDone = s.tcDone := by
  unfold stopWriting commitWrite
  dsimp only
  split
  · exact ⟨rfl, rfl, rfl, rfl, rfl, rfl⟩
  · split <;> exact ⟨rfl, rfl, rfl, rfl, rfl, rfl⟩

/-- An abort leaves the status bytes, the FIFO and the command record (R191). -/
theorem liveAbort_keeps (s : State) :
    (liveAbort s).st1 = s.st1 ∧ (liveAbort s).st2 = s.st2 ∧ (liveAbort s).fifo = s.fifo ∧ (liveAbort s).cur = s.cur ∧
      (liveAbort s).tcDone = s.tcDone := by
  unfold liveAbort
  split
  · exact ⟨rfl, rfl, rfl, rfl, rfl⟩
  · next L _ =>
    obtain ⟨_, h1, h2, h3, h4, h5⟩ := stopWriting_keeps L.drive s.now s
    exact ⟨h1, h2, h3, h4, h5⟩

/-- An abort clears the live flag of the transfer's drive, and nothing else of the slots (R191). -/
theorem liveAbort_drives {s : State} {L : LiveTransfer} (h : s.live = some L) :
    (liveAbort s).drives = s.drives.set L.drive { s.slot L.drive with live := false } := by
  have := (stopWriting_keeps L.drive s.now s).1
  simp [liveAbort, h, dropLive, State.updSlot, this]

/-! ## The FIFO -/

/-- A host pop that is not the last one takes the oldest byte and does nothing else (R331). -/
theorem hostPop_of_more {s : State} {v : Byte} {rest : List Byte} (h : s.fifo = v :: rest) (hw : s.fifoWrite = false)
    (hr : rest ≠ []) : hostPop s = (v, { s with fifo := rest }) := by
  have ht : hostTake s = (v, { s with fifo := rest }) := by simp [hostTake, h]
  have he : rest.isEmpty = false := by
    cases rest
    · exact absurd rfl hr
    · rfl
  simp [hostPop, hw, ht, relinquish, finishDrain, he]

/-! ## The start of a command and the flux query -/

/-- Selecting a head changes neither the readiness nor the write protection of a drive (R351). -/
theorem selectSide_lines (s : State) (d e : Drive) (head : Bool) :
    (s.selectSide d head).driveReady e = s.driveReady e ∧
      (s.selectSide d head).writeProtected e = s.writeProtected e := by
  have h : ∀ u : DriveUnit, (if u.attached then { u with side := head } else u).attached = u.attached ∧
      (if u.attached then { u with side := head } else u).ready = u.ready ∧
      (if u.attached then { u with side := head } else u).writeProtected = u.writeProtected := by
    intro u
    split <;> exact ⟨rfl, rfl, rfl⟩
  simp only [State.driveReady, State.writeProtected, State.selectSide, State.updUnit, State.emit, Slots.get_set]
  split
  · next he => subst he; simp only [h, and_self]
  · exact ⟨rfl, rfl⟩

/-- A transition the query gives lies after the instant asked for (R86). -/
theorem fluxAfter_gt {f : List Int} {a t : Int} (h : fluxAfter f a = some t) : a < t := by
  simpa using List.find?_some h

end Sys2Proof.Machine
end

