-- ==== Sys2Proof/WellFormed.lean ====
section
/-! DEFINITION. Well-formed commands. No parameter value makes a command invalid (spec/30_encoding.md R111) and every
operand field has exactly its encoded width, so what can be ill-formed is a sequence of command bytes: it is well-formed
when its opcode byte is in the table and it has exactly the `N_cmd` bytes of that opcode (R100, R103). -/

namespace Sys2Proof

/-- The opcode byte is a row of the table (R110); it is not refused, not invalid and not missing. -/
def knownOpcode : List Byte → Bool
  | [] => false
  | b :: _ =>
    match decodeOpcode b with
    | .known _ => true
    | _ => false

/-- The sequence has the `N_cmd` bytes of its opcode, no fewer and no more (R100, R103). -/
def completeLength : List Byte → Bool
  | [] => false
  | b :: ps =>
    match decodeOpcode b with
    | .known n => ps.length + 1 == n
    | _ => false

/-- A well-formed sequence of command bytes. -/
def wellFormedBytes (bs : List Byte) : Bool := knownOpcode bs && completeLength bs

/-- An instruction is well-formed when its encoding is a well-formed sequence of command bytes. -/
def Instr.wellFormed (i : Instr) : Bool := wellFormedBytes (encode i)

end Sys2Proof
end

