-- ==== Sys2Proof/Laws/PerInstr.lean ====
section
/-! SUPPORT. What holds of every command as syntax, one lemma per command: its encoding is well-formed and has the `N_cmd` bytes
of its row, which fit the command buffer. -/

namespace Sys2Proof.Laws

/-- The encoding of a command is well-formed, and its length is the command's `N_cmd`, at most `CMD_MAX` (R8, R103). -/
def EncodedLength.Statement (i : Instr) : Prop :=
  i.wellFormed = true ∧ (encode i).length = i.commandBytes ∧ i.commandBytes ≤ Machine.cmdMax

theorem EncodedLength.readTrack (mf hd : Bool) (us : Drive) (p : SectorParams) :
    EncodedLength.Statement (.readTrack mf hd us p) := by
  refine ⟨?_, rfl, Nat.le_of_ble_eq_true rfl⟩
  cases mf <;> cases hd <;> cases us <;> rfl

theorem EncodedLength.specify (srt hut : BitVec 4) (hlt : BitVec 7) (nd : Bool) :
    EncodedLength.Statement (.specify srt hut hlt nd) :=
  ⟨rfl, rfl, Nat.le_of_ble_eq_true rfl⟩

theorem EncodedLength.senseDriveStatus (hd : Bool) (us : Drive) :
    EncodedLength.Statement (.senseDriveStatus hd us) :=
  ⟨rfl, rfl, Nat.le_of_ble_eq_true rfl⟩

theorem EncodedLength.writeData (mt mf hd : Bool) (us : Drive) (p : SectorParams) :
    EncodedLength.Statement (.writeData mt mf hd us p) := by
  refine ⟨?_, rfl, Nat.le_of_ble_eq_true rfl⟩
  cases mt <;> cases mf <;> rfl

theorem EncodedLength.readData (mt mf sk hd : Bool) (us : Drive) (p : SectorParams) :
    EncodedLength.Statement (.readData mt mf sk hd us p) := by
  refine ⟨?_, rfl, Nat.le_of_ble_eq_true rfl⟩
  cases mt <;> cases mf <;> cases sk <;> rfl

theorem EncodedLength.recalibrate (us : Drive) : EncodedLength.Statement (.recalibrate us) := ⟨rfl, rfl, Nat.le_of_ble_eq_true rfl⟩

theorem EncodedLength.senseInterruptStatus : EncodedLength.Statement .senseInterruptStatus := ⟨rfl, rfl, Nat.le_of_ble_eq_true rfl⟩

theorem EncodedLength.writeDeletedData (mt mf hd : Bool) (us : Drive) (p : SectorParams) :
    EncodedLength.Statement (.writeDeletedData mt mf hd us p) := by
  refine ⟨?_, rfl, Nat.le_of_ble_eq_true rfl⟩
  cases mt <;> cases mf <;> rfl

theorem EncodedLength.readId (mf hd : Bool) (us : Drive) : EncodedLength.Statement (.readId mf hd us) := by
  refine ⟨?_, rfl, Nat.le_of_ble_eq_true rfl⟩
  cases mf <;> rfl

theorem EncodedLength.readDeletedData (mt mf sk hd : Bool) (us : Drive) (p : SectorParams) :
    EncodedLength.Statement (.readDeletedData mt mf sk hd us p) := by
  refine ⟨?_, rfl, Nat.le_of_ble_eq_true rfl⟩
  cases mt <;> cases mf <;> cases sk <;> rfl

theorem EncodedLength.formatTrack (mf hd : Bool) (us : Drive) (n sc gpl fill : Byte) :
    EncodedLength.Statement (.formatTrack mf hd us n sc gpl fill) := by
  refine ⟨?_, rfl, Nat.le_of_ble_eq_true rfl⟩
  cases mf <;> rfl

theorem EncodedLength.seek (hd : Bool) (us : Drive) (ncn : Byte) : EncodedLength.Statement (.seek hd us ncn) :=
  ⟨rfl, rfl, Nat.le_of_ble_eq_true rfl⟩

theorem EncodedLength.configure (cfg pretrk : Byte) : EncodedLength.Statement (.configure cfg pretrk) :=
  ⟨rfl, rfl, Nat.le_of_ble_eq_true rfl⟩

theorem EncodedLength.lock (lk : Bool) : EncodedLength.Statement (.lock lk) := by
  refine ⟨?_, rfl, Nat.le_of_ble_eq_true rfl⟩
  cases lk <;> rfl

end Sys2Proof.Laws
end

