-- ==== Sys2Proof/Tests/Slice0.lean ====
section
/-! SUPPORT. The tests: ill-formed command bytes, decoded words, worked examples of the spec (spec/95_test_vectors.md, whose vector
each docstring names), single steps, and for every obligation with hypotheses a state that meets them. -/

namespace Sys2Proof.Tests

open Sys2Proof.Machine Sys2Proof.Claims

/-! ## Helpers -/

/-- An attached, ready, two-sided drive that is not write-protected (the standard environment). -/
def demoUnit : DriveUnit := { DriveUnit.empty with attached := true, ready := true, twoSided := true }

/-- Power-on at instant 500 in the standard environment: drives 0 and 1 present, `STEP_UNIT` = 1 ms, no poll armed. -/
def demo : State :=
  { State.reset with
    par := { Config.params with stepUnit := 1000000000000000 }
    pollTimer := none
    now := 500
    units := { s0 := demoUnit, s1 := demoUnit, s2 := DriveUnit.empty, s3 := DriveUnit.empty } }

/-- The demo state with drive 0 changed. -/
def with0 (f : DriveSlot → DriveSlot) : State := demo.updSlot .d0 f

/-- The demo state with the Drive collaborator of drive 0 changed. -/
def withUnit0 (f : DriveUnit → DriveUnit) : State := demo.updUnit .d0 f

/-- Drive 0 in the middle of a command that uses the engine. -/
def running (op : Op) (m : MainState) (sub : SubState) (st : LiveState) : State :=
  { with0 fun x => { x with mainState := m, subState := sub, live := true } with
    phase := .execution
    cur := { op := op, c := 5, r := 3, n := 2, eot := 3, sectorSize := 512 }
    live := some (newTransfer .d0 st 500) }

/-- Drive 0 in a command that uses the engine, no transfer running. -/
def pending (op : Op) (m : MainState) (sub : SubState) : State :=
  { with0 fun x => { x with mainState := m, subState := sub } with
    phase := .execution
    cur := { op := op, c := 5, r := 3, n := 2, eot := 3, sectorSize := 512 } }

/-- A transfer of drive 0 with these CRC and header bytes. -/
def header (crc : BitVec 16) (c h r n : Byte) : LiveTransfer :=
  { newTransfer .d0 .readIdBlock 500 with crc := crc, idbuf := { c := c, h := h, r := r, n := n } }

/-- The next state of an answer passes a test. -/
def answers (r : Result) (p : State → Bool) : Bool :=
  match r with
  | .next t => p t
  | _ => false

/-- An answer is this refusal. -/
def refuses (r : Result) (x : Refusal) : Bool :=
  match r with
  | .refused y => x == y
  | _ => false

/-! ## Ill-formed command bytes, one for each check -/

theorem test_wf_refuses_no_bytes : wellFormedBytes [] = false := by decide

theorem test_wf_refuses_family_opcode : knownOpcode [0x10] = false ∧ wellFormedBytes [0x10] = false := by decide

theorem test_wf_refuses_invalid_opcode : knownOpcode [0x01] = false ∧ wellFormedBytes [0x01] = false := by decide

theorem test_wf_refuses_too_short : completeLength [0x03, 0xDF] = false ∧ wellFormedBytes [0x03, 0xDF] = false := by
  decide

theorem test_wf_refuses_too_long : completeLength [0x08, 0x00] = false ∧ wellFormedBytes [0x08, 0x00] = false := by decide

theorem test_wf_accepts_specify : wellFormedBytes [0x03, 0xDF, 0x02] = true := by decide

/-! ## Decoding of words written out from the encodings (R101 to R107, V-DEC) -/

theorem test_decode_readTrack : decode [0b01000010, 0b00000110, 5, 1, 3, 2, 9, 0x1B, 0xFF] =
    .known (.readTrack true true .d2 ⟨5, 1, 3, 2, 9, 0x1B, 0xFF⟩) [] := by decide

theorem test_decode_specify : decode [0b00000011, 0b11011111, 0b00000010] = .known (.specify 13 15 1 false) [] := by decide

theorem test_decode_senseDriveStatus : decode [0b00000100, 0b00000111] = .known (.senseDriveStatus true .d3) [] := by decide

theorem test_decode_writeData : decode [0b01100101, 0b00000001, 5, 0, 3, 2, 3, 0x1B, 0xFF] =
    .known (.writeData false true false .d1 ⟨5, 0, 3, 2, 3, 0x1B, 0xFF⟩) [] := by decide

theorem test_decode_readData : decode [0b11100110, 0b00000000, 5, 0, 3, 2, 3, 0x1B, 0xFF] =
    .known (.readData true true true false .d0 ⟨5, 0, 3, 2, 3, 0x1B, 0xFF⟩) [] := by decide

theorem test_decode_recalibrate : decode [0b10000111, 0b11111110] = .known (.recalibrate .d2) [] := by decide

theorem test_decode_senseInterruptStatus : decode [0b00001000] = .known .senseInterruptStatus [] := by decide

theorem test_decode_writeDeletedData : decode [0b10001001, 0b00000100, 5, 1, 3, 2, 3, 0x1B, 0xFF] =
    .known (.writeDeletedData true false true .d0 ⟨5, 1, 3, 2, 3, 0x1B, 0xFF⟩) [] := by decide

theorem test_decode_readId : decode [0b01001010, 0b00000001] = .known (.readId true false .d1) [] := by decide

theorem test_decode_readDeletedData : decode [0b00101100, 0b00000011, 5, 0, 3, 2, 3, 0x1B, 0xFF] =
    .known (.readDeletedData false false true false .d3 ⟨5, 0, 3, 2, 3, 0x1B, 0xFF⟩) [] := by decide

theorem test_decode_formatTrack : decode [0b01001101, 0b00000000, 0x02, 0x01, 0x54, 0xE5] =
    .known (.formatTrack true false .d0 0x02 0x01 0x54 0xE5) [] := by decide

theorem test_decode_seek : decode [0b01001111, 0b00000101, 0x0A] = .known (.seek true .d1 0x0A) [] := by decide

theorem test_decode_configure : decode [0b00010011, 0x00, 0x57, 0x20] = .known (.configure 0x57 0x20) [] := by decide

theorem test_decode_lock : decode [0b10010100] = .known (.lock true) [] ∧ decode [0b00010100] = .known (.lock false) [] := by
  decide

/-- V-DEC: bits above a command's own are ignored, relative seek and the family's opcodes are refused, the rest invalid. -/
theorem test_decode_rejects : decode [0x8F, 0, 0] = .refused .relativeSeek ∧ decode [0x8E] = .refused .dumpreg ∧
    decode [0x16] = .refused .verify ∧ decode [0xC0] = .invalid ∧ decode [0x1F] = .invalid ∧ decode [] = .incomplete ∧
    decode [0x46, 0x00] = .incomplete := by decide

theorem test_encode_readData : encode (.readData true true true false .d0 ⟨5, 0, 3, 2, 3, 0x1B, 0xFF⟩) =
    [0xE6, 0x00, 5, 0, 3, 2, 3, 0x1B, 0xFF] := by decide

/-- A table word: byte 0 in bits 7 to 0, and zeros above `nbits`. -/
theorem test_table_word : decodeTableWord 24 0x02DF03 = some (.specify 13 15 1 false) ∧
    decodeTableWord 8 0x46 = some (.readData false true false false .d0 ⟨0, 0, 0, 0, 0, 0, 0⟩) ∧
    decodeTableWord 8 0x10 = none := by decide

/-! ## The PLL (V-PLL-0 to V-PLL-6) -/

/-- V-PLL-0: the nominal periods of the rates. -/
theorem test_nominal_periods : nominalPeriod (rateTable 0) true = 1000000000000 ∧
    nominalPeriod (rateTable 1) true = 1666666666666 ∧ nominalPeriod (rateTable 1) false = 3333333333333 ∧
    nominalPeriod (rateTable 2) false = 4000000000000 ∧ nominalPeriod (rateTable 3) true = 500000000000 := by decide

/-- A PLL at instant 0 with the abstract nominal period 1000. -/
def pll1000 : Pll := pllSetClock (pllReset Pll.reset 0) 1000

/-- `n` calls of `NextBit(∞)`: for each call the cell, `ctime`, `period`, `phase_adjust` and `freq_hist`. -/
def trace (f : List Int) : Nat → Pll → List (Bool × Int × Int × Int × Int)
  | 0, _ => []
  | n + 1, p =>
    match nextBit p (fluxAfter f p.ctime) (pllWindowEnd p) with
    | none => []
    | some (b, q) => (b, q.ctime, q.period, q.phaseAdjust, q.freqHist) :: trace f n q

/-- V-PLL-1, the worked example of R145. -/
theorem test_pll_worked_example : trace [600, 1600, 2700, 3650, 5000] 7 pll1000 =
    [(true, 1000, 1000, 65, 1), (true, 2065, 1001, 22, 2), (true, 3088, 1006, 72, 3), (true, 4166, 1006, -8, -1),
      (true, 5164, 1006, 220, 1), (false, 6390, 1006, 0, 1), (false, 7396, 1006, 0, 1)] := by decide

/-- V-PLL-2: a transition at a window's end is never seen, one at the centre gives no correction, and the second of two in
a window is skipped. -/
theorem test_pll_window_ends : trace [1000] 2 pll1000 = [(false, 1000, 1000, 0, 0), (false, 2000, 1000, 0, 0)] ∧
    trace [500] 1 pll1000 = [(true, 1000, 1000, 0, 0)] ∧
    trace [200, 900] 2 pll1000 = [(true, 1000, 1000, -195, -1), (false, 1805, 1000, 0, -1)] := by decide

/-- V-PLL-3: a window that ends after the deadline is not processed, one that ends at it is. -/
theorem test_pll_deadline : nextBit pll1000 (some 500) 999 = none ∧
    (nextBit pll1000 (some 500) 1000).map (fun r => (r.1, r.2.ctime)) = some (true, 1000) := by decide

/-- V-PLL-6: the cells written for 4E end at 1000 to 16000 and append a transition at the middle of each 1 cell. -/
theorem test_pll_write : ((byteBits 0x92 ++ byteBits 0x54).foldl
      (fun p b => (writeBit p b (pllWriteEnd p)).getD p) (pllStartWriting pll1000 0)).writeBuffer =
    [500, 3500, 6500, 9500, 11500, 13500] := by decide

/-- V-PLL-6: a cell that ends after the deadline is not written. -/
theorem test_pll_write_deadline : writeBit { pll1000 with ctime := 15000 } true 15999 = none := by decide

/-! ## The codec and the CRC (V-ENC, V-CRC) -/

/-- V-ENC-1. -/
theorem test_mfm_words : mfmEncode 0x00 false = (0xAAAA, false) ∧ mfmEncode 0x00 true = (0x2AAA, false) ∧
    mfmEncode 0x4E false = (0x9254, false) ∧ mfmEncode 0xA1 true = (0x44A9, true) ∧ mfmEncode 0xC2 false = (0x52A4, false) ∧
    mfmEncode 0xFE true = (0x5554, false) ∧ mfmEncode 0xFC true = (0x5552, false) ∧ mfmEncode 0xE5 false = (0x5491, true) := by
  decide

/-- V-ENC-2. -/
theorem test_fm_words : fmEncode 0x00 = 0xAAAA ∧ fmEncode 0xFB = 0xFFEF ∧ fmEncode 0xF8 = 0xFFEA ∧ fmEncode 0x4E = 0xBAFE ∧
    fmEncode 0xE5 = 0xFEBB := by decide

/-- V-CRC-1, V-CRC-2. -/
theorem test_crc_values : crcBytes 0xFFFF [0x31, 0x32, 0x33, 0x34, 0x35, 0x36, 0x37, 0x38, 0x39] = 0x29B1 := by decide +kernel

theorem test_crc_after_marks : crcBytes 0xFFFF [0xA1] = crcAfterSync ∧ crcBytes 0xFFFF [0xFE] = crcAfterFmHeader ∧
    crcBytes 0xFFFF [0xFB] = crcAfterFmData ∧ crcBytes 0xFFFF [0xF8] = crcAfterFmDeleted := ⟨rfl, rfl, rfl, rfl⟩

/-- V-CRC-5, V-CRC-6: the residual of a header, and of the header with one bit flipped. -/
theorem test_crc_residual : crcBytes 0xFFFF [0xA1, 0xA1, 0xA1, 0xFE, 5, 0, 3, 2, 0x10, 0x48] = 0 ∧
    crcBytes 0xFFFF [0xA1, 0xA1, 0xA1, 0xFE, 5, 0, 3, 3, 0x10, 0x48] = 0x3730 := by decide +kernel

/-- V-ENC-4: an FM header's cells, mark first, assembled by the reader from the mark on. -/
theorem test_read_fm_header : (readWord (resync (newTransfer .d0 .readIdBlock 0) crcAfterFmHeader .readIdBlock)
    ([0xAABB, 0xAAAA, 0xAAAF, 0xAAAA, 0xAAEA, 0xFEBA].flatMap wordCells)).crc = 0 := by decide +kernel

/-! ## The FIFO and the multi-sector advance (V-FIFO, spec/95_test_vectors.md section 5) -/

/-- The bytes 1 to `n` pushed by the engine. -/
def pushed (n : Nat) (s : State) : State :=
  (List.range n).foldl (fun s k => enginePush (BitVec.ofNat 8 (k + 1)) s) s

/-- V-FIFO-4: the 17th push overruns. -/
theorem test_fifo_overrun : (pushed 17 demo).fifo.length = 16 ∧ (pushed 17 demo).fifo.getLast? = some 16 ∧
    (pushed 17 demo).st1 = 0x10 := by decide

/-- V-FIFO-2: with threshold 8 the eighth push requests the host. -/
theorem test_fifo_threshold : (pushed 7 { demo with fifocfg := 0x57 }).internalDrq = false ∧
    (pushed 8 { demo with fifocfg := 0x57 }).internalDrq = true := by decide

/-- `Advance` from an address, `EOT`, `MT` and TC: C, H, R, ST1 and whether the command is done. -/
def advanceRow (r eot h : Byte) (mt tc : Bool) : Byte × Byte × Byte × Byte × Bool :=
  let a := advance { demo with cur := { c := 5, h := h, r := r, eot := eot, mt := mt }, tcDone := tc }
  (a.2.cur.c, a.2.cur.h, a.2.cur.r, a.2.st1, a.1)

/-- The rows of section 5 of the vectors, without MT. -/
theorem test_advance_one_side : [advanceRow 3 3 0 false true, advanceRow 3 3 0 false false, advanceRow 2 9 0 false false,
      advanceRow 2 9 0 false true, advanceRow 0xFF 0xFF 0 false false, advanceRow 1 0 0 false false] =
    [(6, 0, 1, 0, true), (5, 0, 1, 0x80, true), (5, 0, 3, 0, false), (5, 0, 3, 0, true), (5, 0, 0, 0, false),
      (5, 0, 1, 0x80, true)] := by decide

/-- The rows of section 5 of the vectors, with MT. -/
theorem test_advance_multi_track : [advanceRow 9 9 0 true false, advanceRow 9 9 1 true false, advanceRow 9 9 1 true true] =
    [(5, 1, 1, 0, false), (5, 0, 1, 0x80, true), (6, 0, 1, 0, true)] := by decide

/-! ## One step of each command -/

/-- R375's example: SPECIFY DF, 02. -/
theorem test_step_specify : answers (step (demo.withFetchWord 24 0x02DF03))
    (fun t => t.srt == 13 && t.hut == 15 && t.hlt == 1 && !t.nd && t.phase == .command && t.cmd.isEmpty) = true := by decide

/-- R376's example: CONFIGURE 00, 57, 00. -/
theorem test_step_configure : answers (step (demo.withFetchWord 32 0x00570013))
    (fun t => t.eis && !t.efifo && t.pollDisabled && t.fifoThr == 7 && t.precomp == 0) = true := by decide

/-- R377's example: LOCK with bit 7 set gives 10. -/
theorem test_step_lock : answers (step (demo.withFetchWord 8 0x94))
    (fun t => t.locked && t.res == [0x10] && t.phase == .result) = true := by decide

/-- R373's example: a ready, write-protected, two-sided drive 1 at track 0, head 0. -/
theorem test_step_senseDriveStatus : answers
    (step ((demo.updUnit .d1 fun u => { u with writeProtected := true, trackZero := true }).withFetchWord 16 0x0104))
    (fun t => t.res == [0x79] && t.phase == .result) = true := by decide

/-- V-SIS-1: no reason pending. -/
theorem test_step_senseInterruptStatus_none : answers (step (demo.withFetchWord 8 0x08)) (fun t => t.res == [0x80]) = true := by
  decide

/-- V-SIS-2: after SEEK 01, 0A completed. -/
theorem test_step_senseInterruptStatus_seek : answers
    (step ((demo.updSlot .d1 fun x => { x with irq := .seekDone, st0 := 0x21, pcn := 0x0A }).withFetchWord 8 0x08))
    (fun t => t.res == [0x21, 0x0A] && (t.slot .d1).irq == .none) = true := by decide

/-- V-ERR-18: SEEK 04, 00 with PCN 0 ends at once, without a step. -/
theorem test_step_seek_at_target : answers (step (demo.withFetchWord 24 0x00040F))
    (fun t => (t.slot .d0).st0 == 0x24 && (t.slot .d0).irq == .seekDone && t.outs == [.irqEdge true]) = true := by decide

/-- V-ERR-16: SEEK 02, 05 to the absent drive 2. -/
theorem test_step_seek_unready : answers (step (demo.withFetchWord 24 0x05020F))
    (fun t => (t.slot .d2).st0 == 0x6A && (t.slot .d2).irq == .seekDone && (t.slot .d2).pcn == 0) = true := by decide

/-- R304: RECALIBRATE away from track zero issues a step outward. -/
theorem test_step_recalibrate : answers (step (demo.withFetchWord 16 0x0007))
    (fun t => (t.slot .d0).mainState == .recalibrate && (t.slot .d0).counter == 1 && t.outs == [.step .d0 .out] &&
      t.driveTimer.s0 == some 2500000000500) = true := by decide

/-- R304: RECALIBRATE at track zero ends at once with PCN 0. -/
theorem test_step_recalibrate_done : answers
    (step (((withUnit0 fun u => { u with trackZero := true }).updSlot .d0 fun x => { x with pcn := 12 }).withFetchWord 16 0x0007))
    (fun t => (t.slot .d0).st0 == 0x20 && (t.slot .d0).pcn == 0) = true := by decide

/-- V-ERR-1: READ_DATA to a drive that is not ready. -/
theorem test_step_readData_unready : answers
    (step ((withUnit0 fun u => { u with ready := false }).withFetchWord 72 0xFF1B03020300050046))
    (fun t => t.res == [0x48, 0, 0, 5, 0, 3, 2] && t.phase == .result && t.irqOut) = true := by decide

/-- R231, R235: READ_DATA starts the header search. -/
theorem test_step_readData : answers (step (demo.withFetchWord 72 0xFF1B03020300050046))
    (fun t => (t.slot .d0).subState == .scanId && t.cur.sectorSize == 512 && t.live.isSome &&
      t.pll.nominal == 2000000000000 && t.mainStatus == 0x10) = true := by decide

/-- R241: READ_DELETED_DATA runs as a read. -/
theorem test_step_readDeletedData : answers (step (demo.withFetchWord 72 0xFF1B0302030005004C))
    (fun t => t.cur.op == .readDeletedData && (t.slot .d0).mainState == .readData && t.live.isSome) = true := by decide

/-- V-ERR-2: WRITE_DATA to a protected drive. -/
theorem test_step_writeData_protected : answers
    (step ((withUnit0 fun u => { u with writeProtected := true }).withFetchWord 72 0xFF1B03020300050045))
    (fun t => t.res == [0x40, 0x02, 0, 5, 0, 3, 2] && t.phase == .result) = true := by decide

/-- R255: WRITE_DATA starts the header search. -/
theorem test_step_writeData : answers (step (demo.withFetchWord 72 0xFF1B03020300050045))
    (fun t => t.cur.op == .writeData && (t.slot .d0).mainState == .writeData && t.live.isSome) = true := by decide

/-- R256: WRITE_DELETED_DATA, FM, head 1. -/
theorem test_step_writeDeletedData : answers (step (demo.withFetchWord 72 0xFF1B03020300050409))
    (fun t => t.cur.op == .writeDeletedData && (t.slot .d0).st0 == 0x04 && t.outs == [.sideSelected .d0 true] &&
      t.pll.nominal == 4000000000000) = true := by decide

/-- V-ERR-15: READ_ID while the drive seeks. -/
theorem test_step_readId_busy : answers (step ((demo.updSlot .d1 fun x => { x with mainState := .seek }).withFetchWord 16 0x014A))
    (fun t => t.res == [0x80] && (t.slot .d1).mainState == .seek) = true := by decide

/-- R268: READ_ID searches with its address 0. -/
theorem test_step_readId : answers (step (demo.withFetchWord 16 0x014A))
    (fun t => (t.slot .d1).mainState == .readId && t.cur.c == 0 && t.live.isSome) = true := by decide

/-- R262, R263: READ_TRACK waits for the index. -/
theorem test_step_readTrack : answers (step (demo.withFetchWord 72 0xFF1B03020300050042))
    (fun t => (t.slot .d0).mainState == .readTrack && (t.slot .d0).subState == .waitIndex && t.live.isNone) = true := by decide

/-- R272, R273: FORMAT_TRACK waits for the index. -/
theorem test_step_formatTrack : answers (step (demo.withFetchWord 48 0xE5540102004D))
    (fun t => (t.slot .d0).mainState == .formatTrack && (t.slot .d0).subState == .waitIndex && t.cur.sectorsLeft == 1 &&
      t.cur.fill == 0xE5) = true := by decide

/-- V-ERR-14: the invalid opcode byte 01. -/
theorem test_step_invalid : answers (step (demo.withFetchWord 8 0x01)) (fun t => t.res == [0x80] && t.phase == .result) = true := by
  decide

/-- R108: VERSION is another family member's. -/
theorem test_step_version_refused : refuses (step (demo.withFetchWord 8 0x10)) (.unmodelledCommand .version) = true := by decide

/-! ## One step of the engine, the timers and the registers -/

/-- R143, R179: the last cell of a written byte commits its transitions to the medium. -/
theorem test_step_commit : answers (engineStep 1000 { running .writeData .writeData .sectorWrite .writeSectorData with
      live := some { newTransfer .d0 .writeSectorData 0 with bitCounter := 1, shiftReg := 0x8000 }
      pll := pllStartWriting pll1000 0 })
    (fun t => (t.units.get .d0).flux0 == [500] && t.pll.writeStartTime == some 1000 && t.pll.writeBuffer.isEmpty) = true := by
  decide

/-- V-MSR: the values of the table. -/
theorem test_msr_values : demo.mainStatus = 0x80 ∧ { demo with dor := 0x08 }.mainStatus = 0x00 ∧
    { demo with cmd := [0x46] }.mainStatus = 0x90 ∧ (pending .readData .readData .scanId).mainStatus = 0x10 ∧
    { pending .readData .readData .sectorRead with internalDrq := true }.mainStatus = 0xD0 ∧
    { pending .writeData .writeData .sectorWrite with internalDrq := true, fifoWrite := true }.mainStatus = 0x90 ∧
    { pending .readData .readData .scanId with nd := true }.mainStatus = 0x30 ∧
    { pending .readData .readData .sectorRead with nd := true, internalDrq := true }.mainStatus = 0xF0 ∧
    { demo with phase := .result, res := [0x80] }.mainStatus = 0xD0 ∧
    (demo.updSlot .d1 fun x => { x with mainState := .seek }).mainStatus = 0x82 ∧
    (with0 fun x => { x with mainState := .recalibrate }).mainStatus = 0x81 := by decide

/-- V-SIS-3: the first poll after a reset gives each ready drive a reason. -/
theorem test_first_poll : ((pollExpiry demo).slot .d0).irq = .polled ∧ ((pollExpiry demo).slot .d1).irq = .polled ∧
    ((pollExpiry demo).slot .d2).irq = .none ∧ (pollExpiry demo).pollTimer = some 1024000000000500 := by decide

/-- R453: the reset input. -/
theorem test_hardware_reset : answers (step { with0 (fun x => { x with pcn := 7 }) with
      locked := true, inputs := [{ time := 500, input := .hardwareReset }] })
    (fun t => !t.locked && (t.slot .d0).pcn == 0 && t.pollTimer == some 100000000000500) = true := by decide

/-! ## A state and operands that meet the hypotheses of each statement -/

/-- A command for each of the shapes the statements group. -/
def cmdRead (d : Drive) : Instr := .readData true true true false d ⟨5, 0, 3, 2, 3, 0x1B, 0xFF⟩

def cmdWrite (d : Drive) : Instr := .writeData false true false d ⟨5, 0, 3, 2, 3, 0x1B, 0xFF⟩

def cmdFormat (d : Drive) : Instr := .formatTrack true false d 2 9 0x54 0xE5

/-- A write-protected drive 0 with the implied seek enabled and its head on cylinder 5. -/
def protected0 : State :=
  { withUnit0 fun u => { u with writeProtected := true } with fifocfg := 0x40 }.updSlot .d0 fun x => { x with pcn := 5 }

theorem witness_OpcodeBytesClassified :
    ((0x06, 9) ∈ ([(0x02, 9), (0x06, 9), (0x14, 1)] : List (BitVec 5 × Nat)) ∧ (0xE6 : Byte).extractLsb' 0 5 = 0x06) ∧
    ((0x0F : Byte).extractLsb' 0 5 = 0x0F ∧ (0x0F : Byte).getLsbD 7 = false) ∧
    ((0xFF : Byte).extractLsb' 0 5 = 0x1F ∧ (0xEF : Byte).extractLsb' 0 5 = 0x0F ∧ (0xEF : Byte).getLsbD 7 = true) ∧
    (0xFD : Byte).extractLsb' 0 5 = 0x1D ∧ (0x00 : Byte).extractLsb' 0 5 = 0x00 := by decide

theorem witness_OperandsReachTheCommandRecord : (0xFF : Byte).extractLsb' 0 2 = driveBits .d3 ∧
    (0x00 : Byte).extractLsb' 0 2 = driveBits .d0 ∧ (0xE6 : Byte).extractLsb' 0 5 = 0x06 ∧
    (0x0C : Byte).extractLsb' 0 5 = 0x0C ∧ (0xC5 : Byte).extractLsb' 0 5 = 0x05 ∧ (0xE9 : Byte).extractLsb' 0 5 = 0x09 ∧
    (0x42 : Byte).extractLsb' 0 5 = 0x02 ∧ (0xEA : Byte).extractLsb' 0 5 = 0x0A ∧ (0x4D : Byte).extractLsb' 0 5 = 0x0D ∧
    ((0x6F : Byte).extractLsb' 0 5 = 0x0F ∧ (0x6F : Byte).getLsbD 7 = false) ∧ (0xE7 : Byte).extractLsb' 0 5 = 0x07 := by
  refine ⟨?_, ?_, ?_, ?_, ?_, ?_, ?_, ?_, ?_, ?_, ?_⟩ <;> decide

/-- The host's write of a byte waiting now, in Command phase. -/
def hostByte (cmd : List Byte) (v : Byte) : State :=
  { demo with cmd := cmd, inputs := [{ time := 500, input := .hostWrite .data v }] }

theorem witness_StepRunsDecodedCommand :
    ((arrive (hostByte [0x03, 0xDF] 0x02)).work = .input (.hostWrite .data 0x02) [] ∧
      (hostByte [0x03, 0xDF] 0x02).phase = .command ∧ (hostByte [0x03, 0xDF] 0x02).notReset = true ∧
      decode ((hostByte [0x03, 0xDF] 0x02).cmd ++ [0x02]) = .known (.specify 13 15 1 false) []) ∧
    ((arrive (hostByte [] 0x94)).work = .input (.hostWrite .data 0x94) [] ∧ (hostByte [] 0x94).phase = .command ∧
      (hostByte [] 0x94).notReset = true ∧ decode ((hostByte [] 0x94).cmd ++ [0x94]) = .known (.lock true) []) := by decide

theorem witness_FetchedCommandRunsNext : tableCommand 24 0x02DF03 = encode (.specify 13 15 1 false) ∧
    tableCommand 8 0x06 = encode (.readData false false false false .d0 ⟨0, 0, 0, 0, 0, 0, 0⟩) := by decide

theorem witness_IncompleteCommandsKeepAcceptingBytes :
    (demo.phase = .command ∧ demo.notReset = true ∧ demo.cmd ++ [0x03] = 0x03 :: [] ∧ decodeOpcode 0x03 = .known 3 ∧
      ([] : List Byte).length + 1 < 3) ∧
    ({ demo with cmd := [0x03] }.cmd ++ [0xDF] = 0x03 :: [0xDF] ∧ ([0xDF] : List Byte).length + 1 < 3) := by decide

theorem witness_UnknownOpcodesAnswered : demo.phase = .command ∧ demo.notReset = true ∧ demo.cmd = [] ∧
    decodeOpcode 0x1F = .invalid ∧ decodeOpcode 0x8F = .refused .relativeSeek ∧
    ({ demo with cmd := [0x03, 0xDF] }.cmd = 0x03 :: [0xDF] ∧ decodeOpcode 0x03 = .known 3 ∧
      ([0xDF] : List Byte).length + 2 ≤ 3) := by decide

theorem witness_BusyDriveAnsweredInvalid :
    (mediumCommand (cmdRead .d1) = true ∧ ((demo.updSlot .d1 fun x => { x with mainState := .seek }).slot
      (loadCur (cmdRead .d1)).d).mainState ≠ .idle) ∧
    (seekCommand (.recalibrate .d1) = true ∧ ((demo.updSlot .d1 fun x => { x with mainState := .seek }).slot
      (loadCur (.recalibrate .d1)).d).mainState ≠ .idle) := by decide

theorem witness_SpecifyStoresTiming : (0xE3 : Byte).extractLsb' 0 5 = 0x03 := by decide

theorem witness_ConfigureStoresConfiguration : (0xF3 : Byte).extractLsb' 0 5 = 0x13 := by decide

theorem witness_LockSetsAndReports : (0x94 : Byte).extractLsb' 0 5 = 0x14 ∧ (0x74 : Byte).extractLsb' 0 5 = 0x14 := by decide

theorem witness_SenseDriveStatusReportsLines : (0xE4 : Byte).extractLsb' 0 5 = 0x04 ∧
    (0xFB : Byte).extractLsb' 0 2 = driveBits .d3 := by decide

/-- Reasons pending on drives 1 to 3. -/
def reasons : State :=
  ((demo.updSlot .d1 fun x => { x with irq := .polled }).updSlot .d2 fun x => { x with irq := .seekDone }).updSlot .d3
    fun x => { x with irq := .polled }

theorem witness_SenseInterruptReportsLowestReason : (0xE8 : Byte).extractLsb' 0 5 = 0x08 ∧
    (∀ d, (demo.slot d).irq = .none) ∧ (reasons.slot .d1).irq ≠ .none ∧
    (∀ e, (driveBits e).toNat < (driveBits .d1).toNat → (reasons.slot e).irq = .none) ∧
    ((with0 fun x => { x with irq := .seekDone }).slot .d0).irq ≠ .none := by
  refine ⟨by decide, fun d => by cases d <;> decide, by decide, fun d => by cases d <;> decide, by decide⟩

theorem witness_SeekStarts : (demo.slot .d0).mainState = .idle ∧ demo.driveReady .d0 = true ∧ (demo.slot .d0).pcn = 0 ∧
    (demo.slot .d0).pcn ≠ 0xFF := by decide

theorem witness_RecalibrateStarts : (demo.slot .d1).mainState = .idle ∧ demo.driveReady .d1 = true ∧
    demo.atTrackZero .d1 = false ∧
    (((withUnit0 fun u => { u with trackZero := true }).slot .d0).mainState = .idle ∧
      (withUnit0 fun u => { u with trackZero := true }).driveReady .d0 = true ∧
      (withUnit0 fun u => { u with trackZero := true }).atTrackZero .d0 = true) := by decide

theorem witness_SeekOfUnreadyDriveFails :
    (seekCommand (.seek true .d3 0xFF) = true ∧ (demo.slot (loadCur (.seek true .d3 0xFF)).d).mainState = .idle ∧
      demo.driveReady (loadCur (.seek true .d3 0xFF)).d = false) ∧
    (seekCommand (.recalibrate .d2) = true ∧ (demo.slot (loadCur (.recalibrate .d2)).d).mainState = .idle ∧
      demo.driveReady (loadCur (.recalibrate .d2)).d = false) := by decide

theorem witness_StepTimerMovesTheHead :
    ((with0 fun x => { x with mainState := .seek, subState := .waitStepPulse, pcn := 0xFF, dir := .inward }).slot
      .d0).subState = .waitStepPulse ∧
    ((with0 fun x => { x with mainState := .recalibrate, subState := .waitStepSettle }).slot .d0).subState =
      .waitStepSettle := by decide

/-- Drive 0 after the settle of a SEEK's or a RECALIBRATE's step. -/
def stepped (m : MainState) (pcn target : Byte) (counter : Nat) : State :=
  with0 fun x =>
    { x with mainState := m, subState := .waitStepSettle, pcn := pcn, seekTarget := target, counter := counter }

/-- A SEEK on and off its target; a RECALIBRATE at track zero, after 77 steps, and after 76. -/
theorem witness_SettleEndsOrStepsOn :
    (((stepped .seek 5 5 0).slot .d0).subState = .waitStepSettle ∧ ((stepped .seek 5 5 0).slot .d0).mainState = .seek ∧
      ((stepped .seek 5 5 0).slot .d0).pcn = ((stepped .seek 5 5 0).slot .d0).seekTarget) ∧
    ((stepped .seek 4 5 0).slot .d0).pcn ≠ ((stepped .seek 4 5 0).slot .d0).seekTarget ∧
    (((stepped .recalibrate 7 0 3).updUnit .d0 fun u => { u with trackZero := true }).atTrackZero .d0 = true ∧
      ((stepped .recalibrate 7 0 3).slot .d0).mainState = .recalibrate) ∧
    (stepped .recalibrate 7 0 77).atTrackZero .d0 = false ∧ 77 ≤ ((stepped .recalibrate 7 0 77).slot .d0).counter ∧
    ((stepped .recalibrate 7 0 76).slot .d0).counter < 77 := by decide

/-- R308: a RECALIBRATE that finds track zero after its third step ends with PCN 0 and ST0 20, its timer off. -/
theorem test_recalibrate_ends_at_track_zero :
    answers (driveTimerExpiry .d0 ((stepped .recalibrate 7 0 3).updUnit .d0 fun u => { u with trackZero := true }))
      (fun t => (t.slot .d0).pcn == 0 && (t.slot .d0).st0 == 0x20 && (t.slot .d0).irq == .seekDone &&
        (t.slot .d0).mainState == .idle && t.driveTimer.get .d0 == none) = true := by decide

theorem witness_SeekReachesItsTarget : (demo.slot .d0).mainState = .idle ∧ demo.driveReady .d0 = true ∧
    (∃ t, exec (.seek false .d0 0xFF) demo = .next t) ∧ (∃ t, exec (.seek false .d0 0) demo = .next t) :=
  ⟨by decide, by decide, ⟨_, rfl⟩, ⟨_, rfl⟩⟩

theorem witness_RecalibrateGivesUpAfter77Steps : (demo.slot .d0).mainState = .idle ∧ demo.driveReady .d0 = true ∧
    demo.atTrackZero .d0 = false ∧ (∃ t, exec (.recalibrate .d0) demo = .next t) ∧ 76 < 77 :=
  ⟨by decide, by decide, by decide, ⟨_, rfl⟩, by decide⟩

theorem witness_HeaderSearchStarts :
    (searchCommand (cmdWrite .d0) = true ∧ (demo.slot (loadCur (cmdWrite .d0)).d).mainState = .idle ∧
      demo.driveReady (loadCur (cmdWrite .d0)).d = true ∧ demo.live = none ∧
      (writeCommand (cmdWrite .d0) = true → demo.writeProtected (loadCur (cmdWrite .d0)).d = false) ∧
      (seeksImplicitly (cmdWrite .d0) = true → demo.fifocfg.getLsbD 6 = true →
        (demo.slot (loadCur (cmdWrite .d0)).d).pcn = (loadCur (cmdWrite .d0)).c)) ∧
    (searchCommand (cmdRead .d0) = true ∧ (protected0.slot (loadCur (cmdRead .d0)).d).mainState = .idle ∧
      protected0.driveReady (loadCur (cmdRead .d0)).d = true ∧ protected0.live = none ∧
      (writeCommand (cmdRead .d0) = true → protected0.writeProtected (loadCur (cmdRead .d0)).d = false) ∧
      protected0.fifocfg.getLsbD 6 = true ∧
      (protected0.slot (loadCur (cmdRead .d0)).d).pcn = (loadCur (cmdRead .d0)).c) := by decide

theorem witness_TrackCommandsWaitForIndex : trackCommand (cmdFormat .d1) = true ∧
    (demo.slot (loadCur (cmdFormat .d1)).d).mainState = .idle ∧ demo.driveReady (loadCur (cmdFormat .d1)).d = true ∧
    (writeCommand (cmdFormat .d1) = true → demo.writeProtected (loadCur (cmdFormat .d1)).d = false) ∧
    (seeksImplicitly (cmdFormat .d1) = true → demo.fifocfg.getLsbD 6 = true →
      (demo.slot (loadCur (cmdFormat .d1)).d).pcn = (loadCur (cmdFormat .d1)).c) ∧
    trackCommand (.readTrack true false .d0 ⟨5, 0, 3, 2, 3, 0x1B, 0xFF⟩) = true := by decide

/-- A command's implied seek to cylinder 5 at the end of a settle on cylinder `pcn`. -/
def settled (op : Op) (m : MainState) (pcn : Byte) : State :=
  (pending op m .waitStepSettle).updSlot .d0 fun x => { x with pcn := pcn, seekTarget := 5 }

theorem witness_ImpliedSeekMovesFirst : seeksImplicitly (cmdWrite .d0) = true ∧
    (demo.slot (loadCur (cmdWrite .d0)).d).mainState = .idle ∧ demo.driveReady (loadCur (cmdWrite .d0)).d = true ∧
    (writeCommand (cmdWrite .d0) = true → demo.writeProtected (loadCur (cmdWrite .d0)).d = false) ∧
    { demo with fifocfg := 0x40 }.fifocfg.getLsbD 6 = true ∧
    (demo.slot (loadCur (cmdWrite .d0)).d).pcn ≠ (loadCur (cmdWrite .d0)).c ∧
    (((settled .readData .readData 4).slot .d0).subState = .waitStepSettle ∧
      ((settled .readData .readData 4).slot .d0).mainState ∈ ([.readData, .writeData, .readTrack] : List MainState) ∧
      ((settled .readData .readData 4).slot .d0).pcn ≠ ((settled .readData .readData 4).slot .d0).seekTarget) ∧
    (((settled .writeData .writeData 5).slot .d0).subState = .waitStepSettle ∧
      ((settled .writeData .writeData 5).slot .d0).pcn = ((settled .writeData .writeData 5).slot .d0).seekTarget ∧
      (settled .writeData .writeData 5).cur.op ∈ ([.readData, .readDeletedData, .writeData, .writeDeletedData] : List Op) ∧
      (settled .writeData .writeData 5).tcDone = false ∧ (settled .writeData .writeData 5).live = none) ∧
    ((settled .readTrack .readTrack 5).cur.op = .readTrack ∧
      ((settled .readTrack .readTrack 5).slot .d0).mainState ∈ ([.readData, .writeData, .readTrack] : List MainState)) ∧
    ({ settled .readData .readData 5 with tcDone := true }.tcDone = true ∧ (settled .readData .readData 5).fifo = [] ∧
      ((settled .readData .readData 5).slot .d0).live = false) := by decide

theorem witness_UnreadyDriveEndsTheCommand : mediumCommand (cmdFormat .d3) = true ∧
    (demo.slot (loadCur (cmdFormat .d3)).d).mainState = .idle ∧
    demo.driveReady (loadCur (cmdFormat .d3)).d = false := by decide

theorem witness_ProtectedDriveEndsTheWrite : writeCommand (cmdFormat .d0) = true ∧
    (protected0.slot (loadCur (cmdFormat .d0)).d).mainState = .idle ∧
    protected0.driveReady (loadCur (cmdFormat .d0)).d = true ∧
    protected0.writeProtected (loadCur (cmdFormat .d0)).d = true := by decide

/-- The searches that read a header, of a read and of a write. -/
def reading : State := pending .readData .readData .scanId

def writing : State := pending .writeData .writeData .scanId

theorem witness_HeaderEvaluation :
    ((reading.slot .d0).mainState = .readData ∧ (reading.slot .d0).subState = .scanId ∧ reading.fifo = [] ∧
      reading.tcDone = false ∧ reading.cur.op = .readData) ∧
    ((writing.slot .d0).mainState = .writeData ∧ (writing.slot .d0).subState = .scanId ∧ writing.fifo = [] ∧
      writing.tcDone = false ∧ writing.cur.op = .writeData) ∧
    (header 1 5 0 3 2).crc ≠ 0 ∧
    ((header 0 0xFF 0 3 2).crc = 0 ∧ (header 0 0xFF 0 3 2).idbuf.c ≠ reading.cur.c) ∧
    ((header 0 5 0 4 2).crc = 0 ∧ (header 0 5 0 4 2).idbuf.c = reading.cur.c ∧
      ((header 0 5 0 4 2).idbuf.h ≠ reading.cur.h ∨ (header 0 5 0 4 2).idbuf.r ≠ reading.cur.r ∨
        (header 0 5 0 4 2).idbuf.n ≠ reading.cur.n)) ∧
    ((header 0 5 0 3 2).crc = 0 ∧ (header 0 5 0 3 2).idbuf = reading.cur.chrn ∧
      (header 0 5 0 3 2).idbuf = writing.cur.chrn) ∧
    (((pushed 16 reading).slot .d0).mainState = .readData ∧ ((pushed 16 reading).slot .d0).subState = .scanId ∧
      (pushed 16 reading).fifo ≠ [] ∧ (header 0 5 0 3 2).idbuf = (pushed 16 reading).cur.chrn) := by decide

/-- A header search with one index pulse counted. -/
def searchingOnce : State := (running .readId .readId .scanId .searchAddressMarkHeader).updSlot .d0 fun x => { x with counter := 1 }

theorem witness_IndexLimitEndsTheSearch :
    ((searchingOnce.units.get .d0).attached = true ∧ (searchingOnce.slot .d0).mainState = .readId ∧
      (searchingOnce.slot .d0).subState = .scanId ∧
      searchingOnce.live = some (newTransfer .d0 .searchAddressMarkHeader 500) ∧
      (newTransfer .d0 .searchAddressMarkHeader 500).drive = .d0 ∧ searchingOnce.pll.writeStartTime = none ∧
      searchingOnce.fifo = [] ∧ 2 ≤ (searchingOnce.slot .d0).counter + 1) ∧
    ((running .readData .readData .scanId .readIdBlock).slot .d0).counter + 1 < 2 := by decide

/-- A field of drive 0 whose last byte came, with this residual and mark. -/
def fieldOf (crc : BitVec 16) (deleted : Bool) : LiveTransfer :=
  { newTransfer .d0 .readSectorData 500 with crc := crc, markDeleted := deleted }

/-- A read in its field, `R` = 3 below `EOT`. -/
def inField (op : Op) (m : MainState) (sub : SubState) (eot : Byte) : State :=
  { pending op m sub with cur := { (pending op m sub).cur with eot := eot } }

/-- A read in the field of the last sector of its track, on head 0. -/
def lastField (mt : Bool) : State :=
  { inField .readData .readData .sectorRead 3 with
    cur := { (inField .readData .readData .sectorRead 3).cur with mt := mt } }

/-- The state in which `Advance` runs after a good field. -/
def afterGoodField (s : State) : State :=
  { s with
    live := none
    st1 := s.st1 ||| bitsIf false 0x20
    st2 := s.st2 ||| bitsIf false 0x40 ||| bitsIf false 0x20
    internalDrq := s.internalDrq || decide (s.fifo ≠ [])
    drives := s.drives.set .d0 { s.slot .d0 with live := false, st0 := (s.slot .d0).st0 } }

theorem witness_DataFieldEnd :
    (((inField .readData .readData .sectorRead 4).slot .d0).mainState = .readData ∧
      ((inField .readData .readData .sectorRead 4).slot .d0).subState = .sectorRead ∧
      (inField .readData .readData .sectorRead 4).fifo = [] ∧ (inField .readData .readData .sectorRead 4).cur.op = .readData) ∧
    ((fieldOf 1 false).crc ≠ 0 ∧ { Config.params with crcErrorContinues := false }.crcErrorContinues = false) ∧
    (¬ (inField .readData .readData .sectorRead 4).cur.eot < (inField .readData .readData .sectorRead 4).cur.r + 1 ∧
      (inField .readData .readData .sectorRead 4).par.crcErrorContinues = true ∧
      (fieldOf 0 true).markDeleted ≠ ((inField .readData .readData .sectorRead 4).cur.op == .readDeletedData) ∧
      (inField .readData .readData .sectorRead 4).cur.sk = false ∧
      (inField .readData .readData .sectorRead 4).tcDone = false ∧
      (fieldOf 0 false).markDeleted = ((inField .readData .readData .sectorRead 4).cur.op == .readDeletedData) ∧
      (inField .readData .readData .sectorRead 4).st1.getLsbD 4 = false) ∧
    ((pushed 3 (inField .readData .readData .sectorRead 4)).fifo ≠ [] ∧
      ((pushed 3 (inField .readData .readData .sectorRead 4)).slot .d0).subState = .sectorRead ∧
      (pushed 3 (inField .readData .readData .sectorRead 4)).st1.getLsbD 4 = false) ∧
    ((lastField true).cur.eot < (lastField true).cur.r + 1 ∧ (advance (afterGoodField (lastField true))).1 = false ∧
      (advance (afterGoodField (pushed 3 (lastField true)))).1 = false) ∧
    ((lastField false).cur.eot < (lastField false).cur.r + 1 ∧ (lastField false).fifo = [] ∧
      (advance (afterGoodField (lastField false))).1 = true) := by decide

theorem witness_WrittenFieldEnd :
    (((inField .writeData .writeData .sectorWrite 4).slot .d0).mainState = .writeData ∧
      ((inField .writeData .writeData .sectorWrite 4).slot .d0).subState = .sectorWrite ∧
      (inField .writeData .writeData .sectorWrite 4).cur.op = .writeData ∧
      ¬ (inField .writeData .writeData .sectorWrite 4).cur.eot < (inField .writeData .writeData .sectorWrite 4).cur.r + 1) ∧
    (inField .writeData .writeData .sectorWrite 4).tcDone = false ∧
    (inField .writeData .writeData .sectorWrite 4).st1.getLsbD 4 = false ∧
    { inField .writeData .writeData .sectorWrite 4 with st1 := 0x10 }.st1.getLsbD 4 = true := by decide

/-- A write at the end of the field of the last sector of its track, on head 0, as `Advance` sees it. -/
def lastWritten (mt : Bool) : State :=
  { inField .writeData .writeData .sectorWrite 3 with
    live := none
    cur := { (inField .writeData .writeData .sectorWrite 3).cur with mt := mt }
    drives := (inField .writeData .writeData .sectorWrite 3).drives.set .d0
      { (inField .writeData .writeData .sectorWrite 3).slot .d0 with live := false } }

/-- R258, R250: a single-sector write ends with its last sector's field; a multi-track one goes on with the other head. -/
theorem witness_WrittenFieldEndOfTrack :
    ((lastWritten false).cur.eot < (lastWritten false).cur.r + 1 ∧ (advance (lastWritten false)).1 = true ∧
      (advance (lastWritten false)).2.st1 = 0x80) ∧
    ((lastWritten true).cur.eot < (lastWritten true).cur.r + 1 ∧ (advance (lastWritten true)).1 = false ∧
      (lastWritten true).st1.getLsbD 4 = false ∧ (advance (lastWritten true)).2.cur.h = 1) := by decide

theorem witness_TrackAndIdReports : (inField .readTrack .readTrack .scanId 2).fifo = [] ∧
    (((inField .readTrack .readTrack .scanId 2).slot .d0).mainState = .readTrack ∧
      ((inField .readTrack .readTrack .scanId 2).slot .d0).subState = .scanId) ∧
    (((inField .readTrack .readTrack .sectorRead 2).slot .d0).mainState = .readTrack ∧
      ((inField .readTrack .readTrack .sectorRead 2).slot .d0).subState = .sectorRead) ∧
    ((inField .readTrack .readTrack .sectorRead 1).cur.eot.toNat ≤ (inField .readTrack .readTrack .sectorRead 1).cur.count + 1) ∧
    ((inField .readTrack .readTrack .sectorRead 2).tcDone = false ∧
      (inField .readTrack .readTrack .sectorRead 2).cur.count + 1 < (inField .readTrack .readTrack .sectorRead 2).cur.eot.toNat ∧
      (inField .readTrack .readTrack .sectorRead 2).st1.getLsbD 4 = false) ∧
    (((inField .readId .readId .scanId 0).slot .d0).mainState = .readId ∧
      ((inField .readId .readId .scanId 0).slot .d0).subState = .scanId) ∧
    ((pushed 3 (inField .readTrack .readTrack .sectorRead 2)).fifo ≠ [] ∧
      ((pushed 3 (inField .readTrack .readTrack .sectorRead 2)).slot .d0).mainState = .readTrack ∧
      ((pushed 3 (inField .readTrack .readTrack .sectorRead 2)).slot .d0).subState = .sectorRead ∧
      (pushed 3 (inField .readTrack .readTrack .sectorRead 2)).st1.getLsbD 4 = false) := by decide

/-- Read Track and Format Track waiting for the index, and their transfers running. -/
theorem witness_IndexPulsesDriveTrackCommands :
    (((pending .readTrack .readTrack .waitIndex).units.get .d0).attached = true ∧
      (pending .readTrack .readTrack .waitIndex).live = none ∧
      ((pending .readTrack .readTrack .waitIndex).slot .d0).subState = .waitIndex ∧
      ((pending .readTrack .readTrack .waitIndex).slot .d0).mainState = .readTrack) ∧
    (((pending .formatTrack .formatTrack .waitIndex).slot .d0).subState = .waitIndex ∧
      ((pending .formatTrack .formatTrack .waitIndex).slot .d0).mainState = .formatTrack) ∧
    (((running .readTrack .readTrack .sectorRead .readSectorData).slot .d0).mainState = .readTrack ∧
      ((running .readTrack .readTrack .sectorRead .readSectorData).slot .d0).subState = .sectorRead ∧
      (running .readTrack .readTrack .sectorRead .readSectorData).fifo = [] ∧
      (running .readTrack .readTrack .sectorRead .readSectorData).live = some (newTransfer .d0 .readSectorData 500)) ∧
    (((running .formatTrack .formatTrack .trackWrite .writeTrackPostSectors).slot .d0).mainState = .formatTrack ∧
      ((running .formatTrack .formatTrack .trackWrite .writeTrackPostSectors).slot .d0).subState = .trackWrite ∧
      (running .formatTrack .formatTrack .trackWrite .writeTrackPostSectors).cur.op = .formatTrack ∧
      (running .formatTrack .formatTrack .trackWrite .writeTrackPostSectors).live =
        some (newTransfer .d0 .writeTrackPostSectors 500)) ∧
    ((running .formatTrack .formatTrack .trackWrite .writeTrackSector).live = some (newTransfer .d0 .writeTrackSector 500) ∧
      (newTransfer .d0 .writeTrackSector 500).state ≠ .writeTrackPostSectors) ∧
    (demo.slot .d0).mainState = .idle := by
  refine ⟨?_, ?_, ?_, ?_, ?_, ?_⟩ <;> decide

/-- The pulses that are ignored: in a field, in Drain, during an implied seek, and of a slot with no drive. -/
theorem witness_IgnoredIndexPulses :
    (((running .writeData .writeData .sectorWrite .writeSectorData).slot .d0).mainState = .writeData ∧
      ((running .writeData .writeData .sectorWrite .writeSectorData).slot .d0).subState = .sectorWrite) ∧
    (((pending .readData .readData .drain).slot .d0).mainState = .readData ∧
      ((pending .readData .readData .drain).slot .d0).subState = .drain) ∧
    (((settled .readTrack .readTrack 4).slot .d0).mainState = .readTrack ∧
      ((settled .readTrack .readTrack 4).slot .d0).subState = .waitStepSettle) ∧
    (demo.units.get .d2).attached = false := by decide

/-- R410: a field that ends its command with a byte the host has not taken leaves the drive in Drain. -/
theorem test_field_end_drains :
    answers (report .fieldRead (fieldOf 1 false)
        { pushed 1 (inField .readData .readData .sectorRead 4) with
          par := { Config.params with crcErrorContinues := false } })
      (fun t => (t.slot .d0).subState == .drain && t.phase == .execution && t.internalDrq && t.live == none) = true := by
  decide

/-- The address of `Advance`. -/
def atAddress (r eot h : Byte) (mt : Bool) : Cur := { c := 5, h := h, r := r, eot := eot, mt := mt }

theorem witness_AdvanceRule : ¬ (atAddress 2 3 0 false).eot < (atAddress 2 3 0 false).r + 1 ∧
    (atAddress 3 3 0 false).eot < (atAddress 3 3 0 false).r + 1 ∧
    ((atAddress 9 9 0 true).eot < (atAddress 9 9 0 true).r + 1 ∧ (atAddress 9 9 0 true).h.getLsbD 0 = false) ∧
    ((atAddress 9 9 1 true).eot < (atAddress 9 9 1 true).r + 1 ∧ (atAddress 9 9 1 true).h.getLsbD 0 = true) ∧
    ((atAddress 0xFF 0xFF 0 false).r = 0xFF ∧ (atAddress 0xFF 0xFF 0 false).eot = 0xFF) ∧
    demo.tcDone = false ∧ { demo with tcDone := true }.tcDone = true := by decide

theorem witness_FifoKeepsOrderAndBound : (pushed 16 demo).fifo.length = 16 ∧ (pushed 15 demo).fifo.length < 16 ∧
    demo.fifo = [] ∧ (pushed 1 demo).fifo = 0x01 :: [] ∧ demo.fifoWrite = false ∧
    ((fifoExpect 1 (pushed 15 demo)).fifoWrite = true ∧ (fifoExpect 1 (pushed 15 demo)).fifoExpected ≠ 0 ∧
      (fifoExpect 1 (pushed 15 demo)).fifo.length < 16) := by decide

theorem witness_FifoRequestsTheHost : (pushed 15 demo).fifo.length < 16 ∧ demo.tcDone = false ∧
    { demo with tcDone := true }.tcDone = true ∧
    ((fifoExpect 1 (pushed 15 demo)).fifoWrite = true ∧ (fifoExpect 1 (pushed 15 demo)).fifoExpected ≠ 0 ∧
      (fifoExpect 1 (pushed 15 demo)).fifo.length < 16) ∧
    (pushed 16 demo).fifo.length = 16 ∧
    (demo.fifoWrite = false ∧ demo.fifo.length ≤ 1 ∧ (pushed 1 demo).fifo.length ≤ 1 ∧ 1 < (pushed 2 demo).fifo.length ∧
      (pushed 2 demo).fifoWrite = false) := by decide

theorem witness_TerminalCount : demo.phase ≠ .execution ∧
    ((running .readData .readData .scanId .readIdBlock).phase = .execution ∧
      (running .readData .readData .scanId .readIdBlock).tcDone = false ∧
      (∀ L, (running .readData .readData .scanId .readIdBlock).live = some L →
        L.drive = (running .readData .readData .scanId .readIdBlock).cur.d ∧ L.state ≠ .searchAddressMarkData ∧
          L.state ≠ .readDataBlockHeader) ∧
      ((running .readData .readData .scanId .readIdBlock).slot
        (running .readData .readData .scanId .readIdBlock).cur.d).subState = .scanId) ∧
    ((pending .readTrack .readTrack .waitIndex).live = none ∧
      ((pending .readTrack .readTrack .waitIndex).slot .d0).live = false ∧
      ((pending .readTrack .readTrack .waitIndex).slot .d0).subState = .waitIndex) ∧
    (((pending .readData .readData .drain).slot .d0).subState = .drain ∧ (pending .readData .readData .drain).live = none ∧
      ((pending .readData .readData .drain).slot .d0).live = false) ∧
    (((running .readData .readData .sectorRead .readDataBlockHeader).slot .d0).subState = .sectorRead ∧
      (running .readData .readData .sectorRead .readDataBlockHeader).live = some (newTransfer .d0 .readDataBlockHeader 500)) ∧
    (((running .writeData .writeData .sectorWrite .writeSectorData).slot .d0).subState = .sectorWrite ∧
      (running .writeData .writeData .sectorWrite .writeSectorData).live = some (newTransfer .d0 .writeSectorData 500) ∧
      (newTransfer .d0 .writeSectorData 500).state ≠ .searchAddressMarkData ∧
      (newTransfer .d0 .writeSectorData 500).state ≠ .readDataBlockHeader) ∧
    ((settled .readData .readData 4).phase = .execution ∧ (settled .readData .readData 4).tcDone = false ∧
      ((settled .readData .readData 4).slot (settled .readData .readData 4).cur.d).subState = .waitStepSettle ∧
      ((pending .readTrack .readTrack .waitStepPulse).slot .d0).subState = .waitStepPulse ∧
      (settled .readData .readData 4).live = none) ∧
    (demo.tcLevel = false ∧ { demo with tcLevel := true }.tcLevel = true) := by
  refine ⟨by decide, ⟨by decide, by decide, fun L h => ?_, by decide⟩, by decide, by decide, by decide, by decide, by decide, by decide⟩
  cases h
  decide

theorem witness_DrainDeliversEveryByte :
    (pushed 16 reading).cur.op ∈ ([.readData, .readDeletedData, .readTrack] : List Op) ∧ (pushed 16 reading).fifo ≠ [] ∧
    (pushed 16 reading).tcDone = false ∧ (pushed 16 reading).fifoWrite = false ∧ (pushed 16 reading).live = none ∧
    ((pushed 16 reading).slot (pushed 16 reading).cur.d).live = false ∧ 15 < (pushed 16 reading).fifo.length := by decide

theorem witness_ResultBytesLeaveInOrder : (enterResult [0x40, 0x04, 0, 5, 0, 3, 2] demo).phase = .result ∧
    (enterResult [0x80] demo).phase = .result ∧ (enterResult [0x80] demo).res = 0x80 :: [] ∧
    (enterResult [0x40, 0x04, 0, 5, 0, 3, 2] demo).res = 0x40 :: [0x04, 0, 5, 0, 3, 2] := by decide

theorem witness_DataPortByPhase : demo.phase = .command ∧ (reading.phase = .execution ∧ reading.cur.op = .readData) ∧
    (writing.phase = .execution ∧ writing.cur.op = .writeData ∧ writing.dor.getLsbD 2 = true) ∧
    ((pending .readId .readId .scanId).phase = .execution ∧ (pending .readId .readId .scanId).cur.op = .readId) ∧
    (enterResult [0x80] demo).phase = .result ∧ { demo with dor := 0x08 }.dor.getLsbD 2 = false := by decide

theorem witness_DigitalOutputWrite : demo.dor.getLsbD 2 = (0x14 : Byte).getLsbD 2 ∧
    (demo.dor.getLsbD 2 = true ∧ (0xF8 : Byte).getLsbD 2 = false) ∧
    ({ demo with dor := 0x00 }.dor.getLsbD 2 = false ∧ (0x8C : Byte).getLsbD 2 = true) := by decide

theorem witness_RateRegisterWrites : (0x7F : Byte).getLsbD 7 = false ∧ (0x80 : Byte).getLsbD 7 = true ∧
    demo.dor.getLsbD 2 = true ∧ { demo with dor := 0x00 }.dor.getLsbD 2 = false := by decide

/-- A step that answers with a next state which changes the configuration, and one that only reads. -/
theorem witness_OutputLinesFollowTheirSources : ∃ t, step (demo.withFetchWord 24 0x02DF03) = .next t := ⟨_, rfl⟩

theorem witness_ReadyPollReportsChanges :
    (demo.par.readyPolled = true ∧ demo.dor.getLsbD 2 = true ∧ { demo with fifocfg := 0x0F }.fifocfg.getLsbD 4 = false ∧
      demo.phase = .command ∧ demo.cmd = []) ∧
    ((demo.slot .d0).mainState = .idle ∧ demo.driveReady .d0 ≠ (demo.slot .d0).ready) ∧
    demo.driveReady .d3 = (demo.slot .d3).ready ∧ { demo with fifocfg := 0x10 }.fifocfg.getLsbD 4 = true := by decide

theorem witness_SoftResetRule : demo.live = none ∧
    (running .readData .readData .scanId .readIdBlock).live = some (newTransfer .d0 .readIdBlock 500) := by decide

theorem witness_LinesLowAfterReset : ∃ t, t = softReset (running .readData .readData .scanId .readIdBlock) := ⟨_, rfl⟩

theorem witness_PllWindowTest : ((999 : Int) < pll1000.ctime + pll1000.period + pll1000.phaseAdjust) ∧
    (pll1000.ctime + pll1000.period + pll1000.phaseAdjust ≤ 1000 ∧ (1000 : Int) ≤ 2000) ∧
    ((999 : Int) < pll1000.ctime + pll1000.period + pll1000.phaseAdjust ∧
      pll1000.ctime + pll1000.period + pll1000.phaseAdjust ≤ (1000 : Int)) ∧
    ({ running .readData .readData .scanId .readIdBlock with pll := pll1000 }.live = some (newTransfer .d0 .readIdBlock 500) ∧
      (newTransfer .d0 .readIdBlock 500).state.writes = false ∧
      (readCell 999 (newTransfer .d0 .readIdBlock 500)
        { running .readData .readData .scanId .readIdBlock with pll := pll1000 }).isNone = true) := by decide

theorem witness_PllStaysBounded : (100 : Int) ≤ 100 ∧ PllInv pll1000 ∧ pllWindowEnd pll1000 ≤ 1000 :=
  ⟨by decide, by constructor <;> decide, by decide⟩

theorem witness_PllReadsWrittenCells :
    ((999 : Int) < pll1000.ctime + pll1000.nominal ∧ pll1000.ctime + pll1000.nominal ≤ 1000) ∧
    ({ demo with pll := pll1000 }.pll.writeStartTime = none ∧
      { demo with pll := pllStartWriting pll1000 7 }.pll.writeStartTime = some 7 ∧ (7 : Int) ≠ 8) ∧
    ((100 : Int) ≤ 100 ∧ (demo.units.get .d0).attached = true ∧ FluxWf (demo.units.get .d0).flux ∧
      ∀ c ∈ ([List.replicate 16 true, [], [true, false]] : List (List Bool)), c.length ≤ 16) := by decide

theorem witness_CodecReadsWhatItWrites : 0 < 8 ∧ 7 < 8 ∧ (newTransfer .d0 .readIdBlock 0).dataSeparatorPhase = false := by decide

/-- A rising list; a slot with no drive, and a drive with head 0 and with head 1 selected. -/
theorem witness_FluxReplacement : FluxWf [-5, 0, 7] ∧ (demo.units.get .d3).attached = false ∧
    ((demo.units.get .d0).attached = true ∧ (demo.units.get .d0).side = false) ∧
    (((demo.selectSide .d0 true).units.get .d0).attached = true ∧
      ((demo.selectSide .d0 true).units.get .d0).side = true) := by decide

/-- R351, R86: the selected head's flux is the one that is read. -/
theorem test_selected_head_is_read :
    let s := withUnit0 fun u => { u with flux0 := [600], flux1 := [700] }
    s.nextFlux .d0 500 = some 600 ∧ (s.selectSide .d0 true).nextFlux .d0 500 = some 700 ∧
      (s.selectSide .d2 true).nextFlux .d2 500 = none := by decide

/-- A transfer of drive 0 in a live state, with these cell and byte counts. -/
def atCell (st : LiveState) (bit byte : Nat) : LiveTransfer :=
  { newTransfer .d0 st 500 with bitCounter := bit, byteCounter := byte }

/-- That transfer running, its PLL clocked at 1000 and writing. -/
def cellState (st : LiveState) (bit byte : Nat) : State :=
  { running .readData .readData .sectorRead st with
    live := some (atCell st bit byte), pll := pllStartWriting pll1000 0 }

/-- R191, R142: an abort in the middle of a byte writes its cells so far. -/
theorem test_abort_flushes_partial_byte :
    (liveAbort { cellState .writeSectorData 7 0 with pll := { pllStartWriting pll1000 0 with writeBuffer := [250] } }).outs =
      [.writeFlux .d0 0 500 [250]] := by decide

theorem witness_WriteCellsRule :
    (cellState .writeSectorData 16 0).live = some (atCell .writeSectorData 16 0) ∧
    (∀ st ∈ ([.writeSectorData, .writeTrackPreSectors, .writeTrackSector, .writeTrackPostSectors] : List LiveState),
      (atCell st 0 0).bitCounter = 0 ∧ (atCell st 1 0).bitCounter = 1 ∧ 0 < (atCell st 16 0).bitCounter ∧
        (atCell st 16 0).bitCounter ≠ 1 ∧
        writeBit (cellState st 16 0).pll ((atCell st 16 0).shiftReg.getLsbD 15) 999 = none ∧
        (writeBit (cellState st 16 0).pll ((atCell st 16 0).shiftReg.getLsbD 15) 1000).isSome = true) := by decide

/-- The positions where a row of a layout begins or ends, with 128-byte sectors and a gap of 54 bytes. -/
theorem witness_TrackLayouts :
    (∀ k ∈ [0, 79, 80, 91, 92, 94, 95, 96, 145, 146, 40, 45, 46, 47, 72, 73],
      (atCell .writeTrackPreSectors 0 k).state = .writeTrackPreSectors ∧ (atCell .writeTrackPreSectors 0 k).byteCounter = k) ∧
    (∀ k ∈ [0, 11, 12, 14, 15, 16, 19, 20, 21, 22, 43, 44, 55, 56, 58, 59, 60, 187, 188, 189, 190, 243, 244],
      (atCell .writeTrackSector 0 k).state = .writeTrackSector ∧ (atCell .writeTrackSector 0 k).byteCounter = k) ∧
    (61 + 128 = 189 ∧ 62 + 128 + 54 = 244 ∧ 33 + 128 + 54 = 215) ∧
    ({ demo with cur := { mf := true, sectorSize := 128, gpl := 54, sc := 9, sectorsLeft := 1 } }.cur.mf = true ∧
      demo.cur.mf = false) ∧ (atCell .writeTrackPostSectors 0 7).state = .writeTrackPostSectors := by decide

theorem witness_ReadStatesRule :
    (cellState .readIdBlock 95 0).live = some (atCell .readIdBlock 95 0) ∧
    (nextBit (cellState .readIdBlock 95 0).pll
      ((cellState .readIdBlock 95 0).nextFlux .d0 (cellState .readIdBlock 95 0).pll.ctime) 1000).isSome = true ∧
    ((atCell .readHeaderBlockHeader 15 0).bitCounter + 1 = 16 ∧ (atCell .readHeaderBlockHeader 47 0).bitCounter + 1 = 48 ∧
      ((atCell .readHeaderBlockHeader 16 0).bitCounter + 1) % 16 ≠ 0) ∧
    ((atCell .readIdBlock 15 0).bitCounter + 1 = 16 * (0 + 1) ∧ (atCell .readIdBlock 63 0).bitCounter + 1 = 16 * (3 + 1) ∧
      (atCell .readIdBlock 79 0).bitCounter + 1 = 80 ∧ (atCell .readIdBlock 95 0).bitCounter + 1 = 96) ∧
    ((atCell .searchAddressMarkData 350 0).bitCounter + 1 < 352 ∧ 352 ≤ (atCell .searchAddressMarkData 351 0).bitCounter + 1 ∧
      (atCell .searchAddressMarkData 991 0).bitCounter + 1 ≤ 992 ∧ 992 < (atCell .searchAddressMarkData 992 0).bitCounter + 1 ∧
      176 ≤ (atCell .searchAddressMarkData 175 0).bitCounter + 1 ∧ (atCell .searchAddressMarkData 367 0).bitCounter + 1 ≤ 368 ∧
      368 < (atCell .searchAddressMarkData 368 0).bitCounter + 1) ∧
    ((atCell .readSectorData 2047 0).bitCounter + 1 = 16 * (127 + 1) ∧
      (atCell .readSectorData 2063 0).bitCounter + 1 = 16 * (128 + 1) ∧
      (atCell .readSectorData 2079 0).bitCounter + 1 = 16 * (128 + 2)) ∧
    ((atCell .writeSectorSkipGap2 351 0).bitCounter + 1 = 16 * 22 ∧
      (atCell .writeSectorSkipGap2 175 0).bitCounter + 1 = 16 * 11) := by decide

theorem witness_DataFieldWriteLayout : (newTransfer .d0 .writeSectorData 500).state = .writeSectorData ∧
    { demo with cur := { mf := true, sectorSize := 128 } }.cur.mf = true ∧ demo.cur.mf = false ∧
    { newTransfer .d0 .writeSectorData 500 with byteCounter := 12 }.byteCounter = 12 ∧
    ({ newTransfer .d0 .writeSectorData 500 with byteCounter := 146 }.byteCounter = 18 + 128) ∧
    (demo.tcDone = false ∧ { demo with tcDone := true }.tcDone = true ∧ demo.fifo = []) := by decide

/-- The invariants of a transfer that runs. -/
theorem test_invariant_while_running : ControllerInv (running .readData .readData .scanId .readIdBlock) where
  fifo_le := by decide
  res_le := by decide
  cmd_partial := trivial
  cmd_phase _ := rfl
  res_phase := by decide
  live_iff d := by
    constructor
    · intro h; cases d <;> first | exact ⟨_, rfl, rfl⟩ | cases h
    · rintro ⟨_, h, k⟩; cases h; cases k; rfl
  live_runs L h := by cases h; decide
  engine_phase d := by cases d <;> decide
  execution_engine := by decide
  idle_sub d := by cases d <;> decide

theorem witness_ControllerInvariantKept : ControllerInv (running .readData .readData .scanId .readIdBlock) ∧
    ∃ t, step (running .readData .readData .scanId .readIdBlock) = .next t := ⟨test_invariant_while_running, ⟨_, rfl⟩⟩

theorem witness_MediaAndPllInvariantsKept : (∃ t, step (demo.withFetchWord 72 0xFF1B03020300050046) = .next t) ∧
    MediaInv (demo.withFetchWord 72 0xFF1B03020300050046) ∧ RunningPll (demo.withFetchWord 72 0xFF1B03020300050046) :=
  ⟨⟨_, rfl⟩, fun d => by cases d <;> decide, fun h => by cases h⟩

/-- A write span open on head 0 of drive 0 since instant 0, and none on the other head. -/
theorem witness_WriteSpan : (∃ t, step (cellState .writeSectorData 16 0) = .next t ∧ t.now = 1000) ∧
    (arrive (cellState .writeSectorData 16 0)).work = .engine ∧ WritingSince (cellState .writeSectorData 16 0) .d0 false 0 ∧
    (∀ w, ¬ WritingSince (cellState .writeSectorData 16 0) .d0 true w) ∧ (-1 : Int) < 0 :=
  ⟨⟨_, rfl, rfl⟩, by decide, ⟨⟨_, rfl, rfl⟩, by decide, by decide, rfl⟩, fun _ h => absurd h.2.2.1 (by decide), by decide⟩

/-- The invariants of the demo state with any input waiting. -/
theorem test_invariant_of_demo (es : List Event) : ControllerInv { demo with inputs := es } :=
  ControllerInv.reset rfl rfl rfl rfl rfl fun d => by cases d <;> exact ⟨rfl, rfl, rfl⟩

theorem witness_OnlyNamedRefusals : ControllerInv { demo with inputs := [{ time := 500, input := .hostWrite .data 0x10 }] } ∧
    ControllerInv { demo with inputs := [{ time := 500, input := .hostRead .extended }] } ∧
    refuses (step { demo with inputs := [{ time := 500, input := .hostRead .extended }] }) .extendedRegister = true :=
  ⟨test_invariant_of_demo _, test_invariant_of_demo _, by decide⟩

theorem witness_ConfigurationChangesOnlyByTheHost :
    (∃ t, step (hostByte [] 0x94) = .next t ∧ t.locked ≠ (hostByte [] 0x94).locked) ∧
    ((∃ t, step { demo with pollTimer := some 500 } = .next t) ∧
      (∀ reg v rest, (arrive { demo with pollTimer := some 500 }).work ≠ .input (.hostWrite reg v) rest) ∧
      ∀ rest, (arrive { demo with pollTimer := some 500 }).work ≠ .input .hardwareReset rest) :=
  ⟨⟨_, rfl, by decide⟩, ⟨_, rfl⟩, by
    have h : (arrive { demo with pollTimer := some 500 }).work = .poll := by decide
    rw [h]
    exact ⟨fun _ _ _ k => (nomatch k), fun _ k => (nomatch k)⟩⟩

/-- A state with work of every kind due at one instant. -/
def crowded : State :=
  { running .readData .readData .scanId .readIdBlock with
    pll := { pll1000 with ctime := -1000 }
    driveTimer := { s0 := none, s1 := some 500, s2 := some 500, s3 := none }
    pollTimer := some 500
    inputs := [{ time := 500, input := .hostRead .msr }, { time := 500, input := .tc true },
      { time := 500, input := .index .d1 }] }

/-- That state with no transfer running and no timer armed. -/
def quiet : State := { crowded with live := none, driveTimer := Slots.replicate none, pollTimer := none, inputs := [] }

theorem witness_SameInstantOrder : dueAt crowded.now crowded.liveTimer = true ∧
    { crowded with live := none }.work = .driveTimer .d1 ∧
    { crowded with live := none, driveTimer := Slots.replicate none }.work = .poll ∧
    { crowded with live := none, driveTimer := Slots.replicate none, pollTimer := none }.work =
      .input (.index .d1) [{ time := 500, input := .hostRead .msr }, { time := 500, input := .tc true }] ∧
    ({ time := 500, input := .tc true } ∈ crowded.inputs ∧ crowded.now ≤ 500) ∧
    (crowded.driveTimer.get .d1 = some 500 ∧ crowded.pollTimer = some 500) ∧
    { crowded with
      live := none
      inputs := { time := 400, input := .lines .d2 true true true true true } :: crowded.inputs }.work =
      .input (.lines .d2 true true true true true) crowded.inputs ∧
    { quiet with inputs := [{ time := 500, input := .dmaRead }, { time := 500, input := .hardwareReset },
      { time := 500, input := .tc true }, { time := 500, input := .tc false }] }.work =
      .input (.tc true) [{ time := 500, input := .dmaRead }, { time := 500, input := .hardwareReset },
        { time := 500, input := .tc false }] ∧
    { quiet with inputs := [{ time := 500, input := .dmaRead }, { time := 500, input := .hardwareReset }] }.work =
      .input .hardwareReset [{ time := 500, input := .dmaRead }] ∧
    { quiet with inputs := [{ time := 500, input := .dmaRead }, { time := 500, input := .hostRead .msr }] }.work =
      .input .dmaRead [{ time := 500, input := .hostRead .msr }] ∧
    { quiet with inputs := [{ time := 501, input := .dmaRead }] }.work = .nothing := by decide

/-- One state for each kind of piece of work a step can have. -/
theorem witness_StepTakesWorkOfEveryKind : (arrive crowded).work = .engine ∧
    (arrive { crowded with live := none }).work = .driveTimer .d1 ∧
    (arrive { quiet with pollTimer := some 600 }).work = .poll ∧ (arrive quiet).work = .nothing ∧
    ∀ i ∈ ([.hostWrite .dor 0x0C, .hostRead .data, .dmaRead, .dmaWrite 7, .tc true, .index .d1, .hardwareReset,
        .lines .d3 true true false false true, .flux .d1 true [5, 3]] : List Input),
      (arrive { quiet with inputs := [{ time := 501, input := i }] }).work = .input i [] := by decide

/-- R90: the least pending instant, an instant in the past, and no instant. -/
theorem witness_ArrivalInstant :
    (PendingAt { quiet with pollTimer := some 600 } 600 ∧ (arrive { quiet with pollTimer := some 600 }).now = 600) ∧
    (PendingAt crowded 500 ∧ (500 : Int) ≤ crowded.now) ∧ quiet.liveTimer = none ∧
    (∀ d, quiet.driveTimer.get d = none) ∧ quiet.pollTimer = none ∧ quiet.inputs = [] :=
  ⟨⟨.inr (.inr (.inl rfl)), by decide⟩, ⟨.inr (.inr (.inl rfl)), by decide⟩, by decide, fun d => by cases d <;> rfl, rfl, rfl⟩

/-- A transfer in every kind of state: reported, reading, writing a cell, choosing the next word. -/
theorem witness_LiveTimerRule : (cellState .idle 0 0).liveTimer = none ∧
    (cellState .writeSectorSkipGap2 3 0).liveTimer = some 1000 ∧ (cellState .writeTrackSector 3 0).liveTimer = some 1000 ∧
    (cellState .writeTrackSector 0 0).liveTimer = some 500 := by decide

end Sys2Proof.Tests
end

section
/-! PROOFS. The decoder reads `OPC` and bit 7 of an opcode byte and nothing else (spec/30_encoding.md R101, R110), so what it
answers on the 256 byte values is settled on the 64 bytes that have the other two flag bits clear. -/

namespace Sys2Proof.Proofs

@[simp] theorem opc_opcodeByte (mt mf sk : Bool) (o : BitVec 5) : opc (opcodeByte mt mf sk o) = o :=
  BitVec.extractLsb'_append_eq_right

@[simp] theorem bitAt_seven_opcodeByte (mt mf sk : Bool) (o : BitVec 5) : bitAt (opcodeByte mt mf sk o) 7 = mt :=
  BitVec.getLsbD_append.trans (by cases mt <;> cases mf <;> cases sk <;> rfl)

theorem decodeOpcode_congr {a b : Byte} (hopc : opc a = opc b) (h7 : bitAt a 7 = bitAt b 7) :
    decodeOpcode a = decodeOpcode b := by
  simp only [decodeOpcode, hopc, h7]

/-- Bits 6 and 5 of an opcode byte do not take part in its outcome. -/
theorem decodeOpcode_of_opc {b : Byte} {o : BitVec 5} (ho : opc b = o) :
    decodeOpcode b = decodeOpcode (opcodeByte (bitAt b 7) false false o) :=
  decodeOpcode_congr (by simp [ho]) (by simp)

/-- A table whose rows hold for the bytes the encoder makes, with either value of bit 7, holds for every byte. -/
theorem decodeOpcode_of_rows {α : Type} {rows : List (BitVec 5 × α)} {outcome : α → OpcodeClass}
    (hrows : ∀ r ∈ rows, ∀ mt, decodeOpcode (opcodeByte mt false false r.1) = outcome r.2) (b : Byte) :
    ∀ r ∈ rows, opc b = r.1 → decodeOpcode b = outcome r.2 :=
  fun r hr ho => (decodeOpcode_of_opc ho).trans (hrows r hr _)

theorem decodeOpcode_seek {b : Byte} (ho : opc b = 0x0F) :
    decodeOpcode b = if bitAt b 7 then .refused .relativeSeek else .known 3 := by
  simp [decodeOpcode, ho]

/-- R109: the values of `OPC` no command of the family has. -/
theorem decodeOpcode_invalid :
    ∀ o ∈ ([0x00, 0x01, 0x0B, 0x15, 0x1A, 0x1B, 0x1C, 0x1E, 0x1F] : List (BitVec 5)), ∀ mt,
      decodeOpcode (opcodeByte mt false false o) = .invalid := by decide

/-- Settles O1: the two tables row by row, `OPC` 0x0F by its bit 7, and the values of `OPC` in no table. -/
theorem opcodeBytesClassified : Obligations.OpcodeBytesClassified := by
  intro b
  refine ⟨?table, ?seek, ?relativeSeek, ?family, ?invalid⟩
  case table => exact decodeOpcode_of_rows (outcome := .known) (by decide) b
  case seek =>
    intro ho (h7 : bitAt b 7 = false)
    simp [decodeOpcode_seek ho, h7]
  case relativeSeek =>
    intro ho (h7 : bitAt b 7 = true)
    simp [decodeOpcode_seek ho, h7]
  case family => exact decodeOpcode_of_rows (outcome := .refused) (by decide) b
  case invalid =>
    intro ho
    exact (decodeOpcode_of_opc rfl).trans (decodeOpcode_invalid _ ho _)

end Sys2Proof.Proofs
end

section
/-! PROOFS. One read window of the digital PLL (spec/40_pll.md R135 to R139): when it is processed, and which of its two
outcomes it has. -/

namespace Sys2Proof.Proofs

open Sys2Proof.Machine

/-! ## The window test (R139) -/

/-- R139: the test is `next > limit`, so a window that ends at the limit is processed. -/
theorem nextBit_eq_none_iff {p : Pll} {e : Option Int} {limit : Int} :
    nextBit p e limit = none ↔ limit < pllWindowEnd p := by
  unfold nextBit
  split
  · next hlt => exact iff_of_true rfl hlt
  · next hle =>
    refine iff_of_false ?_ hle
    repeat' split
    all_goals exact Option.some_ne_none _

/-- The limit takes part in the window test alone. -/
theorem nextBit_eq_at_windowEnd {p : Pll} {limit : Int} (h : pllWindowEnd p ≤ limit) (e : Option Int) :
    nextBit p e limit = nextBit p e (pllWindowEnd p) := by
  simp only [nextBit, if_neg h.not_gt, if_neg (lt_irrefl _)]

/-! ## The outcomes of a processed window (R135 to R138) -/

theorem nextBit_free_run {p : Pll} {e : Option Int} {limit : Int} (h : pllWindowEnd p ≤ limit)
    (he : ∀ x, e = some x → pllWindowEnd p ≤ x) :
    nextBit p e limit = some (false, { p with ctime := pllWindowEnd p, phaseAdjust := 0 }) := by
  cases e with
  | none => simp [nextBit, h]
  | some x => simp [nextBit, h, he x rfl]

theorem nextBit_edge {p : Pll} {x limit : Int} (h : pllWindowEnd p ≤ limit) (hx : x < pllWindowEnd p) :
    nextBit p (some x) limit = some (true, pllCorrect p x) := by
  simp [nextBit, h, hx]

/-- R138: the count reaches the persistence on either side of zero. -/
theorem pllFreqPersist_le_natAbs {hist : Int} : pllFreqPersist ≤ hist.natAbs ↔ 2 ≤ hist ∨ hist ≤ -2 := by
  unfold pllFreqPersist
  omega

/-- R138 with the count's two signs and the clamp's bounds apart. -/
theorem pllPeriod_eq (p : Pll) (hist delta : Int) :
    pllPeriod p hist delta =
      let moved := p.period + (p.periodAdjustBase * delta).tdiv p.period
      if 2 ≤ hist ∨ hist ≤ -2 then
        (if moved < p.minPeriod then p.minPeriod else if p.maxPeriod < moved then p.maxPeriod else moved)
      else p.period :=
  if_congr pllFreqPersist_le_natAbs rfl rfl

/-! ## A cell the engine cannot read yet (R139, R192) -/

theorem engineStep_of_readCell_none {s : State} {L : LiveTransfer} {limit : Int} (hL : s.live = some L)
    (hr : L.state.writes = false) (hn : readCell limit L s = none) : engineStep limit s = .next s := by
  simp [engineStep, hL, hr, hn]

/-- Settles O48: the window test, and the record of each outcome with the correction of R137 and R138 written out. -/
theorem pllWindowTest : Obligations.PllWindowTest := by
  intro p e limit limit'
  refine ⟨nextBit_eq_none_iff, ?deadline, fun hend => ⟨nextBit_free_run hend, ?edge⟩,
    fun _ _ => engineStep_of_readCell_none⟩
  case deadline =>
    intro (hend : pllWindowEnd p ≤ limit) hlimit
    exact (nextBit_eq_at_windowEnd hend e).trans (nextBit_eq_at_windowEnd (hend.trans hlimit) e).symm
  case edge =>
    rintro x rfl hx
    rw [nextBit_edge hend hx, pllCorrect, pllPeriod_eq]
    rfl

end Sys2Proof.Proofs
end

section
/-! PROOFS. The start of a SEEK or RECALIBRATE (spec/43_seek_commands.md R301, R302) and its end (R306): what the shared
operations answer, and a drive that is not ready. -/

namespace Sys2Proof.Proofs

open Sys2Proof.Machine Sys2Proof.Claims

/-! ## Updates of one drive slot -/

@[simp] theorem updSlot_updSlot (s : State) (d : Drive) (f g : DriveSlot → DriveSlot) :
    (s.updSlot d f).updSlot d g = s.updSlot d (g ∘ f) := by
  simp [State.updSlot]

/-! ## Acceptance (R362) -/

theorem acceptForDrive_of_idle {i : Instr} {d : Drive} {s : State} (run : State → Result)
    (hidle : (s.slot d).mainState = .idle) : acceptForDrive i d run s = finishOutputs (run (loadCommand i s)) := by
  rw [acceptForDrive, if_pos hidle]

/-- Both commands are accepted for their drive, with StartSeek and a main state of their own. -/
theorem exec_of_seekCommand {i : Instr} (hi : seekCommand i = true) :
    ∃ main target, (main = .seek ∨ main = .recalibrate) ∧
      ∀ s, exec i s = acceptForDrive i (loadCur i).d (startSeek main target) s := by
  cases i with
  | seek hd us ncn => exact ⟨.seek, ncn, .inl rfl, fun _ => rfl⟩
  | recalibrate us => exact ⟨.recalibrate, 0, .inr rfl, fun _ => rfl⟩
  | _ => cases hi

/-! ## The end of a Seek or Recalibrate (R306) -/

theorem seekFinish_of_seeking {d : Drive} {s : State} (ok : Bool)
    (hmain : (s.slot d).mainState = .seek ∨ (s.slot d).mainState = .recalibrate) :
    seekFinish d ok s = .next (seekEnd d ok (s.setTimer d none)) :=
  if_pos hmain

theorem seekEnd_failed (d : Drive) (s : State) :
    seekEnd d false s = s.updSlot d fun x =>
      { x with st0 := withIC (x.st0 ||| 0x20) icAbnormal, irq := .seekDone, mainState := .idle, subState := .idle } := by
  simp only [seekEnd, State.setSt0, State.setIC, updSlot_updSlot, Bool.false_eq_true, if_false]
  rfl

/-! ## A drive that is not ready (R302) -/

/-- NR is 08, SE 20, and IC becomes 01: the head and unit bits leave IC at 00. -/
theorem st0_of_not_ready (hd : Bool) (us : Drive) :
    withIC (headUnit hd us ||| St0Bit.nr.mask ||| 0x20) icAbnormal = 0x68 ||| driveByte hd us := by
  cases hd <;> cases us <;> rfl

theorem startSeek_of_not_ready {main : MainState} {s : State} (target : Byte) (hmain : main = .seek ∨ main = .recalibrate)
    (hready : s.driveReady s.cur.d = false) :
    startSeek main target s = .next { s with
      phase := .command
      drives := s.drives.set s.cur.d { s.slot s.cur.d with
        mainState := .idle, subState := .idle, st0 := 0x68 ||| driveByte s.cur.hd s.cur.d, irq := .seekDone }
      driveTimer := s.driveTimer.set s.cur.d none } := by
  have hseeking : (((seekPrepare main s).setSt0 s.cur.d .nr).slot s.cur.d).mainState = main := by
    simp [seekPrepare, setSt0_get]
  rw [← hseeking] at hmain
  rw [startSeek, hready, if_neg Bool.false_ne_true, seekFinish_of_seeking false hmain, seekEnd_failed,
    ← st0_of_not_ready]
  simp [seekPrepare, State.setSt0, State.setTimer, State.updSlot]

/-- Settles O17: the drive is Idle before the command and after it, and StartSeek goes straight to the failed end. -/
theorem seekOfUnreadyDriveFails : Obligations.SeekOfUnreadyDriveFails := by
  intro i s hi hidle hready
  obtain ⟨main, target, hmain, hexec⟩ := exec_of_seekCommand hi
  have hfails := startSeek_of_not_ready (s := loadCommand i s) target hmain hready
  rw [hexec, acceptForDrive_of_idle _ hidle, hfails, ← hidle]
  rfl

end Sys2Proof.Proofs
end

section
/-! PROOFS. The FIFO's pushes and pops (spec/44_fifo.md R324, R325, R329, R331, R332): each outcome with its condition, and
what the end of a drained command leaves of the FIFO. -/

namespace Sys2Proof.Proofs

open Sys2Proof.Machine

/-! ## The engine's side (R324, R325) -/

theorem enginePush_of_full {v : Byte} {s : State} (hfull : s.fifo.length = fifoCap) : enginePush v s = s.setSt1 .or :=
  if_pos hfull

theorem enginePush_of_room {v : Byte} {s : State} (hroom : s.fifo.length < fifoCap) :
    enginePush v s = { s with
      fifo := s.fifo ++ [v], internalDrq := s.internalDrq || decide (s.threshold ≤ s.fifo.length + 1) } :=
  if_neg hroom.ne

theorem enginePop_of_nil {s : State} (hfifo : s.fifo = []) : enginePop s = (0, refillRequest (s.setSt1 .or)) := by
  rw [enginePop, hfifo]

theorem enginePop_of_cons {s : State} {v : Byte} {rest : List Byte} (hfifo : s.fifo = v :: rest) :
    enginePop s = (v, refillRequest { s with fifo := rest }) := by
  rw [enginePop, hfifo]

/-! ## The host's push (R329) -/

theorem hostPush_of_unexpected {v : Byte} {s : State} (h : s.fifoWrite = false ∨ s.fifoExpected = 0) :
    hostPush v s = s :=
  if_pos (by simpa using h)

theorem hostPush_of_full {v : Byte} {s : State} (hwrite : s.fifoWrite = true) (hexpected : s.fifoExpected ≠ 0)
    (hfull : s.fifo.length = fifoCap) : hostPush v s = s.setSt1 .or := by
  simp [hostPush, hwrite, hexpected, hfull]

theorem hostPush_of_room {v : Byte} {s : State} (hwrite : s.fifoWrite = true) (hexpected : s.fifoExpected ≠ 0)
    (hroom : s.fifo.length < fifoCap) :
    hostPush v s =
      let pushed : State := { s with fifo := s.fifo ++ [v], fifoExpected := s.fifoExpected - 1 }
      { pushed with internalDrq := pushed.stillRequested } := by
  simp [hostPush, hwrite, hexpected, hroom.ne]

/-! ## The host's pop (R331) -/

theorem hostTake_of_nil {s : State} (hfifo : s.fifo = []) : hostTake s = (0, s.setSt1 .or) := by
  rw [hostTake, hfifo]

theorem hostTake_of_cons {s : State} {v : Byte} {rest : List Byte} (hfifo : s.fifo = v :: rest) :
    hostTake s = (v, { s with fifo := rest }) := by
  rw [hostTake, hfifo]

/-- An overrun changes ST0 only, and the result is a copy of the status bytes (R410, R411). -/
theorem finishResult_fifo_st1 (d : Drive) (s : State) :
    (finishResult d s).fifo = s.fifo ∧ (finishResult d s).st1 = s.st1 := by
  unfold finishResult abnormalOnOverrun
  split <;> exact ⟨rfl, rfl⟩

theorem finishDrain_fifo_st1 (s : State) : (finishDrain s).fifo = s.fifo ∧ (finishDrain s).st1 = s.st1 := by
  unfold finishDrain
  split
  · exact finishResult_fifo_st1 _ s
  · exact ⟨rfl, rfl⟩

theorem relinquish_fifo_st1 (s : State) : (relinquish s).fifo = s.fifo ∧ (relinquish s).st1 = s.st1 := by
  unfold relinquish
  split <;> exact ⟨rfl, rfl⟩

theorem hostPop_of_write {s : State} (hwrite : s.fifoWrite = true) : hostPop s = (0xFF, s) :=
  if_pos hwrite

/-- In the read direction the byte, the FIFO and ST1 of a host pop are those of its first part. -/
theorem hostPop_of_read {s : State} (hread : s.fifoWrite = false) :
    (hostPop s).1 = (hostTake s).1 ∧ (hostPop s).2.fifo = (hostTake s).2.fifo ∧
      (hostPop s).2.st1 = (hostTake s).2.st1 := by
  have hpop : hostPop s = ((hostTake s).1, finishDrain (relinquish (hostTake s).2)) := if_neg (by simp [hread])
  obtain ⟨hdrainFifo, hdrainSt1⟩ := finishDrain_fifo_st1 (relinquish (hostTake s).2)
  obtain ⟨hrelFifo, hrelSt1⟩ := relinquish_fifo_st1 (hostTake s).2
  rw [hpop]
  exact ⟨rfl, hdrainFifo.trans hrelFifo, hdrainSt1.trans hrelSt1⟩

theorem hostPop_fifo_le {s : State} (hle : s.fifo.length ≤ fifoCap) : (hostPop s).2.fifo.length ≤ fifoCap := by
  cases hdir : s.fifoWrite with
  | true => rw [hostPop_of_write hdir]; exact hle
  | false =>
    obtain ⟨-, hfifo, -⟩ := hostPop_of_read hdir
    rw [hfifo]
    exact (SameControl.hostTake s).fifo hle

/-- Settles O33: each push and pop in the case its condition selects; the bound is the one the controller's invariant
keeps. -/
theorem fifoKeepsOrderAndBound : Obligations.FifoKeepsOrderAndBound := by
  intro v s hle
  refine ⟨fun hfull => ?engineFull, fun hroom => ?engineRoom, fun hwrite hexpected => ⟨fun hfull => ?hostFull,
    fun hroom => ?hostRoom⟩, hostPush_of_unexpected, fun hnil => ?engineNil, fun x rest hcons => ?engineCons,
    fun hread => ⟨fun hnil => ?hostNil, fun x rest hcons => ?hostCons⟩, hostPop_of_write,
    (SameControl.enginePush v s).fifo hle, (SameControl.hostPush v s).fifo hle, (SameControl.enginePop s).fifo hle,
    hostPop_fifo_le hle⟩
  case engineFull => rw [enginePush_of_full hfull]; exact ⟨rfl, rfl⟩
  case engineRoom => rw [enginePush_of_room hroom]; exact ⟨rfl, rfl⟩
  case hostFull => rw [hostPush_of_full hwrite hexpected hfull]; exact ⟨rfl, rfl⟩
  case hostRoom => rw [hostPush_of_room hwrite hexpected hroom]; exact ⟨rfl, rfl⟩
  case engineNil => rw [enginePop_of_nil hnil]; exact ⟨rfl, hnil, rfl⟩
  case engineCons => rw [enginePop_of_cons hcons]; exact ⟨rfl, rfl, rfl⟩
  case hostNil =>
    obtain ⟨hbyte, hfifo, hst1⟩ := hostPop_of_read hread
    rw [hostTake_of_nil hnil] at hbyte hfifo hst1
    exact ⟨hbyte, hfifo.trans hnil, hst1⟩
  case hostCons =>
    have htake := hostPop_of_read hread
    rw [hostTake_of_cons hcons] at htake
    exact htake

end Sys2Proof.Proofs
end

section
/-! PROOFS. The commands without the engine: SPECIFY, SENSE_DRIVE_STATUS and SENSE_INTERRUPT_STATUS
(spec/45_host_interface.md R372, R373, R375), each with the bytes that decode to it. -/

namespace Sys2Proof.Proofs

open Sys2Proof.Machine Sys2Proof.Claims

/-! ## Decoding (R102, R107) -/

theorem decode_cons_of_known {b : Byte} {n : Nat} (hb : decodeOpcode b = .known n) (ps : List Byte) :
    decode (b :: ps) = decodeParams b ps := by
  simp only [decode, hb]

theorem decode_specify {b : Byte} (ho : opc b = 0x03) (p q : Byte) :
    decode [b, p, q] =
      .known (.specify (p.extractLsb' 4 4) (p.extractLsb' 0 4) (q.extractLsb' 1 7) (bitAt q 0)) [] := by
  have hb : decodeOpcode b = .known 3 := by simp [decodeOpcode, ho]
  rw [decode_cons_of_known hb]
  simp [decodeParams, ho]

theorem decode_senseDriveStatus {b : Byte} (ho : opc b = 0x04) (p : Byte) :
    decode [b, p] = .known (.senseDriveStatus (bitAt p 2) (driveOf p)) [] := by
  have hb : decodeOpcode b = .known 2 := by simp [decodeOpcode, ho]
  rw [decode_cons_of_known hb]
  simp [decodeParams, ho]

theorem decode_senseInterruptStatus {b : Byte} (ho : opc b = 0x08) : decode [b] = .known .senseInterruptStatus [] := by
  have hb : decodeOpcode b = .known 1 := by simp [decodeOpcode, ho]
  rw [decode_cons_of_known hb]
  simp [decodeParams, ho]

/-- `US` is read from bits 1..0 and no others (R102). -/
theorem driveOf_of_bits {p : Byte} {us : Drive} (hbits : p.extractLsb' 0 2 = driveBits us) : driveOf p = us := by
  have h0 : bitAt p 0 = (driveBits us).getLsbD 0 := by simp [bitAt, ← hbits]
  have h1 : bitAt p 1 = (driveBits us).getLsbD 1 := by simp [bitAt, ← hbits]
  cases us <;> simp [driveOf, h0, h1, driveBits]

/-! ## SPECIFY (R375) -/

/-- Settles O10: the layout of the three bytes, and the acceptance, which writes the four settings. -/
theorem specifyStoresTiming : Obligations.SpecifyStoresTiming :=
  ⟨fun _ p q ho => decode_specify ho p q, fun _ _ _ _ _ => rfl⟩

/-! ## SENSE_DRIVE_STATUS (R373, R403) -/

/-- The places of HD and US in the drive/head byte (R102), which ST0 and ST3 share. -/
theorem driveByte_eq (hd : Bool) (us : Drive) : driveByte hd us = bitsIf hd 0x04 ||| (driveBits us).setWidth 8 := by
  cases hd <;> cases us <;> rfl

/-- The places of ST3's lines (R403). -/
theorem st3_places : ∀ (wp ry t0 ts hd : Bool) (us : BitVec 2),
    (0 : BitVec 1) ++ BitVec.ofBool wp ++ BitVec.ofBool ry ++ BitVec.ofBool t0 ++ BitVec.ofBool ts ++
        BitVec.ofBool hd ++ us =
      bitsIf wp 0x40 ||| bitsIf ry 0x20 ||| bitsIf t0 0x10 ||| bitsIf ts 0x08 ||| bitsIf hd 0x04 ||| us.setWidth 8 := by
  decide

theorem st3_eq (s : State) (us : Drive) (hd : Bool) :
    s.st3 us hd =
      bitsIf (s.writeProtected us) 0x40 ||| bitsIf (s.driveReady us) 0x20 ||| bitsIf (s.atTrackZero us) 0x10 |||
        bitsIf (s.twoSided us) 0x08 ||| bitsIf hd 0x04 ||| (driveBits us).setWidth 8 :=
  st3_places ..

theorem exec_senseDriveStatus (hd : Bool) (us : Drive) (s : State) :
    exec (.senseDriveStatus hd us) s =
      .next (updateOutputs (enterResult [s.st3 us hd] (loadCommand (.senseDriveStatus hd us) s))) := rfl

/-- Settles O13: the layout of the two bytes, the one result byte by its places, and the head and unit bits. -/
theorem senseDriveStatusReportsLines : Obligations.SenseDriveStatusReportsLines := by
  refine ⟨fun b p us ho hbits => ?decodes, fun hd us s => ?reports, driveByte_eq, rfl, rfl, rfl, rfl⟩
  case decodes => exact driveOf_of_bits hbits ▸ decode_senseDriveStatus ho p
  case reports =>
    rw [exec_senseDriveStatus, st3_eq]
    rfl

/-! ## SENSE_INTERRUPT_STATUS (R372) -/

theorem lowestReason_of_none {s : State} (hnone : ∀ d, (s.slot d).irq = .none) : s.lowestReason = none := by
  have h0 : s.drives.s0.irq = .none := hnone .d0
  have h1 : s.drives.s1.irq = .none := hnone .d1
  have h2 : s.drives.s2.irq = .none := hnone .d2
  have h3 : s.drives.s3.irq = .none := hnone .d3
  simp [State.lowestReason, h0, h1, h2, h3]

theorem lowestReason_of_lowest {s : State} {d : Drive} (hreason : (s.slot d).irq ≠ .none)
    (hlower : ∀ e, (driveBits e).toNat < (driveBits d).toNat → (s.slot e).irq = .none) : s.lowestReason = some d := by
  have hskip : ∀ e, (driveBits e).toNat < (driveBits d).toNat → ¬ (s.slot e).irq ≠ .none :=
    fun e he => not_not_intro (hlower e he)
  cases d with
  | d0 => exact if_pos hreason
  | d1 => exact (if_neg (hskip .d0 (by decide))).trans (if_pos hreason)
  | d2 =>
    exact (if_neg (hskip .d0 (by decide))).trans ((if_neg (hskip .d1 (by decide))).trans (if_pos hreason))
  | d3 =>
    exact (if_neg (hskip .d0 (by decide))).trans ((if_neg (hskip .d1 (by decide))).trans
      ((if_neg (hskip .d2 (by decide))).trans (if_pos hreason)))

/-- IC 11 and the drive's number for a Polled reason, else the drive's ST0; then its PCN. -/
theorem reasonBytes_eq (d : Drive) (x : DriveSlot) :
    reasonBytes d x = [if x.irq = .polled then 0xC0 ||| (driveBits d).setWidth 8 else x.st0, x.pcn] := by
  have hpolled : (3 : BitVec 2) ++ (0 : BitVec 4) ++ driveBits d = (0xC0 : Byte) ||| (driveBits d).setWidth 8 := by
    cases d <;> rfl
  unfold reasonBytes
  split
  · rw [hpolled]
  · rfl

theorem clearReason_of_perDrive (d : Drive) {s : State} (hpolicy : s.par.pollIrqPolicy = .perDrive) :
    clearReason d s = { s with drives := s.drives.set d { s.slot d with irq := .none } } := by
  simp [clearReason, hpolicy, State.updSlot]

theorem clearReason_of_globalFlag (d : Drive) {s : State} (hpolicy : s.par.pollIrqPolicy = .globalFlag) :
    clearReason d s =
      { s with drives := (s.drives.set d { s.slot d with irq := .none }).map DriveSlot.clearPolled } := by
  simp [clearReason, hpolicy, State.updSlot]

theorem senseInterrupt_of_none {s : State} (hnone : ∀ d, (s.slot d).irq = .none) :
    senseInterrupt s = enterResult [0x80] s := by
  simp only [senseInterrupt, lowestReason_of_none hnone]

theorem senseInterrupt_of_lowest {s : State} {d : Drive} (hreason : (s.slot d).irq ≠ .none)
    (hlower : ∀ e, (driveBits e).toNat < (driveBits d).toNat → (s.slot e).irq = .none) :
    senseInterrupt s = enterResult (reasonBytes d (s.slot d)) (clearReason d s) := by
  simp only [senseInterrupt, lowestReason_of_lowest hreason hlower]

theorem exec_senseInterruptStatus (s : State) :
    exec .senseInterruptStatus s =
      .next (updateOutputs (senseInterrupt (loadCommand .senseInterruptStatus s))) := rfl

/-- Settles O14: the acceptance leaves the drive slots, so the lowest reason is that of the state before it; what is
cleared with it depends on the policy. -/
theorem senseInterruptReportsLowestReason : Obligations.SenseInterruptReportsLowestReason := by
  refine ⟨fun b ho => decode_senseInterruptStatus ho, fun s hnone => ?none, fun s d hreason hlower => ?lowest⟩
  case none =>
    rw [exec_senseInterruptStatus, senseInterrupt_of_none (s := loadCommand _ s) hnone]
    rfl
  case lowest =>
    rw [exec_senseInterruptStatus, senseInterrupt_of_lowest (s := loadCommand _ s) hreason hlower, reasonBytes_eq]
    cases hpolicy : s.par.pollIrqPolicy with
    | perDrive =>
      rw [clearReason_of_perDrive (s := loadCommand _ s) d hpolicy]
      rfl
    | globalFlag =>
      rw [clearReason_of_globalFlag (s := loadCommand _ s) d hpolicy]
      rfl

end Sys2Proof.Proofs
end

section
/-! PROOFS. The host's reads of MSR and of the result bytes (spec/45_host_interface.md R354, R356). -/

namespace Sys2Proof.Proofs

open Sys2Proof.Machine Sys2Proof.Claims

/-! ## The result bytes (R356) -/

theorem hostReadData_of_result {s : State} (hphase : s.phase = .result) : hostReadData s = resultRead s := by
  simp only [hostReadData, hphase]

/-- R356: the read takes the first byte, and the phase changes with the last one. -/
theorem resultRead_cons {s : State} {v : Byte} {rest : List Byte} (hphase : s.phase = .result)
    (hres : s.res = v :: rest) :
    resultRead s = (v, { s with res := rest, phase := if rest = [] then .command else .result }) := by
  cases rest with
  | nil => simp [resultRead, hres]
  | cons w ws => simp [resultRead, hres, ← hphase]

/-- The reads by induction on the bytes still to come, the last of which ends the phase. -/
theorem dataReads_all {l : List Byte} (hl : l ≠ []) {s : State} (hphase : s.phase = .result) (hres : s.res = l) :
    dataReads l.length s = (l, { s with res := [], phase := .command }) := by
  induction l generalizing s with
  | nil => exact absurd rfl hl
  | cons v rest ih =>
    rw [List.length_cons, dataReads, hostReadData_of_result hphase, resultRead_cons hphase hres]
    cases rest with
    | nil => rfl
    | cons w ws => rw [ih (List.cons_ne_nil w ws) rfl rfl]

/-- Settles O37: one read is `resultRead`, and all of them are `dataReads_all`. -/
theorem resultBytesLeaveInOrder : Obligations.ResultBytesLeaveInOrder := by
  refine fun s hphase => ⟨fun v rest hres => ?one, fun hne => dataReads_all hne hphase rfl⟩
  rw [hostRead, hostReadData_of_result hphase, resultRead_cons hphase hres]
  rfl

/-! ## The main status register (R354) -/

theorem rqm_eq (s : State) : s.rqm = (s.dor.getLsbD 2 && (s.phase != .execution || s.internalDrq)) := by
  have hreset : s.notReset = s.dor.getLsbD 2 := rfl
  rw [State.rqm, hreset]
  cases s.dor.getLsbD 2 with
  | false => rfl
  | true => cases s.phase <;> rfl

/-- A byte joined from its eight bits, the highest first. -/
theorem byte_of_flags : ∀ b7 b6 b5 b4 b3 b2 b1 b0 : Bool,
    BitVec.ofBool b7 ++ BitVec.ofBool b6 ++ BitVec.ofBool b5 ++ BitVec.ofBool b4 ++ BitVec.ofBool b3 ++
        BitVec.ofBool b2 ++ BitVec.ofBool b1 ++ BitVec.ofBool b0 =
      bitsIf b7 0x80 ||| bitsIf b6 0x40 ||| bitsIf b5 0x20 ||| bitsIf b4 0x10 ||| bitsIf b3 0x08 ||| bitsIf b2 0x04 |||
        bitsIf b1 0x02 ||| bitsIf b0 0x01 := by
  decide

/-- Settles O38: the register is joined from its eight bits, and RQM and CB have the formulas of R354. -/
theorem mainStatusRegister : Obligations.MainStatusRegister := by
  refine fun s => ⟨?bits, rfl⟩
  have hpending : (!s.cmd.isEmpty) = decide (0 < s.cmd.length) := by cases s.cmd <;> rfl
  rw [← rqm_eq, ← hpending]
  exact byte_of_flags ..

end Sys2Proof.Proofs
end

section
/-! PROOFS. The encoding (spec/30_encoding.md R101 to R107): the decoder on each opcode, what it reads back from each field
the encoder writes, and the operands in the command record. -/

namespace Sys2Proof.Proofs

open Sys2Proof.Machine Sys2Proof.Claims

/-! ## The decoder by opcode, one lemma per row of R104 to R107 -/

section rows

variable {b : Byte}

theorem decode_readTrack_cons (ho : opc b = 0x02) (p : Byte) (ps : List Byte) :
    decode (b :: p :: ps) = decodeNine (.readTrack (bitAt b 6) (bitAt p 2) (driveOf p)) ps := by
  simp [decode, decodeOpcode, decodeParams, ho]

theorem decode_specify_cons (ho : opc b = 0x03) (p q : Byte) (rest : List Byte) :
    decode (b :: p :: q :: rest) =
      .known (.specify (p.extractLsb' 4 4) (p.extractLsb' 0 4) (q.extractLsb' 1 7) (bitAt q 0)) rest := by
  simp [decode, decodeOpcode, decodeParams, ho]

theorem decode_senseDriveStatus_cons (ho : opc b = 0x04) (p : Byte) (rest : List Byte) :
    decode (b :: p :: rest) = .known (.senseDriveStatus (bitAt p 2) (driveOf p)) rest := by
  simp [decode, decodeOpcode, decodeParams, ho]

theorem decode_writeData_cons (ho : opc b = 0x05) (p : Byte) (ps : List Byte) :
    decode (b :: p :: ps) = decodeNine (.writeData (bitAt b 7) (bitAt b 6) (bitAt p 2) (driveOf p)) ps := by
  simp [decode, decodeOpcode, decodeParams, ho]

theorem decode_readData_cons (ho : opc b = 0x06) (p : Byte) (ps : List Byte) :
    decode (b :: p :: ps) =
      decodeNine (.readData (bitAt b 7) (bitAt b 6) (bitAt b 5) (bitAt p 2) (driveOf p)) ps := by
  simp [decode, decodeOpcode, decodeParams, ho]

theorem decode_recalibrate_cons (ho : opc b = 0x07) (p : Byte) (rest : List Byte) :
    decode (b :: p :: rest) = .known (.recalibrate (driveOf p)) rest := by
  simp [decode, decodeOpcode, decodeParams, ho]

theorem decode_senseInterruptStatus_cons (ho : opc b = 0x08) (rest : List Byte) :
    decode (b :: rest) = .known .senseInterruptStatus rest := by
  simp [decode, decodeOpcode, decodeParams, ho]

theorem decode_writeDeletedData_cons (ho : opc b = 0x09) (p : Byte) (ps : List Byte) :
    decode (b :: p :: ps) = decodeNine (.writeDeletedData (bitAt b 7) (bitAt b 6) (bitAt p 2) (driveOf p)) ps := by
  simp [decode, decodeOpcode, decodeParams, ho]

theorem decode_readId_cons (ho : opc b = 0x0A) (p : Byte) (rest : List Byte) :
    decode (b :: p :: rest) = .known (.readId (bitAt b 6) (bitAt p 2) (driveOf p)) rest := by
  simp [decode, decodeOpcode, decodeParams, ho]

theorem decode_readDeletedData_cons (ho : opc b = 0x0C) (p : Byte) (ps : List Byte) :
    decode (b :: p :: ps) =
      decodeNine (.readDeletedData (bitAt b 7) (bitAt b 6) (bitAt b 5) (bitAt p 2) (driveOf p)) ps := by
  simp [decode, decodeOpcode, decodeParams, ho]

theorem decode_formatTrack_cons (ho : opc b = 0x0D) (p n sc gpl fill : Byte) (rest : List Byte) :
    decode (b :: p :: n :: sc :: gpl :: fill :: rest) =
      .known (.formatTrack (bitAt b 6) (bitAt p 2) (driveOf p) n sc gpl fill) rest := by
  simp [decode, decodeOpcode, decodeParams, ho]

theorem decode_seek_cons (ho : opc b = 0x0F) (h7 : bitAt b 7 = false) (p ncn : Byte) (rest : List Byte) :
    decode (b :: p :: ncn :: rest) = .known (.seek (bitAt p 2) (driveOf p) ncn) rest := by
  simp [decode, decodeOpcode, decodeParams, ho, h7]

theorem decode_configure_cons (ho : opc b = 0x13) (x cfg pretrk : Byte) (rest : List Byte) :
    decode (b :: x :: cfg :: pretrk :: rest) = .known (.configure cfg pretrk) rest := by
  simp [decode, decodeOpcode, decodeParams, ho]

theorem decode_lock_cons (ho : opc b = 0x14) (rest : List Byte) :
    decode (b :: rest) = .known (.lock (bitAt b 7)) rest := by
  simp [decode, decodeOpcode, decodeParams, ho]

end rows

/-! ## The fields of the composed bytes (R101, R102, R107) -/

@[simp] theorem bitAt_six_opcodeByte (mt mf sk : Bool) (o : BitVec 5) : bitAt (opcodeByte mt mf sk o) 6 = mf :=
  BitVec.getLsbD_append.trans (by cases mt <;> cases mf <;> cases sk <;> rfl)

@[simp] theorem bitAt_five_opcodeByte (mt mf sk : Bool) (o : BitVec 5) : bitAt (opcodeByte mt mf sk o) 5 = sk :=
  BitVec.getLsbD_append.trans (by cases mt <;> cases mf <;> cases sk <;> rfl)

@[simp] theorem bitAt_two_driveByte (hd : Bool) (us : Drive) : bitAt (driveByte hd us) 2 = hd := by
  cases hd <;> cases us <;> rfl

@[simp] theorem driveOf_driveByte (hd : Bool) (us : Drive) : driveOf (driveByte hd us) = us := by
  cases hd <;> cases us <;> rfl

theorem nibbles_of_append (a b : BitVec 4) : (a ++ b).extractLsb' 4 4 = a ∧ (a ++ b).extractLsb' 0 4 = b :=
  ⟨BitVec.extractLsb'_append_eq_left, BitVec.extractLsb'_append_eq_right⟩

theorem fields_of_append_bit (a : BitVec 7) (b : Bool) :
    (a ++ BitVec.ofBool b).extractLsb' 1 7 = a ∧ bitAt (a ++ BitVec.ofBool b) 0 = b :=
  ⟨BitVec.extractLsb'_append_eq_left, BitVec.getLsbD_append.trans (by cases b <;> rfl)⟩

/-- The seven bytes of the nine-byte layout are read back whole (R104). -/
theorem decodeNine_encodeNine (k : SectorParams → Instr) (p : SectorParams) (rest : List Byte) :
    decodeNine k (encodeNine p ++ rest) = .known (k p) rest := rfl

/-- Settles O2: the row of the command's opcode, with the fields read back from the bytes the encoder composes. -/
theorem encodedCommandsDecode : Obligations.EncodedCommandsDecode := by
  intro i rest
  cases i with
  | readTrack mf hd us p =>
    exact (decode_readTrack_cons (by simp) _ _).trans (by simp [decodeNine_encodeNine])
  | specify srt hut hlt nd =>
    obtain ⟨hsrt, hhut⟩ := nibbles_of_append srt hut
    obtain ⟨hhlt, hnd⟩ := fields_of_append_bit hlt nd
    exact (decode_specify_cons (by simp) _ _ rest).trans (by rw [hsrt, hhut, hhlt, hnd])
  | senseDriveStatus hd us => exact (decode_senseDriveStatus_cons (by simp) _ rest).trans (by simp)
  | writeData mt mf hd us p =>
    exact (decode_writeData_cons (by simp) _ _).trans (by simp [decodeNine_encodeNine])
  | readData mt mf sk hd us p =>
    exact (decode_readData_cons (by simp) _ _).trans (by simp [decodeNine_encodeNine])
  | recalibrate us => exact (decode_recalibrate_cons (by simp) _ rest).trans (by simp)
  | senseInterruptStatus => exact decode_senseInterruptStatus_cons (by simp) rest
  | writeDeletedData mt mf hd us p =>
    exact (decode_writeDeletedData_cons (by simp) _ _).trans (by simp [decodeNine_encodeNine])
  | readId mf hd us => exact (decode_readId_cons (by simp) _ rest).trans (by simp)
  | readDeletedData mt mf sk hd us p =>
    exact (decode_readDeletedData_cons (by simp) _ _).trans (by simp [decodeNine_encodeNine])
  | formatTrack mf hd us n sc gpl fill =>
    exact (decode_formatTrack_cons (by simp) _ n sc gpl fill rest).trans (by simp)
  | seek hd us ncn => exact (decode_seek_cons (by simp) (by simp) _ ncn rest).trans (by simp)
  | configure cfg pretrk => exact decode_configure_cons (by simp) _ cfg pretrk rest
  | lock lk => exact (decode_lock_cons (by simp) rest).trans (by simp)

/-- Settles O3: each list is what the encoder makes of the command it stands for. -/
theorem tableWordsDecode : Obligations.TableWordsDecode :=
  ⟨encodedCommandsDecode (.readData false true true true .d1 ⟨0x05, 0x01, 0x03, 0x02, 0x09, 0x1B, 0xFF⟩) [],
    encodedCommandsDecode (.specify 0xD 0xF 0x01 false) [], encodedCommandsDecode (.seek true .d2 0x0A) [],
    encodedCommandsDecode (.formatTrack true false .d3 0x02 0x01 0x54 0xE5) [], encodedCommandsDecode (.lock true) []⟩

/-- Settles O4: the row of each opcode; the unit of the drive/head byte is its low two bits. -/
theorem operandsReachTheCommandRecord : Obligations.OperandsReachTheCommandRecord := by
  intro b p c h r n eot gpl dtl us hbits
  have hus : driveOf p = us := driveOf_of_bits hbits
  subst hus
  exact ⟨fun ho => ⟨_, decode_readData_cons ho p _, rfl⟩,
    fun ho => ⟨_, decode_readDeletedData_cons ho p _, rfl⟩,
    fun ho => ⟨_, decode_writeData_cons ho p _, rfl⟩,
    fun ho => ⟨_, decode_writeDeletedData_cons ho p _, rfl⟩,
    fun ho => ⟨_, decode_readTrack_cons ho p _, rfl⟩,
    fun ho => ⟨_, decode_readId_cons ho p _, rfl⟩,
    fun ho => ⟨_, decode_formatTrack_cons ho p n r gpl c _, rfl⟩,
    fun ho h7 => ⟨_, decode_seek_cons ho h7 p c _, rfl⟩,
    fun ho => ⟨_, decode_recalibrate_cons ho p _, rfl⟩⟩

/-! ## CONFIGURE and LOCK (R376, R377) -/

/-- Settles O11: byte 1 is in the layout and in no operand. -/
theorem configureStoresConfiguration : Obligations.ConfigureStoresConfiguration :=
  ⟨fun _ x cfg pretrk ho => decode_configure_cons ho x cfg pretrk [], fun _ _ _ => rfl⟩

theorem lockByte_eq (lk : Bool) : lockByte lk = if lk then 0x10 else 0x00 := by cases lk <;> rfl

theorem exec_lock (lk : Bool) (s : State) :
    exec (.lock lk) s =
      .next (updateOutputs (enterResult [lockByte lk] { loadCommand (.lock lk) s with locked := lk })) := rfl

/-- Settles O12: the flag is bit 7 of the opcode byte, and the result byte holds it in bit 4. -/
theorem lockSetsAndReports : Obligations.LockSetsAndReports := by
  refine ⟨fun _ ho => decode_lock_cons ho [], fun lk s => ?_⟩
  rw [exec_lock, lockByte_eq]
  rfl

end Sys2Proof.Proofs
end

section
/-! PROOFS. The host's command bytes (spec/45_host_interface.md R358, R362, R363), and what a step does with its one piece of
work (spec/20_memory.md R89, R90; spec/70_reset_and_hazards.md R470). -/

namespace Sys2Proof.Proofs

open Sys2Proof.Machine Sys2Proof.Claims

/-! ## The refusals of a command's meaning (R190) -/

/-- The answer is no refusal but that of a live start while a transfer runs. -/
def RefusesOnlyBusy (r : Result) : Prop := ∀ x, r = .refused x → x = .liveBusy

theorem RefusesOnlyBusy.next (s : State) : RefusesOnlyBusy (.next s) := by
  rintro _ ⟨⟩

theorem RefusesOnlyBusy.ite {p : Prop} [Decidable p] {r q : Result} (hr : RefusesOnlyBusy r) (hq : RefusesOnlyBusy q) :
    RefusesOnlyBusy (if p then r else q) := by
  split
  · exact hr
  · exact hq

theorem RefusesOnlyBusy.finishOutputs {r : Result} (hr : RefusesOnlyBusy r) :
    RefusesOnlyBusy (Machine.finishOutputs r) := by
  cases r with
  | next s => exact .next _
  | fault f => cases f
  | refused x => exact hr

theorem liveStart_refusesOnlyBusy (d : Drive) (st : LiveState) (s : State) : RefusesOnlyBusy (liveStart d st s) :=
  .ite (by rintro _ ⟨⟩; rfl) (.next _)

theorem runSeekDone_refusesOnlyBusy (d : Drive) (s : State) : RefusesOnlyBusy (runSeekDone d s) :=
  .ite (.next _) (.ite (.next _) (liveStart_refusesOnlyBusy _ _ _))

theorem seekFinish_refusesOnlyBusy (d : Drive) (ok : Bool) (s : State) : RefusesOnlyBusy (seekFinish d ok s) :=
  .ite (.next _) (runSeekDone_refusesOnlyBusy _ _)

theorem runMove_refusesOnlyBusy (d : Drive) (s : State) : RefusesOnlyBusy (runMove d s) :=
  .ite (.ite (seekFinish_refusesOnlyBusy _ _ _) (.ite (seekFinish_refusesOnlyBusy _ _ _) (.next _)))
    (.ite (seekFinish_refusesOnlyBusy _ _ _) (.next _))

theorem startSeek_refusesOnlyBusy (main : MainState) (target : Byte) (s : State) :
    RefusesOnlyBusy (startSeek main target s) :=
  .ite (runMove_refusesOnlyBusy _ _) (seekFinish_refusesOnlyBusy _ _ _)

theorem startRW_refusesOnlyBusy (s : State) : RefusesOnlyBusy (startRW s) :=
  .ite (.next _) (.ite (.next _) (.ite (runMove_refusesOnlyBusy _ _) (runSeekDone_refusesOnlyBusy _ _)))

theorem acceptForDrive_refusesOnlyBusy (i : Instr) (d : Drive) {run : State → Result}
    (hrun : ∀ s, RefusesOnlyBusy (run s)) (s : State) : RefusesOnlyBusy (acceptForDrive i d run s) :=
  .finishOutputs (.ite (hrun _) (.next _))

theorem exec_refusesOnlyBusy (i : Instr) (s : State) : RefusesOnlyBusy (exec i s) := by
  cases i with
  | specify | senseDriveStatus | senseInterruptStatus | configure | lock => exact .next _
  | seek | recalibrate => exact acceptForDrive_refusesOnlyBusy _ _ (startSeek_refusesOnlyBusy _ _) s
  | _ => exact acceptForDrive_refusesOnlyBusy _ _ startRW_refusesOnlyBusy s

theorem appendCommandByte_refusesOnlyBusy (bs : List Byte) (s : State) : RefusesOnlyBusy (appendCommandByte bs s) := by
  unfold appendCommandByte
  split
  · exact exec_refusesOnlyBusy _ s
  · exact .next _

/-! ## The parser (R362, R363) -/

/-- Out of reset, in Command phase, a write of `DATA` is a command byte (R358). -/
theorem hostWrite_data_of_command {s : State} (v : Byte) (hphase : s.phase = .command) (hreset : s.notReset = true) :
    hostWrite .data v s = commandByte v s := by
  simp [hostWrite, hostWriteData, hphase, hreset]

theorem commandByte_of_later {s : State} (v : Byte) (hcmd : s.cmd ≠ []) :
    commandByte v s = appendCommandByte (s.cmd ++ [v]) s := by
  simp [commandByte, hcmd]

theorem appendCommandByte_of_incomplete {s : State} {bs : List Byte} (h : decode bs = .incomplete) :
    appendCommandByte bs s = .next { s with cmd := bs } := by
  simp [appendCommandByte, h]

theorem appendCommandByte_of_known {s : State} {bs : List Byte} {i : Instr} (h : decode bs = .known i []) :
    appendCommandByte bs s = exec i s := by
  simp [appendCommandByte, h]

/-- A list of bytes that decodes to a command begins with an opcode of the table. -/
theorem decodeOpcode_of_decode_known {b : Byte} {ps : List Byte} {i : Instr} {rest : List Byte}
    (h : decode (b :: ps) = .known i rest) : ∃ n, decodeOpcode b = .known n := by
  cases hb : decodeOpcode b with
  | known n => exact ⟨n, rfl⟩
  | refused r => simp [decode, hb] at h
  | invalid => simp [decode, hb] at h

/-- The parser's answer to a byte of a known command: it is appended, the first byte clearing the data IRQ. -/
theorem commandByte_of_known {s : State} {v b : Byte} {ps : List Byte} {n : Nat} (hbytes : s.cmd ++ [v] = b :: ps)
    (hb : decodeOpcode b = .known n) :
    commandByte v s =
      appendCommandByte (s.cmd ++ [v]) { s with dataIrq := if s.cmd = [] then false else s.dataIrq } := by
  by_cases hcmd : s.cmd = []
  · have hv : v = b := by simpa [hcmd] using congrArg List.head? hbytes
    simp [commandByte, hcmd, hv, hb]
  · rw [commandByte_of_later v hcmd, if_neg hcmd]

/-- The byte that completes a command runs it. -/
theorem commandByte_of_complete {s : State} {v : Byte} {i : Instr} (h : decode (s.cmd ++ [v]) = .known i []) :
    commandByte v s = exec i { s with dataIrq := if s.cmd = [] then false else s.dataIrq } := by
  obtain ⟨b, ps, hbytes⟩ := List.exists_cons_of_ne_nil (List.append_ne_nil_of_right_ne_nil s.cmd (List.cons_ne_nil v []))
  obtain ⟨n, hb⟩ := decodeOpcode_of_decode_known (hbytes ▸ h)
  rw [commandByte_of_known hbytes hb, appendCommandByte_of_known h]

/-- Settles O7: fewer bytes than the opcode asks for decode to `incomplete`. -/
theorem incompleteCommandsKeepAcceptingBytes : Obligations.IncompleteCommandsKeepAcceptingBytes := by
  intro s v b ps n hphase hreset hbytes hb hlength
  have hincomplete : decode (s.cmd ++ [v]) = .incomplete := hbytes ▸ (decode_known_length hb ps).1 hlength
  rw [hostWrite_data_of_command v hphase hreset, commandByte_of_known hbytes hb,
    appendCommandByte_of_incomplete hincomplete]

/-- Settles O8: the three outcomes of the first byte; a later byte is only appended, and no command's meaning refuses by
a family member's name. -/
theorem unknownOpcodesAnswered : Obligations.UnknownOpcodesAnswered := by
  intro s v hphase hreset
  rw [hostWrite_data_of_command v hphase hreset]
  refine ⟨fun hcmd hv => ?invalid, fun r hcmd hv => ?refused, fun b ps n r hcmd _ _ => ?later⟩
  case invalid =>
    simp only [commandByte, hcmd, hv, if_pos]
    rfl
  case refused => simp [commandByte, hcmd, hv]
  case later =>
    rw [commandByte_of_later v (hcmd ▸ List.cons_ne_nil b ps)]
    intro hrefused
    cases appendCommandByte_refusesOnlyBusy _ s _ hrefused

/-! ## One step by its work (R89, R470) -/

theorem step_of_work {s : State} {w : Work} (h : (arrive s).work = w) :
    step s = finishOutputs (doWork w (arrive s)) := by
  rw [step, h]

theorem step_of_input {s : State} {i : Input} {rest : List Event} (h : (arrive s).work = .input i rest) :
    step s = finishOutputs (applyInput i { arrive s with inputs := rest }) :=
  step_of_work h

/-- Settles O5: the work of each kind is the handler of that kind; the byte that completes a command runs it. -/
theorem stepRunsDecodedCommand : Obligations.StepRunsDecodedCommand := by
  intro s
  refine ⟨fun v rest i hwork hphase hreset hdecode => ?complete, step_of_work, fun _ => step_of_work, step_of_work,
    step_of_work, fun i rest hwork => ?input⟩
  case complete =>
    have hruns := (hostWrite_data_of_command (s := { arrive s with inputs := rest }) v hphase hreset).trans
      (commandByte_of_complete hdecode)
    exact (step_of_input hwork).trans (congrArg finishOutputs hruns)
  case input =>
    rw [step_of_input hwork]
    refine ⟨?_, ?_, ?_, ?_, ?_, ?_, ?_, ?_, ?flux⟩
    case flux =>
      rintro d head ts rfl
      cases head <;> rfl
    all_goals
      intros
      subst_vars
      rfl

end Sys2Proof.Proofs
end

section
/-! PROOFS. The schedule (spec/20_memory.md R89, R90; spec/70_reset_and_hazards.md R470): the earliest pending instant, which of
the due events is a step's work, and the command that `withFetchWord` places. -/

namespace Sys2Proof.Proofs

open Sys2Proof.Machine Sys2Proof.Claims

/-! ## The earliest pending instant (R90) -/

/-- `o` is the least instant with a property, none where no instant has it. -/
def IsEarliest (P : Int → Prop) : Option Int → Prop
  | none => ∀ t, ¬ P t
  | some t => P t ∧ ∀ u, P u → t ≤ u

theorem IsEarliest.of_eq_some (o : Option Int) : IsEarliest (fun t => o = some t) o := by
  cases o with
  | none => exact fun _ => nofun
  | some t =>
    refine ⟨rfl, fun u hu => ?_⟩
    rw [Option.some.inj hu]

theorem IsEarliest.earlier {P Q : Int → Prop} {a b : Option Int} (ha : IsEarliest P a) (hb : IsEarliest Q b) :
    IsEarliest (fun t => P t ∨ Q t) (Machine.earlier a b) := by
  cases a with
  | none =>
    cases b with
    | none => exact fun t => not_or.mpr ⟨ha t, hb t⟩
    | some b => exact ⟨.inr hb.1, fun u hu => hb.2 u (hu.resolve_left (ha u))⟩
  | some a =>
    cases b with
    | none => exact ⟨.inl ha.1, fun u hu => ha.2 u (hu.resolve_right (hb u))⟩
    | some b =>
      simp only [Machine.earlier]
      split
      · next hlt => exact ⟨.inr hb.1, fun u hu => hu.elim (fun h => hlt.le.trans (ha.2 u h)) (hb.2 u)⟩
      · next hle => exact ⟨.inl ha.1, fun u hu => hu.elim (ha.2 u) (fun h => (not_lt.mp hle).trans (hb.2 u h))⟩

theorem IsEarliest.congr {P Q : Int → Prop} {o : Option Int} (h : IsEarliest P o) (hPQ : ∀ t, P t ↔ Q t) :
    IsEarliest Q o := by
  rwa [show P = Q from funext fun t => propext (hPQ t)] at h

theorem isEarliest_inputs (es : List Event) :
    IsEarliest (fun t => ∃ e ∈ es, e.time = t) (es.foldr (fun e t => Machine.earlier (some e.time) t) none) := by
  induction es with
  | nil => simp [IsEarliest]
  | cons e es ih => exact ((IsEarliest.of_eq_some (some e.time)).earlier ih).congr (by simp)

theorem exists_drive_iff {p : Drive → Prop} : (∃ d, p d) ↔ p .d0 ∨ p .d1 ∨ p .d2 ∨ p .d3 := by
  constructor
  · rintro ⟨d, h⟩
    cases d <;> simp [h]
  · rintro (h | h | h | h) <;> exact ⟨_, h⟩

theorem isEarliest_nextEvent (s : State) : IsEarliest (PendingAt s) s.nextEvent := by
  have timer := fun d => IsEarliest.of_eq_some (s.driveTimer.get d)
  refine (IsEarliest.earlier (.of_eq_some s.liveTimer) ((timer .d0).earlier ((timer .d1).earlier ((timer .d2).earlier
    ((timer .d3).earlier ((IsEarliest.of_eq_some s.pollTimer).earlier (isEarliest_inputs s.inputs))))))).congr fun t => ?_
  simp only [PendingAt, exists_drive_iff, or_assoc]

/-- With something pending in the past or now, time stays (log entry 16). -/
theorem arrive_now_of_due {s : State} (h : ∃ t, PendingAt s t ∧ t ≤ s.now) : (arrive s).now = s.now := by
  obtain ⟨t, hpending, hle⟩ := h
  have hearliest := isEarliest_nextEvent s
  simp only [arrive]
  split
  · rfl
  · next u hu =>
    rw [hu] at hearliest
    exact if_neg (not_lt.mpr ((hearliest.2 t hpending).trans hle))

theorem arrive_now_of_none {s : State} (h : ∀ t, ¬ PendingAt s t) : (arrive s).now = s.now := by
  have hearliest := isEarliest_nextEvent s
  simp only [arrive]
  split
  · rfl
  · next u hu =>
    rw [hu] at hearliest
    exact absurd hearliest.1 (h u)

/-- With something pending and none of it past, time moves to the least pending instant. -/
theorem arrive_now_of_pending {s : State} (h : ∃ t, PendingAt s t) (hfuture : ∀ t, PendingAt s t → s.now ≤ t) :
    PendingAt s (arrive s).now ∧ ∀ t, PendingAt s t → (arrive s).now ≤ t := by
  have hearliest := isEarliest_nextEvent s
  cases hnext : s.nextEvent with
  | none =>
    rw [hnext] at hearliest
    exact absurd h.choose_spec (hearliest _)
  | some u =>
    rw [hnext] at hearliest
    have hnow : (arrive s).now = u := by
      have := hfuture u hearliest.1
      simp only [arrive, hnext]
      split <;> omega
    rwa [hnow]

/-- The engine's next instant by its state. -/
theorem liveTimerRule (s : State) : LiveTimerRule s := by
  refine ⟨fun h => by simp [State.liveTimer, h], fun L hL => ⟨fun h => ?_, fun h => ?_, fun h => ⟨fun hbits => ?_, fun hbits => ?_⟩⟩⟩
  · simp [State.liveTimer, hL, LiveTransfer.nextTime, h]
  all_goals
    simp only [List.mem_cons, List.not_mem_nil, or_false] at h
    rw [State.liveTimer, hL]
  · rcases h with h | h | h | h | h | h | h <;> simp [LiveTransfer.nextTime, h, LiveState.writes, pllWindowEnd]
  · rcases h with h | h | h | h <;> simp [LiveTransfer.nextTime, h, LiveState.writes, pllWriteEnd, hbits.ne']
  · rcases h with h | h | h | h <;> simp [LiveTransfer.nextTime, h, LiveState.writes, hbits]

/-! ## The first due input of a rank (R470) -/

theorem takeRank_eq_none_iff {now : Int} {k : Nat} {es : List Event} :
    takeRank now k es = none ↔ ∀ e ∈ es, e.time ≤ now → e.input.rank ≠ k := by
  induction es with
  | nil => simp [takeRank]
  | cons e es ih =>
    rw [takeRank, List.forall_mem_cons, ← ih]
    split
    · next h => simp [h.1, h.2]
    · next h =>
      rw [not_and] at h
      cases takeRank now k es with
      | none => simpa using h
      | some r => simp

/-- What `takeRank` takes out, and what stands before it. -/
theorem takeRank_eq_some {now : Int} {k : Nat} {es rest : List Event} {i : Input}
    (h : takeRank now k es = some (i, rest)) :
    i.rank = k ∧ ∃ before time after, es = before ++ { time := time, input := i } :: after ∧ rest = before ++ after ∧
      time ≤ now ∧ ∀ e ∈ before, e.time ≤ now → e.input.rank ≠ k := by
  induction es generalizing rest with
  | nil => cases h
  | cons e es ih =>
    rw [takeRank] at h
    split at h
    · next hdue =>
      cases h
      exact ⟨hdue.2, [], e.time, es, rfl, rfl, hdue.1, by simp⟩
    · next hnot =>
      rw [not_and] at hnot
      split at h
      · cases h
      · next j tail htail =>
        cases h
        obtain ⟨hrank, before, time, after, hes, hrest, hle, hbefore⟩ := ih htail
        exact ⟨hrank, e :: before, time, after, by simp [hes], by simp [hrest], hle,
          List.forall_mem_cons.mpr ⟨hnot, hbefore⟩⟩

theorem takeRanks_eq_none_iff {now : Int} {es : List Event} {ks : List Nat} :
    takeRanks now es ks = none ↔ ∀ k ∈ ks, takeRank now k es = none := by
  induction ks with
  | nil => simp [takeRanks]
  | cons k ks ih =>
    rw [takeRanks, List.forall_mem_cons, ← ih]
    cases takeRank now k es <;> simp

/-- Of ranks in increasing order the first with a due input is taken. -/
theorem takeRanks_eq_some {now : Int} {es rest : List Event} {ks : List Nat} {i : Input} (hks : ks.Pairwise (· < ·))
    (h : takeRanks now es ks = some (i, rest)) :
    takeRank now i.rank es = some (i, rest) ∧ ∀ e ∈ es, e.time ≤ now → e.input.rank ∈ ks → i.rank ≤ e.input.rank := by
  induction ks with
  | nil => cases h
  | cons k ks ih =>
    obtain ⟨hk, hks⟩ := List.pairwise_cons.mp hks
    rw [takeRanks] at h
    split at h
    · next r hr =>
      cases h
      obtain ⟨hrank, -⟩ := takeRank_eq_some hr
      subst hrank
      refine ⟨hr, fun e _ _ hmem => ?_⟩
      rcases List.mem_cons.mp hmem with heq | hlater
      · exact heq.ge
      · exact (hk _ hlater).le
    · next hnone =>
      obtain ⟨htake, hleast⟩ := ih hks h
      refine ⟨htake, fun e he hdue hmem => ?_⟩
      rcases List.mem_cons.mp hmem with heq | hlater
      · exact absurd heq (takeRank_eq_none_iff.mp hnone e he hdue)
      · exact hleast e he hdue hlater

theorem rank_mem (i : Input) : i.rank = 0 ∨ i.rank ∈ [1, 2, 3, 4, 5, 6, 7] := by
  cases i with
  | index d => cases d <;> decide
  | _ => simp [Input.rank]

/-- The ranks of the kinds that R470 orders. -/
theorem rank_index (d : Drive) : (Input.index d).rank = 1 + (driveBits d).toNat := by cases d <;> rfl

theorem isDriveChange_iff (i : Input) : isDriveChange i = true ↔ i.rank = 0 := by
  cases i with
  | index d => cases d <;> decide
  | _ => simp [isDriveChange, Input.rank]

theorem isAccess_iff (i : Input) : isAccess i = true ↔ i.rank = 7 := by
  cases i with
  | index d => cases d <;> decide
  | _ => simp [isAccess, Input.rank]

/-- Inputs of one turn have one rank. -/
theorem rank_eq_of_sameTurn {i j : Input} (h : sameTurn i j = true) : j.rank = i.rank := by
  unfold sameTurn at h
  split at h
  · rfl
  · rfl
  · rw [of_decide_eq_true h]
  · rw [Bool.or_eq_true, Bool.and_eq_true, Bool.and_eq_true, isAccess_iff, isAccess_iff, isDriveChange_iff,
      isDriveChange_iff] at h
    omega

/-! ## The first due timer -/

theorem forall_drive_iff {p : Drive → Prop} : (∀ d, p d) ↔ p .d0 ∧ p .d1 ∧ p .d2 ∧ p .d3 :=
  ⟨fun h => ⟨h _, h _, h _, h _⟩, fun ⟨h0, h1, h2, h3⟩ d => by cases d <;> assumption⟩

theorem dueTimer_eq_none {s : State} (h : s.dueTimer = none) (d : Drive) : dueAt s.now (s.driveTimer.get d) = false := by
  unfold State.dueTimer at h
  cases d <;> simp only [Slots.get] <;> grind

theorem dueTimer_eq_some {s : State} {d : Drive} (h : s.dueTimer = some d) :
    dueAt s.now (s.driveTimer.get d) = true ∧
      ∀ e, (driveBits e).toNat < (driveBits d).toNat → dueAt s.now (s.driveTimer.get e) = false := by
  unfold State.dueTimer at h
  repeat' split at h
  all_goals cases h
  all_goals
    refine ⟨‹_›, fun e he => ?_⟩
    cases e <;> simp_all [driveBits, Slots.get]

/-! ## A step's work (R470) -/

theorem work_eq_engine_iff {s : State} : s.work = .engine ↔ dueAt s.now s.liveTimer = true := by
  unfold State.work State.dueInput
  split
  · next h => simp [h]
  · next h =>
    refine iff_of_false ?_ h
    repeat' split
    all_goals nofun

theorem work_eq_driveTimer {s : State} {d : Drive} (h : s.work = .driveTimer d) :
    takeRank s.now 0 s.inputs = none ∧ s.dueTimer = some d := by
  unfold State.work State.dueInput at h
  repeat' split at h
  all_goals cases h
  exact ⟨‹_›, ‹_›⟩

theorem work_eq_poll {s : State} (h : s.work = .poll) :
    takeRank s.now 0 s.inputs = none ∧ s.dueTimer = none ∧ dueAt s.now s.pollTimer = true := by
  unfold State.work State.dueInput at h
  repeat' split at h
  all_goals cases h
  exact ⟨‹_›, ‹_›, ‹_›⟩

theorem work_eq_nothing {s : State} (h : s.work = .nothing) :
    takeRank s.now 0 s.inputs = none ∧ s.dueTimer = none ∧ dueAt s.now s.pollTimer = false ∧
      takeRanks s.now s.inputs [1, 2, 3, 4, 5, 6, 7] = none := by
  unfold State.work State.dueInput at h
  repeat' split at h
  all_goals cases h
  exact ⟨‹_›, ‹_›, Bool.eq_false_of_not_eq_true ‹_›, ‹_›⟩

theorem work_eq_input {s : State} {i : Input} {rest : List Event} (h : s.work = .input i rest) :
    takeRank s.now 0 s.inputs = some (i, rest) ∨
      takeRank s.now 0 s.inputs = none ∧ s.dueTimer = none ∧ dueAt s.now s.pollTimer = false ∧
        takeRanks s.now s.inputs [1, 2, 3, 4, 5, 6, 7] = some (i, rest) := by
  unfold State.work State.dueInput at h
  repeat' split at h
  all_goals cases h
  · exact .inl ‹_›
  · exact .inr ⟨‹_›, ‹_›, Bool.eq_false_of_not_eq_true ‹_›, ‹_›⟩

/-- The input taken is the first due one of its rank, and no due one has a lower rank; a timer that is due comes before
every input but a Drive's own change. -/
theorem work_input_spec {s : State} {i : Input} {rest : List Event} (h : s.work = .input i rest) :
    takeRank s.now i.rank s.inputs = some (i, rest) ∧
      (∀ e ∈ s.inputs, e.time ≤ s.now → i.rank ≤ e.input.rank) ∧
      (i.rank ≠ 0 → (∀ d, dueAt s.now (s.driveTimer.get d) = false) ∧ dueAt s.now s.pollTimer = false) := by
  rcases work_eq_input h with htake | ⟨hnone, htimer, hpoll, htake⟩
  · obtain ⟨hrank, -⟩ := takeRank_eq_some htake
    rw [hrank]
    exact ⟨htake, fun _ _ _ => Nat.zero_le _, fun hne => absurd rfl hne⟩
  · obtain ⟨htake, hleast⟩ := takeRanks_eq_some (by decide) htake
    refine ⟨htake, fun e he hdue => ?_, fun _ => ⟨dueTimer_eq_none htimer, hpoll⟩⟩
    exact hleast e he hdue ((rank_mem e.input).resolve_left (takeRank_eq_none_iff.mp hnone e he hdue))

/-- No Drive's own change is due when no input of rank 0 is. -/
theorem not_due_driveChange {s : State} (h : takeRank s.now 0 s.inputs = none) :
    ¬ ∃ e ∈ s.inputs, e.time ≤ s.now ∧ isDriveChange e.input = true := by
  rintro ⟨e, he, hdue, hchange⟩
  exact takeRank_eq_none_iff.mp h e he hdue ((isDriveChange_iff e.input).mp hchange)

/-- With an input of one rank taken, none of a lower rank is due. -/
theorem not_due_of_rank_lt {s : State} {i : Input} (hleast : ∀ e ∈ s.inputs, e.time ≤ s.now → i.rank ≤ e.input.rank)
    {j : Input} (hj : j.rank < i.rank) : ¬ ∃ e ∈ s.inputs, e.time ≤ s.now ∧ decide (e.input = j) = true := by
  rintro ⟨e, he, hdue, heq⟩
  rw [decide_eq_true_eq] at heq
  exact absurd (hleast e he hdue) (by rw [heq]; omega)

/-- Settles O60: the earliest pending instant by `nextEvent`, and the order of the kinds by their ranks. -/
theorem sameInstantOrder : Obligations.SameInstantOrder := by
  intro s
  refine ⟨rfl, liveTimerRule s, arrive_now_of_pending, arrive_now_of_due, arrive_now_of_none, work_eq_engine_iff,
    fun d h => ?timer, fun h => ?poll, fun h => ?nothing, fun i rest h => ?input⟩
  case timer =>
    obtain ⟨hnone, htimer⟩ := work_eq_driveTimer h
    exact ⟨not_due_driveChange hnone, dueTimer_eq_some htimer⟩
  case poll =>
    obtain ⟨hnone, htimer, hpoll⟩ := work_eq_poll h
    exact ⟨not_due_driveChange hnone, hpoll, dueTimer_eq_none htimer⟩
  case nothing =>
    obtain ⟨hnone, htimer, hpoll, hranks⟩ := work_eq_nothing h
    refine ⟨by simp [dueTimer_eq_none htimer, hpoll], fun e he => not_le.mp fun hdue => ?_⟩
    rcases rank_mem e.input with hzero | hrank
    · exact takeRank_eq_none_iff.mp hnone e he hdue hzero
    · exact takeRank_eq_none_iff.mp (takeRanks_eq_none_iff.mp hranks _ hrank) e he hdue rfl
  case input =>
    obtain ⟨htake, hleast, htimers⟩ := work_input_spec h
    obtain ⟨-, before, time, after, hinputs, hrest, hdue, hbefore⟩ := takeRank_eq_some htake
    refine ⟨fun hchange => ?other, fun d e hi hdueIndex => ?index, fun level e hi => ?tc, fun e hi => ?reset,
      fun haccess e he hdueEvent => ?access, before, time, after, hinputs, hrest, hdue, fun e he hdueEvent => ?first⟩
    case other =>
      have hne : i.rank ≠ 0 := fun hzero => by simp [(isDriveChange_iff i).mpr hzero] at hchange
      obtain ⟨hdrives, hpoll⟩ := htimers hne
      refine ⟨by simp [hdrives, hpoll], ?_⟩
      rintro ⟨e, he, hdueEvent, hkind⟩
      have := hleast e he hdueEvent
      rw [(isDriveChange_iff e.input).mp hkind] at this
      omega
    case index =>
      subst hi
      obtain ⟨ev, hev, hdueEvent, hkind⟩ := hdueIndex
      have := hleast ev hev hdueEvent
      rw [of_decide_eq_true hkind, rank_index, rank_index] at this
      omega
    case tc =>
      subst hi
      exact not_due_of_rank_lt hleast (by cases e <;> simp [Input.rank])
    case reset =>
      subst hi
      exact ⟨not_due_of_rank_lt hleast (by cases e <;> decide), fun level => not_due_of_rank_lt hleast (by simp [Input.rank])⟩
    case access =>
      have := hleast e he hdueEvent
      rw [(isAccess_iff i).mp haccess] at this
      rw [isAccess_iff]
      rcases rank_mem e.input with hzero | hrank
      · omega
      · simp only [List.mem_cons, List.not_mem_nil, or_false] at hrank
        omega
    case first =>
      rw [Bool.eq_false_iff]
      exact fun hturn => hbefore e he hdueEvent (rank_eq_of_sameTurn hturn)

/-! ## The command that `withFetchWord` places (log entry 6) -/

/-- The state after `withFetchWord` has arrived: nothing is due but the host's write of the last byte. -/
theorem clearDue_dueAt (s : State) :
    (∀ d, dueAt s.now ((clearDue s).driveTimer.get d) = false) ∧ dueAt s.now (clearDue s).pollTimer = false ∧
      ∀ e ∈ (clearDue s).inputs, ¬ e.time ≤ s.now := by
  have hkeep : ∀ t, dueAt s.now (if dueAt s.now t then none else t) = false := by
    intro t
    split
    · rfl
    · exact Bool.eq_false_of_not_eq_true ‹_›
  refine ⟨fun d => ?_, hkeep _, fun e he => ?_⟩
  · simp only [clearDue, Slots.get_map, hkeep]
  · simpa [clearDue] using (List.mem_filter.mp he).2

theorem dueTimer_of_not_due {s : State} (h : ∀ d, dueAt s.now (s.driveTimer.get d) = false) : s.dueTimer = none := by
  obtain ⟨h0, h1, h2, h3⟩ := forall_drive_iff.mp h
  simp_all [State.dueTimer, Slots.get]

/-- An access that waits with nothing else due is the work. -/
theorem work_of_waiting_access {s : State} {i : Input} {rest : List Event} (hlive : s.liveTimer = none)
    (htimers : ∀ d, dueAt s.now (s.driveTimer.get d) = false) (hpoll : dueAt s.now s.pollTimer = false)
    (hinputs : s.inputs = { time := s.now, input := i } :: rest) (hrest : ∀ e ∈ rest, ¬ e.time ≤ s.now)
    (haccess : isAccess i = true) : s.work = .input i rest := by
  have hrank := (isAccess_iff i).mp haccess
  have hnone : ∀ k, k ≠ 7 → takeRank s.now k s.inputs = none := fun k hk => by
    rw [hinputs, takeRank_eq_none_iff]
    exact List.forall_mem_cons.mpr ⟨fun _ => hrank.trans_ne hk.symm, fun e he hdue => absurd hdue (hrest e he)⟩
  have hseven : takeRank s.now 7 s.inputs = some (i, rest) := by simp [hinputs, takeRank, hrank]
  have hengine : dueAt s.now s.liveTimer = false := by rw [hlive]; rfl
  simp [State.work, hengine, hpoll, hnone, dueTimer_of_not_due htimers, State.dueInput, takeRanks, hseven]

theorem arrive_withFetchWord (s : State) (nbits w : Nat) :
    arrive (s.withFetchWord nbits w) = { s.withFetchWord nbits w with outs := [] } := by
  have hnow : (arrive (s.withFetchWord nbits w)).now = s.now :=
    arrive_now_of_due ⟨s.now, .inr (.inr (.inr ⟨_, List.mem_cons_self, rfl⟩)), le_rfl⟩
  calc arrive (s.withFetchWord nbits w)
      = { s.withFetchWord nbits w with now := (arrive (s.withFetchWord nbits w)).now, outs := [] } := rfl
    _ = { s.withFetchWord nbits w with outs := [] } := by rw [hnow]; rfl

theorem encode_dropLast_eq_nil_iff (i : Instr) : (encode i).dropLast = [] ↔ i.commandBytes = 1 := by
  cases i <;> simp [encode, encodeNine, Instr.commandBytes]

theorem encode_ne_nil (i : Instr) : encode i ≠ [] := by
  cases i <;> exact List.cons_ne_nil _ _

/-- Settles O6: the placed write is the step's work, and the bytes before it with its byte are the command's encoding. -/
theorem fetchedCommandRunsNext : Obligations.FetchedCommandRunsNext := by
  intro s i nbits w hbytes
  obtain ⟨htimers, hpoll, hlater⟩ := clearDue_dueAt s
  have hwork : (arrive (s.withFetchWord nbits w)).work =
      .input (.hostWrite .data ((encode i).getLastD 0)) (clearDue s).inputs := by
    rw [arrive_withFetchWord]
    exact work_of_waiting_access rfl htimers hpoll (by rw [← hbytes]; rfl) hlater rfl
  have hdecode : decode ((encode i).dropLast ++ [(encode i).getLastD 0]) = .known i [] := by
    rw [List.getLastD_eq_getLast?, List.getLast?_eq_getLast_of_ne_nil (encode_ne_nil i), Option.getD_some,
      List.dropLast_append_getLast, ← List.append_nil (encode i)]
    exact encodedCommandsDecode i []
  obtain ⟨hcomplete, -⟩ := stepRunsDecodedCommand (s.withFetchWord nbits w)
  have hruns := hcomplete _ _ i hwork rfl (by simp [State.withFetchWord, placeCommand, State.notReset, bitAt])
    (by simpa only [State.withFetchWord, placeCommand, hbytes] using hdecode)
  rw [hruns, arrive_withFetchWord]
  simp only [State.withFetchWord, placeCommand, hbytes, encode_dropLast_eq_nil_iff]
  rfl

end Sys2Proof.Proofs
end

section
/-! PROOFS. The controller's invariants along every step (spec/10_state.md R74, R75), and the stops that are left
(spec/60_exceptions.md R406, spec/30_encoding.md R108). -/

namespace Sys2Proof.Proofs

open Sys2Proof.Machine Sys2Proof.Claims

/-! ## Every step keeps the invariants (R74) -/

theorem arrive_same (s : State) : SameControl s (arrive s) :=
  ⟨rfl, rfl, rfl, rfl, rfl, fun _ => ⟨rfl, rfl, rfl⟩, id⟩

theorem setInputs_same (s : State) (es : List Event) : SameControl s { s with inputs := es } :=
  ⟨rfl, rfl, rfl, rfl, rfl, fun _ => ⟨rfl, rfl, rfl⟩, id⟩

theorem doWork_inv {s : State} (w : Work) (h : ControllerInv s) : Keeps (doWork w s) := by
  cases w with
  | engine => exact .inl (engineStep_inv s.now h)
  | driveTimer d => exact .inl (driveTimerExpiry_inv d h)
  | poll => exact .next (h.of_same (pollExpiry_same s))
  | input i rest => exact applyInput_inv i (h.of_same (setInputs_same s rest))
  | nothing => exact .next h

theorem step_inv {s : State} (h : ControllerInv s) : Keeps (step s) :=
  (doWork_inv _ (h.of_same (arrive_same s))).finish

/-- Settles O55: the work of every kind keeps the invariants, or is refused and answers no next state. -/
theorem controllerInvariantKept : Obligations.ControllerInvariantKept := by
  intro s t hinv hstep
  rcases step_inv hinv with ⟨u, hu, hkept⟩ | ⟨f, hrefused⟩ | hrefused
  · rw [hstep] at hu
    cases hu
    exact hkept
  · rw [hstep] at hrefused
    cases hrefused
  · rw [hstep] at hrefused
    cases hrefused

/-- Settles O56: at reset the buffers are empty, every drive is Idle, no transfer runs and no line is up. -/
theorem invariantsHoldAtReset : Obligations.InvariantsHoldAtReset := by
  refine ⟨.reset rfl rfl rfl rfl rfl fun d => ?_, fun d => ?_, nofun, rfl, rfl⟩
  · cases d <;> exact ⟨rfl, rfl, rfl⟩
  · cases d <;> exact ⟨.nil, .nil⟩

/-! ## The refusals that are left (R406) -/

/-- The handler answers a next state. -/
def Proceeds (r : Result) : Prop := ∃ t, r = .next t

theorem Proceeds.of_answers {P : State → Prop} {r : Result} (h : Answers P r) : Proceeds r :=
  let ⟨t, ht, _⟩ := h
  ⟨t, ht⟩

theorem Proceeds.finishOutputs {r : Result} (h : Proceeds r) : Proceeds (Machine.finishOutputs r) := by
  obtain ⟨t, rfl⟩ := h
  exact ⟨_, rfl⟩

theorem commandByte_refusesOnlyBusy {s : State} {v : Byte} (h : s.cmd = [] → ∀ r, decodeOpcode v ≠ .refused r) :
    RefusesOnlyBusy (commandByte v s) := by
  unfold commandByte
  dsimp only
  split
  · next hcmd =>
    split
    · exact .next _
    · next r hr => exact absurd hr (h hcmd r)
    · exact appendCommandByte_refusesOnlyBusy _ _
  · exact appendCommandByte_refusesOnlyBusy _ _

theorem Proceeds.of_keeps {r : Result} (h : Keeps r) (hbusy : RefusesOnlyBusy r) : Proceeds r := by
  rcases h with hanswers | ⟨f, rfl⟩ | rfl
  · exact .of_answers hanswers
  · cases hbusy _ rfl
  · cases hbusy _ rfl

/-- A write of `DATA` is answered, but for a first command byte that is a family member's opcode (R108). -/
theorem hostWriteData_proceeds_or_refuses {s : State} (v : Byte) (h : ControllerInv s) :
    Proceeds (hostWriteData v s) ∨ ∃ r, s.phase = .command ∧ s.cmd = [] ∧ decodeOpcode v = .refused r ∧
      hostWriteData v s = .refused (.unmodelledCommand r) := by
  unfold hostWriteData
  split
  · split
    · next hphase =>
      by_cases hfamily : ∃ r, s.cmd = [] ∧ decodeOpcode v = .refused r
      · obtain ⟨r, hcmd, hv⟩ := hfamily
        exact .inr ⟨r, hphase, hcmd, hv, by simp [commandByte, hcmd, hv]⟩
      · exact .inl (.of_keeps (commandByte_inv v h hphase)
          (commandByte_refusesOnlyBusy fun hcmd r hv => hfamily ⟨r, hcmd, hv⟩))
    · exact .inl ⟨_, rfl⟩
    · exact .inl ⟨_, rfl⟩
  · exact .inl ⟨_, rfl⟩

/-- Every input is answered, but for the accesses to an extended register and the first byte of a family command. -/
theorem applyInput_proceeds_or_refuses {s : State} (i : Input) (h : ControllerInv s) :
    Proceeds (applyInput i s) ∨
      (∃ v r, i = .hostWrite .data v ∧ s.phase = .command ∧ s.cmd = [] ∧ decodeOpcode v = .refused r ∧
        applyInput i s = .refused (.unmodelledCommand r)) ∨
      ((i = .hostRead .extended ∨ ∃ v, i = .hostWrite .extended v) ∧ applyInput i s = .refused .extendedRegister) := by
  cases i with
  | hostWrite reg v =>
    cases reg with
    | data =>
      refine (hostWriteData_proceeds_or_refuses v h).imp id fun hrefuses => ?_
      obtain ⟨r, hrefuses⟩ := hrefuses
      exact .inl ⟨v, r, rfl, hrefuses⟩
    | extended => exact .inr (.inr ⟨.inr ⟨v, rfl⟩, rfl⟩)
    | _ => exact .inl ⟨_, rfl⟩
  | hostRead reg =>
    cases reg with
    | extended => exact .inr (.inr ⟨.inl rfl, rfl⟩)
    | _ => exact .inl ⟨_, rfl⟩
  | index d => exact .inl (.of_answers (onIndex_inv d h))
  | _ => exact .inl ⟨_, rfl⟩

/-- Settles O58: only inputs can be refused, and the invariants leave no live start while a transfer runs. -/
theorem onlyNamedRefusals : Obligations.OnlyNamedRefusals := by
  intro s hinv
  have harrived := hinv.of_same (arrive_same s)
  cases hwork : (arrive s).work with
  | engine => exact .inl (step_of_work hwork ▸ (Proceeds.of_answers (engineStep_inv _ harrived)).finishOutputs)
  | driveTimer d => exact .inl (step_of_work hwork ▸ (Proceeds.of_answers (driveTimerExpiry_inv d harrived)).finishOutputs)
  | poll => exact .inl ⟨_, step_of_work hwork⟩
  | nothing => exact .inl ⟨_, step_of_work hwork⟩
  | input i rest =>
    rw [step_of_input hwork]
    rcases applyInput_proceeds_or_refuses i (harrived.of_same (setInputs_same _ rest)) with
      hnext | ⟨v, r, rfl, hphase, hcmd, hv, hrefused⟩ | ⟨hextended, hrefused⟩
    · exact .inl hnext.finishOutputs
    · exact .inr (.inl ⟨v, rest, r, rfl, hphase, hcmd, hv, by rw [hrefused]; rfl⟩)
    · exact .inr (.inr ⟨⟨i, rest, rfl, hextended⟩, by rw [hrefused]; rfl⟩)

end Sys2Proof.Proofs
end

section
/-! PROOFS. The resets (spec/70_reset_and_hazards.md R450 to R454), the host's register writes (spec/45_host_interface.md R366 to
R369) and the ready poll (spec/60_exceptions.md R430). -/

namespace Sys2Proof.Proofs

open Sys2Proof.Machine Sys2Proof.Claims

/-! ## The resets -/

/-- A second abort finds no transfer. -/
theorem liveAbort_liveAbort (s : State) : liveAbort (liveAbort s) = liveAbort s := liveAbort_of_none (liveAbort_live s)

theorem softReset_liveAbort (s : State) : softReset (liveAbort s) = softReset s := by
  simp only [softReset, liveAbort_liveAbort]

theorem liveAbort_of_some {s : State} {L : LiveTransfer} (h : s.live = some L) :
    liveAbort s = { stopWriting L.drive s.now s with
      live := none, drives := s.drives.set L.drive { s.slot L.drive with live := false } } := by
  obtain ⟨hdrives, -⟩ := stopWriting_keeps L.drive s.now s
  simp [liveAbort, h, dropLive, State.updSlot, hdrives]

/-- Settles O44: with no transfer the reset is the record written out, and a running one is aborted by `liveAbort`. -/
theorem softResetRule : Obligations.SoftResetRule := by
  intro s
  refine ⟨fun hlive => ?_, liveAbort_of_none, fun L hL => ⟨liveAbort_of_some hL, (softReset_liveAbort s).symm⟩⟩
  simp only [softReset, liveAbort_of_none hlive]
  rfl

/-- Settles O45: the aborted transfer changes only the flux and the calls of what the reset keeps. -/
theorem hardwareResetRule : Obligations.HardwareResetRule := by
  intro s
  have hframe := liveAbort_frame s
  simp only [hardwareReset, hframe.par, hframe.irqOut, hframe.drqOut, hframe.now, hframe.inputs, hframe.dor]
  rfl

/-- With no reason pending, no request, and every drive Idle between commands, the lines are low and MSR has at most RQM. -/
theorem lines_low_of_quiet {t : State} (hphase : t.phase = .command) (hcmd : t.cmd = []) (hdata : t.dataIrq = false)
    (hrequest : t.internalDrq = false) (hidle : ∀ d, (t.slot d).mainState = .idle ∧ (t.slot d).irq = .none) :
    (updateOutputs t).irqOut = false ∧ (updateOutputs t).drqOut = false ∧
      t.mainStatus = if t.dor.getLsbD 2 then 0x80 else 0x00 := by
  obtain ⟨⟨hm0, hi0⟩, ⟨hm1, hi1⟩, ⟨hm2, hi2⟩, ⟨hm3, hi3⟩⟩ := forall_drive_iff.mp hidle
  obtain ⟨hmsr, -⟩ := mainStatusRegister t
  simp only [State.slot_def, Slots.get] at hm0 hm1 hm2 hm3 hi0 hi1 hi2 hi3
  refine ⟨?irq, ?drq, ?msr⟩
  case irq => simp [updateOutputs, State.irqLevel, State.irqSource, hphase, hdata, hrequest, hi0, hi1, hi2, hi3]
  case drq => simp [updateOutputs, State.drqLevel, State.drqSource, hrequest]
  case msr =>
    rw [hmsr]
    simp only [State.slot_def, Slots.get, hm0, hm1, hm2, hm3, hphase, hcmd]
    cases t.dor.getLsbD 2 <;> simp [bitsIf]

/-- Settles O46: each reset leaves a quiet state. -/
theorem linesLowAfterReset : Obligations.LinesLowAfterReset := by
  rintro s t (rfl | rfl | rfl)
  · exact lines_low_of_quiet rfl rfl rfl rfl fun d => by
      simp only [softReset, State.slot_def, Slots.get_map]
      exact ⟨rfl, rfl⟩
  · exact lines_low_of_quiet rfl rfl rfl rfl fun d => by
      simp only [hardwareReset, armPoll, State.slot_def, Slots.get_replicate]
      exact ⟨rfl, rfl⟩
  · exact lines_low_of_quiet rfl rfl rfl rfl fun d => by cases d <;> exact ⟨rfl, rfl⟩

/-- Settles O47: the record `State.reset`, field by field. -/
theorem powerOnState : Obligations.PowerOnState := by
  refine ⟨rfl, rfl, rfl, rfl, rfl, rfl, rfl, rfl, rfl, rfl, rfl, rfl, rfl, rfl, rfl, rfl, rfl, rfl, rfl, rfl, rfl, rfl,
    rfl, rfl, rfl, rfl, rfl, fun d => ?_, fun d => ?_, rfl⟩ <;> cases d <;> rfl

/-! ## The register writes -/

theorem hostWriteDor_of_same {v : Byte} {s : State} (h : s.dor.getLsbD 2 = v.getLsbD 2) :
    hostWriteDor v s = { s with dor := v, outs := s.outs ++ motorCalls s.dor v } := by
  simp only [hostWriteDor, bitAt, h]
  cases v.getLsbD 2 <;> rfl

theorem hostWriteDor_of_fall {v : Byte} {s : State} (hold : s.dor.getLsbD 2 = true) (hnew : v.getLsbD 2 = false) :
    hostWriteDor v s = softReset { s with dor := v, outs := s.outs ++ motorCalls s.dor v } := by
  simp only [hostWriteDor, bitAt, hold, hnew]
  rfl

theorem hostWriteDor_of_rise {v : Byte} {s : State} (hold : s.dor.getLsbD 2 = false) (hnew : v.getLsbD 2 = true) :
    hostWriteDor v s = armPoll { s with dor := v, outs := s.outs ++ motorCalls s.dor v } := by
  simp only [hostWriteDor, bitAt, hold, hnew]
  rfl

theorem motorBit_eq (v : Byte) (d : Drive) : motorBit v d = v.getLsbD (4 + (driveBits d).toNat) := by
  cases d <;> rfl

theorem mem_motorCall {old new : Byte} {d e : Drive} {on : Bool} :
    .motor d on ∈ motorCall old new e ↔ d = e ∧ motorBit new d = on ∧ motorBit old d ≠ on := by
  unfold motorCall
  split
  · next h => simpa using fun hd hon => by subst hd; exact h.trans hon
  · next h =>
    rw [List.mem_singleton, Output.motor.injEq]
    constructor
    · rintro ⟨rfl, rfl⟩
      exact ⟨rfl, rfl, h⟩
    · rintro ⟨rfl, hnew, -⟩
      exact ⟨rfl, hnew.symm⟩

theorem mem_motorCalls {old new : Byte} {d : Drive} {on : Bool} :
    .motor d on ∈ motorCalls old new ↔ motorBit new d = on ∧ motorBit old d ≠ on := by
  simp only [motorCalls, List.mem_append, mem_motorCall, ← or_and_right, or_assoc]
  exact and_iff_right (exists_drive_iff.mp ⟨d, rfl⟩)

/-- Settles O40: the four cases of the not-reset bit, and the motor calls by their bits. -/
theorem digitalOutputWrite : Obligations.DigitalOutputWrite := by
  intro v s
  refine ⟨fun hsame => congrArg _ (hostWriteDor_of_same hsame), fun hold hnew => congrArg _ (hostWriteDor_of_fall hold hnew),
    fun hold hnew => congrArg _ (hostWriteDor_of_rise hold hnew), fun d on => ?_⟩
  rw [mem_motorCalls, motorBit_eq, motorBit_eq]

theorem hostWriteDsr_of_select {v : Byte} {s : State} (h : v.getLsbD 7 = false) : hostWriteDsr v s = setRate v s := by
  simp only [hostWriteDsr, bitAt, h]
  rfl

theorem softReset_notReset (s : State) : (softReset s).notReset = s.notReset :=
  congrArg (bitAt · 2) (liveAbort_frame s).dor

theorem hostWriteDsr_of_reset {v : Byte} {s : State} (h : v.getLsbD 7 = true) :
    hostWriteDsr v s = if s.notReset then armPoll (softReset (setRate v s)) else softReset (setRate v s) := by
  simp only [hostWriteDsr, bitAt, h, if_pos, softReset_notReset]
  rfl

theorem armPoll_softReset (s : State) : armPoll (softReset s) = { softReset s with pollTimer := some (s.now + pollFirst) } :=
  congrArg (fun t => { softReset s with pollTimer := some (t + pollFirst) }) (liveAbort_frame s).now

/-- Settles O41: both writes select the rate, and DSR bit 7 resets. -/
theorem rateRegisterWrites : Obligations.RateRegisterWrites := by
  intro v s
  refine ⟨rfl, fun h7 => congrArg _ (hostWriteDsr_of_select h7), fun h7 hreset => congrArg Host.Outcome.next ?held,
    fun h7 hreset => congrArg Host.Outcome.next ?armed⟩
  case held => exact (hostWriteDsr_of_reset h7).trans (if_neg (ne_true_of_eq_false hreset))
  case armed => exact (hostWriteDsr_of_reset h7).trans ((if_pos hreset).trans (armPoll_softReset _))

/-! ## The ready poll -/

/-- The poll's two tests, as one condition. -/
theorem pollExpiry_eq (s : State) :
    pollExpiry s =
      if s.par.readyPolled = true ∧ s.notReset = true ∧ s.pollDisabled = false ∧ s.phase = .command ∧ s.cmd = [] then
        { s with
          pollTimer := some (s.now + pollInterval)
          drives :=
            { s0 := pollSlot (s.driveReady .d0) s.drives.s0
              s1 := pollSlot (s.driveReady .d1) s.drives.s1
              s2 := pollSlot (s.driveReady .d2) s.drives.s2
              s3 := pollSlot (s.driveReady .d3) s.drives.s3 } }
      else { s with pollTimer := some (s.now + pollInterval) } := by
  have hbars : (!s.par.readyPolled || !s.notReset || s.pollDisabled) = true ∨ (s.phase ≠ .command ∨ s.cmd ≠ []) ↔
      ¬ (s.par.readyPolled = true ∧ s.notReset = true ∧ s.pollDisabled = false ∧ s.phase = .command ∧ s.cmd = []) := by
    simp only [Bool.or_eq_true, Bool.not_eq_true', ← Bool.not_eq_true]
    tauto
  exact (ite_or ..).symm.trans ((if_congr hbars rfl rfl).trans (ite_not ..))

/-- Settles O43: the two outcomes of the poll, and in the second one `pollSlot` of each drive. -/
theorem readyPollReportsChanges : Obligations.ReadyPollReportsChanges := by
  intro s
  refine ⟨fun hbarred => ?barred, fun hpolled hreset henabled hphase hcmd => ?polls⟩
  case barred =>
    rw [pollExpiry_eq, if_neg]
    · rfl
    · rintro ⟨hpolled, hreset, henabled, hphase, hcmd⟩
      rcases hbarred with h | h | h | h | h
      · exact absurd (hpolled.symm.trans h) (by decide)
      · exact absurd (Eq.trans (Eq.symm hreset) h) (by decide)
      · exact absurd (Eq.trans (Eq.symm henabled) h) (by decide)
      · exact h hphase
      · exact h hcmd
  case polls =>
    have hexpiry := (pollExpiry_eq s).trans (if_pos ⟨hpolled, hreset, henabled, hphase, hcmd⟩)
    have hslot : ∀ d, (pollExpiry s).slot d = pollSlot (s.driveReady d) (s.slot d) := fun d => by
      rw [hexpiry]
      cases d <;> rfl
    refine ⟨by rw [hexpiry]; rfl, fun d => ⟨fun hidle hchanged => ?_, fun hother => ?_⟩⟩
    · rw [hslot, pollSlot, if_pos ⟨hidle, hchanged⟩]
    · rw [hslot, pollSlot, if_neg]
      rintro ⟨hidle, hchanged⟩
      exact hother.elim (fun h => h hidle) hchanged

end Sys2Proof.Proofs
end

section
/-! PROOFS. The data port by phase and direction (spec/45_host_interface.md R353, R357 to R360), and the FIFO's requests
(spec/44_fifo.md R323 to R331). -/

namespace Sys2Proof.Proofs

open Sys2Proof.Machine Sys2Proof.Claims

/-! ## The data port -/

theorem hostReadData_of_command {s : State} (hphase : s.phase = .command) : hostReadData s = (0xFF, s) := by
  simp only [hostReadData, hphase]

theorem hostReadData_of_execution {s : State} (hphase : s.phase = .execution) :
    hostReadData s = if s.cur.op.isHostRead then hostPop s else (0xFF, s) := by
  simp only [hostReadData, hphase]

theorem dmaRead_of_other {s : State} (hphase : s.phase ≠ .execution) : dmaRead s = (0xFF, s) :=
  if_neg fun h => hphase h.1

theorem dmaRead_of_execution {s : State} (hphase : s.phase = .execution) :
    dmaRead s = if s.cur.op.isHostRead then hostPop s else (0xFF, s) := by
  simp only [dmaRead, hphase, true_and]

theorem dmaWrite_of_other {s : State} (v : Byte) (hphase : s.phase ≠ .execution) : dmaWrite v s = s :=
  if_neg fun h => hphase h.1

theorem dmaWrite_of_execution {s : State} (v : Byte) (hphase : s.phase = .execution) :
    dmaWrite v s = if s.cur.op.isHostWrite then hostPush v s else s := by
  simp only [dmaWrite, hphase, true_and]

theorem hostWriteData_of_execution {s : State} (v : Byte) (hphase : s.phase = .execution) :
    hostWriteData v s = .next (if s.notReset = true ∧ s.cur.op.isHostWrite = true then hostPush v s else s) := by
  simp only [hostWriteData, hphase]
  cases s.notReset <;> cases s.cur.op.isHostWrite <;> rfl

theorem hostWriteData_of_result {s : State} (v : Byte) (hphase : s.phase = .result) : hostWriteData v s = .next s := by
  simp only [hostWriteData, hphase, ite_self]

theorem hostWriteData_of_reset {s : State} (v : Byte) (hreset : s.notReset = false) : hostWriteData v s = .next s :=
  if_neg (ne_true_of_eq_false hreset)

/-- Settles O39: the accesses by phase, and in Execution by the direction of the command. -/
theorem dataPortByPhase : Obligations.DataPortByPhase := by
  intro v s
  refine ⟨fun hphase => ?command, fun hphase => ?execution, fun hphase => ?result, hostWriteData_of_reset v,
    rfl, rfl, rfl, rfl, rfl⟩
  case command =>
    have hother : s.phase ≠ .execution := by rw [hphase]; decide
    exact ⟨hostReadData_of_command hphase, dmaRead_of_other hother, dmaWrite_of_other v hother⟩
  case result =>
    have hother : s.phase ≠ .execution := by rw [hphase]; decide
    exact ⟨dmaRead_of_other hother, dmaWrite_of_other v hother, hostWriteData_of_result v hphase⟩
  case execution =>
    rw [hostReadData_of_execution hphase, dmaRead_of_execution hphase, dmaWrite_of_execution v hphase, hostWrite,
      hostWriteData_of_execution v hphase]
    refine ⟨?reads, ?writes, ?readId⟩
    case reads => rintro (hop | hop | hop) <;> simp [hop, Op.isHostRead, Op.isHostWrite]
    case writes =>
      have hdor : s.notReset = s.dor.getLsbD 2 := rfl
      rw [hdor]
      rintro (hop | hop | hop) <;> rw [hop] <;> exact ⟨rfl, rfl, rfl, fun h => by rw [h]; rfl⟩
    case readId => intro hop; simp [hop, Op.isHostRead, Op.isHostWrite]

/-! ## The FIFO's requests -/

theorem efifo_eq (s : State) : s.efifo = s.fifocfg.getLsbD 5 := rfl

/-- The refill test of an engine pop (R325). -/
theorem enginePop_internalDrq (s : State) :
    (enginePop s).2.internalDrq = (s.internalDrq || (decide (0 < s.fifoExpected) &&
      (if s.fifocfg.getLsbD 5 then decide ((enginePop s).2.fifo = [])
       else decide ((enginePop s).2.fifo.length ≤ (s.fifocfg.extractLsb' 0 4).toNat)))) := by
  cases hfifo : s.fifo with
  | nil =>
    rw [enginePop_of_nil hfifo]
    simp only [refillRequest, State.wantsRefill, setSt1_fifo, hfifo]
    rfl
  | cons v rest =>
    rw [enginePop_of_cons hfifo]
    simp only [refillRequest, State.wantsRefill, ← List.isEmpty_iff]
    cases rest <;> rfl

/-- The command's result withdraws the request, and relinquishing did so before. -/
theorem finishDrain_internalDrq {s : State} (h : s.internalDrq = false) : (finishDrain s).internalDrq = false := by
  unfold finishDrain
  split
  · rfl
  · exact h

theorem hostPop_internalDrq_of_last {s : State} (hread : s.fifoWrite = false) (hlast : s.fifo.length ≤ 1) :
    (hostPop s).2.internalDrq = false := by
  have hempty : (hostTake s).2.fifo = [] := by
    cases hfifo : s.fifo with
    | nil => rw [hostTake_of_nil hfifo]; exact hfifo
    | cons v rest =>
      rw [hostTake_of_cons hfifo]
      rw [hfifo, List.length_cons] at hlast
      exact List.eq_nil_of_length_eq_zero (Nat.le_zero.mp (Nat.le_of_succ_le_succ hlast))
  rw [hostPop, if_neg (by simp [hread])]
  exact finishDrain_internalDrq (by rw [relinquish, hempty]; rfl)

/-- Settles O34: each operation in the case its condition selects. -/
theorem fifoRequestsTheHost : Obligations.FifoRequestsTheHost := by
  intro v n s
  refine ⟨fun hroom => ?enginePush, enginePop_internalDrq s, ?flush, fun htc => ?expect, fun htc => ?expectTC, rfl, rfl,
    fun hwrite hexpected hroom => ?hostPush, fun hfull => ?full, fun hread => ⟨hostPop_internalDrq_of_last hread,
      fun hmore => ?popMore⟩⟩
  case enginePush =>
    rw [enginePush_of_room hroom]
    rfl
  case flush => cases hfifo : s.fifo <;> simp [flushRequest, hfifo]
  case expect =>
    simp only [fifoExpect, htc]
    rfl
  case expectTC => simp [fifoExpect, htc]
  case hostPush =>
    rw [hostPush_of_room hwrite hexpected hroom]
    simp [State.stillRequested, efifo_eq, fifoCap]
  case full =>
    rw [enginePush_of_full hfull]
    refine ⟨rfl, ?_⟩
    by_cases hexpected : s.fifoWrite = false ∨ s.fifoExpected = 0
    · rw [hostPush_of_unexpected hexpected]
      exact ⟨rfl, rfl⟩
    · rw [not_or, Bool.not_eq_false] at hexpected
      rw [hostPush_of_full hexpected.1 hexpected.2 hfull]
      exact ⟨rfl, rfl⟩
  case popMore =>
    obtain ⟨x, rest, hfifo⟩ := List.exists_cons_of_length_pos (by omega : 0 < s.fifo.length)
    have hrest : rest ≠ [] := by
      rintro rfl
      simp [hfifo] at hmore
    rw [hostPop_of_more hfifo hread hrest]

end Sys2Proof.Proofs
end

section
/-! PROOFS. The two ways a command of R231 goes on: its end, with the result or the wait in Drain (spec/60_exceptions.md R410,
R411; spec/44_fifo.md R331), and the live start (spec/41_bitstream.md R190; spec/40_pll.md R131 to R133), each as one
record of the statements' vocabulary. -/

namespace Sys2Proof.Proofs

open Sys2Proof.Machine Sys2Proof.Claims

/-! ## The status bytes at the end of a command (R400, R410) -/

theorem withIC_abnormal : ∀ x : Byte, withIC x icAbnormal = abnormal x := by decide

theorem abnormal_abnormal : ∀ x : Byte, abnormal (abnormal x) = abnormal x := by decide

theorem updSlot_of_fixed {s : State} {d : Drive} {f : DriveSlot → DriveSlot} (h : f (s.slot d) = s.slot d) :
    s.updSlot d f = s := by
  rw [State.slot_def] at h
  simp [State.updSlot, h]

/-- An overrun changes ST0 of the command's drive alone, to the final ST0. -/
theorem abnormalOnOverrun_eq (d : Drive) (s : State) :
    abnormalOnOverrun d s = s.updSlot d fun x => { x with st0 := finalSt0 s.par x.st0 s.st1 } := by
  have hoverrun : s.overrun = s.st1.getLsbD 4 := rfl
  simp only [abnormalOnOverrun, hoverrun, finalSt0, ← Bool.and_eq_true]
  split
  · simp only [State.setIC, withIC_abnormal]
  · exact (updSlot_of_fixed rfl).symm

/-! ## The end of a command -/

/-- `FinishResult` where no transfer is left (R410, R411). -/
theorem finishResult_eq {d : Drive} {s : State} (hlive : s.live = none) (hslot : (s.slot d).live = false) :
    finishResult d s = ended d (finalSt0 s.par (s.slot d).st0 s.st1) s.st1 s.st2 s := by
  rw [finishResult, abnormalOnOverrun_eq]
  simp only [State.slot_def] at hslot
  simp [ended, enterResult, State.sevenBytes, State.updSlot, hlive, hslot]

theorem isHostRead_iff (op : Op) : op.isHostRead = true ↔ op ∈ ([.readData, .readDeletedData, .readTrack] : List Op) := by
  cases op <;> decide

/-- `CommandDone` where no transfer is left (R410). -/
theorem commandDone_eq {d : Drive} {s : State} (hlive : s.live = none) (hslot : (s.slot d).live = false) :
    commandDone d s = finished d (s.slot d).st0 s.st1 s.st2 s := by
  have hdrains : (s.cur.op.isHostRead && !s.fifo.isEmpty && !s.tcDone) = true ↔
      s.cur.op ∈ ([.readData, .readDeletedData, .readTrack] : List Op) ∧ s.fifo ≠ [] ∧ s.tcDone = false := by
    rw [← isHostRead_iff]
    simp [and_assoc]
  have hdrain : { s.slot d with subState := .drain } =
      { s.slot d with subState := .drain, live := false, st0 := (s.slot d).st0 } := by rw [← hslot]
  rw [commandDone, finishResult_eq hlive hslot, finished]
  refine if_congr hdrains ?_ rfl
  rw [State.updSlot, ← State.slot_def, hdrain, ← hlive]

/-! ## Drain (R410, R331) -/

/-- Pops that leave bytes in the FIFO only take them. -/
theorem pops_of_lt {k : Nat} {s : State} (hread : s.fifoWrite = false) (hk : k < s.fifo.length) :
    (pops k s).2 = { s with fifo := s.fifo.drop k } := by
  induction k generalizing s with
  | zero => rfl
  | succ k ih =>
    obtain ⟨v, rest, hfifo⟩ := List.exists_cons_of_length_pos (Nat.zero_lt_of_lt hk)
    rw [hfifo, List.length_cons] at hk
    have hrest : rest ≠ [] := List.ne_nil_of_length_pos (by omega)
    have hlater := ih (s := { s with fifo := rest }) hread (Nat.lt_of_succ_lt_succ hk)
    rw [pops, hostPop_of_more hfifo hread hrest, hfifo]
    exact hlater

/-- The pop of the last byte in Drain makes the command's result. -/
theorem hostPop_of_last {s : State} {v : Byte} (hread : s.fifoWrite = false) (hfifo : s.fifo = [v])
    (hdrain : (s.slot s.cur.d).subState = .drain) :
    hostPop s = (v, finishResult s.cur.d { s with fifo := [], internalDrq := false }) := by
  rw [hostPop, if_neg (by simp [hread]), hostTake_of_cons hfifo]
  simp only [relinquish, List.isEmpty_nil, if_pos, finishDrain]
  rw [if_pos]
  simpa using hdrain

/-- The pops of a drained FIFO, by induction on its bytes. -/
theorem pops_all {l : List Byte} (hl : l ≠ []) {s : State} (hread : s.fifoWrite = false) (hfifo : s.fifo = l)
    (hdrain : (s.slot s.cur.d).subState = .drain) :
    pops l.length s = (l, finishResult s.cur.d { s with fifo := [], internalDrq := false }) := by
  induction l generalizing s with
  | nil => exact absurd rfl hl
  | cons v rest ih =>
    rw [List.length_cons, pops]
    by_cases hrest : rest = []
    · subst hrest
      rw [hostPop_of_last hread hfifo hdrain]
      rfl
    · have hlater := ih hrest (s := { s with fifo := rest }) hread rfl hdrain
      rw [hostPop_of_more hfifo hread hrest, hlater]

/-- A read command that ends with bytes in the FIFO, before TC, enters Drain with the request up (R410). -/
theorem commandDone_of_bytes {d : Drive} {s : State} (hop : s.cur.op ∈ ([.readData, .readDeletedData, .readTrack] : List Op))
    (hfifo : s.fifo ≠ []) (htc : s.tcDone = false) :
    commandDone d s =
      { s with internalDrq := true, drives := s.drives.set d { s.slot d with subState := .drain } } := by
  rw [commandDone, if_pos (by simp [(isHostRead_iff _).mpr hop, hfifo, htc])]
  rfl

/-- Settles O36: Drain is entered, every pop but the last only takes its byte, and the last makes the result. -/
theorem drainDeliversEveryByte : Obligations.DrainDeliversEveryByte := by
  intro s hop hfifo htc hread hlive hslot
  have hdone := commandDone_of_bytes (d := s.cur.d) hop hfifo htc
  refine ⟨hdone, ?_⟩
  generalize ht : commandDone s.cur.d s = t at hdone ⊢
  have hread' : t.fifoWrite = false := by rw [hdone]; exact hread
  have hfifo' : t.fifo = s.fifo := by rw [hdone]
  have hdrain : (t.slot t.cur.d).subState = .drain := by simp [hdone]
  refine ⟨fun k hk => ?before, ?last⟩
  case before =>
    rw [pops_of_lt hread' (hfifo' ▸ hk), hdone]
    exact ⟨rfl, rfl⟩
  case last =>
    rw [pops_all hfifo hread' hfifo' hdrain, finishResult_eq (by rw [hdone]; exact hlive) (by simpa [hdone] using hslot)]
    simp [hdone, ended]

/-! ## The live start (R190) -/

theorem pllSetClock_pllReset (p : Pll) (t nom : Int) : pllSetClock (pllReset p t) nom = clockedPll t nom := rfl

/-- The periods of R131 in ticks, for the rates of R39. -/
theorem nominalPeriod_eq : ∀ (sel : BitVec 2) (mfm : Bool), nominalPeriod (rateTable sel) mfm = cellPeriod sel mfm := by
  decide

theorem startPll_eq (st : LiveState) (s : State) :
    startPll st s = { clockedPll s.now (cellPeriod s.rateSel s.cur.mf) with
      writeStartTime := if st = .writeTrackPreSectors then some s.now else none } := by
  rw [startPll, pllSetClock_pllReset, nominalPeriod_eq]
  dsimp only
  split <;> rfl

/-- A live start with no transfer running, its drive in a sub-state. -/
theorem liveStart_eq (d : Drive) (sub : SubState) (st : LiveState) {s : State} (hlive : s.live = none) :
    liveStart d st (s.setSub d sub) = .next (searching d sub st s) := by
  rw [liveStart_of_none d st (s := s.setSub d sub) hlive, startPll_eq]
  simp [searching, State.setSub, State.updSlot]
  rfl

end Sys2Proof.Proofs
end

section
/-! PROOFS. The step-pulse machine of Seek and Recalibrate (spec/43_seek_commands.md R301 to R309): where Move goes from each
state, the two expiries of a step, and whole runs by induction on the steps issued. -/

namespace Sys2Proof.Proofs

open Sys2Proof.Machine Sys2Proof.Claims

/-! ## The two outcomes of Move (R303, R304, R306) -/

/-- Drive `d`'s Seek or Recalibrate over, its slot `x` but for its states and its reason, its timer off (R306). -/
def seekOver (d : Drive) (x : DriveSlot) (s : State) : State :=
  { s with
    drives := s.drives.set d { x with mainState := .idle, subState := .idle, irq := .seekDone }
    driveTimer := s.driveTimer.set d none }

/-- A step issued on drive `d`, its slot `x` but for the direction and the sub-state, the pulse's timer armed (R303). -/
def stepIssued (d : Drive) (dir : Dir) (x : DriveSlot) (s : State) : State :=
  { s with
    drives := s.drives.set d { x with subState := .waitStepPulse, dir := dir }
    driveTimer := s.driveTimer.set d (some (s.now + pulseTicks))
    outs := s.outs ++ [.step d dir] }

theorem seekEnd_succeeded (d : Drive) (s : State) :
    seekEnd d true s = s.updSlot d fun x =>
      { x with st0 := x.st0 ||| 0x20, irq := .seekDone, mainState := .idle, subState := .idle } := by
  simp only [seekEnd, State.setSt0, updSlot_updSlot, if_pos]
  rfl

theorem seekFinish_ok {d : Drive} {s : State} (hmain : (s.slot d).mainState = .seek ∨ (s.slot d).mainState = .recalibrate) :
    seekFinish d true s = .next (seekOver d { s.slot d with st0 := (s.slot d).st0 ||| 0x20 } s) := by
  rw [seekFinish_of_seeking true hmain, seekEnd_succeeded]
  rfl

theorem seekFinish_failed {d : Drive} {s : State}
    (hmain : (s.slot d).mainState = .seek ∨ (s.slot d).mainState = .recalibrate) :
    seekFinish d false s = .next (seekOver d { s.slot d with st0 := abnormal ((s.slot d).st0 ||| 0x20) } s) := by
  rw [seekFinish_of_seeking false hmain, seekEnd_failed]
  simp only [withIC_abnormal]
  rfl

theorem stepPulse_eq (d : Drive) (dir : Dir) (s : State) : stepPulse d dir s = stepIssued d dir (s.slot d) s := rfl

/-- Updates of the slot before the outcome are part of the outcome's slot. -/
theorem seekOver_updSlot (d : Drive) (x : DriveSlot) (s : State) (f : DriveSlot → DriveSlot) :
    seekOver d x (s.updSlot d f) = seekOver d x s := by
  simp [seekOver, State.updSlot]

theorem stepIssued_updSlot (d : Drive) (dir : Dir) (x : DriveSlot) (s : State) (f : DriveSlot → DriveSlot) :
    stepIssued d dir x (s.updSlot d f) = stepIssued d dir x s := by
  simp [stepIssued, State.updSlot]

section move

variable {d : Drive} {s : State} {x : DriveSlot}

/-- Move off the target, of a Seek or an implied seek. -/
theorem runMove_steps_on (hx : s.slot d = x) (hmain : x.mainState ≠ .recalibrate) (hoff : x.pcn ≠ x.seekTarget) :
    runMove d s = .next (stepIssued d (if x.pcn < x.seekTarget then .inward else .out) x s) := by
  subst hx
  rw [runMove, if_neg hmain, moveSeek, if_neg hoff]
  rfl

theorem runMove_arrived (hx : s.slot d = x) (hmain : x.mainState ≠ .recalibrate) (hon : x.pcn = x.seekTarget) :
    runMove d s = seekFinish d true s := by
  subst hx
  rw [runMove, if_neg hmain, moveSeek, if_pos hon]

/-- Move of a Seek on its target. -/
theorem runMove_seek_arrived (hx : s.slot d = x) (hmain : x.mainState = .seek) (hon : x.pcn = x.seekTarget) :
    runMove d s = .next (seekOver d { x with st0 := x.st0 ||| 0x20 } s) := by
  rw [runMove_arrived hx (by rw [hmain]; decide) hon]
  subst hx
  exact seekFinish_ok (.inl hmain)

/-- Move of a Recalibrate at track zero. -/
theorem runMove_recalibrate_arrived (hx : s.slot d = x) (hmain : x.mainState = .recalibrate)
    (hzero : s.atTrackZero d = true) :
    runMove d s = .next (seekOver d { x with pcn := 0, st0 := x.st0 ||| 0x20 } s) := by
  subst hx
  rw [runMove, if_pos hmain, moveRecalibrate, if_pos hzero, seekFinish_ok (.inr (by simpa using hmain)), seekOver_updSlot]
  simp

/-- Move of a Recalibrate after its last step. -/
theorem runMove_recalibrate_fails (hx : s.slot d = x) (hmain : x.mainState = .recalibrate)
    (hzero : s.atTrackZero d = false) (hcounter : 77 ≤ x.counter) :
    runMove d s = .next (seekOver d { x with st0 := abnormal (x.st0 ||| 0x10 ||| 0x20) } s) := by
  subst hx
  rw [runMove, if_pos hmain, moveRecalibrate, if_neg (by simp [hzero]),
    if_pos (show recalStepLimit ≤ _ from hcounter),
    seekFinish_failed (.inr (by simpa [setSt0_get] using hmain)), State.setSt0, seekOver_updSlot]
  simp
  rfl

theorem runMove_recalibrate_steps_on (hx : s.slot d = x) (hmain : x.mainState = .recalibrate)
    (hzero : s.atTrackZero d = false) (hcounter : x.counter < 77) :
    runMove d s = .next (stepIssued d .out { x with counter := x.counter + 1 } s) := by
  subst hx
  rw [runMove, if_pos hmain, moveRecalibrate, if_neg (by simp [hzero]),
    if_neg (show ¬ recalStepLimit ≤ _ from not_le.mpr hcounter), stepPulse_eq, stepIssued_updSlot]
  simp

end move

/-! ## The start of the commands (R301) -/

/-- Drive `us`'s slot aimed at a cylinder and about to Move. -/
def aimedSlot (main : MainState) (target : Byte) (hd : Bool) (us : Drive) (x : DriveSlot) : DriveSlot :=
  { x with
    mainState := main, subState := .move, st0 := driveByte hd us, irq := .none, counter := 0, seekTarget := target }

/-- The command accepted, its drive aimed at a cylinder. -/
def aimed (i : Instr) (main : MainState) (target : Byte) (s : State) : State :=
  { s with
    cur := loadCur i
    cmd := []
    phase := .command
    drives := s.drives.set (loadCur i).d (aimedSlot main target (loadCur i).hd (loadCur i).d (s.slot (loadCur i).d)) }

theorem acceptSeek_of_ready (i : Instr) (main : MainState) (target : Byte) {s : State}
    (hidle : (s.slot (loadCur i).d).mainState = .idle) (hready : s.driveReady (loadCur i).d = true) :
    acceptForDrive i (loadCur i).d (startSeek main target) s =
      finishOutputs (runMove (loadCur i).d (aimed i main target s)) := by
  rw [acceptForDrive_of_idle _ hidle, startSeek,
    if_pos (show (loadCommand i s).driveReady (loadCommand i s).cur.d = true from hready)]
  simp [aimSeek, seekPrepare, State.updSlot, loadCommand, headUnit, aimed, aimedSlot]

theorem exec_seek_of_ready (hd : Bool) {us : Drive} (ncn : Byte) {s : State} (hidle : (s.slot us).mainState = .idle)
    (hready : s.driveReady us = true) :
    exec (.seek hd us ncn) s = finishOutputs (runMove us (aimed (.seek hd us ncn) .seek ncn s)) :=
  acceptSeek_of_ready (.seek hd us ncn) .seek ncn hidle hready

theorem exec_recalibrate_of_ready {us : Drive} {s : State} (hidle : (s.slot us).mainState = .idle)
    (hready : s.driveReady us = true) :
    exec (.recalibrate us) s = finishOutputs (runMove us (aimed (.recalibrate us) .recalibrate 0 s)) :=
  acceptSeek_of_ready (.recalibrate us) .recalibrate 0 hidle hready

theorem aimed_slot (i : Instr) (main : MainState) (target : Byte) (s : State) :
    (aimed i main target s).slot (loadCur i).d =
      aimedSlot main target (loadCur i).hd (loadCur i).d (s.slot (loadCur i).d) :=
  Slots.get_set_same ..

/-- Outcomes of the first Move replace the aimed slot. -/
theorem seekOver_aimed (i : Instr) (main : MainState) (target : Byte) (x : DriveSlot) (s : State) :
    seekOver (loadCur i).d x (aimed i main target s) =
      seekOver (loadCur i).d x { s with cur := loadCur i, cmd := [], phase := .command } := by
  simp [seekOver, aimed]

theorem stepIssued_aimed (i : Instr) (main : MainState) (target : Byte) (dir : Dir) (x : DriveSlot) (s : State) :
    stepIssued (loadCur i).d dir x (aimed i main target s) =
      stepIssued (loadCur i).d dir x { s with cur := loadCur i, cmd := [], phase := .command } := by
  simp [stepIssued, aimed]

/-- Settles O15: the two outcomes of the first Move. -/
theorem seekStarts : Obligations.SeekStarts := by
  intro hd us ncn s hidle hready
  have hslot := aimed_slot (.seek hd us ncn) .seek ncn s
  refine ⟨fun hon => ?arrived, fun hoff => ?steps⟩ <;> rw [exec_seek_of_ready hd ncn hidle hready]
  case arrived =>
    refine congrArg finishOutputs ((runMove_seek_arrived hslot rfl hon).trans (congrArg Host.Outcome.next ?_))
    refine (seekOver_aimed (.seek hd us ncn) ..).trans ?_
    simp only [seekOver, aimedSlot, BitVec.or_comm, hidle, loadCur]
  case steps =>
    exact congrArg finishOutputs ((runMove_steps_on hslot (show MainState.seek ≠ .recalibrate by decide) hoff).trans
      (congrArg Host.Outcome.next (stepIssued_aimed (.seek hd us ncn) ..)))

/-- Settles O16: the outcomes of the first Move, whose step counter starts at 0. -/
theorem recalibrateStarts : Obligations.RecalibrateStarts := by
  intro us s hidle hready
  have hslot := aimed_slot (.recalibrate us) .recalibrate 0 s
  refine ⟨fun hzero => ?arrived, fun hzero => ?steps⟩ <;> rw [exec_recalibrate_of_ready hidle hready]
  case arrived =>
    refine congrArg finishOutputs ((runMove_recalibrate_arrived hslot rfl hzero).trans (congrArg Host.Outcome.next ?_))
    refine (seekOver_aimed (.recalibrate us) ..).trans ?_
    simp only [seekOver, aimedSlot, BitVec.or_comm, hidle, loadCur]
  case steps =>
    exact congrArg finishOutputs ((runMove_recalibrate_steps_on hslot rfl hzero (show 0 < 77 by decide)).trans
      (congrArg Host.Outcome.next (stepIssued_aimed (.recalibrate us) ..)))

/-! ## The two expiries of a step (R305) -/

/-- A slot after its step pulse. -/
def pulseEnded (x : DriveSlot) : DriveSlot := { x with subState := .waitStepSettle, pcn := steppedPcn x }

theorem driveTimerExpiry_of_pulse {d : Drive} {s : State} (hsub : (s.slot d).subState = .waitStepPulse) :
    driveTimerExpiry d s = .next { s with
      drives := s.drives.set d (pulseEnded (s.slot d))
      driveTimer := s.driveTimer.set d (some (s.now + s.settleTime)) } := by
  rw [driveTimerExpiry, hsub]
  rfl

/-- Drive `d` after its settle, about to Move. -/
def settleEnded (d : Drive) (s : State) : State :=
  { s with drives := s.drives.set d { s.slot d with subState := .move }, driveTimer := s.driveTimer.set d none }

theorem driveTimerExpiry_of_settle {d : Drive} {s : State} (hsub : (s.slot d).subState = .waitStepSettle) :
    driveTimerExpiry d s = runMove d (settleEnded d s) := by
  rw [driveTimerExpiry, hsub]
  rfl

theorem settleEnded_slot (d : Drive) (s : State) :
    (settleEnded d s).slot d = { s.slot d with subState := .move } :=
  Slots.get_set_same ..

theorem seekOver_settleEnded (d : Drive) (x : DriveSlot) (s : State) :
    seekOver d x (settleEnded d s) = seekOver d x s := by
  simp [seekOver, settleEnded]

theorem stepIssued_settleEnded (d : Drive) (dir : Dir) (x : DriveSlot) (s : State) :
    stepIssued d dir x (settleEnded d s) = stepIssued d dir x s := by
  simp [stepIssued, settleEnded]

/-- Settles O18: the two expiries, and Move in each of its outcomes. -/
theorem stepTimerMovesTheHead : Obligations.StepTimerMovesTheHead := by
  intro d s
  refine ⟨driveTimerExpiry_of_pulse, fun hsettle => ?_⟩
  have hslot := settleEnded_slot d s
  rw [driveTimerExpiry_of_settle hsettle]
  refine ⟨rfl, fun hseek => ⟨fun hon => ?_, fun hoff => ?_⟩, fun hrecal => ⟨fun hzero => ?_, fun hzero hcounter => ?_,
    fun hzero hcounter => ?_⟩⟩
  · rw [runMove_seek_arrived hslot hseek hon, seekOver_settleEnded]
    rfl
  · rw [runMove_steps_on hslot (by rw [hseek]; decide) hoff, stepIssued_settleEnded]
    rfl
  · rw [runMove_recalibrate_arrived hslot hrecal hzero, seekOver_settleEnded]
    rfl
  · rw [runMove_recalibrate_fails hslot hrecal hzero hcounter, seekOver_settleEnded]
    rfl
  · rw [runMove_recalibrate_steps_on hslot hrecal hzero hcounter, stepIssued_settleEnded]
    rfl

/-! ## A whole run -/

/-- The two expiries of one step, from its pulse to the Move after its settle. -/
def stepSettled (d : Drive) (pulse : Int) (s : State) : State :=
  { s with
    now := pulse + s.settleTime
    drives := s.drives.set d { pulseEnded (s.slot d) with subState := .move }
    driveTimer := s.driveTimer.set d none }

theorem expiries_two {d : Drive} {s : State} {pulse : Int} (hsub : (s.slot d).subState = .waitStepPulse)
    (htimer : s.driveTimer.get d = some pulse) : expiries d 2 s = runMove d (stepSettled d pulse s) := by
  have hpulse : expire d s = .next { s with
      now := pulse
      drives := s.drives.set d (pulseEnded (s.slot d))
      driveTimer := s.driveTimer.set d (some (pulse + s.settleTime)) } := by
    rw [expire, htimer]
    exact driveTimerExpiry_of_pulse (s := { s with now := pulse }) hsub
  have hsettle : ∀ t : State, t.driveTimer.get d = some (pulse + s.settleTime) → (t.slot d).subState = .waitStepSettle →
      expire d t = runMove d (settleEnded d { t with now := pulse + s.settleTime }) := fun t ht hsub => by
    rw [expire, ht]
    exact driveTimerExpiry_of_settle (s := { t with now := pulse + s.settleTime }) hsub
  simp only [expiries, hpulse]
  rw [hsettle _ (Slots.get_set_same ..) (congrArg DriveSlot.subState (Slots.get_set_same ..))]
  simp only [settleEnded, State.slot_def, Slots.get_set_same, Slots.set_set]
  rw [stepSettled]
  cases runMove d _ <;> rfl

theorem expiries_add {d : Drive} {m n : Nat} {s t : State} (h : expiries d m s = .next t) :
    expiries d (m + n) s = expiries d n t := by
  induction m generalizing s with
  | zero =>
    cases h
    rw [Nat.zero_add]
  | succ m ih =>
    rw [Nat.add_right_comm, expiries]
    rw [expiries] at h
    split at h
    · next hfirst => exact ih h
    · cases h
    · cases h

/-- What a run of `n` steps in one direction leaves from `s` to `v`: the calls, and all that is not drive `d`'s. -/
structure Stepped (d : Drive) (dir : Dir) (n : Nat) (s v : State) : Prop where
  issued : v.outs.count (.step d dir) = s.outs.count (.step d dir) + n
  others_not : ∀ dir', dir' ≠ dir → v.outs.count (.step d dir') = s.outs.count (.step d dir')
  slots : ∀ e, e ≠ d → v.slot e = s.slot e
  phase : v.phase = .command
  units : v.units = s.units
  par : v.par = s.par
  config : ConfigKept s v

/-- A step of the drive in this run. -/
theorem Stepped.stepIssued {d : Drive} {dir : Dir} {n : Nat} {s v : State} (h : Stepped d dir n s v) (x : DriveSlot) :
    Stepped d dir (n + 1) s (stepIssued d dir x v) where
  issued := by simp [Proofs.stepIssued, h.issued, Nat.add_assoc]
  others_not dir' hne := by
    have hcall : Output.step d dir ≠ .step d dir' := fun heq => hne (by injection heq with _ heq; exact heq.symm)
    simp [Proofs.stepIssued, h.others_not dir' hne, hcall]
  slots e he := (Slots.get_set_ne _ _ he).trans (h.slots e he)
  phase := h.phase
  units := h.units
  par := h.par
  config := ⟨h.config.dor, h.config.rateSel, h.config.srt, h.config.hut, h.config.hlt, h.config.nd, h.config.fifocfg,
    h.config.precomp, h.config.locked⟩

theorem Stepped.of_drive {d : Drive} {dir : Dir} {n : Nat} {s v : State} (h : Stepped d dir n s v) (now : Int)
    (x : DriveSlot) (timer : Slots (Option Int)) :
    Stepped d dir n s { v with now := now, drives := v.drives.set d x, driveTimer := timer } where
  issued := h.issued
  others_not := h.others_not
  slots e he := (Slots.get_set_ne _ _ he).trans (h.slots e he)
  phase := h.phase
  units := h.units
  par := h.par
  config := ⟨h.config.dor, h.config.rateSel, h.config.srt, h.config.hut, h.config.hlt, h.config.nd, h.config.fifocfg,
    h.config.precomp, h.config.locked⟩

theorem edgeReport_no_step (old new level : Bool) (d : Drive) (dir : Dir) :
    (edgeReport old new (.irqEdge level)).count (.step d dir) = 0 ∧
      (edgeReport old new (.drqEdge level)).count (.step d dir) = 0 := by
  unfold edgeReport
  split <;> exact ⟨rfl, rfl⟩

theorem Stepped.updateOutputs {d : Drive} {dir : Dir} {n : Nat} {s v : State} (h : Stepped d dir n s v) :
    Stepped d dir n s (updateOutputs v) := by
  have hcount : ∀ dir', (Machine.updateOutputs v).outs.count (.step d dir') = v.outs.count (.step d dir') := fun dir' => by
    simp [Machine.updateOutputs, edgeReport_no_step]
  exact ⟨(hcount dir).trans h.issued, fun dir' hne => (hcount dir').trans (h.others_not dir' hne), h.slots, h.phase,
    h.units, h.par, ⟨h.config.dor, h.config.rateSel, h.config.srt, h.config.hut, h.config.hlt, h.config.nd,
      h.config.fifocfg, h.config.precomp, h.config.locked⟩⟩

/-- The command aimed, before its first step. -/
theorem Stepped.aimed (i : Instr) (main : MainState) (target : Byte) (dir : Dir) (s : State) :
    Stepped (loadCur i).d dir 0 s (aimed i main target s) where
  issued := rfl
  others_not _ _ := rfl
  slots _ he := Slots.get_set_ne _ _ he
  phase := rfl
  units := rfl
  par := rfl
  config := ⟨rfl, rfl, rfl, rfl, rfl, rfl, rfl, rfl, rfl⟩

/-- The state `v` while the pulse of step `n + 1` lasts: the drive's slot is `x` but for the step's direction and sub-state,
`n` whole step times have passed since `s`, and the pulse's timer is armed. -/
structure Pulsing (d : Drive) (dir : Dir) (n : Nat) (x : DriveSlot) (s v : State) : Prop where
  stepped : Stepped d dir (n + 1) s v
  slot : v.slot d = { x with subState := .waitStepPulse, dir := dir }
  timer : v.driveTimer.get d = some (s.now + n * stepTime s + pulseTicks)

/-- The state `v` at the Move after `n` steps. -/
structure Moving (d : Drive) (dir : Dir) (n : Nat) (x : DriveSlot) (s v : State) : Prop where
  stepped : Stepped d dir n s v
  slot : v.slot d = x
  now : v.now = s.now + n * stepTime s

/-- A Move that issues the next step. -/
theorem Moving.stepIssued {d : Drive} {dir : Dir} {n : Nat} {x : DriveSlot} {s v : State} (h : Moving d dir n x s v)
    (y : DriveSlot) : Pulsing d dir n y s (stepIssued d dir y v) where
  stepped := h.stepped.stepIssued y
  slot := Slots.get_set_same ..
  timer := by simp [Proofs.stepIssued, h.now]

/-- The two expiries that end a step are a Move. -/
theorem Pulsing.expiries {d : Drive} {dir : Dir} {n : Nat} {x : DriveSlot} {s v : State} (h : Pulsing d dir n x s v) :
    ∃ w, expiries d 2 v = runMove d w ∧
      Moving d dir (n + 1) { pulseEnded { x with dir := dir } with subState := .move } s w := by
  refine ⟨_, expiries_two (by rw [h.slot]) h.timer, h.stepped.of_drive _ _ _, ?slot, ?now⟩
  case slot =>
    rw [stepSettled, h.slot]
    exact Slots.get_set_same ..
  case now =>
    have hsettle : v.settleTime = (16 - (s.srt.toNat : Int)) * s.par.stepUnit := by
      rw [State.settleTime, h.stepped.config.srt, h.stepped.par]
    simp only [stepSettled, hsettle, stepTime]
    push_cast
    ring

/-- A run of steps: `x n` is the drive's slot while pulse `n + 1` lasts, and the Move after each settle but the last steps
on. -/
theorem Pulsing.run {d : Drive} {dir : Dir} {N : Nat} {x : Nat → DriveSlot} {s t : State} (hfirst : Pulsing d dir 0 (x 0) s t)
    (hnext : ∀ n w, n + 1 < N → Moving d dir (n + 1) { pulseEnded { x n with dir := dir } with subState := .move } s w →
      runMove d w = .next (Proofs.stepIssued d dir (x (n + 1)) w)) :
    ∀ n, n < N → ∃ v, Claims.expiries d (2 * n) t = .next v ∧ Pulsing d dir n (x n) s v := by
  intro n hn
  induction n with
  | zero => exact ⟨t, rfl, hfirst⟩
  | succ n ih =>
    obtain ⟨v, hv, hpulsing⟩ := ih (by omega)
    obtain ⟨w, hw, hmoving⟩ := hpulsing.expiries
    refine ⟨_, ?_, hmoving.stepIssued (x (n + 1))⟩
    rw [Nat.mul_succ, expiries_add hv, hw, hnext n w hn hmoving]

/-- The states of a finished run of `n` steps in direction `dir`, the drive's slot left as `x`. -/
structure Ran (d : Drive) (dir : Dir) (n : Nat) (x : DriveSlot) (s u : State) : Prop where
  stepped : Stepped d dir n s u
  slot : u.slot d = { x with mainState := .idle, subState := .idle, irq := .seekDone }
  timer : u.driveTimer.get d = none
  now : u.now = s.now + n * stepTime s

theorem Moving.seekOver {d : Drive} {dir : Dir} {n : Nat} {x : DriveSlot} {s v : State} (h : Moving d dir n x s v)
    (y : DriveSlot) : Ran d dir n y s (seekOver d y v) where
  stepped := h.stepped.of_drive _ _ _
  slot := Slots.get_set_same ..
  timer := Slots.get_set_same ..
  now := h.now

theorem Moving.aimed (i : Instr) (main : MainState) (target : Byte) (dir : Dir) (s : State) :
    Moving (loadCur i).d dir 0 (aimedSlot main target (loadCur i).hd (loadCur i).d (s.slot (loadCur i).d)) s
      (aimed i main target s) :=
  ⟨.aimed .., aimed_slot .., by simp [Proofs.aimed]⟩

theorem Pulsing.updateOutputs {d : Drive} {dir : Dir} {n : Nat} {x : DriveSlot} {s v : State}
    (h : Pulsing d dir n x s v) : Pulsing d dir n x s (updateOutputs v) :=
  ⟨h.stepped.updateOutputs, h.slot, h.timer⟩

theorem Ran.updateOutputs {d : Drive} {dir : Dir} {n : Nat} {x : DriveSlot} {s u : State} (h : Ran d dir n x s u) :
    Ran d dir n x s (updateOutputs u) :=
  ⟨h.stepped.updateOutputs, h.slot, h.timer, h.now⟩

/-! ## The run of a SEEK (R303, R305, R306) -/

/-- The direction from one cylinder to another, by the unsigned comparison. -/
def toward (a b : Byte) : Dir := if a < b then .inward else .out

/-- The cylinder number after `n` steps. -/
def pcnAfter (dir : Dir) (a : Byte) (n : Nat) : Byte := if dir = .inward then a + BitVec.ofNat 8 n else a - BitVec.ofNat 8 n

theorem pcnAfter_zero (dir : Dir) (a : Byte) : pcnAfter dir a 0 = a := by
  cases dir <;> simp [pcnAfter]

theorem pcnAfter_succ (dir : Dir) (a : Byte) (n : Nat) :
    pcnAfter dir a (n + 1) = if dir = .inward then pcnAfter dir a n + 1 else pcnAfter dir a n - 1 := by
  cases dir <;> simp only [pcnAfter, BitVec.ofNat_add, reduceCtorEq, if_true, if_false]
  · exact (BitVec.sub_sub ..).symm
  · exact (BitVec.add_assoc ..).symm

/-- As long as fewer steps are made than cylinders lie between, the target lies ahead. -/
theorem toward_pcnAfter {a b : Byte} {n : Nat} (hn : n < distance a b) :
    pcnAfter (toward a b) a n ≠ b ∧ toward (pcnAfter (toward a b) a n) b = toward a b := by
  have ha := a.isLt
  have hb := b.isLt
  unfold distance at hn
  by_cases hlt : a < b
  · rw [toward, if_pos hlt, pcnAfter, if_pos rfl]
    have hval : (a + BitVec.ofNat 8 n).toNat = a.toNat + n := by
      rw [BitVec.lt_def] at hlt
      rw [BitVec.toNat_add, BitVec.toNat_ofNat]
      omega
    rw [BitVec.lt_def] at hlt
    refine ⟨fun heq => ?_, if_pos (BitVec.lt_def.mpr ?_)⟩
    · rw [heq] at hval
      omega
    · omega
  · rw [toward, if_neg hlt, pcnAfter, if_neg (by decide)]
    rw [BitVec.lt_def] at hlt
    have hval : (a - BitVec.ofNat 8 n).toNat = a.toNat - n := by
      rw [BitVec.toNat_sub, BitVec.toNat_ofNat]
      omega
    refine ⟨fun heq => ?_, if_neg (fun h => ?_)⟩
    · rw [heq] at hval
      omega
    · rw [BitVec.lt_def] at h
      omega

theorem pcnAfter_distance (a b : Byte) : pcnAfter (toward a b) a (distance a b) = b := by
  have ha := a.isLt
  have hb := b.isLt
  apply BitVec.eq_of_toNat_eq
  unfold distance
  by_cases hlt : a < b
  · rw [toward, if_pos hlt, pcnAfter, if_pos rfl, BitVec.toNat_add, BitVec.toNat_ofNat]
    rw [BitVec.lt_def] at hlt
    omega
  · rw [toward, if_neg hlt, pcnAfter, if_neg (by decide), BitVec.toNat_sub, BitVec.toNat_ofNat]
    rw [BitVec.lt_def] at hlt
    omega

theorem distance_eq_zero {a b : Byte} : distance a b = 0 ↔ a = b := by
  rw [← BitVec.toNat_inj]
  unfold distance
  omega

theorem toward_opposite (a b : Byte) : (if a < b then .out else .inward : Dir) ≠ toward a b := by
  unfold toward
  split <;> decide

/-- The slot of a seeking drive at the Move after `n` steps, `x` its slot before the command. -/
def seekingSlot (hd : Bool) (us : Drive) (ncn : Byte) (x : DriveSlot) (n : Nat) : DriveSlot :=
  { aimedSlot .seek ncn hd us x with pcn := pcnAfter (toward x.pcn ncn) x.pcn n, dir := toward x.pcn ncn }

theorem seekingSlot_succ (hd : Bool) (us : Drive) (ncn : Byte) (x : DriveSlot) (n : Nat) :
    { pulseEnded (seekingSlot hd us ncn x n) with subState := .move } = seekingSlot hd us ncn x (n + 1) := by
  rw [seekingSlot, seekingSlot, pcnAfter_succ]
  rfl

section seek

variable {hd : Bool} {us : Drive} {ncn : Byte} {s t : State}

/-- The steps of a SEEK off its target. -/
theorem seek_steps (hidle : (s.slot us).mainState = .idle) (hready : s.driveReady us = true)
    (hexec : exec (.seek hd us ncn) s = .next t) (hoff : (s.slot us).pcn ≠ ncn) :
    ∀ n, n < distance (s.slot us).pcn ncn → ∃ v, expiries us (2 * n) t = .next v ∧
      Pulsing us (toward (s.slot us).pcn ncn) n (seekingSlot hd us ncn (s.slot us) n) s v := by
  have haimed := Moving.aimed (.seek hd us ncn) .seek ncn (toward (s.slot us).pcn ncn) s
  have hslot : (aimed (.seek hd us ncn) .seek ncn s).slot us = aimedSlot .seek ncn hd us (s.slot us) := haimed.slot
  rw [exec_seek_of_ready hd ncn hidle hready,
    runMove_steps_on hslot (show MainState.seek ≠ .recalibrate by decide) hoff] at hexec
  cases hexec
  have hfirst := (haimed.stepIssued (aimedSlot .seek ncn hd us (s.slot us))).updateOutputs
  refine Pulsing.run ⟨hfirst.stepped, hfirst.slot.trans ?_, hfirst.timer⟩ fun n w hn hw => ?_
  · simp only [seekingSlot, pcnAfter_zero]
    rfl
  · have hslot := hw.slot.trans (seekingSlot_succ hd us ncn (s.slot us) n)
    obtain ⟨hne, htoward⟩ := toward_pcnAfter hn
    rw [runMove_steps_on hslot (show MainState.seek ≠ .recalibrate by decide) hne]
    exact congrArg (fun dir => Host.Outcome.next (stepIssued us dir (seekingSlot hd us ncn (s.slot us) (n + 1)) w)) htoward

/-- A SEEK from its acceptance to its end on the target. -/
theorem seek_runs (hidle : (s.slot us).mainState = .idle) (hready : s.driveReady us = true)
    (hexec : exec (.seek hd us ncn) s = .next t) :
    ∃ u, expiries us (2 * distance (s.slot us).pcn ncn) t = .next u ∧
      Ran us (toward (s.slot us).pcn ncn) (distance (s.slot us).pcn ncn)
        { aimedSlot .seek ncn hd us (s.slot us) with
          pcn := ncn
          dir := if (s.slot us).pcn = ncn then (s.slot us).dir else toward (s.slot us).pcn ncn
          st0 := driveByte hd us ||| 0x20 } s u := by
  by_cases hon : (s.slot us).pcn = ncn
  · have haimed := Moving.aimed (.seek hd us ncn) .seek ncn (toward (s.slot us).pcn ncn) s
    have hslot : (aimed (.seek hd us ncn) .seek ncn s).slot us = aimedSlot .seek ncn hd us (s.slot us) := haimed.slot
    rw [exec_seek_of_ready hd ncn hidle hready, runMove_seek_arrived hslot rfl hon] at hexec
    cases hexec
    have hran := (haimed.seekOver { aimedSlot .seek ncn hd us (s.slot us) with st0 := driveByte hd us ||| 0x20 }).updateOutputs
    rw [distance_eq_zero.mpr hon, if_pos hon]
    refine ⟨_, rfl, hran.stepped, hran.slot.trans ?_, hran.timer, hran.now⟩
    rw [← hon]
    rfl
  · obtain ⟨n, hn⟩ : ∃ n, distance (s.slot us).pcn ncn = n + 1 :=
      Nat.exists_eq_succ_of_ne_zero (mt distance_eq_zero.mp hon)
    obtain ⟨v, hv, hpulsing⟩ := seek_steps hidle hready hexec hon n (hn ▸ n.lt_succ_self)
    obtain ⟨w, hw, hmoving⟩ := hpulsing.expiries
    have hslot := hmoving.slot.trans (seekingSlot_succ hd us ncn (s.slot us) n)
    have htarget : pcnAfter (toward (s.slot us).pcn ncn) (s.slot us).pcn (n + 1) = ncn := hn ▸ pcnAfter_distance ..
    have hran := hmoving.seekOver { seekingSlot hd us ncn (s.slot us) (n + 1) with st0 := driveByte hd us ||| 0x20 }
    rw [hn, if_neg hon, Nat.mul_succ, expiries_add hv, hw, runMove_seek_arrived hslot rfl htarget]
    refine ⟨_, rfl, hran.stepped, hran.slot.trans ?_, hran.timer, hran.now⟩
    simp only [seekingSlot, htarget]

end seek

/-- Settles O19: the run of `seek_runs`, its slot and its calls read off. -/
theorem seekReachesItsTarget : Obligations.SeekReachesItsTarget := by
  intro hd us ncn s t hidle hready hexec
  obtain ⟨u, hu, hran⟩ := seek_runs hidle hready hexec
  refine ⟨u, hu, ?_, hran.timer, hran.now, hran.stepped.issued, hran.stepped.others_not _ (toward_opposite _ _),
    hran.stepped.slots, hran.stepped.phase, hran.stepped.units, hran.stepped.config⟩
  rw [hran.slot, BitVec.or_comm]
  rfl

/-! ## The run of a RECALIBRATE that never sees track zero (R304, R309) -/

/-- The slot of a recalibrating drive after `n` steps, `x` its slot before the command. -/
def recalibratingSlot (us : Drive) (x : DriveSlot) (n : Nat) : DriveSlot :=
  { aimedSlot .recalibrate 0 false us x with counter := n, dir := .out }

section recalibrate

variable {us : Drive} {s t : State}

theorem recalibrate_steps (hidle : (s.slot us).mainState = .idle) (hready : s.driveReady us = true)
    (hzero : s.atTrackZero us = false) (hexec : exec (.recalibrate us) s = .next t) :
    ∀ n, n < 77 → ∃ v, expiries us (2 * n) t = .next v ∧
      Pulsing us .out n (recalibratingSlot us (s.slot us) (n + 1)) s v := by
  have haimed := Moving.aimed (.recalibrate us) .recalibrate 0 .out s
  have hslot : (aimed (.recalibrate us) .recalibrate 0 s).slot us = aimedSlot .recalibrate 0 false us (s.slot us) :=
    haimed.slot
  rw [exec_recalibrate_of_ready hidle hready, runMove_recalibrate_steps_on hslot rfl hzero (show 0 < 77 by decide)] at hexec
  cases hexec
  have hfirst := (haimed.stepIssued (recalibratingSlot us (s.slot us) 1)).updateOutputs
  refine Pulsing.run (x := fun n => recalibratingSlot us (s.slot us) (n + 1)) hfirst fun n w hn hw => ?_
  have hfar : w.atTrackZero us = false := (congrArg (fun v : Slots DriveUnit =>
    (v.get us).attached && (v.get us).trackZero) hw.stepped.units).trans hzero
  exact runMove_recalibrate_steps_on (x := { recalibratingSlot us (s.slot us) (n + 1) with subState := .move })
    hw.slot rfl hfar hn

theorem recalibrate_fails (hidle : (s.slot us).mainState = .idle) (hready : s.driveReady us = true)
    (hzero : s.atTrackZero us = false) (hexec : exec (.recalibrate us) s = .next t) :
    ∃ u, expiries us (2 * 77) t = .next u ∧
      Ran us .out 77 { recalibratingSlot us (s.slot us) 77 with st0 := 0x70 ||| driveByte false us } s u := by
  obtain ⟨v, hv, hpulsing⟩ := recalibrate_steps hidle hready hzero hexec 76 (by decide)
  obtain ⟨w, hw, hmoving⟩ := hpulsing.expiries
  have hfar : w.atTrackZero us = false := (congrArg (fun v : Slots DriveUnit =>
    (v.get us).attached && (v.get us).trackZero) hmoving.stepped.units).trans hzero
  rw [show 2 * 77 = 2 * 76 + 2 from rfl, expiries_add hv, hw,
    runMove_recalibrate_fails (x := { recalibratingSlot us (s.slot us) 77 with subState := .move })
      hmoving.slot rfl hfar le_rfl]
  have hst0 : ∀ d, abnormal (driveByte false d ||| 0x10 ||| 0x20) = 0x70 ||| driveByte false d := by
    intro d
    cases d <;> decide
  have hran := hmoving.seekOver { recalibratingSlot us (s.slot us) 77 with
    subState := .move, st0 := abnormal (driveByte false us ||| 0x10 ||| 0x20) }
  refine ⟨_, rfl, hran.stepped, hran.slot.trans ?_, hran.timer, hran.now⟩
  rw [hst0]

end recalibrate

/-- Settles O20: the steps of `recalibrate_steps`, and the failure after the last. -/
theorem recalibrateGivesUpAfter77Steps : Obligations.RecalibrateGivesUpAfter77Steps := by
  intro us s t hidle hready hzero hexec
  refine ⟨fun n hn => ?steps, ?fails⟩
  case steps =>
    obtain ⟨v, hv, hpulsing⟩ := recalibrate_steps hidle hready hzero hexec n hn
    exact ⟨v, hv, by rw [hpulsing.slot]; rfl, by rw [hpulsing.slot], hpulsing.stepped.issued⟩
  case fails =>
    obtain ⟨u, hu, hran⟩ := recalibrate_fails hidle hready hzero hexec
    exact ⟨u, hu, hran.slot, hran.timer, hran.now, hran.stepped.issued, hran.stepped.others_not _ (by decide),
      hran.stepped.slots, hran.stepped.phase, hran.stepped.units, hran.stepped.config⟩

end Sys2Proof.Proofs
end

section
/-! PROOFS. The start of the commands that use the engine (spec/42_rw_commands.md R231 to R235) and the implied seek
(spec/43_seek_commands.md R310). -/

namespace Sys2Proof.Proofs

open Sys2Proof.Machine Sys2Proof.Claims

/-! ## The classes of commands -/

theorem exec_of_mediumCommand {i : Instr} (hi : mediumCommand i = true) (s : State) :
    exec i s = acceptForDrive i (loadCur i).d startRW s := by
  cases i with
  | readTrack | writeData | readData | writeDeletedData | readId | readDeletedData | formatTrack => rfl
  | _ => cases hi

/-- What the command's record says of its kind. -/
theorem loadCur_op {i : Instr} (hi : mediumCommand i = true) :
    (loadCur i).op.mainState = mainOf i ∧ (loadCur i).op.isHostWrite = writeCommand i ∧
      (loadCur i).op.impliesSeek = seeksImplicitly i ∧
      (((loadCur i).op = .readTrack ∨ (loadCur i).op = .formatTrack) ↔ trackCommand i = true) := by
  cases i with
  | readTrack | writeData | readData | writeDeletedData | readId | readDeletedData | formatTrack =>
    exact ⟨rfl, rfl, rfl, by simp [loadCur, nineByteCur, trackCommand]⟩
  | _ => cases hi

theorem mediumCommand_of_search {i : Instr} (hi : searchCommand i = true) :
    mediumCommand i = true ∧ trackCommand i = false := by
  cases i with
  | writeData | readData | writeDeletedData | readId | readDeletedData => exact ⟨rfl, rfl⟩
  | _ => cases hi

theorem mediumCommand_of_track {i : Instr} (hi : trackCommand i = true) : mediumCommand i = true := by
  cases i with
  | readTrack | formatTrack => exact rfl
  | _ => cases hi

theorem mediumCommand_of_seeksImplicitly {i : Instr} (hi : seeksImplicitly i = true) : mediumCommand i = true := by
  cases i with
  | readData | readDeletedData | writeData | writeDeletedData | readTrack => exact rfl
  | _ => cases hi

theorem mediumCommand_of_write {i : Instr} (hi : writeCommand i = true) : mediumCommand i = true := by
  cases i with
  | writeData | writeDeletedData | formatTrack => exact rfl
  | _ => cases hi

theorem mainOf_not_recalibrate (i : Instr) : mainOf i ≠ .recalibrate := by
  cases i <;> exact nofun

theorem loadCur_seenHeader (i : Instr) : (loadCur i).seenHeader = false := by
  cases i <;> rfl

/-- Settles O9: both classes of commands are accepted for their drive alone. -/
theorem busyDriveAnsweredInvalid : Obligations.BusyDriveAnsweredInvalid := by
  intro i s hi hbusy
  obtain ⟨run, hexec⟩ : ∃ run, exec i s = acceptForDrive i (loadCur i).d run s := by
    rcases hi with hi | hi
    · exact ⟨_, exec_of_mediumCommand hi s⟩
    · obtain ⟨main, target, -, h⟩ := exec_of_seekCommand hi
      exact ⟨_, h s⟩
  rw [hexec, acceptForDrive, if_neg hbusy]
  rfl

/-! ## The state after the start (R231) -/

theorem startPrepare_loadCommand {i : Instr} (hi : mediumCommand i = true) (s : State) :
    startPrepare (loadCommand i s) = started i (s.slot (loadCur i).d).subState s := by
  obtain ⟨hmain, -⟩ := loadCur_op hi
  rw [started, ← hmain]
  rfl

theorem started_setSub (i : Instr) (sub sub' : SubState) (s : State) :
    (started i sub s).setSub (loadCur i).d sub' = started i sub' s := by
  simp [State.setSub, State.updSlot, started]

theorem started_slot (i : Instr) (sub : SubState) (s : State) :
    (started i sub s).slot (loadCur i).d = { s.slot (loadCur i).d with
      mainState := mainOf i, subState := sub, st0 := driveByte (loadCur i).hd (loadCur i).d } :=
  Slots.get_set_same ..

theorem started_lines (i : Instr) (sub : SubState) (s : State) (d : Drive) :
    (started i sub s).driveReady d = s.driveReady d ∧ (started i sub s).writeProtected d = s.writeProtected d :=
  selectSide_lines s _ d _

/-- `FinishResult`, whether or not a transfer is left. -/
theorem finishResult_record (d : Drive) (s : State) :
    finishResult d s = { s with
      phase := .result
      res := [finalSt0 s.par (s.slot d).st0 s.st1, s.st1, s.st2, s.cur.c, s.cur.h, s.cur.r, s.cur.n]
      dataIrq := true
      internalDrq := false
      drives := s.drives.set d { s.slot d with
        mainState := .idle, subState := .idle, st0 := finalSt0 s.par (s.slot d).st0 s.st1 } } := by
  rw [finishResult, abnormalOnOverrun_eq]
  simp [enterResult, State.sevenBytes, State.updSlot]

theorem startRW_loadCommand {i : Instr} (hi : mediumCommand i = true) (s : State) :
    startRW (loadCommand i s) =
      if s.driveReady (loadCur i).d = false then
        .next (commandDone (loadCur i).d
          (((started i (s.slot (loadCur i).d).subState s).setSt0 (loadCur i).d .nr).setIC (loadCur i).d icAbnormal))
      else if writeCommand i = true ∧ s.writeProtected (loadCur i).d = true then
        .next (commandDone (loadCur i).d
          (((started i (s.slot (loadCur i).d).subState s).setSt1 .nw).setIC (loadCur i).d icAbnormal))
      else runHeadLoadSettle (loadCur i).d (started i .headLoadSettle s) := by
  obtain ⟨-, hwrites, -⟩ := loadCur_op hi
  have hop : (started i (s.slot (loadCur i).d).subState s).cur.op = (loadCur i).op := rfl
  have hdrive : (loadCommand i s).cur.d = (loadCur i).d := rfl
  simp only [startRW, startPrepare_loadCommand hi, hdrive, (started_lines ..).1, (started_lines ..).2, hop, hwrites,
    started_setSub, Bool.not_eq_true', Bool.and_eq_true]

/-! ## The two ends at the start (R232, R234) -/

/-- The end of a command just started, with status bytes that hold no overrun. -/
theorem commandDone_started {i : Instr} {sub : SubState} {st0 st1 : Byte} {s : State}
    (hidle : (s.slot (loadCur i).d).mainState = .idle) (hover : st1.getLsbD 4 = false) :
    commandDone (loadCur i).d
        { started i sub s with
          st1 := st1
          drives := s.drives.set (loadCur i).d { s.slot (loadCur i).d with
            mainState := mainOf i, subState := sub, st0 := st0 } } =
      { started i .idle s with
        phase := .result
        res := [st0, st1, 0, (loadCur i).c, (loadCur i).h, (loadCur i).r, (loadCur i).n]
        st1 := st1
        dataIrq := true
        drives := s.drives.set (loadCur i).d { s.slot (loadCur i).d with subState := .idle, st0 := st0 } } := by
  have hfinal : ∀ p, finalSt0 p st0 st1 = st0 := fun p => if_neg fun h => absurd (hover.symm.trans h.1) Bool.false_ne_true
  simp only [State.slot_def] at hidle
  rw [commandDone_of_empty (by rfl), finishResult_record]
  simp [started, hfinal, hidle]

theorem st0_of_unready (hd : Bool) (d : Drive) : withIC (driveByte hd d ||| 0x08) icAbnormal = 0x48 ||| driveByte hd d := by
  cases hd <;> cases d <;> rfl

theorem st0_of_protected (hd : Bool) (d : Drive) : withIC (driveByte hd d) icAbnormal = 0x40 ||| driveByte hd d := by
  cases hd <;> cases d <;> rfl

/-- Settles O24: the end of StartRW's first check. -/
theorem unreadyDriveEndsTheCommand : Obligations.UnreadyDriveEndsTheCommand := by
  intro i s hi hidle hready
  rw [exec_of_mediumCommand hi, acceptForDrive_of_idle _ hidle, startRW_loadCommand hi, if_pos hready]
  refine congrArg (fun t => finishOutputs (.next t))
    (Eq.trans ?_ (commandDone_started (sub := (s.slot (loadCur i).d).subState) (st1 := 0) hidle rfl))
  rw [← st0_of_unready]
  simp [started, State.setSt0, State.setIC, State.updSlot, St0Bit.mask]

/-- Settles O25: the end of StartRW's second check. -/
theorem protectedDriveEndsTheWrite : Obligations.ProtectedDriveEndsTheWrite := by
  intro i s hi hidle hready hprotected
  have hmedium := mediumCommand_of_write hi
  rw [exec_of_mediumCommand hmedium, acceptForDrive_of_idle _ hidle, startRW_loadCommand hmedium,
    if_neg (by simp [hready]), if_pos ⟨hi, hprotected⟩]
  refine congrArg (fun t => finishOutputs (.next t))
    (Eq.trans ?_ (commandDone_started (sub := (s.slot (loadCur i).d).subState) (st1 := 2) hidle rfl))
  rw [← st0_of_protected]
  simp [started, State.setSt1, State.setIC, State.updSlot, St1Bit.mask]

/-! ## The start of the search (R235) -/

section search

variable {i : Instr} {s : State}

/-- A command that passes the checks of its start. -/
theorem exec_of_checked (hi : mediumCommand i = true) (hidle : (s.slot (loadCur i).d).mainState = .idle)
    (hready : s.driveReady (loadCur i).d = true)
    (hwritable : writeCommand i = true → s.writeProtected (loadCur i).d = false) :
    exec i s = finishOutputs (runHeadLoadSettle (loadCur i).d (started i .headLoadSettle s)) := by
  rw [exec_of_mediumCommand hi, acceptForDrive_of_idle _ hidle, startRW_loadCommand hi, if_neg (by simp [hready]), if_neg]
  rintro ⟨hwrite, hprotected⟩
  exact absurd ((hwritable hwrite).symm.trans hprotected) Bool.false_ne_true

/-- The implied seek's test (R235, R310). -/
theorem runHeadLoadSettle_started (hi : mediumCommand i = true) :
    runHeadLoadSettle (loadCur i).d (started i .headLoadSettle s) =
      if s.fifocfg.getLsbD 6 = true ∧ seeksImplicitly i = true ∧ (s.slot (loadCur i).d).pcn ≠ (loadCur i).c then
        runMove (loadCur i).d ((started i .headLoadSettle s).updSlot (loadCur i).d fun x =>
          { x with seekTarget := (loadCur i).c, subState := .move })
      else runSeekDone (loadCur i).d (started i .seekDone s) := by
  obtain ⟨-, -, hseeks, -⟩ := loadCur_op hi
  have hcond : (s.fifocfg.getLsbD 6 && (loadCur i).op.impliesSeek && (s.slot (loadCur i).d).pcn != (loadCur i).c) = true ↔
      s.fifocfg.getLsbD 6 = true ∧ seeksImplicitly i = true ∧ (s.slot (loadCur i).d).pcn ≠ (loadCur i).c := by
    rw [hseeks]
    simp [and_assoc]
  rw [runHeadLoadSettle, started_setSub, started_slot]
  exact if_congr hcond rfl rfl

theorem runSeekDone_of_track {d : Drive} {s : State} (htc : s.tcDone = false)
    (hop : s.cur.op = .readTrack ∨ s.cur.op = .formatTrack) : runSeekDone d s = .next (s.setSub d .waitIndex) := by
  rw [runSeekDone, if_neg (by simp [htc]), if_pos hop]

/-- The header search starts, with no header seen and no index pulse counted (R235). -/
theorem runSeekDone_of_search {d : Drive} {s : State} (htc : s.tcDone = false)
    (hop : ¬ (s.cur.op = .readTrack ∨ s.cur.op = .formatTrack)) (hlive : s.live = none) :
    runSeekDone d s = .next (searching d .scanId .searchAddressMarkHeader
      { s with
        cur := { s.cur with seenHeader := false }
        drives := s.drives.set d { s.slot d with counter := 0 } }) := by
  rw [runSeekDone, if_neg (by simp [htc]), if_neg hop]
  refine Eq.trans (congrArg (liveStart d .searchAddressMarkHeader) ?_)
    (liveStart_eq d .scanId .searchAddressMarkHeader hlive)
  simp [State.setSub, State.updSlot]

theorem not_seeking (hno : seeksImplicitly i = true → s.fifocfg.getLsbD 6 = true →
      (s.slot (loadCur i).d).pcn = (loadCur i).c) :
    ¬ (s.fifocfg.getLsbD 6 = true ∧ seeksImplicitly i = true ∧ (s.slot (loadCur i).d).pcn ≠ (loadCur i).c) :=
  fun ⟨heis, hseeks, hoff⟩ => hoff (hno hseeks heis)

end search

/-- Settles O22: the wait for the index at the end of the start. -/
theorem trackCommandsWaitForIndex : Obligations.TrackCommandsWaitForIndex := by
  intro i s hi hidle hready hwritable hno
  have hmedium := mediumCommand_of_track hi
  obtain ⟨-, -, -, htrack⟩ := loadCur_op hmedium
  rw [exec_of_checked hmedium hidle hready hwritable, runHeadLoadSettle_started hmedium, if_neg (not_seeking hno),
    runSeekDone_of_track rfl (htrack.mpr hi), started_setSub]
  rfl

/-- Settles O21: the header search at the end of the start. -/
theorem headerSearchStarts : Obligations.HeaderSearchStarts := by
  intro i s hi hidle hready hlive hwritable hno
  obtain ⟨hmedium, hnot⟩ := mediumCommand_of_search hi
  obtain ⟨-, -, -, htrack⟩ := loadCur_op hmedium
  have hop : ¬ ((loadCur i).op = .readTrack ∨ (loadCur i).op = .formatTrack) := fun h =>
    absurd (hnot.symm.trans (htrack.mp h)) Bool.false_ne_true
  rw [exec_of_checked hmedium hidle hready hwritable, runHeadLoadSettle_started hmedium, if_neg (not_seeking hno),
    runSeekDone_of_search (s := started i .seekDone s) rfl hop hlive]
  refine congrArg (fun t => finishOutputs (.next t)) ?_
  simp [searching, started, loadCur_seenHeader]
  rfl

/-! ## The implied seek (R310) -/

theorem started_aimed (i : Instr) (s : State) :
    ((started i .headLoadSettle s).updSlot (loadCur i).d fun x =>
      { x with seekTarget := (loadCur i).c, subState := .move }).slot (loadCur i).d =
    { s.slot (loadCur i).d with
      mainState := mainOf i, subState := .move, st0 := driveByte (loadCur i).hd (loadCur i).d,
      seekTarget := (loadCur i).c } := by
  simp [started]

/-- The start of an implied seek. -/
theorem exec_of_impliedSeek {i : Instr} {s : State} (hi : seeksImplicitly i = true)
    (hidle : (s.slot (loadCur i).d).mainState = .idle) (hready : s.driveReady (loadCur i).d = true)
    (hwritable : writeCommand i = true → s.writeProtected (loadCur i).d = false) (heis : s.fifocfg.getLsbD 6 = true)
    (hoff : (s.slot (loadCur i).d).pcn ≠ (loadCur i).c) :
    exec i s = finishOutputs (.next (stepIssued (loadCur i).d
      (if (s.slot (loadCur i).d).pcn < (loadCur i).c then .inward else .out)
      { s.slot (loadCur i).d with
        mainState := mainOf i, subState := .move, st0 := driveByte (loadCur i).hd (loadCur i).d,
        seekTarget := (loadCur i).c } (started i .headLoadSettle s))) := by
  have hmedium := mediumCommand_of_seeksImplicitly hi
  rw [exec_of_checked hmedium hidle hready hwritable, runHeadLoadSettle_started hmedium, if_pos ⟨heis, hi, hoff⟩,
    runMove_steps_on (started_aimed i s) (mainOf_not_recalibrate i) hoff, stepIssued_updSlot]

/-- Drive `d` of an implied seek arrived on its cylinder. -/
def seekArrived (d : Drive) (s : State) : State :=
  { s with driveTimer := s.driveTimer.set d none, drives := s.drives.set d { s.slot d with subState := .seekDone } }

/-- The drive of an implied seek on its cylinder: the command goes on (R306, R235). -/
theorem driveTimerExpiry_of_arrived {d : Drive} {s : State} (hsettle : (s.slot d).subState = .waitStepSettle)
    (hmain : (s.slot d).mainState ∈ ([.readData, .writeData, .readTrack] : List MainState))
    (hon : (s.slot d).pcn = (s.slot d).seekTarget) :
    driveTimerExpiry d s = runSeekDone d (seekArrived d s) := by
  have hseek : (s.slot d).mainState ≠ .seek ∧ (s.slot d).mainState ≠ .recalibrate := by
    constructor <;> (intro h; rw [h] at hmain; exact absurd hmain (by decide))
  rw [driveTimerExpiry_of_settle hsettle, runMove_arrived (settleEnded_slot d s) hseek.2 hon, seekFinish, if_neg]
  · simp [settleEnded, seekArrived, State.setTimer, State.setSub, State.updSlot]
  · simpa [settleEnded, State.setTimer] using hseek

/-- Settles O23: the first step at the start, and the Move after each settle. -/
theorem impliedSeekMovesFirst : Obligations.ImpliedSeekMovesFirst := by
  refine ⟨fun i s hi hidle hready hwritable heis hoff => ?start,
    fun d s hsettle hmain => ⟨fun hoff => ?steps, fun hon => ?_⟩⟩
  case start =>
    rw [exec_of_impliedSeek hi hidle hready hwritable heis hoff]
    refine congrArg (fun t => finishOutputs (.next t)) ?_
    simp [stepIssued, started]
  case steps =>
    have hrecal : (s.slot d).mainState ≠ .recalibrate := fun h => by
      rw [h] at hmain
      exact absurd hmain (by decide)
    rw [driveTimerExpiry_of_settle hsettle, runMove_steps_on (settleEnded_slot d s) hrecal hoff, stepIssued_settleEnded]
    rfl
  rw [driveTimerExpiry_of_arrived hsettle hmain hon]
  refine ⟨fun htc hlive hslot => ?ends, fun htc hop => ?waits, fun htc hop hlive => ?searches⟩
  case ends =>
    have hdone := finishResult_eq (s := seekArrived d s) (d := d) hlive (by simpa [seekArrived] using hslot)
    rw [runSeekDone, if_pos (show (seekArrived d s).tcDone = true from htc),
      commandDone_of_tc (s := seekArrived d s) htc, hdone]
    simp [ended, seekArrived]
  case waits =>
    rw [runSeekDone_of_track (s := seekArrived d s) htc (.inl hop)]
    simp [State.setSub, State.updSlot, seekArrived]
  case searches =>
    have hsearch : ¬ (s.cur.op = .readTrack ∨ s.cur.op = .formatTrack) := by
      rintro (h | h) <;> (rw [h] at hop; exact absurd hop (by decide))
    rw [runSeekDone_of_search (s := seekArrived d s) htc hsearch hlive]
    simp [searching, seekArrived]

end Sys2Proof.Proofs
end

section
/-! PROOFS. The reactions of the drive state machines to the engine's reports (spec/42_rw_commands.md R237 to R269) and the
multi-sector advance (R250). -/

namespace Sys2Proof.Proofs

open Sys2Proof.Machine Sys2Proof.Claims

/-! ## Advance (R250) -/

theorem advance_of_more {s : State} (hmore : ¬ s.cur.eot < s.cur.r + 1) :
    advance s = (s.tcDone, { s with cur := { s.cur with r := s.cur.r + 1 } }) :=
  if_neg hmore

theorem advance_of_past {s : State} (hpast : s.cur.eot < s.cur.r + 1) :
    advance s =
      if !(wrapSector (nextR s)).cur.mt || !bitAt (wrapSector (nextR s)).cur.h 0 then
        (true, endOfCylinder (wrapSector (nextR s)))
      else (s.tcDone, wrapSector (nextR s)) := by
  rw [advance]
  exact if_pos hpast

/-- The wrap of a single-track command. -/
theorem wrapSector_of_single {s : State} (hmt : s.cur.mt = false) :
    wrapSector (nextR s) = { s with cur := { s.cur with r := 1 } } :=
  if_neg (ne_true_of_eq_false hmt)

/-- The wrap of a multi-track command, on the other head. -/
theorem wrapSector_of_multi {s : State} (hmt : s.cur.mt = true) :
    wrapSector (nextR s) = { s with
      cur := { s.cur with r := 1, h := s.cur.h ^^^ 0x01, hd := !s.cur.hd }
      units := (s.selectSide s.cur.d (!s.cur.hd)).units
      outs := s.outs ++ [.sideSelected s.cur.d (!s.cur.hd)] } :=
  if_pos hmt

theorem bitAt_zero_toggle (h : Byte) : bitAt (h ^^^ 0x01) 0 = !bitAt h 0 := by
  revert h
  decide

theorem endOfCylinder_of_tc {s : State} (htc : s.tcDone = true) :
    endOfCylinder s = { s with cur := { s.cur with c := s.cur.c + 1 } } :=
  if_pos htc

theorem endOfCylinder_of_no_tc {s : State} (htc : s.tcDone = false) :
    endOfCylinder s = withSt0 s.cur.d (abnormal (s.slot s.cur.d).st0) { s with st1 := s.st1 ||| 0x80 } := by
  rw [endOfCylinder, if_neg (ne_true_of_eq_false htc), State.setIC, State.updSlot, withIC_abnormal]
  rfl

/-- Settles O32: one sector on, or the wrap on one head or on the other, with the end of the cylinder. -/
theorem advanceRule : Obligations.AdvanceRule := by
  intro s
  refine ⟨advance_of_more, fun hpast hmt htc => ?single, fun hpast hmt htc => ?singleTC, fun hpast hmt hh => ?turn,
    fun hpast hmt hh htc => ?multi, fun hpast hmt hh htc => ?multiTC, fun hr heot => ?wraps⟩
  case single =>
    rw [advance_of_past hpast, wrapSector_of_single hmt, if_pos (by simp [hmt]), endOfCylinder_of_no_tc (by exact htc)]
  case singleTC =>
    rw [advance_of_past hpast, wrapSector_of_single hmt, if_pos (by simp [hmt]), endOfCylinder_of_tc (by exact htc)]
  case turn =>
    have hbit : bitAt s.cur.h 0 = false := hh
    rw [advance_of_past hpast, wrapSector_of_multi hmt, if_neg (by simp only [hmt, bitAt_zero_toggle, hbit]; decide)]
  case multi =>
    have hbit : bitAt s.cur.h 0 = true := hh
    rw [advance_of_past hpast, wrapSector_of_multi hmt, if_pos (by simp only [hmt, bitAt_zero_toggle, hbit]; decide),
      endOfCylinder_of_no_tc (by exact htc)]
  case multiTC =>
    have hbit : bitAt s.cur.h 0 = true := hh
    rw [advance_of_past hpast, wrapSector_of_multi hmt, if_pos (by simp only [hmt, bitAt_zero_toggle, hbit]; decide),
      endOfCylinder_of_tc (by exact htc)]
  case wraps =>
    rw [advance_of_more (by rw [hr, heot]; decide)]
    simp [hr]

/-- What `Advance` leaves of the command. -/
structure SameCommand (s t : State) : Prop where
  op : t.cur.op = s.cur.op
  sk : t.cur.sk = s.cur.sk
  tcDone : t.tcDone = s.tcDone
  overrun : t.overrun = s.overrun

theorem bitAt_four_en (x : Byte) : bitAt (x ||| 0x80) 4 = bitAt x 4 := by
  revert x
  decide

theorem SameCommand.endOfCylinder (s : State) : SameCommand s (endOfCylinder s) := by
  unfold Sys2Proof.Machine.endOfCylinder
  split
  · exact ⟨rfl, rfl, rfl, rfl⟩
  · exact ⟨rfl, rfl, rfl, bitAt_four_en s.st1⟩

theorem SameCommand.wrapSector (s : State) : SameCommand s (wrapSector s) := by
  unfold Sys2Proof.Machine.wrapSector
  dsimp only
  split <;> exact ⟨rfl, rfl, rfl, rfl⟩

/-- `Advance` keeps the command, and goes on only before TC. -/
theorem advance_keeps (s : State) : SameCommand s (advance s).2 ∧ ((advance s).1 = false → s.tcDone = false) := by
  by_cases hpast : s.cur.eot < s.cur.r + 1
  · have hwrap := SameCommand.wrapSector (nextR s)
    have hend := SameCommand.endOfCylinder (wrapSector (nextR s))
    rw [advance_of_past hpast]
    split
    · exact ⟨⟨hend.op.trans hwrap.op, hend.sk.trans hwrap.sk, hend.tcDone.trans hwrap.tcDone,
        hend.overrun.trans hwrap.overrun⟩, nofun⟩
    · exact ⟨⟨hwrap.op, hwrap.sk, hwrap.tcDone, hwrap.overrun⟩, id⟩
  · rw [advance_of_more hpast]
    exact ⟨⟨rfl, rfl, rfl, rfl⟩, id⟩

/-- `Advance` touches no transfer. -/
theorem advance_live (s : State) (d : Drive) :
    (s.live = none → (advance s).2.live = none) ∧ ((advance s).2.slot d).live = (s.slot d).live := by
  have hsame := SameControl.advance s
  refine ⟨fun hlive => ?_, (hsame.slots d).2.2⟩
  have hmap := hsame.live
  rw [hlive] at hmap
  exact Option.map_eq_none_iff.mp hmap

/-! ## The transfer that reported is dropped (R230) -/

theorem dropLive_slot (d : Drive) (s : State) : (dropLive d s).slot d = { s.slot d with live := false } :=
  Slots.get_set_same ..

/-- Every outcome drops the transfer itself. -/
theorem searching_dropLive (d : Drive) (sub : SubState) (st : LiveState) (s : State) :
    searching d sub st (dropLive d s) = searching d sub st s := by
  simp [searching, dropLive, State.updSlot]

theorem finished_dropLive (d : Drive) (st0 st1 st2 : Byte) (s : State) :
    finished d st0 st1 st2 (dropLive d s) = finished d st0 st1 st2 s := by
  simp [finished, ended, dropLive, State.updSlot]

/-- The status bytes of the end replace those recorded before it. -/
theorem finished_withSt0 (d : Drive) (a st0 st1 st2 : Byte) (s : State) :
    finished d st0 st1 st2 (withSt0 d a s) = finished d st0 st1 st2 s := by
  simp [finished, ended, withSt0]

/-- `CommandDone` after the transfer is dropped and the status bytes are recorded. -/
theorem commandDone_recorded (d : Drive) (st0 st1 st2 : Byte) (s : State) :
    commandDone d (withSt0 d st0 (dropLive d { s with st1 := st1, st2 := st2 })) = finished d st0 st1 st2 s := by
  rw [commandDone_eq rfl (by simp [withSt0, dropLive]), finished_withSt0, finished_dropLive]
  simp [finished, ended, withSt0, dropLive]

/-- A live start after the transfer is dropped. -/
theorem liveStart_dropped (d : Drive) (sub : SubState) (st : LiveState) (s : State) :
    liveStart d st ((dropLive d s).setSub d sub) = .next (searching d sub st s) := by
  rw [liveStart_eq d sub st rfl, searching_dropLive]

theorem setIC_eq_withSt0 (d : Drive) (s : State) :
    s.setIC d icAbnormal = withSt0 d (abnormal (s.slot d).st0) s := by
  rw [State.setIC, State.updSlot, withIC_abnormal]
  rfl

/-! ## The header (R237) -/

theorem report_header_rw {L : LiveTransfer} {s : State}
    (hmain : (s.slot L.drive).mainState = .readData ∨ (s.slot L.drive).mainState = .writeData)
    (hsub : (s.slot L.drive).subState = .scanId) :
    report .headerRead L s = onHeaderReadRW L.drive L (dropLive L.drive s) := by
  simp only [State.slot_def] at hmain hsub
  rcases hmain with hmain | hmain <;> simp [report, dropLive, hmain, hsub]

/-- The status bytes after a header with a wrong cylinder (R237). -/
theorem wrongCylinder_eq (d : Drive) (c : Byte) (s : State) :
    wrongCylinder d c s = withSt0 d (abnormal (s.slot d).st0)
      { s with st1 := s.st1 ||| 0x04, st2 := s.st2 ||| 0x10 ||| bitsIf (c = 0xFF) 0x02 } := by
  rw [wrongCylinder, setIC_eq_withSt0]
  by_cases hc : c = 0xFF
  · rw [if_pos hc, decide_eq_true hc]
    rfl
  · have hbit : s.st2 ||| 0x10 ||| bitsIf (decide (c = 0xFF)) 0x02 = s.st2 ||| 0x10 := by
      rw [decide_eq_false hc]
      exact BitVec.or_zero
    rw [if_neg hc, hbit]
    rfl

/-- Settles O26: the evaluation's branches in turn. -/
theorem headerEvaluation : Obligations.HeaderEvaluation := by
  intro L s0 hmain hsub s st0
  rw [report_header_rw hmain hsub]
  have hslot : (dropLive L.drive s).setSub L.drive .scanId = noteHeader L (dropLive L.drive s0) :=
    updSlot_of_fixed (by rw [dropLive_slot, ← show (s.slot L.drive).subState = .scanId from hsub])
  have hmatch : L.idbuf = s.cur.chrn →
      ¬ (L.idbuf.h ≠ s.cur.h ∨ L.idbuf.r ≠ s.cur.r ∨ L.idbuf.n ≠ s.cur.n) := fun hid => by simp [hid, Cur.chrn]
  refine ⟨fun hcrc => ?badCrc, fun hcrc hc => ?cylinder, fun hcrc hc hother => ?noMatch, fun hcrc hid hop => ?read,
    fun hcrc hid hop htc => ?write⟩
  case badCrc =>
    refine (if_pos hcrc).trans (congrArg Host.Outcome.next
      (Eq.trans (congrArg (commandDone _) ?_) (commandDone_recorded ..)))
    rw [setIC_eq_withSt0]
    simp [dropLive, State.setSt1, noteHeader, State.updSlot, St1Bit.mask, withSt0, s, st0]
  case cylinder =>
    refine (if_neg (not_not.mpr hcrc)).trans ((if_pos hc).trans (congrArg Host.Outcome.next
      (Eq.trans (congrArg (commandDone _) ?_) (commandDone_recorded ..))))
    rw [wrongCylinder_eq]
    simp [dropLive, noteHeader, State.updSlot, withSt0, s, st0]
  case noMatch =>
    refine (if_neg (not_not.mpr hcrc)).trans ((if_neg (not_not.mpr hc)).trans ((if_pos hother).trans ?_))
    rw [← hslot]
    exact liveStart_dropped ..
  case read =>
    refine (if_neg (not_not.mpr hcrc)).trans ((if_neg (not_not.mpr (congrArg Chrn.c hid))).trans
      ((if_neg (hmatch hid)).trans ((if_pos hop).trans (liveStart_dropped L.drive .sectorRead _ s))))
  case write =>
    have hread : ¬ (s.cur.op = .readData ∨ s.cur.op = .readDeletedData) := by
      rintro (h | h) <;> (rw [h] at hop; exact absurd hop (by decide))
    have hexpect : fifoExpect s.cur.sectorSize ((dropLive L.drive s).setSub L.drive .sectorWrite) =
        (dropLive L.drive { s with
          fifoWrite := true
          fifoExpected := s.cur.sectorSize
          internalDrq := decide (s.fifo.length < 16) }).setSub L.drive .sectorWrite :=
      if_neg (ne_true_of_eq_false htc)
    refine (if_neg (not_not.mpr hcrc)).trans ((if_neg (not_not.mpr (congrArg Chrn.c hid))).trans
      ((if_neg (hmatch hid)).trans ((if_neg hread).trans ?_)))
    exact (congrArg (liveStart L.drive .writeSectorSkipGap2) hexpect).trans (liveStart_dropped ..)

/-! ## After a sector (R242, R258) -/

section sector

variable {d : Drive} {t : State}

theorem nextSector_ends {done : Bool} (hdone : done = true) (hlive : t.live = none) (hslot : (t.slot d).live = false) :
    nextSector d done t = .next (finished d (t.slot d).st0 t.st1 t.st2 t) :=
  (if_pos hdone).trans (congrArg Host.Outcome.next (commandDone_eq hlive hslot))

theorem nextSector_searches {done : Bool} (hdone : done = false) (htc : t.tcDone = false)
    (hop : ¬ (t.cur.op = .readTrack ∨ t.cur.op = .formatTrack)) (hlive : t.live = none) :
    nextSector d done t = .next (searching d .scanId .searchAddressMarkHeader
      { t with
        cur := { t.cur with seenHeader := false }
        drives := t.drives.set d { t.slot d with counter := 0 } }) := by
  refine (if_neg (ne_true_of_eq_false hdone)).trans
    ((runSeekDone_of_search (s := t.setSub d .seekDone) htc hop hlive).trans (congrArg Host.Outcome.next ?_))
  simp [searching, State.setSub, State.updSlot]

end sector

/-! ## The end of a data field (R238, R242 to R245) -/

theorem report_missing_rw {L : LiveTransfer} {s : State} (hmain : (s.slot L.drive).mainState = .readData)
    (hsub : (s.slot L.drive).subState = .sectorRead) :
    report .dataMarkMissing L s = .next (commandDone L.drive (missingDataMark L.drive (dropLive L.drive s))) := by
  simp only [State.slot_def] at hmain hsub
  simp [report, dropLive, hmain, hsub]

theorem report_field_rw {L : LiveTransfer} {s : State} (hmain : (s.slot L.drive).mainState = .readData)
    (hsub : (s.slot L.drive).subState = .sectorRead) :
    report .fieldRead L s = onFieldReadRW L.drive L (dropLive L.drive s) := by
  simp only [State.slot_def] at hmain hsub
  simp [report, dropLive, hmain, hsub]

theorem missingDataMark_eq (d : Drive) (s : State) :
    missingDataMark d s = withSt0 d (abnormal (s.slot d).st0) { s with st1 := s.st1 ||| 0x01, st2 := s.st2 ||| 0x01 } :=
  setIC_eq_withSt0 ..

theorem dataCrcError_eq (d : Drive) (s : State) :
    dataCrcError d s = withSt0 d (abnormal (s.slot d).st0) { s with st1 := s.st1 ||| 0x20, st2 := s.st2 ||| 0x20 } :=
  setIC_eq_withSt0 ..

/-- A data field read, its CRC good or bad, its mark the expected or the other: the transfer dropped and the status bytes
recorded. -/
def fieldRecorded (bad mismatch : Bool) (d : Drive) (s : State) : State :=
  { s with
    live := none
    st1 := s.st1 ||| bitsIf bad 0x20
    st2 := s.st2 ||| bitsIf mismatch 0x40 ||| bitsIf bad 0x20
    internalDrq := s.internalDrq || decide (s.fifo ≠ [])
    drives := s.drives.set d { s.slot d with
      live := false, st0 := if bad then abnormal (s.slot d).st0 else (s.slot d).st0 } }

theorem dataCrcError_recorded (mismatch : Bool) (d : Drive) (s : State) :
    dataCrcError d (fieldRecorded false mismatch d s) = fieldRecorded true mismatch d s := by
  rw [dataCrcError_eq]
  simp [fieldRecorded, withSt0, bitsIf]

theorem flushRequest_recorded (d : Drive) (s : State) : flushRequest (dropLive d s) = fieldRecorded false false d s := by
  simp [flushRequest, dropLive, State.updSlot, fieldRecorded, bitsIf]
  cases s.fifo <;> rfl

theorem setSt2_recorded (d : Drive) (s : State) :
    (fieldRecorded false false d s).setSt2 .cm = fieldRecorded false true d s := by
  simp [State.setSt2, fieldRecorded, bitsIf, St2Bit.mask]

/-- The status bits as the end of a field sets them, one after the other. -/
theorem field_recorded (bad mismatch : Bool) (d : Drive) (s : State) :
    (if bad = true then
        dataCrcError d (if mismatch then (flushRequest (dropLive d s)).setSt2 .cm else flushRequest (dropLive d s))
      else if mismatch then (flushRequest (dropLive d s)).setSt2 .cm else flushRequest (dropLive d s)) =
      fieldRecorded bad mismatch d s := by
  rw [flushRequest_recorded, setSt2_recorded]
  cases bad <;> cases mismatch
  · rfl
  · rfl
  · exact dataCrcError_recorded false d s
  · exact dataCrcError_recorded true d s

theorem fieldRecorded_overrun (bad mismatch : Bool) (d : Drive) (s : State) :
    (fieldRecorded bad mismatch d s).overrun = s.overrun := by
  have hbit : ∀ x : Byte, bitAt (x ||| 0x20) 4 = bitAt x 4 := by decide
  cases bad
  · exact congrArg (bitAt · 4) BitVec.or_zero
  · exact hbit s.st1

/-- The end of the field, after its status is recorded. -/
theorem onFieldReadRW_dropped (d : Drive) (L : LiveTransfer) (s : State) :
    onFieldReadRW d L (dropLive d s) =
      if L.crc ≠ 0 ∧ s.par.crcErrorContinues = false then
        .next (commandDone d (fieldRecorded (decide (L.crc ≠ 0)) (markMismatch s L.markDeleted) d s))
      else
        nextSector d
          ((advance (fieldRecorded (decide (L.crc ≠ 0)) (markMismatch s L.markDeleted) d s)).1 ||
            (markMismatch s L.markDeleted && !s.cur.sk) || s.overrun)
          (advance (fieldRecorded (decide (L.crc ≠ 0)) (markMismatch s L.markDeleted) d s)).2 := by
  have hrecorded := field_recorded (decide (L.crc ≠ 0)) (markMismatch s L.markDeleted) d s
  simp only [decide_eq_true_eq] at hrecorded
  obtain ⟨⟨-, hsk, -, hover⟩, -⟩ :=
    advance_keeps (fieldRecorded (decide (L.crc ≠ 0)) (markMismatch s L.markDeleted) d s)
  rw [fieldRecorded_overrun] at hover
  rw [← hover, show s.cur.sk = _ from hsk.symm, ← hrecorded]
  rfl

/-- When a field ends its command, as R242 lists it. -/
theorem field_ends {done mismatch sk lost : Bool} :
    (done || (mismatch && !sk) || lost) = true ↔ done = true ∨ (mismatch = true ∧ sk = false) ∨ lost = true := by
  simp [or_assoc]

theorem field_goes_on {done mismatch sk lost : Bool} (hdone : done = false) (hmark : mismatch = true → sk = true)
    (hlost : lost = false) : (done || (mismatch && !sk) || lost) = false := by
  subst hdone hlost
  cases mismatch
  · rfl
  · rw [hmark rfl]
    rfl

/-- Settles O28: the status is recorded, and then the command ends, or `Advance` decides. -/
theorem dataFieldEnd : Obligations.DataFieldEnd := by
  intro L s hmain hsub hop bad mismatch st0 st1 st2 next
  have hfield := (report_field_rw hmain hsub).trans (onFieldReadRW_dropped L.drive L s)
  have hslot : ∀ b m, ((fieldRecorded b m L.drive s).slot L.drive).live = false := fun _ _ =>
    congrArg DriveSlot.live (Slots.get_set_same ..)
  have hsearch : ¬ (s.cur.op = .readTrack ∨ s.cur.op = .formatTrack) := by
    rintro (h | h) <;> (rw [h] at hop; exact absurd hop (by decide))
  refine ⟨?missing, fun hbad hcont => ?badCrc, fun hgood hmore => ?more, fun hgood hpast => ?past⟩
  case missing =>
    rw [report_missing_rw hmain hsub, missingDataMark_eq]
    refine congrArg Host.Outcome.next (Eq.trans (congrArg (commandDone _) ?_) (commandDone_recorded ..))
    simp [withSt0, dropLive, State.updSlot]
  case badCrc =>
    refine hfield.trans ((if_pos ⟨of_decide_eq_true hbad, hcont⟩).trans (congrArg Host.Outcome.next ?_))
    rw [commandDone_eq rfl (hslot ..)]
    simp [finished, ended, fieldRecorded, bad, mismatch, st0, st1, st2, markMismatch]
  all_goals
    replace hfield : report .fieldRead L s = nextSector L.drive
        ((advance (fieldRecorded bad mismatch L.drive s)).1 || (mismatch && !s.cur.sk) || s.overrun)
        (advance (fieldRecorded bad mismatch L.drive s)).2 :=
      hfield.trans (if_neg fun h => absurd ((hgood (decide_eq_true h.1)).symm.trans h.2) (by decide))
    obtain ⟨⟨hop', -, htc', -⟩, hgoes⟩ := advance_keeps (fieldRecorded bad mismatch L.drive s)
    obtain ⟨hlive, hslot'⟩ := advance_live (fieldRecorded bad mismatch L.drive s) L.drive
    have hends := fun h => hfield.trans (nextSector_ends (field_ends.mpr h) (hlive rfl) (hslot'.trans (hslot ..)))
    have hsearches := fun hdone hmark hover => hfield.trans (nextSector_searches (field_goes_on hdone hmark hover)
      (htc'.trans (hgoes hdone)) (hop' ▸ hsearch) (hlive rfl))
  case past => exact ⟨hends, hsearches⟩
  case more =>
    have hadvance := advance_of_more (s := fieldRecorded bad mismatch L.drive s) hmore
    refine ⟨fun h => (hends (by rw [hadvance]; exact h)).trans (congrArg Host.Outcome.next ?_), fun htc hmark hover =>
      (hsearches (by rw [hadvance]; exact htc) hmark hover).trans (congrArg Host.Outcome.next ?_)⟩
    · rw [hadvance]
      simp [finished, ended, fieldRecorded, st0, st1, st2, next]
    · rw [hadvance]
      simp [searching, fieldRecorded, st0, st1, st2, next]

/-! ## The end of a written field (R258) -/

theorem report_written {L : LiveTransfer} {s : State} (hmain : (s.slot L.drive).mainState = .writeData)
    (hsub : (s.slot L.drive).subState = .sectorWrite) :
    report .fieldWritten L s = onFieldWritten L.drive (dropLive L.drive s) := by
  simp only [State.slot_def] at hmain hsub
  simp [report, dropLive, hmain, hsub]

/-- A write does not drain. -/
theorem finished_of_write {s : State} (hop : s.cur.op = .writeData ∨ s.cur.op = .writeDeletedData) (d : Drive)
    (st0 st1 st2 : Byte) : finished d st0 st1 st2 s = ended d (finalSt0 s.par st0 st1) st1 st2 s := by
  refine if_neg fun h => ?_
  rcases hop with hop | hop <;> (rw [hop] at h; exact absurd h.1 (by decide))

/-- Settles O29: the FIFO stops, and `Advance` decides. -/
theorem writtenFieldEnd : Obligations.WrittenFieldEnd := by
  intro L s hmain hsub hop next
  generalize hR : fifoStopExpect (dropLive L.drive s) = R
  have hslot : (R.slot L.drive).live = false := by
    rw [← hR]
    exact congrArg DriveSlot.live (Slots.get_set_same ..)
  have hlive : R.live = none := hR ▸ rfl
  have hopR : R.cur.op = s.cur.op := hR ▸ rfl
  obtain ⟨⟨hop', -, htc', hover'⟩, hgoes⟩ := advance_keeps R
  obtain ⟨hlive', hslot'⟩ := advance_live R L.drive
  have hoverR : (advance R).2.overrun = s.overrun := hover'.trans (hR ▸ rfl)
  have hfield : report .fieldWritten L s = nextSector L.drive ((advance R).1 || s.overrun) (advance R).2 := by
    rw [report_written hmain hsub, onFieldWritten, hR, ← hoverR]
  have hopA : (advance R).2.cur.op = .writeData ∨ (advance R).2.cur.op = .writeDeletedData := hop'.trans hopR ▸ hop
  have hsearch : ¬ ((advance R).2.cur.op = .readTrack ∨ (advance R).2.cur.op = .formatTrack) := by
    rcases hopA with h | h <;> rw [h] <;> decide
  have hpar : (advance R).2.par = s.par := (advance_frame R).par.trans (hR ▸ rfl)
  have hends : (advance R).1 = true ∨ s.overrun = true → _ := fun h =>
    hfield.trans ((nextSector_ends (Bool.or_eq_true .. ▸ h) (hlive' hlive) (hslot'.trans hslot)).trans
      (congrArg Host.Outcome.next ((finished_of_write hopA ..).trans (by rw [hpar]))))
  have hsearches : (advance R).1 = false → s.overrun = false → _ := fun hdone hover =>
    hfield.trans (nextSector_searches (Bool.or_eq_false_iff.mpr ⟨hdone, hover⟩) (htc'.trans (hgoes hdone)) hsearch
      (hlive' hlive))
  refine ⟨fun hmore => ⟨fun h => ?_, fun htc hover => ?_⟩, fun hpast => ?_⟩
  · have hadvance := advance_of_more (s := R) (hR ▸ hmore)
    refine (hends ?_).trans (congrArg Host.Outcome.next ?_)
    · rw [hadvance, ← hR]
      exact h
    · rw [hadvance, ← hR]
      simp [ended, next, fifoStopExpect, dropLive, State.updSlot]
  · have hadvance := advance_of_more (s := R) (hR ▸ hmore)
    refine (hsearches ?_ hover).trans (congrArg Host.Outcome.next ?_)
    · rw [hadvance, ← hR]
      exact htc
    · rw [hadvance, ← hR]
      simp [searching, next, fifoStopExpect, dropLive, State.updSlot]
  · subst hR
    exact ⟨hends, hsearches⟩

/-! ## Read Track and Read ID (R264, R265, R269) -/

section track

variable {L : LiveTransfer} {s : State}

theorem report_header_track (hmain : (s.slot L.drive).mainState = .readTrack) (hsub : (s.slot L.drive).subState = .scanId) :
    report .headerRead L s = onHeaderReadTrack L.drive L (dropLive L.drive s) := by
  simp only [State.slot_def] at hmain hsub
  simp [report, dropLive, hmain, hsub]

theorem report_missing_track (hmain : (s.slot L.drive).mainState = .readTrack)
    (hsub : (s.slot L.drive).subState = .sectorRead) :
    report .dataMarkMissing L s = onDataMarkMissingTrack L.drive (dropLive L.drive s) := by
  simp only [State.slot_def] at hmain hsub
  simp [report, dropLive, hmain, hsub]

theorem report_field_track (hmain : (s.slot L.drive).mainState = .readTrack)
    (hsub : (s.slot L.drive).subState = .sectorRead) :
    report .fieldRead L s = onFieldReadTrack L.drive L (dropLive L.drive s) := by
  simp only [State.slot_def] at hmain hsub
  simp [report, dropLive, hmain, hsub]

theorem report_header_id (hmain : (s.slot L.drive).mainState = .readId) (hsub : (s.slot L.drive).subState = .scanId) :
    report .headerRead L s = onHeaderReadId L.drive L (dropLive L.drive s) := by
  simp only [State.slot_def] at hmain hsub
  simp [report, dropLive, hmain, hsub]

end track

/-- A live start after the transfer is dropped and the status bytes are recorded. -/
theorem liveStart_recorded (d : Drive) (sub : SubState) (st : LiveState) (st0 : Byte) (s : State) :
    liveStart d st ((withSt0 d st0 (dropLive d s)).setSub d sub) = .next (searching d sub st (withSt0 d st0 s)) := by
  rw [liveStart_eq d sub st rfl]
  simp [searching, withSt0, dropLive, State.updSlot]

theorem withSt0_self (d : Drive) (s : State) : withSt0 d (s.slot d).st0 s = s :=
  updSlot_of_fixed (f := fun x => { x with st0 := (s.slot d).st0 }) rfl

/-- The errors of a Read Track's header, each abnormal (R264). -/
theorem track_errors_recorded (bad other : Bool) (d : Drive) (s : State) :
    (if other = true then
        ((if bad = true then (s.setSt1 .de).setIC d icAbnormal else s).setSt1 .nd).setIC d icAbnormal
      else if bad = true then (s.setSt1 .de).setIC d icAbnormal else s) =
      withSt0 d (if bad || other then abnormal (s.slot d).st0 else (s.slot d).st0)
        { s with st1 := s.st1 ||| bitsIf bad 0x20 ||| bitsIf other 0x04 } := by
  cases bad <;> cases other
  case false.false => simpa [bitsIf] using (withSt0_self d s).symm
  all_goals simp [setIC_eq_withSt0, withSt0, bitsIf, State.setSt1, St1Bit.mask, abnormal_abnormal]

/-- The CRC error of Read ID's header (R269). -/
theorem id_error_recorded (p : Prop) [Decidable p] (d : Drive) (s : State) :
    (if p then (s.setSt1 .de).setIC d icAbnormal else s) =
      withSt0 d (if decide p then abnormal (s.slot d).st0 else (s.slot d).st0)
        { s with st1 := s.st1 ||| bitsIf (decide p) 0x20 } := by
  by_cases hp : p
  · rw [if_pos hp, decide_eq_true hp]
    exact setIC_eq_withSt0 ..
  · rw [if_neg hp, decide_eq_false hp]
    simpa [bitsIf] using (withSt0_self d s).symm

/-- The state after Read Track counted a field. -/
def fieldCounted (s : State) : State := { s with cur := { s.cur with count := s.cur.count + 1, r := s.cur.r + 1 } }

theorem onFieldReadTrack_dropped (d : Drive) (L : LiveTransfer) (s : State) :
    onFieldReadTrack d L (dropLive d s) =
      if (s.tcDone || decide (s.cur.eot.toNat ≤ s.cur.count + 1) || s.overrun) = true then
        .next (commandDone d (fieldCounted (fieldRecorded (decide (L.crc ≠ 0)) false d s)))
      else liveStart d .searchAddressMarkHeader
        ((fieldCounted (fieldRecorded (decide (L.crc ≠ 0)) false d s)).setSub d .scanId) := by
  have hrecorded := field_recorded (decide (L.crc ≠ 0)) false d s
  simp only [decide_eq_true_eq, Bool.false_eq_true, if_false] at hrecorded
  rw [← fieldRecorded_overrun (decide (L.crc ≠ 0)) false d s]
  unfold onFieldReadTrack
  dsimp only
  rw [hrecorded]
  rfl

/-- Settles O30: each reaction, with the errors it records. -/
theorem trackAndIdReports : Obligations.TrackAndIdReports := by
  intro L s st0 bad
  refine ⟨?header, ?missing, ?field, ?readId⟩
  case header =>
    intro hmain hsub other
    have hrecorded := track_errors_recorded bad other L.drive (dropLive L.drive (noteHeader L s))
    simp only [bad, other, decide_eq_true_eq, dropLive_slot] at hrecorded
    rw [report_header_track hmain hsub]
    exact (congrArg (fun t => liveStart L.drive .searchAddressMarkData (State.setSub t L.drive .sectorRead)) hrecorded).trans
      (liveStart_recorded L.drive _ _ _ { noteHeader L s with st1 := s.st1 ||| bitsIf bad 0x20 ||| bitsIf other 0x04 })
  case missing =>
    intro hmain hsub
    rw [report_missing_track hmain hsub, onDataMarkMissingTrack, missingDataMark_eq, dropLive_slot]
    exact liveStart_recorded L.drive _ _ _ { s with st1 := s.st1 ||| 0x01, st2 := s.st2 ||| 0x01 }
  case field =>
    intro hmain hsub next
    have hfield := (report_field_track hmain hsub).trans (onFieldReadTrack_dropped L.drive L s)
    refine ⟨fun hends => hfield.trans ((if_pos ?_).trans (congrArg Host.Outcome.next ?_)), fun htc hcount hover =>
      hfield.trans ((if_neg ?_).trans ?_)⟩
    · have hends' : s.tcDone = true ∨ s.cur.eot.toNat ≤ s.cur.count + 1 ∨ s.overrun = true := hends
      simpa [or_assoc] using hends'
    · rw [commandDone_eq rfl (congrArg DriveSlot.live (Slots.get_set_same ..))]
      simp [finished, ended, fieldCounted, fieldRecorded, bitsIf, next, bad, st0]
    · have hover' : s.overrun = false := hover
      simpa [htc, hover'] using hcount
    · rw [liveStart_eq _ _ _ rfl]
      simp [searching, fieldCounted, fieldRecorded, bitsIf, next, bad, st0, withSt0]
  case readId =>
    intro hmain hsub
    have hrecorded := id_error_recorded (L.crc ≠ 0) L.drive (dropLive L.drive { s with cur := { s.cur with
      c := L.idbuf.c, h := L.idbuf.h, r := L.idbuf.r, n := L.idbuf.n, lastId := L.idbuf } })
    rw [dropLive_slot] at hrecorded
    rw [report_header_id hmain hsub]
    refine congrArg Host.Outcome.next ((congrArg (commandDone L.drive) hrecorded).trans ?_)
    exact commandDone_recorded L.drive (if bad then abnormal st0 else st0) (s.st1 ||| bitsIf bad 0x20) s.st2
      { s with cur := { s.cur with
        c := L.idbuf.c, h := L.idbuf.h, r := L.idbuf.r, n := L.idbuf.n, lastId := L.idbuf } }

end Sys2Proof.Proofs
end

section
/-! PROOFS. Index pulses (spec/42_rw_commands.md R236, R263, R273, R275) and terminal count (spec/44_fifo.md R335): what they
do in each sub-state, and where they are ignored. -/

namespace Sys2Proof.Proofs

open Sys2Proof.Machine Sys2Proof.Claims

/-! ## The abort (R191) -/

section abort

variable {d : Drive} {s : State} {L : LiveTransfer}

/-- With no write span open the abort only drops the transfer. -/
theorem liveAbort_of_reading (hL : s.live = some L) (hspan : s.pll.writeStartTime = none) :
    liveAbort s = dropLive L.drive s := by
  have hpll : { s.pll with writeStartTime := none } = s.pll := by rw [← hspan]
  have hstop : stopWriting L.drive s.now s = s := by
    simp only [stopWriting, commitWrite, hspan, hpll]
  rw [liveAbort, hL]
  exact congrArg (dropLive L.drive) hstop

/-- The abort of drive `d`'s transfer clears its flag and keeps its status. -/
theorem liveAbort_slot (hL : s.live = some L) (hd : L.drive = d) :
    (liveAbort s).slot d = { s.slot d with live := false } := by
  subst hd
  rw [State.slot_def, liveAbort_drives hL, Slots.get_set_same]

/-- `CommandDone` after the abort, with the status recorded since (R410). -/
theorem commandDone_aborted (hL : s.live = some L) (hd : L.drive = d) (st0 st1 : Byte) :
    commandDone d (withSt0 d st0 { liveAbort s with st1 := st1 }) = finished d st0 st1 s.st2 (liveAbort s) := by
  obtain ⟨-, hst2, -⟩ := liveAbort_keeps s
  have hslot := congrArg DriveSlot.live (liveAbort_slot hL hd)
  have hdone := commandDone_eq (s := withSt0 d st0 { liveAbort s with st1 := st1 }) (d := d) (liveAbort_live s)
    (by simpa [withSt0] using hslot)
  rw [hdone, finished_withSt0, ← hst2]
  simp [finished, ended, withSt0]

end abort

/-! ## The search without its sector (R236, R263) -/

theorem recordNotFound_eq {d : Drive} {s : State} {L : LiveTransfer} (hL : s.live = some L) (hd : L.drive = d) :
    recordNotFound d s = finished d (abnormal (s.slot d).st0) (s.st1 ||| 0x04 ||| bitsIf (!s.cur.seenHeader) 0x01) s.st2
      (liveAbort s) := by
  obtain ⟨hst1, -, -, hcur, -⟩ := liveAbort_keeps s
  have hmissing : (if ((liveAbort s).setSt1 .nd).cur.seenHeader then (liveAbort s).setSt1 .nd
      else ((liveAbort s).setSt1 .nd).setSt1 .ma) =
      { liveAbort s with st1 := s.st1 ||| 0x04 ||| bitsIf (!s.cur.seenHeader) 0x01 } := by
    rw [setSt1_cur, hcur, State.setSt1, hst1]
    cases s.cur.seenHeader
    · rfl
    · exact congrArg (fun x => { liveAbort s with st1 := x }) BitVec.or_zero.symm
  refine (congrArg (fun t => commandDone d (State.setIC t d icAbnormal)) hmissing).trans
    (Eq.trans ?_ (commandDone_aborted hL hd _ _))
  dsimp only
  rw [setIC_eq_withSt0]
  have hst0 : ((liveAbort s).slot d).st0 = (s.slot d).st0 := by rw [liveAbort_slot hL hd]
  exact congrArg (fun x : Byte => commandDone d (withSt0 d (abnormal x)
    { liveAbort s with st1 := s.st1 ||| 0x04 ||| bitsIf (!s.cur.seenHeader) 0x01 })) hst0

theorem onIndex_search {d : Drive} {s : State} (hattached : (s.units.get d).attached = true)
    (hmain : (s.slot d).mainState = .readData ∨ (s.slot d).mainState = .writeData ∨ (s.slot d).mainState = .readId)
    (hsub : (s.slot d).subState = .scanId) : onIndex d s = onIndexSearch d s := by
  simp only [State.slot_def] at hmain hsub
  rcases hmain with hmain | hmain | hmain <;> simp [onIndex, hattached, hmain, hsub]

/-- An index pulse counted in a search. -/
def pulseCounted (d : Drive) (s : State) : State := s.updSlot d fun x => { x with counter := x.counter + 1 }

/-- Settles O27: the pulse is counted, and from the second on the sector is not found. -/
theorem indexLimitEndsTheSearch : Obligations.IndexLimitEndsTheSearch := by
  intro d L s hattached hmain hsub hL hd hspan
  have hslot : (pulseCounted d s).slot d = { s.slot d with counter := (s.slot d).counter + 1 } := Slots.get_set_same ..
  have hcounter : ((pulseCounted d s).slot d).counter = (s.slot d).counter + 1 := congrArg DriveSlot.counter hslot
  rw [onIndex_search hattached hmain hsub]
  refine ⟨fun hfirst => ?_, fun hsecond => ?_⟩
  · exact congrArg Host.Outcome.next (if_neg (hcounter ▸ not_le.mpr hfirst))
  · refine congrArg Host.Outcome.next ((if_pos (hcounter ▸ hsecond)).trans ?_)
    have hfound := recordNotFound_eq (s := pulseCounted d s) hL hd
    rw [liveAbort_of_reading (s := pulseCounted d s) hL hspan, hd, finished_dropLive, hslot] at hfound
    exact hfound

/-! ## Read Track and Format Track -/

section track

variable {d : Drive} {s : State} (hattached : (s.units.get d).attached = true)

include hattached

theorem onIndex_wait_read (hmain : (s.slot d).mainState = .readTrack) (hsub : (s.slot d).subState = .waitIndex) :
    onIndex d s = onIndexReadTrack d s := by
  simp only [State.slot_def] at hmain hsub
  simp [onIndex, hattached, hmain, hsub]

theorem onIndex_wait_format (hmain : (s.slot d).mainState = .formatTrack) (hsub : (s.slot d).subState = .waitIndex) :
    onIndex d s = liveStart d .writeTrackPreSectors (s.setSub d .trackWrite) := by
  simp only [State.slot_def] at hmain hsub
  simp [onIndex, hattached, hmain, hsub]

theorem onIndex_reading (hmain : (s.slot d).mainState = .readTrack)
    (hsub : (s.slot d).subState = .scanId ∨ (s.slot d).subState = .sectorRead) :
    onIndex d s = .next (recordNotFound d s) := by
  simp only [State.slot_def] at hmain hsub
  rcases hsub with hsub | hsub <;> simp [onIndex, hattached, hmain, hsub]

theorem onIndex_formatting (hmain : (s.slot d).mainState = .formatTrack) (hsub : (s.slot d).subState = .trackWrite) :
    onIndex d s = onIndexTrackWrite d s := by
  simp only [State.slot_def] at hmain hsub
  simp [onIndex, hattached, hmain, hsub]

end track

/-- The main and sub-states of a drive in which an index pulse means nothing (R312). -/
theorem onIndex_ignored {d : Drive} {s : State}
    (h : (s.slot d).mainState ∈ ([.idle, .seek, .recalibrate] : List MainState) ∨
      (s.slot d).mainState ∈ ([.readData, .writeData, .readTrack] : List MainState) ∧
        (s.slot d).subState ∈ ([.drain, .waitStepPulse, .waitStepSettle] : List SubState) ∨
      (s.slot d).mainState ∈ ([.readData, .writeData] : List MainState) ∧
        (s.slot d).subState ∈ ([.sectorRead, .sectorWrite] : List SubState)) :
    onIndex d s = .next s := by
  unfold onIndex
  split
  · split <;> simp_all
  · rfl

/-- A pulse in Format Track's last gap ends the command (R275). -/
theorem commandDone_of_format {d : Drive} {s : State} {L : LiveTransfer} (hop : s.cur.op = .formatTrack)
    (hL : s.live = some L) (hd : L.drive = d) :
    commandDone d (liveAbort s) = ended d (finalSt0 s.par (s.slot d).st0 s.st1) s.st1 s.st2 (liveAbort s) := by
  obtain ⟨hst1, hst2, -, hcur, -⟩ := liveAbort_keeps s
  have hslot := liveAbort_slot hL hd
  have hformat : (liveAbort s).cur.op.isHostRead = false := by rw [hcur, hop]; rfl
  rw [commandDone_of_op hformat, finishResult_eq (liveAbort_live s) (congrArg DriveSlot.live hslot), hslot, hst1, hst2,
    (liveAbort_frame s).par]

/-- Settles O31: the pulses that start a track, those that end it, and those that are ignored. -/
theorem indexPulsesDriveTrackCommands : Obligations.IndexPulsesDriveTrackCommands := by
  intro d s
  refine ⟨fun hattached hlive hsub => ⟨fun hmain => ?_, fun hmain => ?_⟩, fun hattached hmain hsub L hL hd => ?_,
    fun hattached hmain hsub hop L hL hd => ⟨fun hpost => ?_, fun hother => ?_⟩, fun hmain => ?_, fun hmain hsub => ?_,
    fun hmain hsub => ?_, fun hempty => if_neg (by simp [hempty])⟩
  · rw [onIndex_wait_read hattached hmain hsub]
    exact liveStart_eq d .scanId .searchAddressMarkHeader hlive
  · rw [onIndex_wait_format hattached hmain hsub]
    exact liveStart_eq d .trackWrite .writeTrackPreSectors hlive
  · rw [onIndex_reading hattached hmain hsub, recordNotFound_eq hL hd]
  · rw [onIndex_formatting hattached hmain hsub, onIndexTrackWrite, hL]
    exact congrArg Host.Outcome.next ((if_pos hpost).trans (commandDone_of_format hop hL hd))
  · rw [onIndex_formatting hattached hmain hsub, onIndexTrackWrite, hL]
    exact congrArg Host.Outcome.next (if_neg hother)
  · exact onIndex_ignored (.inl (by simpa using hmain))
  · refine onIndex_ignored (.inr ?_)
    simp only [List.mem_cons, List.not_mem_nil, or_false] at hsub ⊢
    tauto
  · exact onIndex_ignored (.inr (.inl ⟨by simp [hmain], hsub⟩))

/-! ## Terminal count (R335) -/

/-- The flags of the first TC of a command, and the host's part of a write stopped. -/
def tcFlagged (s : State) : State :=
  { s with
    tcDone := true
    fifoExpected := if s.fifoWrite then 0 else s.fifoExpected
    internalDrq := if s.fifoWrite then false else s.internalDrq }

theorem tcFlagged_eq (s : State) :
    (if s.fifoWrite then { s with tcDone := true, fifoExpected := 0, internalDrq := false } else { s with tcDone := true }) =
      tcFlagged s := by
  unfold tcFlagged
  cases s.fifoWrite <;> rfl

theorem cutBeforeField_of_cut {s : State} {L : LiveTransfer} (hL : s.live = some L)
    (hbefore : L.state = .searchAddressMarkData ∨ L.state = .readDataBlockHeader) :
    cutBeforeField s = { s with tcCut := true } := by
  rw [cutBeforeField, hL]
  rcases hbefore with h | h <;> simp [h, LiveState.beforeField]

theorem cutBeforeField_of_not {s : State}
    (hnot : ∀ L, s.live = some L → L.state ≠ .searchAddressMarkData ∧ L.state ≠ .readDataBlockHeader) :
    cutBeforeField s = s := by
  unfold cutBeforeField
  split
  · next L hL =>
    obtain ⟨hdata, hheader⟩ := hnot L hL
    refine if_neg ?_
    cases hstate : L.state <;> simp_all [LiveState.beforeField]
  · rfl

section tc

variable {s : State}

theorem onTC_ignored (h : s.phase ≠ .execution ∨ s.tcDone = true) : onTC s = s := if_pos h

variable (hphase : s.phase = .execution) (htc : s.tcDone = false)

include hphase htc

/-- What a sub-state makes of TC. -/
theorem onTC_eq {t : State} (ht : cutBeforeField (tcFlagged s) = t) (hcur : t.cur = s.cur) (hdrives : t.drives = s.drives) :
    onTC s =
      if (s.slot s.cur.d).subState = .scanId ∨ (s.slot s.cur.d).subState = .waitIndex then
        commandDone s.cur.d (liveAbort t)
      else if (s.slot s.cur.d).subState = .drain then
        finishResult s.cur.d { t with fifo := [], internalDrq := false }
      else t := by
  subst ht
  rw [onTC, if_neg (by simp [hphase, htc])]
  dsimp only
  rw [tcFlagged_eq, State.slot_def, hcur, hdrives, State.slot_def]
  cases (s.drives.get s.cur.d).subState <;> rfl

/-- In a field, or during an implied seek, only the flags are set. -/
theorem onTC_in_field {t : State} (ht : cutBeforeField (tcFlagged s) = t) (hcur : t.cur = s.cur)
    (hdrives : t.drives = s.drives)
    (hsub : (s.slot s.cur.d).subState ∈
      ([.sectorRead, .sectorWrite, .trackWrite, .waitStepPulse, .waitStepSettle] : List SubState)) :
    onTC s = t := by
  rw [onTC_eq hphase htc ht hcur hdrives, if_neg, if_neg]
  · intro h
    rw [h] at hsub
    exact absurd hsub (by decide)
  · rintro (h | h) <;> (rw [h] at hsub; exact absurd hsub (by decide))

end tc

/-- A command that searches or waits ends at once. -/
theorem finishResult_aborted {d : Drive} {s : State} (hdrive : ∀ L, s.live = some L → L.drive = d)
    (hslot : s.live = none → (s.slot d).live = false) :
    finishResult d (liveAbort s) = ended d (finalSt0 s.par (s.slot d).st0 s.st1) s.st1 s.st2 (liveAbort s) := by
  obtain ⟨hst1, hst2, -⟩ := liveAbort_keeps s
  have haborted : ((liveAbort s).slot d).live = false ∧ ((liveAbort s).slot d).st0 = (s.slot d).st0 := by
    cases hL : s.live with
    | none =>
      rw [liveAbort_of_none hL]
      exact ⟨hslot hL, rfl⟩
    | some L =>
      rw [liveAbort_slot hL (hdrive L hL)]
      exact ⟨rfl, rfl⟩
  rw [finishResult_eq (liveAbort_live s) haborted.1, haborted.2, hst1, hst2, (liveAbort_frame s).par]

theorem tcInput_rise {s : State} (h : s.tcLevel = false) : tcInput true s = onTC { s with tcLevel := true } := by
  simp [tcInput, h]

theorem tcInput_high {s : State} (h : s.tcLevel = true) : tcInput true s = s := by
  simp [tcInput, ← h]

theorem tcInput_low (s : State) : tcInput false s = { s with tcLevel := false } := by
  simp [tcInput]

/-- Settles O35: the flags, the cut of a field not begun, and the end of a command that waits. -/
theorem terminalCount : Obligations.TerminalCount := by
  intro s flags waiting st0
  refine ⟨onTC_ignored, fun hphase htc => ?edge, tcInput_rise, tcInput_high, tcInput_low s⟩
  refine ⟨fun hlive hslot hwait => ?waits, fun hwait hlive hslot => ?drains, fun hwait L hL => ?field,
    fun hwait hlive => ?seeks⟩
  case waits =>
    rw [onTC_eq hphase htc (t := flags) (cutBeforeField_of_not fun L hL => (hlive L hL).2) rfl rfl, if_pos hwait,
      commandDone_of_tc (liveAbort_keeps flags).2.2.2.2]
    exact finishResult_aborted (s := flags) (fun L hL => (hlive L hL).1) hslot
  case drains =>
    rw [onTC_eq hphase htc (t := flags) (cutBeforeField_of_not fun L hL => nomatch hlive.symm.trans hL) rfl rfl,
      if_neg (by rw [show (s.slot s.cur.d).subState = .drain from hwait]; decide), if_pos hwait,
      finishResult_eq (by exact hlive) (by exact hslot)]
    rfl
  case field =>
    have hsub : (s.slot s.cur.d).subState ∈
        ([.sectorRead, .sectorWrite, .trackWrite, .waitStepPulse, .waitStepSettle] : List SubState) := by
      rcases hwait with h | h | h <;> (rw [show (s.slot s.cur.d).subState = _ from h]; decide)
    refine ⟨fun hbefore => onTC_in_field hphase htc (cutBeforeField_of_cut hL hbefore) rfl rfl hsub, fun hdata hheader =>
      onTC_in_field hphase htc (t := flags) (cutBeforeField_of_not fun M hM => ?_) rfl rfl hsub⟩
    cases hL.symm.trans hM
    exact ⟨hdata, hheader⟩
  case seeks =>
    refine onTC_in_field hphase htc (t := flags) (cutBeforeField_of_not fun L hL => nomatch hlive.symm.trans hL) rfl rfl ?_
    rcases hwait with h | h <;> (rw [show (s.slot s.cur.d).subState = _ from h]; decide)

end Sys2Proof.Proofs
end

section
/-! PROOFS. What every step leaves alone: the parameters, the lines until they are recomputed (spec/60_exceptions.md R420),
and the configuration but for the host's writes and the hardware reset (R406, spec/10_state.md R43). -/

namespace Sys2Proof.Proofs

open Sys2Proof.Machine Sys2Proof.Claims

/-! ## What the handler of every event keeps -/

/-- The parameters and the reported levels are those of `s`, no edge is reported yet, and flux lists keep their form. -/
structure Calm (s t : State) : Prop where
  par : t.par = s.par
  irqOut : t.irqOut = s.irqOut
  drqOut : t.drqOut = s.drqOut
  edges : t.outs.filter Output.isEdge = s.outs.filter Output.isEdge
  media : MediaInv s → MediaInv t

theorem Calm.of_frame {s t : State} (h : Frame s t) : Calm s t := ⟨h.par, h.irqOut, h.drqOut, h.edges, h.media⟩

theorem Calm.refl (s : State) : Calm s s := .of_frame (.refl s)

theorem Calm.trans {s t u : State} (h : Calm s t) (k : Calm t u) : Calm s u :=
  ⟨k.par.trans h.par, k.irqOut.trans h.irqOut, k.drqOut.trans h.drqOut, k.edges.trans h.edges, k.media ∘ h.media⟩

theorem ConfigKept.refl (s : State) : ConfigKept s s := ⟨rfl, rfl, rfl, rfl, rfl, rfl, rfl, rfl, rfl⟩

theorem ConfigKept.of_frame {s t : State} (h : Frame s t) : ConfigKept s t :=
  ⟨h.dor, h.rateSel, h.srt, h.hut, h.hlt, h.nd, h.fifocfg, h.precomp, h.locked⟩

/-! ## The resets and the register writes -/

theorem motorCall_no_edge (old new : Byte) (d : Drive) : (motorCall old new d).filter Output.isEdge = [] := by
  unfold motorCall
  split <;> rfl

theorem motorCalls_no_edge (old new : Byte) : (motorCalls old new).filter Output.isEdge = [] := by
  simp [motorCalls, motorCall_no_edge]

theorem armPoll_calm (s : State) : Calm s (armPoll s) := ⟨rfl, rfl, rfl, rfl, id⟩

theorem softReset_calm (s : State) : Calm s (softReset s) :=
  (Calm.of_frame (liveAbort_frame s)).trans ⟨rfl, rfl, rfl, rfl, id⟩

theorem softReset_locked (s : State) : (softReset s).locked = s.locked := (liveAbort_frame s).locked

theorem hardwareReset_calm (s : State) : Calm s (hardwareReset s) :=
  (Calm.of_frame (liveAbort_frame s)).trans
    ⟨rfl, rfl, rfl, by simp [hardwareReset, armPoll, motorCalls_no_edge], id⟩

theorem hostWriteDor_calm (v : Byte) (s : State) : Calm s (hostWriteDor v s) ∧ (hostWriteDor v s).locked = s.locked := by
  have hstored : Calm s { s with dor := v, outs := s.outs ++ motorCalls s.dor v } :=
    ⟨rfl, rfl, rfl, by simp [motorCalls_no_edge], id⟩
  cases hold : s.dor.getLsbD 2 <;> cases hnew : v.getLsbD 2
  · rw [hostWriteDor_of_same (hold.trans hnew.symm)]
    exact ⟨hstored, rfl⟩
  · rw [hostWriteDor_of_rise hold hnew]
    exact ⟨hstored.trans (armPoll_calm _), rfl⟩
  · rw [hostWriteDor_of_fall hold hnew]
    exact ⟨hstored.trans (softReset_calm _), softReset_locked _⟩
  · rw [hostWriteDor_of_same (hold.trans hnew.symm)]
    exact ⟨hstored, rfl⟩

theorem hostWriteDsr_calm (v : Byte) (s : State) : Calm s (hostWriteDsr v s) ∧ (hostWriteDsr v s).locked = s.locked := by
  have hrate : Calm s (setRate v s) := ⟨rfl, rfl, rfl, rfl, id⟩
  have hsoft := hrate.trans (softReset_calm (setRate v s))
  cases h7 : v.getLsbD 7
  · rw [hostWriteDsr_of_select h7]
    exact ⟨hrate, rfl⟩
  · rw [hostWriteDsr_of_reset h7]
    split
    · exact ⟨hsoft.trans (armPoll_calm _), softReset_locked (setRate v s)⟩
    · exact ⟨hsoft, softReset_locked (setRate v s)⟩

/-! ## The commands -/

theorem loadCommand_frame (i : Instr) (s : State) : Frame s (loadCommand i s) := .of_eq rfl rfl rfl

theorem senseInterrupt_frame (s : State) : Frame s (senseInterrupt s) := by
  unfold senseInterrupt
  split
  · exact enterResult_frame _ s
  · unfold clearReason
    dsimp only
    split <;> exact .of_eq rfl rfl rfl

/-- A command for a drive, before its output lines are recomputed. -/
theorem acceptForDrive_body (i : Instr) (d : Drive) {run : State → Result} (hrun : ∀ s, Framed s (run s)) (s : State) :
    ∃ r, acceptForDrive i d run s = finishOutputs r ∧ Framed s r :=
  ⟨_, rfl, .ite ((loadCommand_frame i s).then (hrun _))
    (.next ((loadCommand_frame i s).trans (invalidCommand_frame _)))⟩

/-- The answer of a command is that of a handler, its lines recomputed; only LOCK changes the lock. -/
theorem exec_calm {i : Instr} {s t : State} (h : exec i s = .next t) :
    ∃ u, t = updateOutputs u ∧ Calm s u ∧ ((∀ lk, i ≠ .lock lk) → u.locked = s.locked) := by
  have framed : ∀ {r}, exec i s = finishOutputs r ∧ Framed s r →
      ∃ u, t = updateOutputs u ∧ Calm s u ∧ ((∀ lk, i ≠ .lock lk) → u.locked = s.locked) := by
    rintro r ⟨hr, hframe⟩
    rw [hr] at h
    cases r with
    | next u =>
      cases h
      exact ⟨u, rfl, .of_frame (hframe u rfl), fun _ => (hframe u rfl).locked⟩
    | fault r => cases h
    | refused r => cases h
  cases i with
  | specify | configure =>
    cases h
    exact ⟨_, rfl, ⟨rfl, rfl, rfl, rfl, id⟩, fun _ => rfl⟩
  | lock lk =>
    cases h
    exact ⟨_, rfl, ⟨rfl, rfl, rfl, rfl, id⟩, fun h => absurd rfl (h lk)⟩
  | senseInterruptStatus => exact framed ⟨rfl, .next ((loadCommand_frame _ s).trans (senseInterrupt_frame _))⟩
  | senseDriveStatus => exact framed ⟨rfl, .next ((loadCommand_frame _ s).trans (enterResult_frame _ _))⟩
  | seek | recalibrate => exact (acceptForDrive_body _ _ (startSeek_frame _ _) s).elim fun _ h => framed h
  | _ => exact (acceptForDrive_body _ _ startRW_frame s).elim fun _ h => framed h

/-! ## The host's writes -/

/-- `t` is what a handler leaves of `s`, its lines perhaps recomputed already. -/
def Handled (s t : State) (Q : State → Prop) : Prop := ∃ u, updateOutputs t = updateOutputs u ∧ Calm s u ∧ Q u

theorem Handled.of_calm {s t : State} {Q : State → Prop} (h : Calm s t) (hQ : Q t) : Handled s t Q := ⟨t, rfl, h, hQ⟩

/-- The byte that completes LOCK is the one byte that changes the lock. -/
def LockedBy (s : State) (v : Byte) (u : State) : Prop :=
  u.locked ≠ s.locked → ∃ lk, decode (s.cmd ++ [v]) = .known (.lock lk) []

theorem appendCommandByte_handled {bs : List Byte} {s t : State} (h : appendCommandByte bs s = .next t) :
    Handled s t fun u => u.locked ≠ s.locked → ∃ lk, decode bs = .known (.lock lk) [] := by
  unfold appendCommandByte at h
  split at h
  · next i hi =>
    obtain ⟨u, rfl, hcalm, hlock⟩ := exec_calm h
    refine ⟨u, updateOutputs_idem u, hcalm, fun hne => ?_⟩
    by_contra hnot
    exact hne (hlock fun lk hlk => hnot ⟨lk, hlk ▸ hi⟩)
  · cases h
    exact .of_calm ⟨rfl, rfl, rfl, rfl, id⟩ fun hne => absurd rfl hne

theorem commandByte_handled {v : Byte} {s t : State} (h : commandByte v s = .next t) : Handled s t (LockedBy s v) := by
  by_cases hcmd : s.cmd = []
  · rw [commandByte, if_pos hcmd] at h
    dsimp only at h
    split at h
    · cases h
      exact .of_calm ⟨rfl, rfl, rfl, rfl, id⟩ fun hne => absurd rfl hne
    · cases h
    · obtain ⟨u, hu, hcalm, hlock⟩ := appendCommandByte_handled h
      exact ⟨u, hu, ⟨hcalm.par, hcalm.irqOut, hcalm.drqOut, hcalm.edges, hcalm.media⟩, fun hne => by
        rw [hcmd]
        exact hlock hne⟩
  · rw [commandByte_of_later v hcmd] at h
    exact appendCommandByte_handled h

theorem hostWriteData_handled {v : Byte} {s t : State} (h : hostWriteData v s = .next t) :
    Handled s t (LockedBy s v) := by
  unfold hostWriteData at h
  split at h
  · split at h
    · exact commandByte_handled h
    · cases h
      split
      · exact .of_calm (.of_frame (hostPush_frame v s)) fun hne => absurd (hostPush_frame v s).locked hne
      · exact .of_calm (.refl s) fun hne => absurd rfl hne
    · cases h
      exact .of_calm (.refl s) fun hne => absurd rfl hne
  · cases h
    exact .of_calm (.refl s) fun hne => absurd rfl hne

theorem hostWrite_handled {reg : HostReg} {v : Byte} {s t : State} (h : hostWrite reg v s = .next t) :
    Handled s t fun u => u.locked ≠ s.locked → reg = .data ∧ ∃ lk, decode (s.cmd ++ [v]) = .known (.lock lk) [] := by
  cases reg with
  | data =>
    obtain ⟨u, hu, hcalm, hlock⟩ := hostWriteData_handled h
    exact ⟨u, hu, hcalm, fun hne => ⟨rfl, hlock hne⟩⟩
  | msr =>
    cases h
    exact .of_calm (.refl s) fun hne => absurd rfl hne
  | dsr =>
    cases h
    exact .of_calm (hostWriteDsr_calm v s).1 fun hne => absurd (hostWriteDsr_calm v s).2 hne
  | dor =>
    cases h
    exact .of_calm (hostWriteDor_calm v s).1 fun hne => absurd (hostWriteDor_calm v s).2 hne
  | ccr =>
    cases h
    exact .of_calm ⟨rfl, rfl, rfl, rfl, id⟩ fun hne => absurd rfl hne
  | extended => cases h

/-! ## Every piece of work -/

/-- What a piece of work may do to the configuration (R406, R43). -/
structure ConfigRule (w : Work) (s u : State) : Prop where
  kept : (∀ reg v rest, w ≠ .input (.hostWrite reg v) rest) → (∀ rest, w ≠ .input .hardwareReset rest) → ConfigKept s u
  lock : u.locked ≠ s.locked →
    (∃ v rest lk, w = .input (.hostWrite .data v) rest ∧ decode (s.cmd ++ [v]) = .known (.lock lk) []) ∨
      ∃ rest, w = .input .hardwareReset rest

theorem ConfigRule.of_kept {w : Work} {s u : State} (h : ConfigKept s u) : ConfigRule w s u :=
  ⟨fun _ _ => h, fun hne => absurd h.locked hne⟩

theorem Handled.of_framed {w : Work} {s t : State} {r : Result} (hr : Framed s r) (h : r = .next t) :
    Handled s t (ConfigRule w s) :=
  .of_calm (.of_frame (hr t h)) (.of_kept (ConfigKept.of_frame (hr t h)))

/-- A level of TC is stored, and a rise is `OnTC`. -/
theorem tcInput_calm (level : Bool) (s : State) : Calm s (tcInput level s) ∧ ConfigKept s (tcInput level s) := by
  have hframe := onTC_frame { s with tcLevel := true }
  unfold tcInput
  split
  · exact ⟨⟨hframe.par, hframe.irqOut, hframe.drqOut, hframe.edges, hframe.media⟩, hframe.dor, hframe.rateSel, hframe.srt,
      hframe.hut, hframe.hlt, hframe.nd, hframe.fifocfg, hframe.precomp, hframe.locked⟩
  · exact ⟨⟨rfl, rfl, rfl, rfl, id⟩, rfl, rfl, rfl, rfl, rfl, rfl, rfl, rfl, rfl⟩

theorem applyInput_handled {i : Input} {rest : List Event} {s t : State} (h : applyInput i s = .next t) :
    Handled s t (ConfigRule (.input i rest) s) := by
  cases i with
  | hostWrite reg v =>
    obtain ⟨u, hu, hcalm, hlock⟩ := hostWrite_handled h
    refine ⟨u, hu, hcalm, fun hnot _ => absurd rfl (hnot reg v rest), fun hne => ?_⟩
    obtain ⟨rfl, lk, hlk⟩ := hlock hne
    exact .inl ⟨v, rest, lk, rfl, hlk⟩
  | hardwareReset =>
    cases h
    exact .of_calm (hardwareReset_calm s) ⟨fun _ hnot => absurd rfl (hnot rest), fun _ => .inr ⟨rest, rfl⟩⟩
  | hostRead reg => exact .of_framed (hostRead_frame reg s) h
  | dmaRead => exact .of_framed (answer_frame (dmaRead_frame s)) h
  | dmaWrite v => exact .of_framed (.next (dmaWrite_frame v s)) h
  | tc level =>
    cases h
    exact .of_calm (tcInput_calm level s).1 (.of_kept (tcInput_calm level s).2)
  | index d => exact .of_framed (onIndex_frame d s) h
  | lines d a r z w x =>
    refine .of_framed (.next (.updUnit s d _ fun u hu => ?_)) h
    exact hu
  | flux d head ts =>
    exact .of_framed (.next (.updUnit s d _ fun u hu => setFlux_wf hu head (fluxOfList_wf ts))) h

theorem doWork_handled {w : Work} {s t : State} (h : doWork w s = .next t) : Handled s t (ConfigRule w s) := by
  cases w with
  | engine => exact .of_framed (engineStep_frame s.now s) h
  | driveTimer d => exact .of_framed (driveTimerExpiry_frame d s) h
  | poll => exact .of_framed (.next (pollExpiry_frame s)) h
  | nothing => exact .of_framed (.next (.refl s)) h
  | input i rest =>
    obtain ⟨u, hu, hcalm, hrule⟩ := applyInput_handled (s := { s with inputs := rest }) h
    exact ⟨u, hu, ⟨hcalm.par, hcalm.irqOut, hcalm.drqOut, hcalm.edges, hcalm.media⟩, fun h1 h2 =>
      ⟨(hrule.kept h1 h2).dor, (hrule.kept h1 h2).rateSel, (hrule.kept h1 h2).srt, (hrule.kept h1 h2).hut,
        (hrule.kept h1 h2).hlt, (hrule.kept h1 h2).nd, (hrule.kept h1 h2).fifocfg, (hrule.kept h1 h2).precomp,
        (hrule.kept h1 h2).locked⟩, hrule.lock⟩

/-- A step is one piece of work and the lines recomputed. -/
theorem step_handled {s t : State} (h : step s = .next t) :
    ∃ u, t = updateOutputs u ∧ Calm (arrive s) u ∧ ConfigRule (arrive s).work (arrive s) u := by
  unfold step at h
  cases hwork : doWork (arrive s).work (arrive s) with
  | next v =>
    rw [hwork] at h
    cases h
    exact doWork_handled hwork
  | fault r => cases r
  | refused r =>
    rw [hwork] at h
    cases h

/-- Settles O59: the parameters, the configuration and the lock of the work done. -/
theorem configurationChangesOnlyByTheHost : Obligations.ConfigurationChangesOnlyByTheHost := by
  intro s t h
  obtain ⟨u, rfl, hcalm, hrule⟩ := step_handled h
  refine ⟨hcalm.par, fun h1 h2 => ?_, hrule.lock⟩
  obtain ⟨hdor, hrate, hsrt, hhut, hhlt, hnd, hfifocfg, hprecomp, hlocked⟩ := hrule.kept h1 h2
  exact ⟨hdor, hrate, hsrt, hhut, hhlt, hnd, hfifocfg, hprecomp, hlocked⟩

/-! ## The output lines (R420) -/

theorem irqEdges_of_none {outs : List Output} (h : outs.filter Output.isEdge = []) : irqEdges outs = [] := by
  rw [List.filter_eq_nil_iff] at h
  refine List.filter_eq_nil_iff.mpr fun o ho => ?_
  have := h o ho
  cases o <;> simp_all [Output.isEdge]

theorem drqEdges_of_none {outs : List Output} (h : outs.filter Output.isEdge = []) : drqEdges outs = [] := by
  rw [List.filter_eq_nil_iff] at h
  refine List.filter_eq_nil_iff.mpr fun o ho => ?_
  have := h o ho
  cases o <;> simp_all [Output.isEdge]

/-- Of the reports that end a step, each line's own are its edge. -/
theorem edges_updateOutputs {u : State} (h : u.outs.filter Output.isEdge = []) :
    irqEdges (updateOutputs u).outs = edgeReport u.irqOut u.irqLevel (.irqEdge u.irqLevel) ∧
      drqEdges (updateOutputs u).outs = edgeReport u.drqOut u.drqLevel (.drqEdge u.drqLevel) := by
  have hirq := irqEdges_of_none h
  have hdrq := drqEdges_of_none h
  unfold irqEdges at hirq ⊢
  unfold drqEdges at hdrq ⊢
  simp only [updateOutputs, List.filter_append, hirq, hdrq]
  generalize u.irqOut = oldIrq, u.irqLevel = irq, u.drqOut = oldDrq, u.drqLevel = drq
  revert oldIrq irq oldDrq drq
  decide

theorem gate_eq (u : State) : u.gate = if u.par.outputGate = .dorGated then u.dor.getLsbD 3 else true := by
  unfold State.gate
  cases u.par.outputGate <;> rfl

theorem irqLevel_eq (u : State) :
    u.irqLevel = ((u.dataIrq ||
        decide ((u.slot .d0).irq ≠ .none ∨ (u.slot .d1).irq ≠ .none ∨ (u.slot .d2).irq ≠ .none ∨
          (u.slot .d3).irq ≠ .none) ||
        (u.nd && u.phase == .execution && u.internalDrq)) &&
      (if u.par.outputGate = .dorGated then u.dor.getLsbD 3 else true)) := by
  have hreasons : decide ((u.slot .d0).irq ≠ .none ∨ (u.slot .d1).irq ≠ .none ∨ (u.slot .d2).irq ≠ .none ∨
      (u.slot .d3).irq ≠ .none) =
      (u.drives.s0.irq != .none || u.drives.s1.irq != .none || u.drives.s2.irq != .none || u.drives.s3.irq != .none) := by
    rw [Bool.eq_iff_iff, decide_eq_true_iff]
    simp [Slots.get, or_assoc]
  rw [hreasons, ← gate_eq]
  rfl

theorem edgeReport_flip (old new : Bool) (o : Output) :
    edgeReport old new o = if new = old then [] else [o] :=
  if_congr eq_comm rfl rfl

/-- Settles O42: the levels are recomputed at the end of the step, after work that reports no edge. -/
theorem outputLinesFollowTheirSources : Obligations.OutputLinesFollowTheirSources := by
  refine ⟨fun u => ⟨rfl, ?_⟩, fun s t h => ?_⟩
  · simp only [← edgeReport_flip]
    rfl
  · obtain ⟨u, rfl, hcalm, -⟩ := step_handled h
    obtain ⟨hirq, hdrq⟩ := edges_updateOutputs hcalm.edges
    refine ⟨irqLevel_eq u, ?_, ?_, ?_⟩
    · exact congrArg (u.drqSource && ·) (gate_eq u)
    · rw [hirq, hcalm.irqOut, edgeReport_flip]
      rfl
    · rw [hdrq, hcalm.drqOut, edgeReport_flip]
      rfl

end Sys2Proof.Proofs
end

section
/-! PROOFS. The PLL's bounds (spec/40_pll.md R132, R133, R140). -/

namespace Sys2Proof.Proofs

open Sys2Proof.Machine Sys2Proof.Claims

/-! ## The constants of SetClock (R132) -/

/-- The clamp lies between 74 % and 125 % of nominal: a nominal period of 100 ticks leaves the truncation room. -/
theorem pllInv_period_bounds {p : Pll} (h : PllInv p) :
    75 * p.nominal < 100 * p.period + 100 ∧ 100 * p.period ≤ 125 * p.nominal := by
  obtain ⟨hnom, -, hmin, hmax, hge, hle, -, -⟩ := h
  have hlow := tdiv_bounds_nonneg (a := p.nominal * 75) (b := 100) (by omega) (by decide)
  have hhigh := tdiv_bounds_nonneg (a := p.nominal * 125) (b := 100) (by omega) (by decide)
  rw [show pllMinNum = 75 from rfl] at hmin
  rw [show pllMaxNum = 125 from rfl] at hmax
  rw [← hmin] at hlow
  rw [← hmax] at hhigh
  omega

/-- `SetClock` after `Reset` establishes the bounds. -/
theorem clockedPll_inv {nom t : Int} (hnom : 100 ≤ nom) : PllInv (clockedPll t nom) := by
  have hlow := tdiv_bounds_nonneg (a := nom * 75) (b := 100) (by omega) (by decide)
  have hhigh := tdiv_bounds_nonneg (a := nom * 125) (b := 100) (by omega) (by decide)
  unfold tdiv at hlow hhigh
  exact ⟨hnom, rfl, rfl, rfl, show (nom * 75).tdiv 100 ≤ nom by omega, show nom ≤ (nom * 125).tdiv 100 by omega,
    show -(68 * nom) ≤ 100 * 0 by omega, show 100 * (0 : Int) ≤ 41 * nom by omega⟩

/-! ## NextBit (R135) -/

/-- The next window ends later (R140). -/
theorem pllInv_ctime_lt {p : Pll} (h : PllInv p) : p.ctime < pllWindowEnd p := by
  obtain ⟨hlow, -⟩ := pllInv_period_bounds h
  have hnom := h.nominal_ge
  have hphase := h.phase_ge
  unfold pllWindowEnd
  omega

theorem clamp_bounds {x lo hi : Int} (h : lo ≤ hi) : lo ≤ clamp x lo hi ∧ clamp x lo hi ≤ hi := by
  unfold clamp
  split
  · omega
  · split <;> omega

/-- The corrected period is the old one or inside the clamp (R138). -/
theorem pllInv_period_clamped {p : Pll} (h : PllInv p) (hist delta : Int) :
    p.minPeriod ≤ pllPeriod p hist delta ∧ pllPeriod p hist delta ≤ p.maxPeriod := by
  unfold pllPeriod
  split
  · exact clamp_bounds (h.period_ge.trans h.period_le)
  · exact ⟨h.period_ge, h.period_le⟩

/-- The phase adjustment after an edge inside the window: its offset from the centre is at most half a period late, and at
most half a period and the last adjustment early (R137, R140). -/
theorem pllInv_phaseAdjust_bounds {p : Pll} (h : PllInv p) {edge : Int} (hafter : p.ctime < edge)
    (hbefore : edge < pllWindowEnd p) :
    -(68 * p.nominal) ≤ 100 * tdiv (pllDelta p edge * 65) 100 ∧
      100 * tdiv (pllDelta p edge * 65) 100 ≤ 41 * p.nominal := by
  obtain ⟨hlow, hhigh⟩ := pllInv_period_bounds h
  have hnom := h.nominal_ge
  have hphase := h.phase_le
  have hhalf := tdiv_bounds_nonneg (a := p.period) (b := 2) (by omega) (by decide)
  have hdelta : pllDelta p edge = edge - (pllWindowEnd p - tdiv p.period 2) := rfl
  have hend : pllWindowEnd p = p.ctime + p.period + p.phaseAdjust := rfl
  by_cases hsign : 0 ≤ pllDelta p edge * 65
  · have hquot := tdiv_bounds_nonneg hsign (b := 100) (by decide)
    omega
  · have hquot := tdiv_bounds_nonpos (a := pllDelta p edge * 65) (by omega) (b := 100) (by decide)
    omega

theorem pllInv_free_run {p : Pll} (h : PllInv p) : PllInv { p with ctime := pllWindowEnd p, phaseAdjust := 0 } := by
  have hnom := h.nominal_ge
  exact ⟨hnom, h.base_eq, h.min_eq, h.max_eq, h.period_ge, h.period_le, show -(68 * p.nominal) ≤ 100 * 0 by omega,
    show 100 * (0 : Int) ≤ 41 * p.nominal by omega⟩

theorem pllInv_pllCorrect {p : Pll} (h : PllInv p) {edge : Int} (hafter : p.ctime < edge) (hbefore : edge < pllWindowEnd p) :
    PllInv (pllCorrect p edge) := by
  obtain ⟨hge, hle⟩ := pllInv_period_clamped h (pllFreqHist p.freqHist (pllDelta p edge)) (pllDelta p edge)
  obtain ⟨hphaseGe, hphaseLe⟩ := pllInv_phaseAdjust_bounds h hafter hbefore
  exact ⟨h.nominal_ge, h.base_eq, h.min_eq, h.max_eq, hge, hle, hphaseGe, hphaseLe⟩

/-- NextBit from a PLL within its bounds, on an edge later than its time. -/
theorem pllInv_nextBit {p q : Pll} {e : Option Int} {limit : Int} {b : Bool} (h : PllInv p)
    (hafter : ∀ x, e = some x → p.ctime < x) (hbit : nextBit p e limit = some (b, q)) :
    q.ctime = pllWindowEnd p ∧ PllInv q := by
  have hlimit : pllWindowEnd p ≤ limit := by
    by_contra hlate
    rw [nextBit_eq_none_iff.mpr (not_le.mp hlate)] at hbit
    cases hbit
  by_cases hfree : ∀ x, e = some x → pllWindowEnd p ≤ x
  · rw [nextBit_free_run hlimit hfree] at hbit
    cases hbit
    exact ⟨rfl, pllInv_free_run h⟩
  · simp only [not_forall, not_le] at hfree
    obtain ⟨x, rfl, hx⟩ := hfree
    rw [nextBit_edge hlimit hx] at hbit
    cases hbit
    exact ⟨rfl, pllInv_pllCorrect h (hafter x rfl) hx⟩

/-- Settles O49: `SetClock` after `Reset` by its record, and NextBit by its two outcomes. -/
theorem pllStaysBounded : Obligations.PllStaysBounded := by
  refine ⟨fun _ _ _ => rfl, fun _ _ => clockedPll_inv, fun p f limit h hlimit => ?_⟩
  cases hbit : nextBit p (fluxAfter f p.ctime) limit with
  | none => exact absurd (nextBit_eq_none_iff.mp hbit) hlimit.not_gt
  | some r =>
    obtain ⟨hctime, hinv⟩ := pllInv_nextBit h (fun x => fluxAfter_gt) hbit
    exact ⟨r.1, r.2, rfl, hctime ▸ pllInv_ctime_lt h, hinv⟩

end Sys2Proof.Proofs
end

section
/-! PROOFS. The medium's flux lists (spec/20_memory.md R86, R87), the CRC (spec/41_bitstream.md R166, R168) and the codec
(R160 to R163). -/

namespace Sys2Proof.Proofs

open Sys2Proof.Machine Sys2Proof.Claims

/-! ## The flux query and the flux write (R86, R87) -/

theorem fluxAfter_cons (x : Int) (f : List Int) (a : Int) :
    fluxAfter (x :: f) a = if a < x then some x else fluxAfter f a := by
  simp only [fluxAfter, List.find?_cons]
  by_cases h : a < x <;> simp [h]

/-- On a rising list the first later transition is the earliest one. -/
theorem fluxAfter_eq_some_iff {f : List Int} (hf : FluxWf f) (a t : Int) :
    fluxAfter f a = some t ↔ t ∈ f ∧ a < t ∧ ∀ x ∈ f, a < x → t ≤ x := by
  induction f with
  | nil => simp [fluxAfter]
  | cons y f ih =>
    obtain ⟨hy, hf⟩ := List.pairwise_cons.mp hf
    rw [fluxAfter_cons]
    by_cases hlate : a < y
    · rw [if_pos hlate, Option.some_inj]
      constructor
      · rintro rfl
        refine ⟨List.mem_cons_self, hlate, fun x hx _ => ?_⟩
        rcases List.mem_cons.mp hx with rfl | hx
        · exact le_rfl
        · exact (hy x hx).le
      · rintro ⟨ht, -, hleast⟩
        refine le_antisymm ?_ (hleast y List.mem_cons_self hlate)
        rcases List.mem_cons.mp ht with rfl | ht
        · exact le_rfl
        · exact (hy t ht).le
    · rw [if_neg hlate, ih hf]
      constructor
      · rintro ⟨ht, hat, hleast⟩
        refine ⟨List.mem_cons_of_mem y ht, hat, fun x hx hax => ?_⟩
        rcases List.mem_cons.mp hx with rfl | hx
        · exact absurd hax hlate
        · exact hleast x hx hax
      · rintro ⟨ht, hat, hleast⟩
        refine ⟨?_, hat, fun x hx => hleast x (List.mem_cons_of_mem y hx)⟩
        rcases List.mem_cons.mp ht with rfl | ht
        · exact absurd hat hlate
        · exact ht

theorem fluxAfter_eq_none_iff (f : List Int) (a : Int) : fluxAfter f a = none ↔ ∀ x ∈ f, x ≤ a := by
  simp [fluxAfter]

theorem mem_fluxReplace {f : List Int} {start stop x : Int} {ts : List Int} :
    x ∈ fluxReplace f start stop ts ↔
      (x ∈ f ∧ ¬(start ≤ x ∧ x < stop)) ∨ (x ∈ ts ∧ start ≤ x ∧ x < stop) := by
  have houtside : x < start ∨ start ≤ x ∧ stop ≤ x ↔ ¬(start ≤ x ∧ x < stop) := by omega
  rw [← houtside]
  simp only [fluxReplace, List.mem_append, List.mem_filter, fluxOfList_mem, decide_eq_true_eq, Bool.and_eq_true]
  tauto

/-- The Drive interface, from the definitions of its calls (R351). -/
theorem driveInterfaceRule : DriveInterfaceRule := by
  refine ⟨fun _ _ _ => rfl, fun s d t => ⟨fun hempty => ?_, fun hattached hside => ?_, fun hattached hside => ?_⟩,
    fun u f => ⟨fun hside => ?_, fun hside => ?_⟩, fun _ _ => ⟨rfl, rfl, rfl⟩⟩
  · simp [State.nextFlux, hempty]
  · simp [State.nextFlux, hattached, DriveUnit.flux, hside]
  · simp [State.nextFlux, hattached, DriveUnit.flux, hside]
  · simp [DriveUnit.flux, DriveUnit.setFlux, hside]
  · simp [DriveUnit.flux, DriveUnit.setFlux, hside]

/-- Settles O53: the query, the write and the form of a list, and the Drive interface. -/
theorem fluxReplacement : Obligations.FluxReplacement :=
  ⟨fun f hf => ⟨fluxAfter_eq_some_iff hf, fluxAfter_eq_none_iff f, fun start stop ts =>
    ⟨fluxReplace_wf hf start stop ts, fun _ => mem_fluxReplace⟩⟩,
    fun ts => ⟨fluxOfList_wf ts, fun x => fluxOfList_mem x ts⟩, driveInterfaceRule⟩

/-! ## The CRC (R166, R168) -/

theorem crcBit_of_eq {c : BitVec 16} {b : Bool} (h : c.getLsbD 15 = b) : crcBit c b = c <<< 1 :=
  if_neg (by rw [h, bne_self_eq_false]; exact Bool.false_ne_true)

theorem crcBit_of_ne {c : BitVec 16} {b : Bool} (h : c.getLsbD 15 ≠ b) : crcBit c b = (c <<< 1) ^^^ 0x1021 :=
  if_pos (bne_iff_ne.mpr h)

/-- The generator, added where a condition holds. -/
def generatorIf (p : Bool) : BitVec 16 := if p then 0x1021 else 0

theorem crcBit_eq (c : BitVec 16) (b : Bool) : crcBit c b = (c <<< 1) ^^^ generatorIf (c.getLsbD 15 ^^ b) := by
  by_cases h : c.getLsbD 15 = b
  · rw [crcBit_of_eq h, h, Bool.xor_self]
    exact BitVec.xor_zero.symm
  · rw [crcBit_of_ne h, Bool.xor_iff_ne.mpr h]
    rfl

theorem generatorIf_xor : ∀ p q : Bool, generatorIf (p ^^ q) = generatorIf p ^^^ generatorIf q := by decide

theorem xor_swap : ∀ a b x y : Bool, ((a ^^ b) ^^ (x ^^ y)) = ((a ^^ x) ^^ (b ^^ y)) := by decide

/-- The CRC is linear. -/
theorem crcBit_xor (a b : BitVec 16) (x y : Bool) : crcBit (a ^^^ b) (x ^^ y) = crcBit a x ^^^ crcBit b y := by
  have hshift : (a ^^^ b) <<< 1 = (a <<< 1) ^^^ (b <<< 1) := BitVec.shiftLeft_xor_distrib ..
  rw [crcBit_eq, crcBit_eq, crcBit_eq, hshift, BitVec.getLsbD_xor, xor_swap, generatorIf_xor]
  ac_rfl

theorem crcByte_xor (a b : BitVec 16) (v w : Byte) : crcByte (a ^^^ b) (v ^^^ w) = crcByte a v ^^^ crcByte b w := by
  simp only [crcByte, byteBits, List.foldl_cons, List.foldl_nil, bitAt, BitVec.getLsbD_xor, crcBit_xor]

theorem getLsbD_crcHigh (c : BitVec 16) {i : Nat} (hi : i < 8) : (crcHigh c).getLsbD i = c.getLsbD (8 + i) := by
  simp [crcHigh, hi]

theorem byteBits_eq (v : Byte) : byteBits v = (List.range 8).map fun i => v.getLsbD (7 - i) := rfl

/-- The first bits of the accumulator's own high byte only shift it. -/
theorem crcBits_crcHigh (c : BitVec 16) {k : Nat} (hk : k ≤ 8) :
    ((List.range k).map fun i => (crcHigh c).getLsbD (7 - i)).foldl crcBit c = c <<< k := by
  induction k with
  | zero => simp
  | succ k ih =>
    have htop : (c <<< k).getLsbD 15 = (crcHigh c).getLsbD (7 - k) := by
      rw [getLsbD_crcHigh c (by omega), BitVec.getLsbD_shiftLeft]
      simp [show 15 - k = 8 + (7 - k) by omega, show ¬ 15 < k by omega]
    rw [List.range_succ, List.map_append, List.foldl_append, ih (by omega)]
    exact (crcBit_of_eq htop).trans (BitVec.shiftLeft_add ..).symm

/-- The accumulator's own high byte only shifts it (R168). -/
theorem crcByte_crcHigh (c : BitVec 16) : crcByte c (crcHigh c) = c <<< 8 := crcBits_crcHigh c le_rfl

/-- A byte from any accumulator: the shift, and the fold of its difference from the high byte. -/
theorem crcByte_eq (c : BitVec 16) (v : Byte) : crcByte c v = (c <<< 8) ^^^ crcByte 0 (crcHigh c ^^^ v) := by
  have h := crcByte_xor c 0 (crcHigh c) (crcHigh c ^^^ v)
  have hc : c ^^^ (0 : BitVec 16) = c := BitVec.xor_zero
  rw [crcByte_crcHigh, hc, ← BitVec.xor_assoc, BitVec.xor_self, BitVec.zero_xor] at h
  exact h

/-- The fold of a byte is told from its low half. -/
theorem crcByte_zero_low : ∀ v : Byte, (crcByte 0 v).extractLsb' 0 8 = 0 → v = 0 := by decide +kernel

theorem low_shiftLeft_eight (c : BitVec 16) : (c <<< 8).extractLsb' 0 8 = 0 := by
  ext i hi
  simp [hi]

theorem crcHigh_shiftLeft_eight (c : BitVec 16) : crcHigh (c <<< 8) = c.extractLsb' 0 8 := by
  ext i hi
  simp only [crcHigh, BitVec.getElem_extractLsb', BitVec.getLsbD_shiftLeft, show 8 + i < 16 by omega]
  simp

/-- The low half after a byte is 0 exactly if the byte was the accumulator's high byte. -/
theorem crcByte_low_eq_zero_iff (c : BitVec 16) (v : Byte) : (crcByte c v).extractLsb' 0 8 = 0 ↔ v = crcHigh c := by
  constructor
  · intro h
    have hsum : (crcByte 0 (crcHigh c ^^^ v)).extractLsb' 0 8 = 0 := by
      have hlow := low_shiftLeft_eight c
      rw [crcByte_eq, BitVec.extractLsb'_xor, hlow] at h
      exact BitVec.zero_xor.symm.trans h
    exact (BitVec.xor_eq_zero_iff.mp (crcByte_zero_low _ hsum)).symm
  · rintro rfl
    rw [crcByte_crcHigh, low_shiftLeft_eight]

theorem eq_zero_iff_halves (c : BitVec 16) : c = 0 ↔ crcHigh c = 0 ∧ c.extractLsb' 0 8 = 0 := by
  constructor
  · rintro rfl
    exact ⟨rfl, rfl⟩
  · rintro ⟨hhigh, hlow⟩
    apply BitVec.eq_of_getLsbD_eq
    intro i hi
    by_cases hi8 : i < 8
    · have h := congrArg (BitVec.getLsbD · i) hlow
      simpa [hi8] using h
    · have h := congrArg (BitVec.getLsbD · (i - 8)) hhigh
      simpa [crcHigh, show i - 8 < 8 by omega, show 8 + (i - 8) = i by omega] using h

/-- Settles O51: the low half of the residual tells the high byte, and its high half the low byte. -/
theorem crcResidueZero : Obligations.CrcResidueZero := by
  have hlow : ∀ c : BitVec 16, crcHigh (crcByte c (crcHigh c)) = c.extractLsb' 0 8 := fun c => by
    rw [crcByte_crcHigh, crcHigh_shiftLeft_eight]
  refine ⟨fun c b => ⟨crcBit_of_eq, crcBit_of_ne⟩, fun c v => rfl, fun c => rfl, fun c v vs => rfl, fun c hi lo => ?_,
    fun c => ⟨rfl, hlow c⟩⟩
  change crcByte (crcByte c hi) lo = 0 ↔ hi = crcHigh c ∧ lo = c.extractLsb' 0 8
  constructor
  · intro h
    obtain rfl : lo = crcHigh (crcByte c hi) := (crcByte_low_eq_zero_iff _ lo).mp (by rw [h]; rfl)
    rw [crcByte_crcHigh, eq_zero_iff_halves, crcHigh_shiftLeft_eight] at h
    obtain rfl := (crcByte_low_eq_zero_iff c hi).mp h.1
    exact ⟨rfl, hlow c⟩
  · rintro ⟨rfl, rfl⟩
    rw [← hlow c, crcByte_crcHigh, eq_zero_iff_halves, crcHigh_shiftLeft_eight]
    exact ⟨(crcByte_low_eq_zero_iff c _).mpr rfl, low_shiftLeft_eight _⟩

/-! ## The cells of a byte (R160 to R162) -/

/-- A clock cell and a data cell shifted into a word. -/
def pairIn (x : Cells) (clock data : Bool) : Cells :=
  (x <<< 2) ||| ((BitVec.ofBool clock).setWidth 16 <<< 1) ||| (BitVec.ofBool data).setWidth 16

theorem getLsbD_pairIn (x : Cells) (clock data : Bool) :
    (pairIn x clock data).getLsbD 0 = data ∧ (pairIn x clock data).getLsbD 1 = clock ∧
      ∀ i, i + 2 < 16 → (pairIn x clock data).getLsbD (i + 2) = x.getLsbD i := by
  refine ⟨by simp [pairIn], by simp [pairIn], fun i hi => ?_⟩
  simp [pairIn, hi, BitVec.getLsbD_eq_getElem (show i < 16 by omega)]

/-- The first `k` bits of a byte in MFM, before them the bit `ctx`: the cells of the `j`-th bit from the end, and the last
bit. -/
theorem mfm_fold (v : Byte) (ctx : Bool) {k : Nat} (hk : k ≤ 8) :
    (((List.range k).map fun i => v.getLsbD (7 - i)).foldl mfmBit (0, ctx)).2 =
        (if k = 0 then ctx else v.getLsbD (8 - k)) ∧
      ∀ j < k, (((List.range k).map fun i => v.getLsbD (7 - i)).foldl mfmBit (0, ctx)).1.getLsbD (2 * j) =
          v.getLsbD (8 - k + j) ∧
        (((List.range k).map fun i => v.getLsbD (7 - i)).foldl mfmBit (0, ctx)).1.getLsbD (2 * j + 1) =
          (!v.getLsbD (8 - k + j) && !(if 8 - k + j = 7 then ctx else v.getLsbD (8 - k + j + 1))) := by
  induction k with
  | zero => exact ⟨rfl, nofun⟩
  | succ k ih =>
    obtain ⟨hlast, hcells⟩ := ih (by omega)
    rw [List.range_succ, List.map_append, List.foldl_append, List.map_cons, List.map_nil, List.foldl_cons, List.foldl_nil]
    generalize ((List.range k).map fun i => v.getLsbD (7 - i)).foldl mfmBit (0, ctx) = r at hlast hcells ⊢
    obtain ⟨hdata, hclock, hold⟩ := getLsbD_pairIn r.1 (!v.getLsbD (7 - k) && !r.2) (v.getLsbD (7 - k))
    have hbit : mfmBit r (v.getLsbD (7 - k)) =
      (pairIn r.1 (!v.getLsbD (7 - k) && !r.2) (v.getLsbD (7 - k)), v.getLsbD (7 - k)) := rfl
    have hindex : 8 - (k + 1) = 7 - k := by omega
    rw [hbit, hindex]
    refine ⟨rfl, fun j hj => ?_⟩
    cases j with
    | zero =>
      refine ⟨hdata, hclock.trans ?_⟩
      rw [hlast]
      by_cases h0 : k = 0
      · rw [if_pos h0, if_pos (by omega), h0]
      · rw [if_neg h0, if_neg (by omega), show 7 - k + 0 + 1 = 8 - k by omega, Nat.add_zero]
    | succ j =>
      obtain ⟨hd, hc⟩ := hcells j (by omega)
      rw [show 7 - k + (j + 1) = 8 - k + j by omega, Nat.mul_succ, Nat.add_right_comm, hold _ (by omega), hold _ (by omega)]
      exact ⟨hd, hc⟩

theorem mfm_cells (v : Byte) (ctx : Bool) {i : Nat} (hi : i < 8) :
    (mfmEncode v ctx).1.getLsbD (2 * i) = v.getLsbD i ∧
    (mfmEncode v ctx).1.getLsbD (2 * i + 1) = (!v.getLsbD i && !(if i = 7 then ctx else v.getLsbD (i + 1))) := by
  have h := (mfm_fold v ctx le_rfl).2 i hi
  simp only [Nat.sub_self, Nat.zero_add] at h
  exact h

/-- The first `k` bits of a byte in FM. -/
theorem fm_fold (v : Byte) {k : Nat} (hk : k ≤ 8) :
    ∀ j < k, (((List.range k).map fun i => v.getLsbD (7 - i)).foldl (pairIn · true) 0).getLsbD (2 * j) =
        v.getLsbD (8 - k + j) ∧
      (((List.range k).map fun i => v.getLsbD (7 - i)).foldl (pairIn · true) 0).getLsbD (2 * j + 1) = true := by
  induction k with
  | zero => exact nofun
  | succ k ih =>
    intro j hj
    rw [List.range_succ, List.map_append, List.foldl_append, List.map_cons, List.map_nil, List.foldl_cons, List.foldl_nil]
    obtain ⟨hdata, hclock, hold⟩ :=
      getLsbD_pairIn (((List.range k).map fun i => v.getLsbD (7 - i)).foldl (pairIn · true) 0) true (v.getLsbD (7 - k))
    cases j with
    | zero => exact ⟨hdata.trans (congrArg v.getLsbD (by omega)), hclock⟩
    | succ j =>
      obtain ⟨hd, hc⟩ := ih (by omega) j (by omega)
      rw [Nat.mul_succ, Nat.add_right_comm, hold _ (by omega), hold _ (by omega), hd,
        show 8 - (k + 1) + (j + 1) = 8 - k + j by omega]
      exact ⟨rfl, hc⟩

theorem fm_cells (v : Byte) {i : Nat} (hi : i < 8) :
    (fmEncode v).getLsbD (2 * i) = v.getLsbD i ∧ (fmEncode v).getLsbD (2 * i + 1) = true := by
  have h := fm_fold v le_rfl i hi
  simp only [Nat.sub_self, Nat.zero_add] at h
  exact h

/-- The word of a byte in either mode. -/
def byteWord (mfm : Bool) (v : Byte) (ctx : Bool) : Cells := if mfm then (mfmEncode v ctx).1 else fmEncode v

/-- The data cells of a word are the bits of its byte. -/
theorem byteWord_data (mfm : Bool) (v : Byte) (ctx : Bool) {i : Nat} (hi : i < 8) :
    (byteWord mfm v ctx).getLsbD (2 * i) = v.getLsbD i := by
  cases mfm
  · exact (fm_cells v hi).1
  · exact (mfm_cells v ctx hi).1

/-! ## Writing a word (R179) -/

/-- The cells that leave are the word's, most significant first. -/
theorem writeWord_cells {n : Nat} (hn : n ≤ 16) (L : LiveTransfer) :
    (writeWord n L).1 = (List.range n).map fun i => L.shiftReg.getLsbD (15 - i) := by
  induction n generalizing L with
  | zero => rfl
  | succ n ih =>
    rw [writeWord, ih (by omega), List.range_succ_eq_map, List.map_cons, List.map_map]
    refine congrArg₂ List.cons rfl (List.map_congr_left fun i hi => ?_)
    have hi := List.mem_range.mp hi
    simp only [Function.comp_apply, shiftOut, BitVec.getLsbD_shiftLeft]
    simp [show 15 - (i + 1) = 15 - i - 1 by omega, show ¬ 15 - i < 1 by omega, show 15 - i < 16 by omega]

/-- A clock cell and its data cell written: the data cell alone enters the CRC (R179). -/
theorem shiftOut_shiftOut {n : Nat} {L : LiveTransfer} (heven : L.bitCounter = 2 * (n + 1)) :
    shiftOut (shiftOut L L.tm) L.tm = { L with
      crc := crcBit L.crc (L.shiftReg.getLsbD 14), shiftReg := L.shiftReg <<< 2, bitCounter := 2 * n } := by
  have hcell : (L.shiftReg <<< 1).getLsbD 15 = L.shiftReg.getLsbD 14 := by simp
  have hword : L.shiftReg <<< 1 <<< 1 = L.shiftReg <<< 2 := (BitVec.shiftLeft_add ..).symm
  simp only [shiftOut, heven, hcell, hword, show ¬ 2 * (n + 1) % 2 = 1 by omega, show (2 * (n + 1) - 1) % 2 = 1 by omega,
    show 2 * (n + 1) - 1 - 1 = 2 * n by omega, if_true, if_false]

/-- The registers after `n` bits written (R179). -/
theorem writeWord_registers {n : Nat} (hn : n ≤ 8) {L : LiveTransfer} (hcount : L.bitCounter = 2 * n) :
    (writeWord (2 * n) L).2.crc = ((List.range n).map fun i => L.shiftReg.getLsbD (14 - 2 * i)).foldl crcBit L.crc ∧
      (writeWord (2 * n) L).2.bitCounter = 0 ∧ (writeWord (2 * n) L).2.dataBitContext = L.dataBitContext := by
  induction n generalizing L with
  | zero => exact ⟨rfl, hcount, rfl⟩
  | succ n ih =>
    obtain ⟨hcrc, hbits, hcontext⟩ := ih (by omega) (L := shiftOut (shiftOut L L.tm) L.tm)
      (by rw [shiftOut_shiftOut hcount])
    have htwo : (writeWord (2 * (n + 1)) L).2 = (writeWord (2 * n) (shiftOut (shiftOut L L.tm) L.tm)).2 := rfl
    rw [htwo, hcrc, hbits, hcontext, shiftOut_shiftOut hcount]
    refine ⟨?_, rfl, rfl⟩
    rw [List.range_succ_eq_map, List.map_cons, List.foldl_cons, List.map_map]
    refine congrArg₂ (List.foldl crcBit) rfl (List.map_congr_left fun i hi => ?_)
    have hi := List.mem_range.mp hi
    simp only [Function.comp_apply, BitVec.getLsbD_shiftLeft]
    simp [show 14 - 2 * (i + 1) = 14 - 2 * i - 2 by omega, show ¬ 14 - 2 * i < 2 by omega, show 14 - 2 * i < 16 by omega]

/-- The data cells of a byte's word, in order, are its bits. -/
theorem byteWord_bits (mfm : Bool) (v : Byte) (ctx : Bool) :
    ((List.range 8).map fun i => (byteWord mfm v ctx).getLsbD (14 - 2 * i)) = byteBits v := by
  rw [byteBits_eq]
  refine List.map_congr_left fun i hi => ?_
  have hi := List.mem_range.mp hi
  rw [← byteWord_data mfm v ctx (by omega), show 14 - 2 * i = 2 * (7 - i) by omega]

/-! ## Reading a word (R171) -/

/-- A bit shifted into a register. -/
def shiftIn {n : Nat} (x : BitVec n) (b : Bool) : BitVec n := (x <<< 1) ||| (BitVec.ofBool b).setWidth n

theorem getLsbD_shiftIn {n : Nat} (x : BitVec n) (b : Bool) {i : Nat} (hi : i < n) :
    (shiftIn x b).getLsbD i = if i = 0 then b else x.getLsbD (i - 1) := by
  cases i with
  | zero => simp [shiftIn, hi]
  | succ i => simp [shiftIn, hi, BitVec.getLsbD_eq_getElem (show i < n by omega)]

/-- A register after as many bits as it holds is those bits, whatever it was. -/
theorem foldl_shiftIn {n : Nat} (x w : BitVec n) :
    ((List.range n).map fun i => w.getLsbD (n - 1 - i)).foldl shiftIn x = w := by
  have hpartial : ∀ k ≤ n, ∀ j < k,
      (((List.range k).map fun i => w.getLsbD (n - 1 - i)).foldl shiftIn x).getLsbD j = w.getLsbD (n - k + j) := by
    intro k hk
    induction k with
    | zero => exact nofun
    | succ k ih =>
      intro j hj
      rw [List.range_succ, List.map_append, List.foldl_append, List.map_cons, List.map_nil, List.foldl_cons, List.foldl_nil,
        getLsbD_shiftIn _ _ (by omega)]
      split
      · next h0 => rw [h0, show n - 1 - k = n - (k + 1) + 0 by omega]
      · next h0 => rw [ih (by omega) (j - 1) (by omega), show n - k + (j - 1) = n - (k + 1) + j by omega]
  apply BitVec.eq_of_getLsbD_eq
  intro i hi
  rw [hpartial n le_rfl i hi, Nat.sub_self, Nat.zero_add]

/-- The cells of a word, two by two: each clock cell and its data cell. -/
def cellPairs (w : Cells) : List (Bool × Bool) :=
  (List.range 8).map fun i => (w.getLsbD (15 - 2 * i), w.getLsbD (14 - 2 * i))

theorem wordCells_eq (w : Cells) : wordCells w = (cellPairs w).flatMap fun p => [p.1, p.2] := rfl

/-- A clock cell and its data cell read from a clock phase. -/
theorem shiftCell_two {R : LiveTransfer} (hphase : R.dataSeparatorPhase = false) (clock data : Bool) :
    shiftCell (shiftCell R clock R.tm) data R.tm = { R with
      shiftReg := shiftIn (shiftIn R.shiftReg clock) data
      bitCounter := R.bitCounter + 2
      dataReg := shiftIn R.dataReg data
      crc := crcBit R.crc data } := by
  simp [shiftCell, hphase, shiftIn, bitByte, Nat.add_assoc]

/-- The registers after pairs of cells read from a clock phase (R171). -/
theorem readWord_pairs (ps : List (Bool × Bool)) {R : LiveTransfer} (hphase : R.dataSeparatorPhase = false) :
    readWord R (ps.flatMap fun p => [p.1, p.2]) = { R with
      shiftReg := (ps.flatMap fun p => [p.1, p.2]).foldl shiftIn R.shiftReg
      bitCounter := R.bitCounter + 2 * ps.length
      dataReg := (ps.map (·.2)).foldl shiftIn R.dataReg
      crc := (ps.map (·.2)).foldl crcBit R.crc } := by
  induction ps generalizing R with
  | nil => rfl
  | cons p ps ih =>
    have htwo : readWord R ((p :: ps).flatMap fun p => [p.1, p.2]) =
        readWord (shiftCell (shiftCell R p.1 R.tm) p.2 R.tm) (ps.flatMap fun p => [p.1, p.2]) := rfl
    rw [htwo, shiftCell_two hphase, ih (by exact hphase)]
    simp [Nat.mul_add, Nat.add_assoc, Nat.add_comm]

/-- Settles O52: the cells bit by bit, and then the word written and read pair by pair. -/
theorem codecReadsWhatItWrites : Obligations.CodecReadsWhatItWrites := by
  refine ⟨fun v ctx i hi => ?_, fun mfm v W R hphase => ?_⟩
  · obtain ⟨hdata, hclock⟩ := mfm_cells v ctx hi
    obtain ⟨hfmData, hfmClock⟩ := fm_cells v hi
    exact ⟨hdata, hclock, rfl, hfmData, hfmClock⟩
  · intro w
    have hw : w = byteWord mfm v W.dataBitContext := rfl
    have hemit : (emitByte mfm v W).shiftReg = w ∧ (emitByte mfm v W).crc = W.crc ∧
        (emitByte mfm v W).bitCounter = 16 ∧ (emitByte mfm v W).dataBitContext = v.getLsbD 0 := by
      cases mfm <;> exact ⟨rfl, rfl, rfl, rfl⟩
    obtain ⟨hshift, hcrc, hcount, hcontext⟩ := hemit
    obtain ⟨hcrc', hcount', hcontext'⟩ := writeWord_registers (n := 8) le_rfl hcount
    have hbits : (cellPairs w).map (·.2) = byteBits v := by
      rw [hw, ← byteWord_bits mfm v W.dataBitContext]
      rfl
    have hread := readWord_pairs (cellPairs w) hphase
    rw [← wordCells_eq, hbits] at hread
    refine ⟨?_, ?_, hcount', hcontext'.trans hcontext, ?_, ?_, ?_, ?_, ?_⟩
    · rw [writeWord_cells le_rfl, hshift]
      rfl
    · rw [hshift, hcrc, hw, byteWord_bits] at hcrc'
      exact hcrc'
    all_goals rw [hread]
    · exact foldl_shiftIn R.dataReg v
    · exact foldl_shiftIn R.shiftReg w
    · rfl
    · rfl
    · exact hphase

end Sys2Proof.Proofs
end

section
/-! PROOFS. The words the engine writes, position by position, and what its read states do with a cell
(spec/41_bitstream.md R171 to R187). -/

namespace Sys2Proof.Proofs

open Sys2Proof.Machine Sys2Proof.Claims

/-! ## One written cell (R179, R180) -/

section write

variable {L : LiveTransfer} {s : State} {limit : Int}

theorem writes_iff (st : LiveState) :
    st.writes = true ↔
      st ∈ ([.writeSectorData, .writeTrackPreSectors, .writeTrackSector, .writeTrackPostSectors] : List LiveState) := by
  cases st <;> decide

/-- The engine of a write state. -/
theorem engineStep_of_writes (hL : s.live = some L) (hwrites : L.state.writes = true) :
    engineStep limit s = if L.bitCounter = 0 then chooseByte L s else .next (emitCell limit L s) := by
  simp [engineStep, hL, hwrites]

/-- A cell that is not the last of its word. -/
theorem emitCell_of_more {p : Pll} (hbit : writeBit s.pll (L.shiftReg.getLsbD 15) limit = some p) (hpos : 0 < L.bitCounter)
    (hmore : L.bitCounter ≠ 1) : emitCell limit L s = { s with pll := p, live := some (shiftOut L p.ctime) } := by
  rw [emitCell, hbit]
  exact if_neg (show ¬ L.bitCounter - 1 = 0 by omega)

/-- The last cell of a word commits it. -/
theorem emitCell_of_last {p : Pll} (hbit : writeBit s.pll (L.shiftReg.getLsbD 15) limit = some p)
    (hlast : L.bitCounter = 1) :
    emitCell limit L s = { commitWrite L.drive p.ctime { s with pll := p } with
      live := some { shiftOut L p.ctime with byteCounter := L.byteCounter + 1 } } := by
  rw [emitCell, hbit]
  exact if_pos (show L.bitCounter - 1 = 0 by omega)

end write

theorem writeCellsRule : WriteCellsRule := by
  refine ⟨fun _ _ => rfl, fun _ _ => rfl, fun _ _ => rfl, fun L s limit hL hstate => ?_⟩
  have hstep := engineStep_of_writes (limit := limit) hL ((writes_iff _).mpr hstate)
  refine ⟨fun hzero => hstep.trans (if_pos hzero), fun hpos hnone => hstep.trans ((if_neg hpos.ne').trans ?_),
    fun p hpos hbit => ⟨fun hmore => hstep.trans ((if_neg hpos.ne').trans ?_),
      fun hlast => hstep.trans ((if_neg hpos.ne').trans ?_)⟩⟩
  · rw [emitCell, hnone]
  · rw [emitCell_of_more hbit hpos hmore]
    rfl
  · rw [emitCell_of_last hbit hlast]
    rfl

/-! ## The opening of a field (R183, R186) -/

section opening

variable {mark : LiveTransfer → LiveTransfer} {k : Nat} {L : LiveTransfer}

theorem mfm_opening_sync (h : k < 12) : emitFieldOpening true mark k L = emitByte true 0x00 L := by
  rw [emitFieldOpening, if_pos rfl, if_pos h]

theorem mfm_opening_first (h : k = 12) : emitFieldOpening true mark k L = emitRaw 0x4489 { L with crc := 0xFFFF } := by
  rw [emitFieldOpening, if_pos rfl, if_neg (by omega), if_pos h]
  rfl

theorem mfm_opening_more (h12 : 12 < k) (h15 : k < 15) : emitFieldOpening true mark k L = emitRaw 0x4489 L := by
  rw [emitFieldOpening, if_pos rfl, if_neg (by omega), if_neg (by omega), if_pos h15]
  rfl

theorem mfm_opening_mark (h : k = 15) : emitFieldOpening true mark k L = mark L := by
  rw [emitFieldOpening, if_pos rfl, if_neg (by omega), if_neg (by omega), if_neg (by omega)]

theorem fm_opening_sync (h : k < 6) : emitFieldOpening false mark k L = emitByte false 0x00 L := by
  rw [emitFieldOpening, if_neg Bool.false_ne_true, if_pos h]

theorem fm_opening_mark (h : k = 6) : emitFieldOpening false mark k L = mark L := by
  rw [emitFieldOpening, if_neg Bool.false_ne_true, if_neg (by omega)]

end opening

/-! ## A written data field (R183) -/

section dataField

variable {L : LiveTransfer} {s : State} (hstate : L.state = .writeSectorData)

include hstate

theorem chooseByte_of_data : chooseByte L s = chooseSectorData L s := by
  simp [chooseByte, hstate]

theorem chooseByte_data_opening (hk : L.byteCounter < openingBytes s.cur.mf) :
    chooseByte L s = .next (s.setLive (emitFieldOpening s.cur.mf
      (emitDataMark s.cur.mf (s.cur.op == .writeDeletedData)) L.byteCounter L)) :=
  (chooseByte_of_data hstate).trans (if_pos hk)

theorem chooseByte_data_byte (hlow : openingBytes s.cur.mf ≤ L.byteCounter)
    (hhigh : L.byteCounter < openingBytes s.cur.mf + s.cur.sectorSize) :
    chooseByte L s = .next ((dataByte s).2.setLive (emitByte s.cur.mf (dataByte s).1 L)) :=
  (chooseByte_of_data hstate).trans ((if_neg (by omega)).trans (if_pos hhigh))

theorem chooseByte_data_crc (hlow : openingBytes s.cur.mf + s.cur.sectorSize ≤ L.byteCounter)
    (hhigh : L.byteCounter < openingBytes s.cur.mf + s.cur.sectorSize + 2) :
    chooseByte L s = .next (s.setLive (emitByte s.cur.mf (crcHigh L.crc) L)) :=
  (chooseByte_of_data hstate).trans ((if_neg (by omega)).trans ((if_neg (by omega)).trans (if_pos hhigh)))

theorem chooseByte_data_end (hlow : openingBytes s.cur.mf + s.cur.sectorSize + 2 ≤ L.byteCounter) :
    chooseByte L s = report .fieldWritten { L with state := .idle } (stopWriting L.drive L.tm s) :=
  (chooseByte_of_data hstate).trans ((if_neg (by omega)).trans ((if_neg (by omega)).trans (if_neg (by omega))))

end dataField

theorem dataFieldLayout : DataFieldLayout := by
  intro L s hstate k S del
  have hopening := chooseByte_data_opening (s := s) hstate
  have hbyte := chooseByte_data_byte (s := s) hstate
  have hcrc := chooseByte_data_crc (s := s) hstate
  have hend := chooseByte_data_end (s := s) hstate
  refine ⟨fun hmf => ?mfm, fun hmf => ?fm, fun htc hfifo => ?zeros, fun h => ?pops⟩
  case mfm =>
    rw [hmf] at hopening hbyte hcrc hend
    have ho : openingBytes true = 16 := rfl
    rw [ho] at hopening hbyte hcrc hend
    refine ⟨fun h => ?_, fun h => ?_, fun h h' => ?_, fun h => ?_, hbyte, fun h h' => hcrc h (by omega),
      fun h => hend (by omega)⟩
    · rw [hopening (by omega), mfm_opening_sync h]
    · rw [hopening (by omega), mfm_opening_first h]
    · rw [hopening (by omega), mfm_opening_more h h']
    · rw [hopening (by omega), mfm_opening_mark h]
      rfl
  case fm =>
    rw [hmf] at hopening hbyte hcrc hend
    have ho : openingBytes false = 7 := rfl
    rw [ho] at hopening hbyte hcrc hend
    refine ⟨fun h => ?_, fun h => ?_, hbyte, fun h h' => hcrc h (by omega), fun h => hend (by omega)⟩
    · rw [hopening (by omega), fm_opening_sync h]
    · rw [hopening (by omega), fm_opening_mark h]
      rfl
  case zeros => simp [dataByte, htc, hfifo]
  case pops =>
    rw [dataByte, if_neg]
    rcases h with h | h <;> simp [h]

/-! ## The ends of a formatted track (R185, R187) -/

section preamble

variable {L : LiveTransfer} {s : State} (hstate : L.state = .writeTrackPreSectors)

include hstate

theorem chooseByte_of_preamble : chooseByte L s = .next (choosePreamble L s) := by
  simp [chooseByte, hstate]

/-- The preamble's first byte asks the host for the first sector's ID bytes. -/
theorem chooseByte_preamble (hk : L.byteCounter < preambleBytes s.cur.mf) :
    chooseByte L s = .next ((if L.byteCounter = 0 ∧ s.cur.sc ≠ 0 then fifoExpect 4 s else s).setLive
      (emitPreamble s.cur.mf L.byteCounter L)) := by
  have hasks : L.byteCounter = 0 ∧ 0 < s.cur.sc.toNat ↔ L.byteCounter = 0 ∧ s.cur.sc ≠ 0 := by
    rw [Nat.pos_iff_ne_zero]
    exact and_congr_right fun _ => not_congr (BitVec.toNat_inj (y := (0 : Byte)))
  rw [chooseByte_of_preamble hstate, choosePreamble, if_pos hk, if_congr hasks rfl rfl]

theorem chooseByte_preamble_later (hk : L.byteCounter < preambleBytes s.cur.mf) (hpos : L.byteCounter ≠ 0) :
    chooseByte L s = .next (s.setLive (emitPreamble s.cur.mf L.byteCounter L)) := by
  rw [chooseByte_preamble hstate hk, if_neg fun h => hpos h.1]

theorem chooseByte_preamble_end (hk : preambleBytes s.cur.mf ≤ L.byteCounter) :
    chooseByte L s = .next (s.setLive { L with
      byteCounter := 0
      state := if s.cur.sectorsLeft = 0 then .writeTrackPostSectors else .writeTrackSector }) := by
  have hnext : (if 0 < s.cur.sectorsLeft then LiveState.writeTrackSector else .writeTrackPostSectors) =
      if s.cur.sectorsLeft = 0 then .writeTrackPostSectors else .writeTrackSector := by
    rw [← ite_not]
    exact if_congr (by omega) rfl rfl
  rw [chooseByte_of_preamble hstate, choosePreamble, if_neg (by omega), hnext]

end preamble

section emitPreamble

variable {k : Nat} {L : LiveTransfer}

theorem mfm_preamble_gap (h : k < 80) : emitPreamble true k L = emitByte true 0x4E L := by
  rw [emitPreamble, if_pos rfl, if_pos h]

theorem mfm_preamble_sync (h80 : 80 ≤ k) (h92 : k < 92) : emitPreamble true k L = emitByte true 0x00 L := by
  rw [emitPreamble, if_pos rfl, if_neg (by omega), if_pos h92]

theorem mfm_preamble_mark (h92 : 92 ≤ k) (h95 : k < 95) : emitPreamble true k L = emitRaw 0x5224 L := by
  rw [emitPreamble, if_pos rfl, if_neg (by omega), if_neg (by omega), if_pos h95]
  rfl

theorem mfm_preamble_index (h : k = 95) : emitPreamble true k L = emitByte true 0xFC L := by
  rw [emitPreamble, if_pos rfl, if_neg (by omega), if_neg (by omega), if_neg (by omega), if_pos h]
  rfl

theorem mfm_preamble_end (h : 96 ≤ k) : emitPreamble true k L = emitByte true 0x4E L := by
  rw [emitPreamble, if_pos rfl, if_neg (by omega), if_neg (by omega), if_neg (by omega), if_neg (by omega)]

theorem fm_preamble_gap (h : k < 40) : emitPreamble false k L = emitByte false 0xFF L := by
  rw [emitPreamble, if_neg Bool.false_ne_true, if_pos h]

theorem fm_preamble_sync (h40 : 40 ≤ k) (h46 : k < 46) : emitPreamble false k L = emitByte false 0x00 L := by
  rw [emitPreamble, if_neg Bool.false_ne_true, if_neg (by omega), if_pos h46]

theorem fm_preamble_index (h : k = 46) : emitPreamble false k L = emitRaw 0xF77A L := by
  rw [emitPreamble, if_neg Bool.false_ne_true, if_neg (by omega), if_neg (by omega), if_pos h]
  rfl

theorem fm_preamble_end (h : 47 ≤ k) : emitPreamble false k L = emitByte false 0xFF L := by
  rw [emitPreamble, if_neg Bool.false_ne_true, if_neg (by omega), if_neg (by omega), if_neg (by omega)]

end emitPreamble

theorem trackEndsLayout : TrackEndsLayout := by
  intro L s k asked done
  refine ⟨fun hstate hmf => ?mfm, fun hstate hmf => ?fm, fun hstate => ?post⟩
  case post =>
    simp only [chooseByte, hstate]
    rfl
  all_goals
    have hfirst := chooseByte_preamble (s := s) hstate
    have hlater := chooseByte_preamble_later (s := s) hstate
    have hend := chooseByte_preamble_end (s := s) hstate
    rw [hmf] at hfirst hlater hend
  case mfm =>
    have hlength : preambleBytes true = 146 := rfl
    rw [hlength] at hfirst hlater hend
    refine ⟨fun h => ?_, fun h h' => ?_, fun h h' => ?_, fun h => ?_, fun h h' => ?_, hend⟩
    · rw [hfirst (by omega), mfm_preamble_gap h]
    · rw [hlater (by omega) (by omega), mfm_preamble_sync h h']
    · rw [hlater (by omega) (by omega), mfm_preamble_mark h h']
    · rw [hlater (by omega) (by omega), mfm_preamble_index h]
    · rw [hlater (by omega) (by omega), mfm_preamble_end h]
  case fm =>
    have hlength : preambleBytes false = 73 := rfl
    rw [hlength] at hfirst hlater hend
    refine ⟨fun h => ?_, fun h h' => ?_, fun h => ?_, fun h h' => ?_, hend⟩
    · rw [hfirst (by omega), fm_preamble_gap h]
    · rw [hlater (by omega) (by omega), fm_preamble_sync h h']
    · rw [hlater (by omega) (by omega), fm_preamble_index h]
    · rw [hlater (by omega) (by omega), fm_preamble_end h]

/-! ## A formatted sector (R186) -/

theorem setByte_eq_idWith (id : Chrn) (i : Nat) (v : Byte) : id.setByte i v = idWith id i v := by
  match i with
  | 0 | 1 | 2 | 3 => rfl
  | i + 4 => rfl

theorem dataByte_cur (s : State) : (dataByte s).2.cur = s.cur := by
  unfold dataByte enginePop
  split
  · rfl
  · split <;> rfl

theorem idByte_eq (i : Nat) (s : State) : idByte i s = ((dataByte s).1,
    { (dataByte s).2 with cur := { s.cur with lastId := idWith s.cur.lastId i (dataByte s).1 } }) := by
  rw [← setByte_eq_idWith, ← dataByte_cur s]
  rfl

section sector

variable {L : LiveTransfer} {s : State} (hstate : L.state = .writeTrackSector)

include hstate

theorem chooseByte_of_sector : chooseByte L s = .next (chooseTrackSector L s) := by
  simp [chooseByte, hstate]

/-- The nine parts of a formatted sector, `o` the length of an opening, `g` the end of gap 2 and `e` of the data field. -/
theorem chooseByte_sector {o g e : Nat} (ho : openingBytes s.cur.mf = o) (hg : o + 6 + gap2Bytes s.cur.mf = g)
    (he : g + o + s.cur.sectorSize = e) :
    (L.byteCounter < o → chooseByte L s =
      .next (s.setLive (emitFieldOpening s.cur.mf (emitIdMark s.cur.mf) L.byteCounter L))) ∧
    (o ≤ L.byteCounter → L.byteCounter < o + 4 → chooseByte L s = .next (State.setLive
      { (dataByte s).2 with cur := { s.cur with lastId := idWith s.cur.lastId (L.byteCounter - o) (dataByte s).1 } }
      (emitByte s.cur.mf (dataByte s).1 L))) ∧
    (o + 4 ≤ L.byteCounter ∧ L.byteCounter < o + 6 ∨ e ≤ L.byteCounter ∧ L.byteCounter < e + 2 →
      chooseByte L s = .next (s.setLive (emitByte s.cur.mf (crcHigh L.crc) L))) ∧
    (o + 6 ≤ L.byteCounter ∧ L.byteCounter < g ∨
        e + 2 ≤ L.byteCounter ∧ L.byteCounter < e + 2 + s.cur.gpl.toNat →
      chooseByte L s = .next (s.setLive (emitByte s.cur.mf (gapByte s.cur.mf) L))) ∧
    (g ≤ L.byteCounter → L.byteCounter < g + o → chooseByte L s = .next (s.setLive
      (emitFieldOpening s.cur.mf (emitDataMark s.cur.mf false) (L.byteCounter - g) L))) ∧
    (g + o ≤ L.byteCounter → L.byteCounter < e →
      chooseByte L s = .next (s.setLive (emitByte s.cur.mf s.cur.fill L))) ∧
    (e + 2 + s.cur.gpl.toNat ≤ L.byteCounter → chooseByte L s = .next (sectorEnd L s)) := by
  subst ho hg he
  have hsector := chooseByte_of_sector (s := s) hstate
  unfold chooseTrackSector at hsector
  dsimp only at hsector
  refine ⟨fun h => ?_, fun h h' => ?_, fun h => ?_, fun h => ?_, fun h h' => ?_, fun h h' => ?_, fun h => ?_⟩
  all_goals rw [hsector]
  · rw [if_pos h]
  · rw [if_neg (by omega), if_pos h', idByte_eq]
  · rcases h with ⟨h, h'⟩ | ⟨h, h'⟩
    · rw [if_neg (by omega), if_neg (by omega), if_pos h']
    · rw [if_neg (by omega), if_neg (by omega), if_neg (by omega), if_neg (by omega), if_neg (by omega),
        if_neg (by omega), if_pos h']
  · rcases h with ⟨h, h'⟩ | ⟨h, h'⟩
    · rw [if_neg (by omega), if_neg (by omega), if_neg (by omega), if_pos h']
    · rw [if_neg (by omega), if_neg (by omega), if_neg (by omega), if_neg (by omega), if_neg (by omega),
        if_neg (by omega), if_neg (by omega), if_pos h']
  · rw [if_neg (by omega), if_neg (by omega), if_neg (by omega), if_neg (by omega), if_pos h']
  · rw [if_neg (by omega), if_neg (by omega), if_neg (by omega), if_neg (by omega), if_neg (by omega), if_pos h']
  · rw [if_neg (by omega), if_neg (by omega), if_neg (by omega), if_neg (by omega), if_neg (by omega),
      if_neg (by omega), if_neg (by omega), if_neg (by omega)]

end sector

theorem sectorEnd_eq (L : LiveTransfer) (s : State) :
    let formatted : State := { s with cur := { s.cur with
      sectorsLeft := s.cur.sectorsLeft - 1
      c := s.cur.lastId.c
      h := s.cur.lastId.h
      r := s.cur.lastId.r
      n := s.cur.lastId.n } }
    sectorEnd L s =
      if s.cur.sectorsLeft - 1 = 0 then formatted.setLive { L with byteCounter := 0, state := .writeTrackPostSectors }
      else (fifoExpect 4 formatted).setLive { L with byteCounter := 0 } := by
  intro formatted
  rw [← ite_not]
  exact if_congr Nat.pos_iff_ne_zero rfl rfl

theorem trackSectorLayout : TrackSectorLayout := by
  intro L s hstate k S G byte taken idField left formatted atEnd
  have hatEnd : Host.Outcome.next (sectorEnd L s) = atEnd := by
    rw [sectorEnd_eq]
    exact apply_ite Host.Outcome.next _ _ _
  refine ⟨fun hmf => ?mfm, fun hmf => ?fm⟩
  case mfm =>
    obtain ⟨hid, htaken, hcrc, hgap, hdata, hfill, hend⟩ := chooseByte_sector (o := 16) (g := 44) (e := 60 + S) hstate
      (by rw [hmf]; rfl) (by rw [hmf]; rfl) (by omega)
    have hbyte (v : Byte) : byte v = .next (s.setLive (emitByte true v L)) := by rw [← hmf]
    rw [hmf] at hid hdata hcrc hgap hfill
    refine ⟨fun h => ?_, fun h => ?_, fun h => ?_, fun h => ?_, htaken, fun h => ?_, fun h => ?_, fun h => ?_,
      fun h h' => (hfill h h').trans (hbyte _).symm, fun h => (hend (by omega)).trans hatEnd⟩
    · rcases h with h | ⟨h, h'⟩
      · rw [hid (by omega), mfm_opening_sync h, hbyte]
      · rw [hdata (by omega) (by omega), mfm_opening_sync (by omega), hbyte]
    · rcases h with h | h
      · rw [hid (by omega), mfm_opening_first h]
      · rw [hdata (by omega) (by omega), mfm_opening_first (by omega)]
    · by_cases hlow : k < 16
      · rw [hid (by omega), mfm_opening_more (by omega) (by omega)]
      · rw [hdata (by omega) (by omega), mfm_opening_more (by omega) (by omega)]
    · rw [hid (by omega), mfm_opening_mark (by omega), hbyte]
      rfl
    · exact (hcrc (by omega)).trans (hbyte _).symm
    · exact (hgap (by omega)).trans (hbyte _).symm
    · rw [hdata (by omega) (by omega), mfm_opening_mark (by omega), hbyte]
      rfl
  case fm =>
    obtain ⟨hid, htaken, hcrc, hgap, hdata, hfill, hend⟩ := chooseByte_sector (o := 7) (g := 24) (e := 31 + S) hstate
      (by rw [hmf]; rfl) (by rw [hmf]; rfl) (by omega)
    have hbyte (v : Byte) : byte v = .next (s.setLive (emitByte false v L)) := by rw [← hmf]
    rw [hmf] at hid hdata hcrc hgap hfill
    refine ⟨fun h => ?_, fun h => ?_, htaken, fun h => ?_, fun h => ?_, fun h => ?_,
      fun h h' => (hfill h h').trans (hbyte _).symm, fun h => (hend (by omega)).trans hatEnd⟩
    · rcases h with h | ⟨h, h'⟩
      · rw [hid (by omega), fm_opening_sync h, hbyte]
      · rw [hdata (by omega) (by omega), fm_opening_sync (by omega), hbyte]
    · rw [hid (by omega), fm_opening_mark h]
      rfl
    · exact (hcrc (by omega)).trans (hbyte _).symm
    · exact (hgap (by omega)).trans (hbyte _).symm
    · rw [hdata (by omega) (by omega), fm_opening_mark (by omega)]
      rfl

/-! ## One read cell (R171 to R178, R182) -/

section read

variable {L : LiveTransfer} {s : State} {limit : Int} {r : Bool} {p : Pll}

/-- The engine of a read state shifts the cell in and then acts on it. -/
theorem engineStep_of_reads (hL : s.live = some L) (hreads : L.state.writes = false)
    (hcell : nextBit s.pll (s.nextFlux L.drive s.pll.ctime) limit = some (r, p)) :
    engineStep limit s = afterCell (shiftCell L r p.ctime) { s with pll := p } := by
  simp [engineStep, readCell, hL, hreads, hcell]

end read

section afterCell

variable {L : LiveTransfer} {s : State}

theorem searchHeader_eq (mfm : Bool) (L : LiveTransfer) : searchHeader mfm L =
    if mfm then (if L.shiftReg = mfmSync then resync L crcAfterSync .readHeaderBlockHeader else L)
    else (if L.shiftReg = fmHeaderMark then resync L crcAfterFmHeader .readIdBlock else L) := by
  cases mfm <;> simp [searchHeader]

theorem skipField_eq (s : State) (deleted : Bool) : skipField s deleted =
    (s.cur.sk && ((s.cur.op = .readData && deleted) || (s.cur.op = .readDeletedData && !deleted))) := by
  rw [skipField, Bool.and_comm]
  rfl

/-- The two data marks of FM exclude each other, so their order does not matter. -/
theorem searchData_of_fm (hmf : s.cur.mf = false) : searchData s L =
    if L.shiftReg = fmDataMark then startField s false (resync L crcAfterFmData .readSectorData)
    else if L.shiftReg = fmDeletedMark then startField s true (resync L crcAfterFmDeleted .readSectorData)
    else L := by
  have hdistinct : fmDataMark ≠ fmDeletedMark := by decide
  rw [searchData, hmf, if_neg Bool.false_ne_true]
  by_cases hmark : L.shiftReg = fmDataMark
  · rw [if_neg (hmark ▸ hdistinct), if_pos hmark, if_pos hmark]
  · rw [if_neg hmark, if_neg hmark]

theorem cutAfterTC_eq (s : State) : cutAfterTC s = { s with tcCut := s.tcCut || s.tcDone } := by
  have hcut (b : Bool) : (if b then { s with tcCut := true } else s) = { s with tcCut := s.tcCut || b } := by
    cases b
    · exact congrArg (fun c => { s with tcCut := c }) (Bool.or_false _).symm
    · exact congrArg (fun c => { s with tcCut := c }) (Bool.or_true _).symm
  exact hcut s.tcDone

theorem enginePush_tc (v : Byte) (s : State) : (enginePush v s).tcCut = s.tcCut ∧ (enginePush v s).tcDone = s.tcDone := by
  rw [enginePush]
  split <;> exact ⟨rfl, rfl⟩

/-- A complete data byte: suppressed or cut, or pushed; and the cut of TC after it. -/
theorem deliverByte_eq (L : LiveTransfer) (s : State) : deliverByte L s =
    { (if L.suppress = true ∨ s.tcCut = true then s else enginePush L.dataReg s) with tcCut := s.tcCut || s.tcDone } := by
  rw [deliverByte, cutAfterTC_eq, if_congr (Bool.or_eq_true_iff ..) rfl rfl]
  split
  · rfl
  · exact congrArg (fun b => { enginePush L.dataReg s with tcCut := b })
      (congrArg₂ or (enginePush_tc _ s).1 (enginePush_tc _ s).2)

end afterCell

theorem dataMarkWindow (mfm : Bool) : dataMarkMin mfm < dataMarkMax mfm := by
  cases mfm <;> decide

theorem readStatesRule : ReadStatesRule := by
  intro L s limit r p hL hcell cell n read goesOn reports marked field
  have hengine := fun hreads => engineStep_of_reads hL hreads hcell
  have hfield (M : LiveTransfer) (deleted : Bool) : startField read deleted M = field M deleted := by
    rw [startField, skipField_eq]
  refine ⟨fun hstate => ?searchHeader, fun hstate => ?headerMark, fun hstate => ?idBlock, fun hstate => ?searchData,
    fun hstate => ?dataMark, fun hstate => ?sector, fun hstate => ?gap⟩
  all_goals
    replace hengine := hengine (by rw [hstate]; rfl)
    have hcellState : (shiftCell L r p.ctime).state = L.state := rfl
    rw [afterCell, hcellState, hstate] at hengine
    dsimp only at hengine
  case searchHeader =>
    rw [searchHeader_eq] at hengine
    exact hengine
  case headerMark =>
    replace hengine : goesOn (if n % 16 = 0 then headerMark cell else cell) := hengine
    refine ⟨fun h => ?_, fun h => ?_, fun h => ?_⟩
    · rwa [if_neg h] at hengine
    · rwa [if_pos (by omega), headerMark, if_pos (show n / 16 < 3 by omega)] at hengine
    · rwa [if_pos (by omega), headerMark, if_neg (show ¬ n / 16 < 3 by omega)] at hengine
  case idBlock =>
    replace hengine : engineStep limit s = if n % 16 = 0 then
      if n / 16 - 1 = 5 then report .headerRead { idByteRead cell with state := .idle } read
      else .next (read.setLive (idByteRead cell)) else .next (read.setLive cell) := hengine
    have hread : idByteRead cell = { cell with idbuf := idWith L.idbuf (n / 16 - 1) cell.dataReg } := by
      rw [← setByte_eq_idWith]
      rfl
    rw [hread] at hengine
    refine ⟨fun h => ?_, fun i hi h => ?_, fun h => ?_⟩
    · rcases h with h | h
      · rwa [if_neg h] at hengine
      · rwa [if_pos (by omega), if_neg (by omega), show n / 16 - 1 = 4 by omega] at hengine
    · rwa [if_pos (by omega), if_neg (by omega), show n / 16 - 1 = i by omega] at hengine
    · rwa [if_pos (by omega), if_pos (by omega), show n / 16 - 1 = 5 by omega] at hengine
  case searchData =>
    replace hengine : engineStep limit s =
      if dataMarkMax s.cur.mf < n then report .dataMarkMissing { cell with state := .idle } read
      else .next (read.setLive (if dataMarkMin s.cur.mf ≤ n then searchData read cell else cell)) := hengine
    refine ⟨fun h => ?_, fun h => ?_, fun hmf h h' => ?_, fun hmf h h' => ?_⟩
    · rwa [if_pos (show dataMarkMax s.cur.mf < n from h)] at hengine
    · rwa [if_neg (show ¬ dataMarkMax s.cur.mf < n from fun hmax => hmax.not_gt (h.trans_le (dataMarkWindow s.cur.mf).le)),
        if_neg (show ¬ dataMarkMin s.cur.mf ≤ n from h.not_ge)] at hengine
    · rw [hmf, if_neg (show ¬ dataMarkMax true < n from h'.not_gt), if_pos (show dataMarkMin true ≤ n from h),
        searchData, if_pos (show read.cur.mf = true from hmf)] at hengine
      exact hengine
    · rw [hmf, if_neg (show ¬ dataMarkMax false < n from h'.not_gt), if_pos (show dataMarkMin false ≤ n from h),
        searchData_of_fm (s := read) hmf, hfield, hfield] at hengine
      exact hengine
  case dataMark =>
    replace hengine : goesOn (if n % 16 = 0 then dataMark read cell else cell) := hengine
    refine ⟨fun h => ?_, fun h => ?_, fun h => ?_⟩
    · rwa [if_neg h] at hengine
    · rwa [if_pos (by omega), dataMark, if_pos (show n / 16 < 3 by omega)] at hengine
    · rw [if_pos (by omega), dataMark, if_neg (show ¬ n / 16 < 3 by omega), hfield, hfield] at hengine
      exact hengine
  case sector =>
    replace hengine : engineStep limit s =
      if n % 16 = 0 then sectorByte cell read else .next (read.setLive cell) := hengine
    refine ⟨fun h => ?_, fun k hk h => ?_, fun h => ?_⟩
    · rcases h with h | h
      · rwa [if_neg h] at hengine
      · rwa [if_pos (by omega), sectorByte, if_neg (show ¬ n / 16 - 1 < s.cur.sectorSize by omega),
          if_neg (show ¬ n / 16 - 1 = s.cur.sectorSize + 1 by omega)] at hengine
    · rw [if_pos (by omega), sectorByte, if_pos (show n / 16 - 1 < s.cur.sectorSize by omega)] at hengine
      exact hengine.trans (congrArg Host.Outcome.next (deliverByte_eq cell (read.setLive cell)))
    · rwa [if_pos (by omega), sectorByte, if_neg (show ¬ n / 16 - 1 < s.cur.sectorSize by omega),
        if_pos (show n / 16 - 1 = s.cur.sectorSize + 1 by omega)] at hengine
  case gap =>
    replace hengine : engineStep limit s = .next (skipGap2 cell read) := hengine
    have hgap : 16 * gap2Skip s.cur.mf = if s.cur.mf then 16 * 22 else 16 * 11 := apply_ite (16 * ·) _ _ _
    refine ⟨fun h => ?_, fun h => ?_⟩
    · rwa [skipGap2, if_neg (show ¬ n = 16 * gap2Skip s.cur.mf from hgap ▸ h)] at hengine
    · rwa [skipGap2, if_pos (show n = 16 * gap2Skip s.cur.mf from hgap ▸ h)] at hengine

/-- Settles O54: the written cells, the three writing states and the reading ones. -/
theorem dataFieldWriteLayout : Obligations.DataFieldWriteLayout :=
  ⟨writeCellsRule, dataFieldLayout, trackEndsLayout, trackSectorLayout, readStatesRule⟩

end Sys2Proof.Proofs
end

section
/-! PROOFS. The PLL's write side and the round trip through a medium (spec/40_pll.md R142, R143). -/

namespace Sys2Proof.Proofs

open Sys2Proof.Machine Sys2Proof.Claims

/-! ## The operations (R142, R143) -/

theorem writeBit_of_early {p : Pll} {b : Bool} {limit : Int} (h : limit < pllWriteEnd p) : writeBit p b limit = none :=
  if_pos h

theorem writeBit_of_due {p : Pll} {b : Bool} {limit : Int} (h : pllWriteEnd p ≤ limit) : writeBit p b limit = some
    { p with
      ctime := p.ctime + p.nominal
      writeBuffer := if b = true ∧ p.writeBuffer.length < 32 then p.writeBuffer ++ [p.ctime + tdiv p.nominal 2]
        else p.writeBuffer } := by
  rw [writeBit, if_neg h.not_gt]
  have hroom : (b && decide (p.writeBuffer.length < writeBufCap)) = true ↔ b = true ∧ p.writeBuffer.length < 32 := by
    rw [Bool.and_eq_true, decide_eq_true_eq, writeBufCap]
  exact congrArg (fun l => some { p with ctime := p.ctime + p.nominal, writeBuffer := l }) (if_congr hroom rfl rfl)

theorem commitWrite_of_closed {d : Drive} {t : Int} {s : State} (h : s.pll.writeStartTime = none) :
    commitWrite d t s = s := by
  rw [commitWrite, h]

theorem commitWrite_of_start {d : Drive} {t : Int} {s : State} (h : s.pll.writeStartTime = some t) :
    commitWrite d t s = s := by
  rw [commitWrite, h]
  exact if_pos rfl

theorem commitWrite_of_later {d : Drive} {t w : Int} {s : State} (h : s.pll.writeStartTime = some w) (hne : w ≠ t) :
    commitWrite d t s = { s.writeFlux d w t s.pll.writeBuffer with
      pll := { s.pll with writeStartTime := some t, writeBuffer := [] } } := by
  rw [commitWrite, h]
  exact if_neg hne.symm

/-- The units after a write of flux: an empty slot ignores it (R351). -/
theorem writeFlux_units (s : State) (d : Drive) (w t : Int) (ts : List Int) : (s.writeFlux d w t ts).units =
    if (s.units.get d).attached then
      s.units.set d ((s.units.get d).setFlux (s.units.get d).side (fluxReplace (s.units.get d).flux w t ts))
    else s.units := by
  rw [State.writeFlux]
  show s.units.set d (if (s.units.get d).attached then _ else _) = _
  split
  · rfl
  · exact Slots.set_get s.units d

theorem setFlux_flux (u : DriveUnit) (f : List Int) : (u.setFlux u.side f).flux = f := by
  cases hside : u.side <;> simp [DriveUnit.setFlux, DriveUnit.flux, hside]

theorem setFlux_attached (u : DriveUnit) (side : Bool) (f : List Int) : (u.setFlux side f).attached = u.attached := by
  cases side <;> rfl

/-- What an attached drive holds after a write of flux. -/
theorem writeFlux_flux {s : State} {d : Drive} {w t : Int} {ts : List Int} (h : (s.units.get d).attached = true) :
    ((s.writeFlux d w t ts).units.get d).attached = true ∧
      ((s.writeFlux d w t ts).units.get d).flux = fluxReplace (s.units.get d).flux w t ts := by
  rw [writeFlux_units, if_pos h, Slots.get_set_same]
  exact ⟨(setFlux_attached ..).trans h, setFlux_flux ..⟩

/-! ## The transitions of a run of cells -/

/-- The transitions that cells of length `nom` from instant `t` stand for: one in the centre of each 1 (R143). -/
def centres (nom : Int) : Int → List Bool → List Int
  | _, [] => []
  | t, true :: cells => (t + tdiv nom 2) :: centres nom (t + nom) cells
  | t, false :: cells => centres nom (t + nom) cells

theorem centres_append (nom t : Int) (a b : List Bool) :
    centres nom t (a ++ b) = centres nom t a ++ centres nom (t + a.length * nom) b := by
  induction a generalizing t with
  | nil => simp [centres]
  | cons c a ih =>
    have hlen : t + nom + a.length * nom = t + (c :: a).length * nom := by push_cast [List.length_cons]; ring
    cases c
    · exact (ih (t + nom)).trans (by rw [hlen]; rfl)
    · exact (congrArg _ (ih (t + nom))).trans (by rw [hlen]; rfl)

theorem centres_length_le (nom t : Int) (cells : List Bool) : (centres nom t cells).length ≤ cells.length := by
  induction cells generalizing t with
  | nil => exact le_rfl
  | cons c cells ih =>
    cases c
    · exact (ih _).trans (Nat.le_succ _)
    · exact Nat.succ_le_succ (ih _)

/-- The centre of a cell lies inside it. -/
theorem half_nominal {nom : Int} (hnom : 100 ≤ nom) : 0 < tdiv nom 2 ∧ tdiv nom 2 < nom := by
  have h := tdiv_bounds_nonneg (a := nom) (b := 2) (by omega) (by decide)
  omega

theorem centres_bounds {nom t x : Int} (hnom : 100 ≤ nom) {cells : List Bool} (hx : x ∈ centres nom t cells) :
    t < x ∧ x < t + cells.length * nom := by
  have hhalf := half_nominal hnom
  induction cells generalizing t with
  | nil => cases hx
  | cons c cells ih =>
    have hlen : t + (c :: cells).length * nom = t + nom + cells.length * nom := by push_cast [List.length_cons]; ring
    have hrest : 0 ≤ (cells.length : Int) * nom := mul_nonneg (by omega) (by omega)
    rw [hlen]
    have htail : x ∈ centres nom (t + nom) cells → t < x ∧ x < t + nom + cells.length * nom := fun h => by
      have := ih h
      omega
    cases c
    · exact htail hx
    · rcases List.mem_cons.mp hx with rfl | hx
      · omega
      · exact htail hx

/-! ## Writing (R143, R184) -/

theorem writeCell_eq (s : State) (b : Bool) : writeCell s b = { s with pll := { s.pll with
    ctime := s.pll.ctime + s.pll.nominal
    writeBuffer := if b = true ∧ s.pll.writeBuffer.length < 32 then
      s.pll.writeBuffer ++ [s.pll.ctime + tdiv s.pll.nominal 2] else s.pll.writeBuffer } } := by
  rw [writeCell, writeBit_of_due le_rfl]
  rfl

/-- Cells written into a buffer with room for them. -/
theorem foldl_writeCell {s : State} {cells : List Bool} (hroom : s.pll.writeBuffer.length + cells.length ≤ 32) :
    cells.foldl writeCell s = { s with pll := { s.pll with
      ctime := s.pll.ctime + cells.length * s.pll.nominal
      writeBuffer := s.pll.writeBuffer ++ centres s.pll.nominal s.pll.ctime cells } } := by
  induction cells generalizing s with
  | nil => simp [centres]
  | cons c cells ih =>
    rw [List.length_cons] at hroom
    have hlen : s.pll.ctime + s.pll.nominal + cells.length * s.pll.nominal =
        s.pll.ctime + (c :: cells).length * s.pll.nominal := by push_cast [List.length_cons]; ring
    rw [List.foldl_cons, ih, writeCell_eq]
    · dsimp only
      rw [hlen]
      cases c
      · simp [centres]
      · simp [centres, show s.pll.writeBuffer.length < 32 by omega]
    · rw [writeCell_eq]
      dsimp only
      split
      · rw [List.length_append, List.length_singleton]
        omega
      · omega

/-- A write is open at the PLL's instant, with nothing buffered. -/
def WriteOpen (p : Pll) : Prop := p.writeStartTime = some p.ctime ∧ p.writeBuffer = []

/-- `cells` were written on drive `d` from the PLL's instant on: `s` became `u`. -/
structure Written (d : Drive) (s u : State) (cells : List Bool) : Prop where
  pll : u.pll = { s.pll with
    ctime := s.pll.ctime + cells.length * s.pll.nominal
    writeStartTime := some (s.pll.ctime + cells.length * s.pll.nominal) }
  attached : (u.units.get d).attached = true
  wf : FluxWf (u.units.get d).flux
  mem : ∀ x, x ∈ (u.units.get d).flux ↔
    (x ∈ (s.units.get d).flux ∧ ¬(s.pll.ctime ≤ x ∧ x < s.pll.ctime + cells.length * s.pll.nominal)) ∨
      x ∈ centres s.pll.nominal s.pll.ctime cells

theorem Written.opened {d : Drive} {s u : State} {cells : List Bool} (h : Written d s u cells) (hs : WriteOpen s.pll) :
    WriteOpen u.pll := by
  rw [h.pll]
  exact ⟨rfl, hs.2⟩

theorem Written.trans {d : Drive} {s u v : State} {a b : List Bool} (hnom : 100 ≤ s.pll.nominal) (h : Written d s u a)
    (k : Written d u v b) : Written d s v (a ++ b) := by
  have hctime : u.pll.ctime = s.pll.ctime + a.length * s.pll.nominal := by rw [h.pll]
  have hnominal : u.pll.nominal = s.pll.nominal := by rw [h.pll]
  have hlen : u.pll.ctime + b.length * u.pll.nominal = s.pll.ctime + (a ++ b).length * s.pll.nominal := by
    rw [hctime, hnominal]
    push_cast [List.length_append]
    ring
  have ha : 0 ≤ (a.length : Int) * s.pll.nominal := mul_nonneg (by omega) (by omega)
  have hb : 0 ≤ (b.length : Int) * s.pll.nominal := mul_nonneg (by omega) (by omega)
  refine ⟨?_, k.attached, k.wf, fun x => ?_⟩
  · rw [k.pll, hlen, h.pll]
  · have hin : x ∈ centres s.pll.nominal s.pll.ctime a → ¬(u.pll.ctime ≤ x) := fun hx =>
      not_le.mpr (hctime ▸ (centres_bounds hnom hx).2)
    rw [k.mem, h.mem, ← hlen, centres_append, List.mem_append, ← hctime, hnominal]
    have h1 : s.pll.ctime ≤ u.pll.ctime := by omega
    have h2 : u.pll.ctime ≤ u.pll.ctime + b.length * s.pll.nominal := by omega
    generalize u.pll.ctime + b.length * s.pll.nominal = stop at *
    generalize u.pll.ctime = mid at *
    by_cases hmid : mid ≤ x
    · have : s.pll.ctime ≤ x := h1.trans hmid
      have hout := fun hx => hin hx hmid
      have hlate : ¬ x < mid := hmid.not_gt
      tauto
    · have hearly : x < mid := not_le.mp hmid
      have : x < stop := hearly.trans_le h2
      tauto

/-- No cells: nothing was written. -/
theorem Written.nil {d : Drive} {s : State} (hopen : WriteOpen s.pll) (hattached : (s.units.get d).attached = true)
    (hwf : FluxWf (s.units.get d).flux) : Written d s s [] := by
  have hstop : s.pll.ctime + (([] : List Bool).length : Int) * s.pll.nominal = s.pll.ctime := by simp
  refine ⟨?_, hattached, hwf, fun x => ?_⟩
  · rw [hstop, ← hopen.1]
  · rw [hstop]
    simp only [centres, List.not_mem_nil, or_false]
    exact (and_iff_left (by omega)).symm

/-- One byte and its commit: the interval of its cells is replaced. -/
theorem written_byte {d : Drive} {s : State} {cells : List Bool} (hnom : 100 ≤ s.pll.nominal) (hopen : WriteOpen s.pll)
    (hattached : (s.units.get d).attached = true) (hwf : FluxWf (s.units.get d).flux) (hlen : cells.length ≤ 16) :
    Written d s (writeByteCells d s cells) cells := by
  rcases Nat.eq_zero_or_pos cells.length with hzero | hpos
  · obtain rfl := List.length_eq_zero_iff.mp hzero
    have hsame : writeByteCells d s [] = s := commitWrite_of_start hopen.1
    rw [hsame]
    exact Written.nil hopen hattached hwf
  · obtain ⟨hstart, hempty⟩ := hopen
    have hfold : cells.foldl writeCell s = { s with pll := { s.pll with
        ctime := s.pll.ctime + cells.length * s.pll.nominal
        writeBuffer := centres s.pll.nominal s.pll.ctime cells } } := by
      rw [foldl_writeCell (by rw [hempty, List.length_nil]; omega), hempty, List.nil_append]
    have hpll := congrArg State.pll hfold
    have hunits := congrArg State.units hfold
    rw [writeByteCells]
    generalize cells.foldl writeCell s = b at hpll hunits ⊢
    dsimp only at hpll hunits
    have hspan : 0 < (cells.length : Int) * s.pll.nominal := mul_pos (by omega) (by omega)
    have hbstart : b.pll.writeStartTime = some s.pll.ctime := by rw [hpll]; exact hstart
    have hbctime : b.pll.ctime = s.pll.ctime + cells.length * s.pll.nominal := by rw [hpll]
    have hbuffer : b.pll.writeBuffer = centres s.pll.nominal s.pll.ctime cells := by rw [hpll]
    obtain ⟨hattached', hflux⟩ := writeFlux_flux (s := b) (w := s.pll.ctime) (t := b.pll.ctime) (ts := b.pll.writeBuffer)
      (hunits ▸ hattached)
    rw [commitWrite_of_later hbstart (by omega)]
    refine ⟨?_, hattached', ?_, fun x => ?_⟩
    · rw [hpll, ← hempty]
    · show FluxWf ((b.writeFlux d s.pll.ctime b.pll.ctime b.pll.writeBuffer).units.get d).flux
      rw [hflux, hunits]
      exact fluxReplace_wf hwf _ _ _
    · show x ∈ ((b.writeFlux d s.pll.ctime b.pll.ctime b.pll.writeBuffer).units.get d).flux ↔ _
      rw [hflux, hunits, mem_fluxReplace, hbuffer, hbctime]
      refine or_congr_right (and_iff_left_of_imp fun hx => ?_)
      obtain ⟨hlow, hhigh⟩ := centres_bounds hnom hx
      exact ⟨hlow.le, hhigh⟩

theorem written_bytes {d : Drive} {s : State} {bytes : List (List Bool)} (hnom : 100 ≤ s.pll.nominal)
    (hopen : WriteOpen s.pll) (hattached : (s.units.get d).attached = true) (hwf : FluxWf (s.units.get d).flux)
    (hlen : ∀ c ∈ bytes, c.length ≤ 16) : Written d s (bytes.foldl (writeByteCells d) s) bytes.flatten := by
  induction bytes generalizing s with
  | nil => exact Written.nil hopen hattached hwf
  | cons c bytes ih =>
    have hbyte := written_byte hnom hopen hattached hwf (hlen c List.mem_cons_self)
    have hnominal : (writeByteCells d s c).pll.nominal = s.pll.nominal := by rw [hbyte.pll]
    exact hbyte.trans hnom (ih (hnominal ▸ hnom) (hbyte.opened hopen) hbyte.attached hbyte.wf fun c' hc' =>
      hlen c' (List.mem_cons_of_mem c hc'))

/-! ## Reading what was written (R135) -/

theorem clamp_of_mem {x lo hi : Int} (hlo : lo ≤ x) (hhi : x ≤ hi) : clamp x lo hi = x := by
  rw [clamp, if_neg hlo.not_gt, if_neg hhi.not_gt]

/-- The window of a PLL in step with nominal cells is the cell. -/
theorem windowEnd_of_nominal {p : Pll} (hperiod : p.period = p.nominal) (hphase : p.phaseAdjust = 0) :
    pllWindowEnd p = p.ctime + p.nominal := by
  rw [pllWindowEnd, hphase, hperiod, Int.add_zero]

/-- An edge in the centre of a nominal window is at most the truncation of half a period early, which corrects neither
phase nor period. -/
theorem pllCorrect_centre {p : Pll} (h : PllInv p) (hperiod : p.period = p.nominal) (hphase : p.phaseAdjust = 0) :
    ∃ hist, pllCorrect p (p.ctime + tdiv p.period 2) = { p with ctime := p.ctime + p.nominal, freqHist := hist } := by
  have hnom := h.nominal_ge
  have hend := windowEnd_of_nominal hperiod hphase
  have hhalf := tdiv_bounds_nonneg (a := p.period) (b := 2) (by omega) (by decide)
  have hdelta : pllDelta p (p.ctime + tdiv p.period 2) = 0 ∨ pllDelta p (p.ctime + tdiv p.period 2) = -1 := by
    rw [pllDelta, hend]
    omega
  refine ⟨pllFreqHist p.freqHist (pllDelta p (p.ctime + tdiv p.period 2)), ?_⟩
  rw [pllCorrect, hend]
  generalize pllDelta p (p.ctime + tdiv p.period 2) = delta at hdelta ⊢
  have hturn : tdiv (delta * pllPhaseNum) 100 = 0 := by
    rcases hdelta with rfl | rfl <;> decide
  have hbase := tdiv_bounds_nonneg (a := p.nominal * pllFreqNum) (b := 100) (by unfold pllFreqNum; omega) (by decide)
  rw [← h.base_eq, pllFreqNum] at hbase
  have hsmall : tdiv p.periodAdjustBase p.period = 0 := Int.tdiv_eq_zero_of_lt hbase.2.2 (by omega)
  have hmoved : tdiv (p.periodAdjustBase * delta) p.period = 0 := by
    rcases hdelta with rfl | rfl
    · rw [mul_zero]
      exact Int.zero_tdiv _
    · rw [mul_neg_one, tdiv_neg_left, hsmall, neg_zero]
  have hstays (hist : Int) : pllPeriod p hist delta = p.period := by
    rw [pllPeriod, hmoved, Int.add_zero, clamp_of_mem h.period_ge h.period_le, ite_self]
  rw [hturn, hstays, ← hphase]

/-- A window without an edge passes a nominal cell. -/
theorem nextBit_zero_cell {p : Pll} {e : Option Int} (hperiod : p.period = p.nominal) (hphase : p.phaseAdjust = 0)
    (hlate : ∀ x, e = some x → p.ctime + p.nominal ≤ x) :
    nextBit p e (pllWindowEnd p) = some (false, { p with ctime := p.ctime + p.nominal }) := by
  have hend := windowEnd_of_nominal hperiod hphase
  rw [nextBit_free_run le_rfl (by rwa [hend]), hend, ← hphase]

/-- A PLL in step with nominal cells reads the centres of a run of cells as that run. -/
theorem readCells_of_centres {f : List Int} {cells : List Bool} {p : Pll} (h : PllInv p) (hperiod : p.period = p.nominal)
    (hphase : p.phaseAdjust = 0) (hf : FluxWf f)
    (hspan : ∀ x, p.ctime ≤ x → x < p.ctime + cells.length * p.nominal →
      (x ∈ f ↔ x ∈ centres p.nominal p.ctime cells)) :
    (readCells f cells.length p).1 = cells ∧
      (readCells f cells.length p).2.ctime = p.ctime + cells.length * p.nominal := by
  induction cells generalizing p with
  | nil => simp [readCells]
  | cons c cells ih =>
    have hnom := h.nominal_ge
    have hhalf := half_nominal hnom
    have hrest : 0 ≤ (cells.length : Int) * p.nominal := mul_nonneg (by omega) (by omega)
    have hlen : p.ctime + (c :: cells).length * p.nominal = p.ctime + p.nominal + cells.length * p.nominal := by
      push_cast [List.length_cons]
      ring
    rw [hlen] at hspan ⊢
    have hlate {x : Int} (hx : x ∈ centres p.nominal (p.ctime + p.nominal) cells) : p.ctime + p.nominal < x :=
      (centres_bounds hnom hx).1
    obtain ⟨hist, hbit⟩ : ∃ hist, nextBit p (fluxAfter f p.ctime) (pllWindowEnd p) =
        some (c, { p with ctime := p.ctime + p.nominal, freqHist := hist }) := by
      cases c
      · refine ⟨p.freqHist, nextBit_zero_cell hperiod hphase fun x hx => ?_⟩
        obtain ⟨hmem, hafter, -⟩ := (fluxAfter_eq_some_iff hf _ _).mp hx
        by_contra hin
        have := hlate ((hspan x hafter.le (by omega)).mp hmem)
        omega
      · obtain ⟨hist, hcorrect⟩ := pllCorrect_centre h hperiod hphase
        have hnext : fluxAfter f p.ctime = some (p.ctime + tdiv p.period 2) := by
          rw [fluxAfter_eq_some_iff hf, hperiod]
          refine ⟨(hspan _ (by omega) (by omega)).mpr List.mem_cons_self, by omega, fun x hx hafter => ?_⟩
          by_contra hearly
          rcases List.mem_cons.mp ((hspan x (by omega) (by omega)).mp hx) with rfl | hin
          · omega
          · have := hlate hin
            omega
        refine ⟨hist, ?_⟩
        rw [hnext, nextBit_edge le_rfl (by rw [windowEnd_of_nominal hperiod hphase, hperiod]; omega), hcorrect]
    rw [List.length_cons, readCells, hbit]
    obtain ⟨hcells, hctime⟩ := ih (p := { p with ctime := p.ctime + p.nominal, freqHist := hist })
      ⟨hnom, h.base_eq, h.min_eq, h.max_eq, h.period_ge, h.period_le, h.phase_ge, h.phase_le⟩ hperiod hphase
      (fun x hlow hhigh => by
        dsimp only at hlow hhigh ⊢
        rw [hspan x (by omega) (by omega)]
        cases c
        · exact Iff.rfl
        · rw [centres, List.mem_cons]
          exact or_iff_right (by omega))
    exact ⟨congrArg _ hcells, hctime⟩

/-- The stream written on a medium, then read from it. -/
theorem writeStream_reads_back {d : Drive} {s : State} {nom t : Int} {bytes : List (List Bool)} (hnom : 100 ≤ nom)
    (hattached : (s.units.get d).attached = true) (hwf : FluxWf (s.units.get d).flux)
    (hlen : ∀ c ∈ bytes, c.length ≤ 16) :
    let w := writeStream d bytes { s with pll := pllSetClock (pllReset s.pll t) nom }
    let stop := t + (bytes.flatten.length : Int) * nom
    w.pll = { clockedPll t nom with ctime := stop } ∧ FluxWf (w.units.get d).flux ∧
      ∀ x, x ∈ (w.units.get d).flux ↔
        (x ∈ (s.units.get d).flux ∧ ¬(t ≤ x ∧ x < stop)) ∨ x ∈ centres nom t bytes.flatten := by
  intro w stop
  have hwritten := written_bytes (s := { s with pll := pllStartWriting (clockedPll t nom) t }) (bytes := bytes) hnom
    ⟨rfl, rfl⟩ hattached hwf hlen
  have hw : w = stopWriting d (bytes.foldl (writeByteCells d)
    { s with pll := pllStartWriting (clockedPll t nom) t }).pll.ctime (bytes.foldl (writeByteCells d)
    { s with pll := pllStartWriting (clockedPll t nom) t }) := rfl
  generalize bytes.foldl (writeByteCells d) _ = u at hwritten hw
  rw [hw, stopWriting, commitWrite_of_start (by rw [hwritten.pll])]
  refine ⟨?_, hwritten.wf, hwritten.mem⟩
  rw [hwritten.pll]
  rfl

/-- Settles O50: the four operations, and the stream read back from its centres. -/
theorem pllReadsWrittenCells : Obligations.PllReadsWrittenCells := by
  refine ⟨fun _ _ _ => ⟨writeBit_of_early, writeBit_of_due⟩, fun _ _ => rfl,
    fun d t s => ⟨fun h => ?same, fun w h hne => ?later, rfl⟩, ?stream⟩
  case same =>
    rcases h with h | h
    · exact commitWrite_of_closed h
    · exact commitWrite_of_start h
  case later =>
    rw [commitWrite_of_later h hne]
    exact congrArg (fun units => { s with
      pll := { s.pll with writeStartTime := some t, writeBuffer := [] }
      units := units
      outs := s.outs ++ [Output.writeFlux d w t s.pll.writeBuffer] }) (writeFlux_units ..)
  case stream =>
    intro d s nom t bytes hnom hattached hwf hlen cells stop w r
    obtain ⟨hpll, hflux, hmem⟩ := writeStream_reads_back (t := t) hnom hattached hwf hlen
    have hread : r.1 = cells ∧ r.2.ctime = stop := readCells_of_centres (p := clockedPll t nom)
      (clockedPll_inv hnom) rfl rfl hflux fun x hlow hhigh => by
        rw [hmem]
        exact or_iff_right fun hout => hout.2 ⟨hlow, hhigh⟩
    refine ⟨hread.1, hread.2, by rw [hpll], by rw [hpll]; rfl, by rw [hpll]; rfl, fun x hx => ?_⟩
    have hnotWritten : x ∉ centres nom t cells := fun hin => by
      obtain ⟨hlow, hhigh⟩ := centres_bounds hnom hin
      exact hx.elim hlow.not_gt hhigh.not_ge
    have houtside : ¬(t ≤ x ∧ x < stop) := fun hin => hx.elim hin.1.not_gt hin.2.not_ge
    rw [hmem, or_iff_left hnotWritten]
    exact and_iff_left houtside

end Sys2Proof.Proofs
end

section
/-! PROOFS. The handlers that write no flux: they leave every flux list as it is and the PLL of a running transfer within its
bounds (spec/20_memory.md R87, spec/40_pll.md R140). -/

namespace Sys2Proof.Proofs

open Sys2Proof.Machine Sys2Proof.Claims

/-! ## What such a handler does -/

/-- What the media and the PLL of a running transfer depend on. -/
def transferPart (s : State) := (s.units, s.pll, s.live, s.now)

/-- From `s` to `t` no flux changed, time stood, and the PLL of a running transfer kept its bounds. -/
structure Quiet (s t : State) : Prop where
  now : t.now = s.now
  flux : ∀ d head, fluxOn t d head = fluxOn s d head
  run : RunningPll s → RunningPll t

/-- The next state of an answer is quiet. -/
def QuietAnswer (s : State) (r : Result) : Prop := ∀ t, r = .next t → Quiet s t

theorem Quiet.of_eq {s t : State} (h : transferPart t = transferPart s) : Quiet s t := by
  obtain ⟨hunits, hpll, hlive, hnow⟩ : t.units = s.units ∧ t.pll = s.pll ∧ t.live = s.live ∧ t.now = s.now := by
    simpa [transferPart] using h
  refine ⟨hnow, fun d head => ?_, fun hrun => ?_⟩
  · rw [fluxOn, hunits]
    rfl
  · rwa [RunningPll, hlive, hpll]

theorem Quiet.refl (s : State) : Quiet s s := .of_eq rfl

theorem Quiet.trans {s t u : State} (h : Quiet s t) (k : Quiet t u) : Quiet s u :=
  ⟨k.now.trans h.now, fun d head => (k.flux d head).trans (h.flux d head), k.run ∘ h.run⟩

theorem Quiet.ite {s t u : State} {p : Prop} [Decidable p] (h : Quiet s t) (k : Quiet s u) :
    Quiet s (if p then t else u) := by
  split
  · exact h
  · exact k

theorem QuietAnswer.next {s t : State} (h : Quiet s t) : QuietAnswer s (.next t) := by
  rintro _ ⟨⟩
  exact h

theorem QuietAnswer.refused (s : State) (r : Refusal) : QuietAnswer s (.refused r) := by
  rintro _ ⟨⟩

theorem QuietAnswer.ite {s : State} {r q : Result} {p : Prop} [Decidable p] (h : QuietAnswer s r) (k : QuietAnswer s q) :
    QuietAnswer s (if p then r else q) := by
  split
  · exact h
  · exact k

/-- A quiet change and then a quiet answer. -/
theorem Quiet.then {s t : State} {r : Result} (h : Quiet s t) (k : QuietAnswer t r) : QuietAnswer s r := fun u hu =>
  h.trans (k u hu)

/-- `Quiet.then` where the first change touches nothing of the transfer. -/
theorem QuietAnswer.after {s t : State} {r : Result} (k : QuietAnswer t r) (h : transferPart t = transferPart s) :
    QuietAnswer s r := (Quiet.of_eq h).then k

/-- `Quiet.trans` where the first change touches nothing of the transfer. -/
theorem Quiet.after {s t u : State} (k : Quiet t u) (h : transferPart t = transferPart s) : Quiet s u :=
  (Quiet.of_eq h).trans k

/-! ## The calls on a drive and the transfer's control -/

/-- The flux of a unit on one head. -/
def headFlux (u : DriveUnit) (head : Bool) : List Int := if head then u.flux1 else u.flux0

theorem fluxOn_eq_headFlux (s : State) (d : Drive) (head : Bool) : fluxOn s d head = headFlux (s.units.get d) head := rfl

/-- A change of a unit that keeps its flux on a head. -/
theorem fluxOn_updUnit {s : State} {d : Drive} {f : DriveUnit → DriveUnit} {head : Bool}
    (hf : headFlux (f (s.units.get d)) head = headFlux (s.units.get d) head) (e : Drive) :
    fluxOn (s.updUnit d f) e head = fluxOn s e head := by
  rw [fluxOn_eq_headFlux, State.updUnit, Slots.get_set]
  split
  · next he => rw [hf, he, fluxOn_eq_headFlux]
  · rfl

/-- The head select changes no flux (R351). -/
theorem selectSide_quiet (s : State) (d : Drive) (head : Bool) : Quiet s (s.selectSide d head) := by
  refine ⟨rfl, fun e side => fluxOn_updUnit (s := s) ?_ e, id⟩
  split <;> rfl

theorem cellPeriod_ge (sel : BitVec 2) (mfm : Bool) : 100 ≤ cellPeriod sel mfm := by
  cases mfm <;> revert sel <;> decide

/-- A transfer starts with a PLL within its bounds (R190). -/
theorem startPll_inv (st : LiveState) (s : State) : PllInv (startPll st s) := by
  obtain ⟨hnom, hbase, hmin, hmax, hge, hle, hphaseGe, hphaseLe⟩ :=
    clockedPll_inv (t := s.now) (cellPeriod_ge s.rateSel s.cur.mf)
  rw [startPll_eq]
  exact ⟨hnom, hbase, hmin, hmax, hge, hle, hphaseGe, hphaseLe⟩

theorem liveStart_quiet (d : Drive) (st : LiveState) (s : State) : QuietAnswer s (liveStart d st s) :=
  .ite (.refused s _) (.next ⟨rfl, fun _ _ => rfl, fun _ _ => startPll_inv st s⟩)

theorem dropLive_quiet (d : Drive) (s : State) : Quiet s (dropLive d s) :=
  ⟨rfl, fun _ _ => rfl, fun _ h => absurd h Bool.false_ne_true⟩

/-- The registers of a running transfer stored back. -/
theorem setLive_quiet {s : State} (hlive : s.live.isSome = true) (L : LiveTransfer) : Quiet s (s.setLive L) :=
  ⟨rfl, fun _ _ => rfl, fun h _ => h hlive⟩

/-! ## The FIFO and the termination of a command -/

theorem fifoExpect_part (n : Nat) (s : State) : transferPart (fifoExpect n s) = transferPart s := by
  rw [fifoExpect]
  split <;> rfl

theorem enginePush_part (v : Byte) (s : State) : transferPart (enginePush v s) = transferPart s := by
  rw [enginePush]
  split <;> rfl

theorem dataByte_part (s : State) : transferPart (dataByte s).2 = transferPart s := by
  unfold dataByte enginePop
  split
  · rfl
  · split <;> rfl

theorem hostPush_part (v : Byte) (s : State) : transferPart (hostPush v s) = transferPart s := by
  rw [hostPush]
  split
  · rfl
  · split <;> rfl

theorem finishResult_part (d : Drive) (s : State) : transferPart (finishResult d s) = transferPart s := by
  have habnormal : transferPart (abnormalOnOverrun d s) = transferPart s := by
    rw [abnormalOnOverrun]
    split <;> rfl
  exact habnormal

theorem commandDone_part (d : Drive) (s : State) : transferPart (commandDone d s) = transferPart s := by
  rw [commandDone]
  split
  · rfl
  · exact finishResult_part d s

theorem resultRead_part (s : State) : transferPart (resultRead s).2 = transferPart s := by
  unfold resultRead
  split <;> rfl

theorem hostPop_part (s : State) : transferPart (hostPop s).2 = transferPart s := by
  have htake : transferPart (hostTake s).2 = transferPart s := by
    unfold hostTake
    split <;> rfl
  have hrelinquish (u : State) : transferPart (relinquish u) = transferPart u := by
    rw [relinquish]
    split <;> rfl
  have hdrain (u : State) : transferPart (finishDrain u) = transferPart u := by
    rw [finishDrain]
    split
    · exact finishResult_part _ u
    · rfl
  unfold hostPop
  split
  · rfl
  · exact (hdrain _).trans ((hrelinquish _).trans htake)

theorem commandDone_quiet (d : Drive) (s : State) : Quiet s (commandDone d s) := .of_eq (commandDone_part d s)

/-! ## Stepping -/

theorem runSeekDone_quiet (d : Drive) (s : State) : QuietAnswer s (runSeekDone d s) :=
  .ite (.next (commandDone_quiet d s)) (.ite (.next (.of_eq rfl)) ((liveStart_quiet d _ _).after rfl))

theorem seekFinish_quiet (d : Drive) (ok : Bool) (s : State) : QuietAnswer s (seekFinish d ok s) := by
  have hend (u : State) : transferPart (seekEnd d ok u) = transferPart u := by
    have hfailed : transferPart (if ok then u.setSt0 d .se else (u.setSt0 d .se).setIC d icAbnormal) = transferPart u := by
      split <;> rfl
    exact hfailed
  exact .ite (.next (.of_eq (hend _))) ((runSeekDone_quiet d _).after rfl)

theorem stepPulse_quiet (d : Drive) (dir : Dir) (s : State) : Quiet s (stepPulse d dir s) := .of_eq rfl

theorem moveRecalibrate_quiet (d : Drive) (s : State) : QuietAnswer s (moveRecalibrate d s) :=
  .ite ((seekFinish_quiet d true _).after rfl) (.ite ((seekFinish_quiet d false _).after rfl)
    (.next ((stepPulse_quiet d _ _).after rfl)))

theorem runMove_quiet (d : Drive) (s : State) : QuietAnswer s (runMove d s) :=
  .ite (moveRecalibrate_quiet d s) (.ite (seekFinish_quiet d true s) (.next (stepPulse_quiet d _ s)))

theorem runHeadLoadSettle_quiet (d : Drive) (s : State) : QuietAnswer s (runHeadLoadSettle d s) :=
  .ite ((runMove_quiet d _).after rfl) ((runSeekDone_quiet d _).after rfl)

theorem driveTimerExpiry_quiet (d : Drive) (s : State) : QuietAnswer s (driveTimerExpiry d s) := by
  unfold driveTimerExpiry
  split
  · exact .next (.of_eq rfl)
  · exact (runMove_quiet d _).after rfl
  · exact .next (.of_eq rfl)

theorem startSeek_quiet (m : MainState) (target : Byte) (s : State) : QuietAnswer s (startSeek m target s) :=
  .ite ((runMove_quiet _ _).after rfl) ((seekFinish_quiet _ false _).after rfl)

/-! ## The state machines of the commands -/

theorem startPrepare_quiet (s : State) : Quiet s (startPrepare s) := (selectSide_quiet _ _ _).after rfl

theorem startRW_quiet (s : State) : QuietAnswer s (startRW s) :=
  (startPrepare_quiet s).then (.ite (.next ((commandDone_quiet _ _).after rfl))
    (.ite (.next ((commandDone_quiet _ _).after rfl)) ((runHeadLoadSettle_quiet _ _).after rfl)))

theorem advance_quiet (s : State) : Quiet s (advance s).2 := by
  have hwrap (u : State) : Quiet u (wrapSector u) := .ite ((selectSide_quiet _ _ _).after rfl) (.of_eq rfl)
  have hend (u : State) : Quiet u (endOfCylinder u) := .ite (.of_eq rfl) (.of_eq rfl)
  have hnext : Quiet s (nextR s) := .of_eq rfl
  unfold advance
  dsimp only
  split
  · split
    · exact (hnext.trans (hwrap _)).trans (hend _)
    · exact hnext.trans (hwrap _)
  · exact hnext

theorem onHeaderReadRW_quiet (d : Drive) (L : LiveTransfer) (s : State) : QuietAnswer s (onHeaderReadRW d L s) := by
  have hwrong (u : State) : transferPart (wrongCylinder d L.idbuf.c u) = transferPart u := by
    unfold wrongCylinder
    dsimp only
    split <;> rfl
  unfold onHeaderReadRW
  refine .ite (.next ((commandDone_quiet d _).after rfl)) (.ite (.next ((commandDone_quiet d _).after (hwrong _)))
    (.ite ((liveStart_quiet d _ _).after rfl) (.ite ((liveStart_quiet d _ _).after rfl) ?_)))
  exact (liveStart_quiet d _ _).after (fifoExpect_part _ _)

theorem onHeaderReadTrack_quiet (d : Drive) (L : LiveTransfer) (s : State) : QuietAnswer s (onHeaderReadTrack d L s) := by
  have hnoted (u : State) (p : Prop) [Decidable p] (b : St1Bit) :
      transferPart (if p then (u.setSt1 b).setIC d icAbnormal else u) = transferPart u := by
    split <;> rfl
  exact (liveStart_quiet d _ _).after ((hnoted _ _ .nd).trans (hnoted (noteHeader L s) _ .de))

theorem onHeaderReadId_quiet (d : Drive) (L : LiveTransfer) (s : State) : QuietAnswer s (onHeaderReadId d L s) := by
  have hnoted (u : State) (p : Prop) [Decidable p] :
      transferPart (if p then (u.setSt1 .de).setIC d icAbnormal else u) = transferPart u := by
    split <;> rfl
  exact .next ((commandDone_quiet d _).after (hnoted _ _))

theorem nextSector_quiet (d : Drive) (done : Bool) (s : State) : QuietAnswer s (nextSector d done s) :=
  .ite (.next (commandDone_quiet d s)) ((runSeekDone_quiet d _).after rfl)

theorem onFieldReadRW_quiet (d : Drive) (L : LiveTransfer) (s : State) : QuietAnswer s (onFieldReadRW d L s) := by
  have hcrc (u : State) : Quiet u (if L.crc ≠ 0 then dataCrcError d u else u) := .ite (.of_eq rfl) (.refl u)
  have hmark (u : State) : Quiet u (if markMismatch u L.markDeleted then u.setSt2 .cm else u) := .ite (.of_eq rfl) (.refl u)
  have h : Quiet s _ := Quiet.after ((hmark (flushRequest s)).trans (hcrc _)) rfl
  exact .ite (.next (h.trans (commandDone_quiet d _))) ((h.trans (advance_quiet _)).then (nextSector_quiet d _ _))

theorem onFieldReadTrack_quiet (d : Drive) (L : LiveTransfer) (s : State) : QuietAnswer s (onFieldReadTrack d L s) := by
  have hcrc : transferPart (if L.crc ≠ 0 then dataCrcError d (flushRequest s) else flushRequest s) = transferPart s := by
    split <;> rfl
  exact .ite (.next ((commandDone_quiet d _).after hcrc)) ((liveStart_quiet d _ _).after hcrc)

theorem onFieldWritten_quiet (d : Drive) (s : State) : QuietAnswer s (onFieldWritten d s) :=
  (Quiet.after (s := s) (advance_quiet (fifoStopExpect s)) rfl).then (nextSector_quiet d _ _)

/-- A report ends the transfer, and the reaction may start the next one. -/
theorem report_quiet (e : EngineEvent) (L : LiveTransfer) (s : State) : QuietAnswer s (report e L s) := by
  refine (dropLive_quiet L.drive s).then ?_
  unfold report
  dsimp only
  split
  · exact onHeaderReadRW_quiet _ L _
  · exact onHeaderReadRW_quiet _ L _
  · exact onHeaderReadTrack_quiet _ L _
  · exact onHeaderReadId_quiet _ L _
  · exact .next ((commandDone_quiet _ _).after rfl)
  · exact (liveStart_quiet _ _ _).after rfl
  · exact onFieldReadRW_quiet _ L _
  · exact onFieldReadTrack_quiet _ L _
  · exact onFieldWritten_quiet _ _
  · exact .next (.refl _)

/-! ## The engine's reading and choosing -/

theorem deliverByte_part (L : LiveTransfer) (s : State) : transferPart (deliverByte L s) = transferPart s := by
  have hpushed : transferPart (if L.suppress = true ∨ s.tcCut = true then s else enginePush L.dataReg s) =
      transferPart s := by
    split
    · rfl
    · exact enginePush_part _ _
  rw [deliverByte_eq]
  exact hpushed

section engine

variable {s : State} (hlive : s.live.isSome = true)

include hlive

theorem deliverByte_quiet (L M : LiveTransfer) : Quiet s (deliverByte L (s.setLive M)) :=
  (setLive_quiet hlive M).trans (.of_eq (deliverByte_part L _))

theorem sectorByte_quiet (L : LiveTransfer) : QuietAnswer s (sectorByte L s) :=
  .ite (.next (deliverByte_quiet hlive L L)) (.ite (report_quiet _ _ s) (.next (setLive_quiet hlive L)))

theorem skipGap2_quiet (L : LiveTransfer) : Quiet s (skipGap2 L s) := by
  refine .ite ⟨rfl, fun _ _ => rfl, fun h _ => ?_⟩ (setLive_quiet hlive L)
  obtain ⟨hnom, hbase, hmin, hmax, hge, hle, hphaseGe, hphaseLe⟩ := h hlive
  exact ⟨hnom, hbase, hmin, hmax, hge, hle, hphaseGe, hphaseLe⟩

theorem afterCell_quiet (L : LiveTransfer) : QuietAnswer s (afterCell L s) := by
  have hset (M : LiveTransfer) : QuietAnswer s (.next (s.setLive M)) := .next (setLive_quiet hlive M)
  unfold afterCell
  split
  · exact hset _
  · exact hset _
  · exact .ite (.ite (report_quiet _ _ s) (hset _)) (hset _)
  · exact .ite (report_quiet _ _ s) (hset _)
  · exact hset _
  · exact .ite (sectorByte_quiet hlive L) (hset _)
  · exact .next (skipGap2_quiet hlive L)
  · exact hset _
  · exact hset _
  · exact hset _
  · exact hset _
  · exact hset _

/-- What a choice of a byte stores back, after operations on the FIFO and the command record only. -/
theorem setLive_quiet_after {u : State} (h : transferPart u = transferPart s) (L : LiveTransfer) :
    Quiet s (u.setLive L) := by
  have hulive : u.live = s.live := congrArg (·.2.2.1) h
  exact (setLive_quiet (hulive ▸ hlive) L).after h

theorem choosePreamble_quiet (L : LiveTransfer) : Quiet s (choosePreamble L s) := by
  refine .ite (setLive_quiet_after hlive ?_ _) (setLive_quiet hlive _)
  split
  · exact fifoExpect_part 4 s
  · rfl

theorem sectorEnd_quiet (L : LiveTransfer) : Quiet s (sectorEnd L s) := by
  refine .ite (setLive_quiet_after hlive ?_ _) (setLive_quiet_after hlive ?_ _)
  · exact fifoExpect_part 4 _
  · rfl

theorem chooseTrackSector_quiet (L : LiveTransfer) : Quiet s (chooseTrackSector L s) := by
  have hset (M : LiveTransfer) : Quiet s (s.setLive M) := setLive_quiet hlive M
  have hid (i : Nat) : transferPart (idByte i s).2 = transferPart s := by
    rw [idByte_eq]
    exact dataByte_part s
  exact .ite (hset _) (.ite (setLive_quiet_after hlive (hid _) _) (.ite (hset _) (.ite (hset _) (.ite (hset _)
    (.ite (hset _) (.ite (hset _) (.ite (hset _) (sectorEnd_quiet hlive L))))))))

end engine

/-! ## The other events -/

theorem pollExpiry_quiet (s : State) : Quiet s (pollExpiry s) := .ite (.of_eq rfl) (.ite (.of_eq rfl) (.of_eq rfl))

theorem hostReadData_part (s : State) : transferPart (hostReadData s).2 = transferPart s := by
  unfold hostReadData
  split
  · exact resultRead_part s
  · split
    · exact hostPop_part s
    · rfl
  · rfl

theorem dmaRead_part (s : State) : transferPart (dmaRead s).2 = transferPart s := by
  unfold dmaRead
  split
  · exact hostPop_part s
  · rfl

theorem dmaWrite_part (v : Byte) (s : State) : transferPart (dmaWrite v s) = transferPart s := by
  unfold dmaWrite
  split
  · exact hostPush_part v s
  · rfl

theorem answer_quiet {s : State} {r : Byte × State} (h : transferPart r.2 = transferPart s) : QuietAnswer s (answer r) :=
  .next (.of_eq h)

theorem hostRead_quiet (reg : HostReg) (s : State) : QuietAnswer s (hostRead reg s) := by
  cases reg with
  | data => exact answer_quiet (hostReadData_part s)
  | extended => exact .refused s _
  | _ => exact answer_quiet rfl

/-- A change of a Drive's lines. -/
theorem setLines_quiet (d : Drive) (a r z w x : Bool) (s : State) : Quiet s (setLines d a r z w x s) :=
  ⟨rfl, fun e _ => fluxOn_updUnit rfl e, id⟩

end Sys2Proof.Proofs
end

section
/-! PROOFS. Every step writes the media only inside an open write span, up to its instant, and keeps the PLL of a running
transfer within its bounds (spec/20_memory.md R87, spec/40_pll.md R140, R142). -/

namespace Sys2Proof.Proofs

open Sys2Proof.Machine Sys2Proof.Claims

/-! ## What a handler may do to a medium -/

/-- The flux of drive `d` on a head changed at most inside the write span open there, before the present instant. -/
def WithinSpan (s t : State) (d : Drive) (head : Bool) : Prop :=
  fluxOn t d head = fluxOn s d head ∨
    ∃ w, WritingSince s d head w ∧ ∀ x, x < w ∨ s.now ≤ x → (x ∈ fluxOn t d head ↔ x ∈ fluxOn s d head)

/-- From `s` to `t` the media changed within spans only, time stood, and the PLL of a running transfer kept its bounds. -/
structure Recorded (s t : State) : Prop where
  now : t.now = s.now
  flux : ∀ d head, WithinSpan s t d head
  run : RunningPll s → RunningPll t

/-- The next state of an answer is recorded. -/
def RecordedAnswer (s : State) (r : Result) : Prop := ∀ t, r = .next t → Recorded s t

theorem Recorded.of_quiet {s t : State} (h : Quiet s t) : Recorded s t :=
  ⟨h.now, fun d head => .inl (h.flux d head), h.run⟩

theorem Recorded.of_eq {s t : State} (h : transferPart t = transferPart s) : Recorded s t := .of_quiet (.of_eq h)

theorem Recorded.refl (s : State) : Recorded s s := .of_eq rfl

/-- A write of the media and then a quiet change. -/
theorem Recorded.trans {s t u : State} (h : Recorded s t) (k : Quiet t u) : Recorded s u := by
  refine ⟨k.now.trans h.now, fun d head => ?_, k.run ∘ h.run⟩
  have hsame := k.flux d head
  exact (h.flux d head).imp hsame.trans fun ⟨w, hw, hmem⟩ => ⟨w, hw, fun x hx => by rw [hsame, hmem x hx]⟩

/-- A change that touches nothing of the transfer, and then a write of the media. -/
theorem Recorded.after {s t u : State} (k : Recorded t u) (h : transferPart t = transferPart s) : Recorded s u := by
  obtain ⟨hunits, hpll, hlive, hnow⟩ : t.units = s.units ∧ t.pll = s.pll ∧ t.live = s.live ∧ t.now = s.now := by
    simpa [transferPart] using h
  have hflux (d : Drive) (head : Bool) : fluxOn t d head = fluxOn s d head := (Quiet.of_eq h).flux d head
  have hspan (d : Drive) (head : Bool) (w : Int) : WritingSince t d head w ↔ WritingSince s d head w := by
    rw [WritingSince, hunits, hpll, hlive]
    rfl
  refine ⟨k.now.trans hnow, fun d head => ?_, k.run ∘ (Quiet.of_eq h).run⟩
  refine (k.flux d head).imp (·.trans (hflux d head)) fun ⟨w, hw, hmem⟩ =>
    ⟨w, (hspan d head w).mp hw, fun x hx => ?_⟩
  rw [hmem x (hnow ▸ hx), hflux]

theorem Recorded.ite {s t u : State} {p : Prop} [Decidable p] (h : Recorded s t) (k : Recorded s u) :
    Recorded s (if p then t else u) := by
  split
  · exact h
  · exact k

theorem RecordedAnswer.next {s t : State} (h : Recorded s t) : RecordedAnswer s (.next t) := by
  rintro _ ⟨⟩
  exact h

theorem RecordedAnswer.of_quiet {s : State} {r : Result} (h : QuietAnswer s r) : RecordedAnswer s r := fun t ht =>
  .of_quiet (h t ht)

/-- A write of the media and then a quiet answer. -/
theorem Recorded.then {s t : State} {r : Result} (h : Recorded s t) (k : QuietAnswer t r) : RecordedAnswer s r := fun u hu =>
  h.trans (k u hu)

/-! ## Commit, StopWriting and the live abort (R142, R191) -/

theorem headFlux_setFlux_same (u : DriveUnit) (head : Bool) (f : List Int) : headFlux (u.setFlux head f) head = f := by
  cases head <;> rfl

theorem headFlux_setFlux_ne (u : DriveUnit) {side head : Bool} (h : side ≠ head) (f : List Int) :
    headFlux (u.setFlux side f) head = headFlux u head := by
  cases side <;> cases head
  · exact absurd rfl h
  · rfl
  · rfl
  · exact absurd rfl h

/-- A commit by the present instant writes the head selected on the transfer's drive, inside the open span. -/
theorem commitWrite_withinSpan {s : State} {L : LiveTransfer} (hL : s.live = some L) {t : Int} (ht : t ≤ s.now) (d : Drive)
    (head : Bool) : WithinSpan s (commitWrite L.drive t s) d head := by
  cases hstart : s.pll.writeStartTime with
  | none => exact .inl (by rw [commitWrite_of_closed hstart])
  | some w =>
    by_cases hsame : w = t
    · exact .inl (by rw [commitWrite_of_start (hsame ▸ hstart)])
    · have hunits := (congrArg State.units (commitWrite_of_later (d := L.drive) hstart hsame)).trans
        (writeFlux_units s L.drive w t s.pll.writeBuffer)
      rw [WithinSpan, fluxOn_eq_headFlux, fluxOn_eq_headFlux, hunits]
      split
      · next hattached =>
        rw [Slots.get_set]
        split
        · next hd =>
          subst hd
          by_cases hside : (s.units.get L.drive).side = head
          · refine .inr ⟨w, ⟨⟨L, hL, rfl⟩, hattached, hside, hstart⟩, fun x hx => ?_⟩
            subst hside
            rw [headFlux_setFlux_same, mem_fluxReplace]
            have houtside : ¬(w ≤ x ∧ x < t) := by omega
            exact ⟨fun h => h.elim And.left fun h => absurd h.2 houtside, fun h => .inl ⟨h, houtside⟩⟩
          · exact .inl (headFlux_setFlux_ne _ hside _)
        · exact .inl rfl
      · exact .inl rfl

theorem pllInv_commitWrite {d : Drive} {t : Int} {s : State} (h : PllInv s.pll) : PllInv (commitWrite d t s).pll := by
  unfold commitWrite
  split
  · exact h
  · split
    · exact h
    · obtain ⟨hnom, hbase, hmin, hmax, hge, hle, hphaseGe, hphaseLe⟩ := h
      exact ⟨hnom, hbase, hmin, hmax, hge, hle, hphaseGe, hphaseLe⟩

theorem stopWriting_recorded {s : State} {L : LiveTransfer} (hL : s.live = some L) {t : Int} (ht : t ≤ s.now) :
    Recorded s (stopWriting L.drive t s) := by
  refine ⟨(stopWriting_frame _ _ s).now, commitWrite_withinSpan hL ht, fun h _ => ?_⟩
  obtain ⟨hnom, hbase, hmin, hmax, hge, hle, hphaseGe, hphaseLe⟩ :=
    pllInv_commitWrite (d := L.drive) (t := t) (h (by rw [hL]; rfl))
  exact ⟨hnom, hbase, hmin, hmax, hge, hle, hphaseGe, hphaseLe⟩

theorem liveAbort_recorded (s : State) : Recorded s (liveAbort s) := by
  unfold liveAbort
  split
  · exact .refl s
  · next L hL => exact (stopWriting_recorded hL le_rfl).trans (dropLive_quiet _ _)

/-! ## The engine -/

/-- A written cell ends by the limit and changes of the PLL only its time and its buffer. -/
theorem writeBit_eq_some {p q : Pll} {b : Bool} {limit : Int} (h : writeBit p b limit = some q) :
    q.ctime ≤ limit ∧ ∃ buffer, q = { p with ctime := q.ctime, writeBuffer := buffer } := by
  have hdue : pllWriteEnd p ≤ limit := by
    by_contra hearly
    rw [writeBit_of_early (not_le.mp hearly)] at h
    cases h
  rw [writeBit_of_due hdue] at h
  cases h
  exact ⟨hdue, _, rfl⟩

section engine

variable {s : State} {L : LiveTransfer} (hL : s.live = some L)

include hL

theorem emitCell_recorded (hpos : 0 < L.bitCounter) : Recorded s (emitCell s.now L s) := by
  cases hbit : writeBit s.pll (L.shiftReg.getLsbD 15) s.now with
  | none =>
    rw [emitCell, hbit]
    exact .refl s
  | some p =>
    obtain ⟨hctime, buffer, hp⟩ := writeBit_eq_some hbit
    have hinv (h : RunningPll s) : PllInv p := by
      obtain ⟨hnom, hbase, hmin, hmax, hge, hle, hphaseGe, hphaseLe⟩ := h (by rw [hL]; rfl)
      rw [hp]
      exact ⟨hnom, hbase, hmin, hmax, hge, hle, hphaseGe, hphaseLe⟩
    by_cases hlast : L.bitCounter = 1
    · rw [emitCell_of_last hbit hlast]
      have hspan (d : Drive) (head : Bool) : WithinSpan { s with pll := p } (commitWrite L.drive p.ctime { s with pll := p })
          d head := commitWrite_withinSpan (s := { s with pll := p }) hL hctime d head
      refine ⟨(commitWrite_frame _ _ _).now, fun d head => ?_, fun h _ => pllInv_commitWrite (hinv h)⟩
      refine (hspan d head).imp id fun ⟨w, hw, hmem⟩ => ⟨w, ?_, hmem⟩
      rw [hp] at hw
      exact hw
    · rw [emitCell_of_more hbit hpos hlast]
      exact .of_quiet ⟨rfl, fun _ _ => rfl, fun h _ => hinv h⟩

theorem chooseByte_recorded (htm : L.tm ≤ s.now) : RecordedAnswer s (chooseByte L s) := by
  have hlive : s.live.isSome = true := by rw [hL]; rfl
  have hset (M : LiveTransfer) : Recorded s (s.setLive M) := .of_quiet (setLive_quiet hlive M)
  unfold chooseByte
  split
  · unfold chooseSectorData
    dsimp only
    split
    · exact .next (hset _)
    · split
      · exact .next (.of_quiet (setLive_quiet_after hlive (dataByte_part s) _))
      · split
        · exact .next (hset _)
        · exact (stopWriting_recorded hL htm).then (report_quiet _ _ _)
  · exact .next (.of_quiet (choosePreamble_quiet hlive L))
  · exact .next (.of_quiet (chooseTrackSector_quiet hlive L))
  · exact .next (hset _)
  · exact .next (.refl s)

/-- A cell read from the flux after the PLL's time. -/
theorem readCell_quiet {M : LiveTransfer} {t : State} (h : readCell s.now L s = some (M, t)) :
    Quiet s t ∧ t.live.isSome = true := by
  unfold readCell at h
  split at h
  · cases h
  · next r p hbit =>
    cases h
    have hafter : ∀ x, s.nextFlux L.drive s.pll.ctime = some x → s.pll.ctime < x := fun x hx => by
      unfold State.nextFlux at hx
      split at hx
      · exact fluxAfter_gt hx
      · cases hx
    have hlive : s.live.isSome = true := by rw [hL]; rfl
    exact ⟨⟨rfl, fun _ _ => rfl, fun hrun _ => (pllInv_nextBit (hrun hlive) hafter hbit).2⟩, hlive⟩

end engine

theorem engineStep_recorded {s : State} (hdue : dueAt s.now s.liveTimer = true) : RecordedAnswer s (engineStep s.now s) := by
  unfold engineStep
  split
  · exact .next (.refl s)
  · next L hL =>
    split
    · next hwrites =>
      split
      · next hzero =>
        refine chooseByte_recorded hL ?_
        have htimer : s.liveTimer = some L.tm := by
          rw [State.liveTimer, hL]
          show L.nextTime s.pll = _
          rw [LiveTransfer.nextTime, if_neg (by rintro hidle; rw [hidle] at hwrites; cases hwrites), if_pos hwrites,
            if_pos hzero]
        rw [htimer] at hdue
        exact of_decide_eq_true hdue
      · next hpos => exact .next (emitCell_recorded hL (Nat.pos_of_ne_zero hpos))
    · split
      · exact .next (.refl s)
      · next M t hread =>
        obtain ⟨hquiet, hlive⟩ := readCell_quiet hL hread
        exact .of_quiet (hquiet.then (afterCell_quiet hlive M))

/-! ## Index pulses, TC and the resets -/

theorem recordNotFound_recorded (d : Drive) (s : State) : Recorded s (recordNotFound d s) := by
  have hnoted (u : State) : transferPart (if u.cur.seenHeader then u else u.setSt1 .ma) = transferPart u := by
    split <;> rfl
  exact (liveAbort_recorded s).trans ((commandDone_quiet d _).after (hnoted _))

theorem onIndexSearch_recorded (d : Drive) (s : State) : RecordedAnswer s (onIndexSearch d s) :=
  .next (.ite ((recordNotFound_recorded d _).after rfl) (.of_eq rfl))

theorem onIndexTrackWrite_recorded (d : Drive) (s : State) : RecordedAnswer s (onIndexTrackWrite d s) := by
  unfold onIndexTrackWrite
  split
  · exact .next (.ite ((liveAbort_recorded s).trans (commandDone_quiet d _)) (.refl s))
  · exact .next (.refl s)

theorem onIndex_recorded (d : Drive) (s : State) : RecordedAnswer s (onIndex d s) := by
  unfold onIndex
  split
  · split
    · exact onIndexSearch_recorded d s
    · exact onIndexSearch_recorded d s
    · exact onIndexSearch_recorded d s
    · exact .of_quiet ((liveStart_quiet d _ _).after rfl)
    · exact .next (recordNotFound_recorded d s)
    · exact .next (recordNotFound_recorded d s)
    · exact .of_quiet ((liveStart_quiet d _ _).after rfl)
    · exact onIndexTrackWrite_recorded d s
    · exact .next (.refl s)
  · exact .next (.refl s)

theorem cutBeforeField_part (s : State) : transferPart (cutBeforeField s) = transferPart s := by
  unfold cutBeforeField
  split
  · split <;> rfl
  · rfl

theorem onTC_recorded (s : State) : Recorded s (onTC s) := by
  unfold onTC
  split
  · exact .refl s
  · dsimp only
    generalize hu : cutBeforeField _ = u
    have hpart : transferPart u = transferPart s := by
      rw [← hu, cutBeforeField_part]
      split <;> rfl
    have habort : Recorded s (commandDone u.cur.d (liveAbort u)) :=
      ((liveAbort_recorded u).trans (commandDone_quiet _ _)).after hpart
    split
    · exact habort
    · exact habort
    · exact .of_eq ((finishResult_part _ _).trans hpart)
    · exact .of_eq hpart

theorem softReset_recorded (s : State) : Recorded s (softReset s) := (liveAbort_recorded s).trans (.of_eq rfl)

theorem hardwareReset_recorded (s : State) : Recorded s (hardwareReset s) :=
  (liveAbort_recorded s).trans ⟨rfl, fun _ _ => rfl, fun _ h => absurd h Bool.false_ne_true⟩

/-! ## The host's writes -/

theorem QuietAnswer.finish {s : State} {r : Result} (h : QuietAnswer s r) : QuietAnswer s (finishOutputs r) := by
  cases r with
  | next t => exact .next ((h t rfl).trans (.of_eq rfl))
  | fault r => exact fun t ht => by cases ht
  | refused r => exact .refused s r

/-- A command for a drive answers like its start, or invalid (R362, R363). -/
theorem acceptForDrive_quiet (i : Instr) (d : Drive) {run : State → Result} (hrun : ∀ s, QuietAnswer s (run s))
    (s : State) : QuietAnswer s (acceptForDrive i d run s) :=
  .finish (.ite ((hrun _).after rfl) (.next (.of_eq rfl)))

theorem senseInterrupt_part (s : State) : transferPart (senseInterrupt s) = transferPart s := by
  unfold senseInterrupt
  split
  · rfl
  · unfold clearReason
    dsimp only
    split <;> rfl

theorem exec_quiet (i : Instr) (s : State) : QuietAnswer s (exec i s) := by
  cases i with
  | specify | configure | lock | senseDriveStatus => exact .next (.of_eq rfl)
  | senseInterruptStatus => exact .next (.of_eq (senseInterrupt_part (loadCommand .senseInterruptStatus s)))
  | seek | recalibrate => exact acceptForDrive_quiet _ _ (startSeek_quiet _ _) s
  | _ => exact acceptForDrive_quiet _ _ startRW_quiet s

theorem commandByte_quiet (v : Byte) (s : State) : QuietAnswer s (commandByte v s) := by
  have happend (bs : List Byte) (u : State) : QuietAnswer u (appendCommandByte bs u) := by
    unfold appendCommandByte
    split
    · exact exec_quiet _ u
    · exact .next (.of_eq rfl)
  unfold commandByte
  dsimp only
  split
  · split
    · exact .next (.of_eq rfl)
    · exact .refused s _
    · exact (happend _ _).after rfl
  · exact happend _ _

theorem hostWriteDor_recorded (v : Byte) (s : State) : Recorded s (hostWriteDor v s) := by
  have hreset (u : State) (b : Bool) : Recorded u (if b then softReset u else u) := .ite (softReset_recorded u) (.refl u)
  have harm (u : State) (b : Bool) : Quiet u (if b then armPoll u else u) := .ite (.of_eq rfl) (.refl u)
  refine .trans ?_ (harm _ _)
  exact (hreset _ _).after rfl

theorem hostWriteDsr_recorded (v : Byte) (s : State) : Recorded s (hostWriteDsr v s) := by
  have harm (u : State) (b : Bool) : Quiet u (if b then armPoll u else u) := .ite (.of_eq rfl) (.refl u)
  refine .ite (.trans ?_ (harm _ _)) (.of_eq rfl)
  exact (softReset_recorded _).after rfl

theorem hostWrite_recorded (reg : HostReg) (v : Byte) (s : State) : RecordedAnswer s (hostWrite reg v s) := by
  cases reg with
  | msr => exact .next (.refl s)
  | dsr => exact .next (hostWriteDsr_recorded v s)
  | dor => exact .next (hostWriteDor_recorded v s)
  | ccr => exact .next (.of_eq rfl)
  | extended => exact .of_quiet (.refused s _)
  | data =>
    refine .of_quiet ?_
    show QuietAnswer s (hostWriteData v s)
    unfold hostWriteData
    split
    · split
      · exact commandByte_quiet v s
      · exact .next (.ite (.of_eq (hostPush_part v s)) (.refl s))
      · exact .next (.refl s)
    · exact .next (.refl s)

/-! ## Every step -/

/-- What the outside world does, but for the flux it presents on a head itself. -/
theorem applyInput_recorded {i : Input} {s t : State} (hi : ∀ d head ts, i ≠ .flux d head ts)
    (h : applyInput i s = .next t) : Recorded s t := by
  cases i with
  | hostWrite reg v => exact hostWrite_recorded reg v s t h
  | hostRead reg => exact .of_quiet (hostRead_quiet reg s t h)
  | dmaRead => exact .of_quiet (answer_quiet (dmaRead_part s) t h)
  | dmaWrite v =>
    cases h
    exact .of_eq (dmaWrite_part v s)
  | tc level =>
    cases h
    exact .ite ((onTC_recorded _).after rfl) (.of_eq rfl)
  | index d => exact onIndex_recorded d s t h
  | hardwareReset =>
    cases h
    exact hardwareReset_recorded s
  | lines d a r z w x =>
    cases h
    exact .of_quiet (setLines_quiet d a r z w x s)
  | flux d head ts => exact absurd rfl (hi d head ts)

/-- The flux a drive presents on one head changes that head only. -/
theorem fluxOn_setFluxInput {s : State} {d e : Drive} {side head : Bool} {ts : List Int} (h : ¬(d = e ∧ side = head)) :
    fluxOn (setFluxInput d side ts s) e head = fluxOn s e head := by
  by_cases hside : side = head
  · have hd : e ≠ d := fun hd => h ⟨hd.symm, hside⟩
    rw [fluxOn_eq_headFlux, setFluxInput, State.updUnit, Slots.get_set_ne _ _ hd, fluxOn_eq_headFlux]
  · exact fluxOn_updUnit (f := fun u => u.setFlux side (fluxOfList ts)) (headFlux_setFlux_ne _ hside _) e

/-- What a piece of work may do to the media and to the PLL of a running transfer. -/
structure MediaRule (w : Work) (s t : State) : Prop where
  now : t.now = s.now
  run : RunningPll s → RunningPll t
  flux : ∀ d head, (∀ ts rest, w ≠ .input (.flux d head ts) rest) → WithinSpan s t d head

theorem MediaRule.of_recorded {w : Work} {s t : State} (h : Recorded s t) : MediaRule w s t :=
  ⟨h.now, h.run, fun d head _ => h.flux d head⟩

/-- A Drive's flux on a head, its own change, leaves the other heads alone. -/
theorem setFluxInput_media (d : Drive) (side : Bool) (ts : List Int) (rest : List Event) (s : State) :
    MediaRule (.input (.flux d side ts) rest) s (setFluxInput d side ts { s with inputs := rest }) := by
  refine ⟨rfl, id, fun e head hother => .inl (fluxOn_setFluxInput ?_)⟩
  rintro ⟨rfl, rfl⟩
  exact hother ts rest rfl

theorem doWork_media {w : Work} {s t : State} (hdue : w = .engine → dueAt s.now s.liveTimer = true)
    (h : doWork w s = .next t) : MediaRule w s t := by
  cases w with
  | engine => exact .of_recorded (engineStep_recorded (hdue rfl) t h)
  | driveTimer d => exact .of_recorded (.of_quiet (driveTimerExpiry_quiet d s t h))
  | poll =>
    cases h
    exact .of_recorded (.of_quiet (pollExpiry_quiet s))
  | nothing =>
    cases h
    exact .of_recorded (.refl s)
  | input i rest =>
    by_cases hflux : ∃ d head ts, i = .flux d head ts
    · obtain ⟨d, head, ts, rfl⟩ := hflux
      cases h
      exact setFluxInput_media d head ts rest s
    · have hother : ∀ d head ts, i ≠ .flux d head ts := fun d head ts hi => hflux ⟨d, head, ts, hi⟩
      exact .of_recorded ((applyInput_recorded hother h).after rfl)

/-- A step is one piece of work at the instant arrived at, and the lines recomputed. -/
theorem step_media {s t : State} (h : step s = .next t) : MediaRule (arrive s).work (arrive s) t := by
  unfold step at h
  cases hwork : doWork (arrive s).work (arrive s) with
  | next u =>
    rw [hwork] at h
    cases h
    obtain ⟨hnow, hrun, hflux⟩ := doWork_media work_eq_engine_iff.mp hwork
    exact ⟨hnow, hrun, hflux⟩
  | fault r => cases r
  | refused r =>
    rw [hwork] at h
    cases h

/-- Settles O57: the work of a step keeps the media's form, the PLL's bounds, and the flux outside an open span. -/
theorem mediaAndPllInvariantsKept : Obligations.MediaAndPllInvariantsKept := by
  intro s t h
  obtain ⟨hnow, hrun, hflux⟩ := step_media h
  refine ⟨fun hmedia => ?form, hrun, fun d head hinput => ?_⟩
  case form =>
    obtain ⟨u, rfl, hcalm, -⟩ := step_handled h
    exact hcalm.media hmedia
  rcases hflux d head hinput with hsame | ⟨w, hw, hmem⟩
  · refine ⟨fun _ => hsame, fun _ x _ _ => ?_⟩
    rw [hsame]
    rfl
  · refine ⟨fun hnone => absurd hw (hnone w), fun v x hv hx => ?_⟩
    have hstart : v = w := by
      obtain ⟨-, -, -, hv⟩ := hv
      obtain ⟨-, -, -, hw⟩ := hw
      exact Option.some_inj.mp (hv.symm.trans hw)
    exact hmem x (hstart ▸ hnow ▸ hx)

end Sys2Proof.Proofs
end
